-- ==== Sys2Proof/Word.lean ====
section
/-! DEFINITION. The word types of the model, under the names spec/00_scope.md rule R6 gives them:
a word is 16 bits, a dword (doubleword) 32 bits; a descriptor is two doublewords (rule R88).
Bit 0 is the least significant bit (rule R5). -/

namespace Sys2Proof

/-- A byte, the unit of address (rule R80). -/
abbrev Byte := BitVec 8

/-- A word: 16 bits (rule R6); a selector, a segment register, an I/O port number. -/
abbrev Word := BitVec 16

/-- A doubleword: 32 bits (rule R6); a memory address, EIP, a general register. -/
abbrev Dword := BitVec 32

/-- Eight raw bytes of a descriptor (rules R11 and R88). -/
abbrev Desc := BitVec 64

end Sys2Proof
end

