-- ==== Sys2Proof/Syntax.lean ====
section
/-! DEFINITION. The instructions: one constructor for each row of spec/opcode_table.json
(spec/30_encoding.md rules R132 and R138). -/

namespace Sys2Proof

/-- A general register number, in the order of rule R133 (the rm field values 000b to 111b). Its
16-bit form (AX, CX, …) is the low half of the 32-bit register (rule R138). -/
inductive GReg where
  | eax | ecx | edx | ebx | esp | ebp | esi | edi
  deriving DecidableEq, Repr

/-- An 8-bit register number, in the order of rule R133. -/
inductive Reg8 where
  | al | cl | dl | bl | ah | ch | dh | bh
  deriving DecidableEq, Repr

/-- The instructions of spec/opcode_table.json, in the table's order. The port of `IN AL, imm8` and
`OUT imm8, AL` is a port NUMBER, bounded by `WellFormed`; every other operand is the field itself. -/
inductive Instr where
  /-- `LTR r16`: 0F 00 /3, mod = 11b. -/
  | ltrR16 (rm : GReg)
  /-- `LTR m16`: 0F 00 /3, the disp32 memory form. -/
  | ltrM16 (disp : Dword)
  /-- `STR m16`: 0F 00 /1, the disp32 memory form. -/
  | strM16 (disp : Dword)
  /-- `STR r`: 0F 00 /1, mod = 11b; a 32-bit register destination. -/
  | strR (rm : GReg)
  /-- `IN AL, imm8`: E4 ib. -/
  | inAlImm8 (port : Nat)
  /-- `IN AL, DX`: EC. -/
  | inAlDx
  /-- `OUT imm8, AL`: E6 ib. -/
  | outImm8Al (port : Nat)
  /-- `OUT DX, AL`: EE. -/
  | outDxAl
  /-- `HLT`: F4. -/
  | hlt
  /-- `CPUID`: 0F A2. -/
  | cpuid
  /-- `INT 3`: CC. -/
  | int3
  /-- `LOOP rel8`: E2 cb. -/
  | loopRel8 (cb : Byte)
  /-- `MOV AL, imm8`: B0 ib. -/
  | movAlImm8 (ib : Byte)
  /-- `MOV r/m8, r8`: 88 /r, mod = 11b; `rm` is the destination, `reg` the source. -/
  | movRm8R8 (rm reg : Reg8)
  /-- `MOV EAX, imm32`: B8 id. -/
  | movEaxImm32 (id : Dword)
  /-- `MOV ECX, imm32`: B9 id. -/
  | movEcxImm32 (id : Dword)
  /-- `AND AL, imm8`: 24 ib. -/
  | andAlImm8 (ib : Byte)
  /-- `OR AL, imm8`: 0C ib. -/
  | orAlImm8 (ib : Byte)
  deriving DecidableEq, Repr

/-- The length in bytes of an instruction (rule R132's and rule R138's tables; the table's "length"). -/
def Instr.length : Instr → Nat
  | .ltrR16 _ => 3
  | .ltrM16 _ => 7
  | .strM16 _ => 7
  | .strR _ => 3
  | .inAlImm8 _ => 2
  | .inAlDx => 1
  | .outImm8Al _ => 2
  | .outDxAl => 1
  | .hlt => 1
  | .cpuid => 2
  | .int3 => 1
  | .loopRel8 _ => 2
  | .movAlImm8 _ => 2
  | .movRm8R8 _ _ => 2
  | .movEaxImm32 _ => 5
  | .movEcxImm32 _ => 5
  | .andAlImm8 _ => 2
  | .orAlImm8 _ => 2

end Sys2Proof
end

