-- ==== Sys2Proof/WellFormed.lean ====
section
/-! DEFINITION. Which terms of `Instr` are instructions the encoding can hold. -/

namespace Sys2Proof

/-- An instruction is well formed when its immediate port number fits the one byte `ib` holds
(spec/30_encoding.md rule R134). The types of the other operands leave nothing to check. -/
def Instr.WellFormed : Instr → Bool
  | .ltrR16 _ => true
  | .ltrM16 _ => true
  | .strM16 _ => true
  | .strR _ => true
  | .inAlImm8 port => decide (port < 256)
  | .inAlDx => true
  | .outImm8Al port => decide (port < 256)
  | .outDxAl => true
  | .hlt => true
  | .cpuid => true
  | .int3 => true
  | .loopRel8 _ => true
  | .movAlImm8 _ => true
  | .movRm8R8 _ _ => true
  | .movEaxImm32 _ => true
  | .movEcxImm32 _ => true
  | .andAlImm8 _ => true
  | .orAlImm8 _ => true

end Sys2Proof
end

