-- ==== Sys2Proof/Decode.lean ====
section
/-! DEFINITION. From bytes to an instruction and back (spec/30_encoding.md rules R131 to R138 and
spec/opcode_table.json). `decode` is total on every list of bytes and rejects by name. -/

namespace Sys2Proof

/-- Why a byte sequence is no instruction of this spec. -/
inductive Reject where
  /-- No row of the table selects the bytes (rule R136: `refuse(unknown-opcode)`). -/
  | unknownOpcode
  /-- A word or doubleword form of IN or OUT (E5h, E7h, EDh, EFh; rules R136 and R174); the
  immediate port where the form has one, none where the port is DX. -/
  | wideIo (port : Option Byte)
  /-- The list ends inside the instruction. -/
  | truncated
  deriving DecidableEq, Repr

/-- The register number of an rm or reg field (rule R133). -/
def GReg.ofNum (n : BitVec 3) : GReg :=
  match n.toNat with
  | 0 => .eax
  | 1 => .ecx
  | 2 => .edx
  | 3 => .ebx
  | 4 => .esp
  | 5 => .ebp
  | 6 => .esi
  | _ => .edi

/-- The field value of a general register (rule R133). -/
def GReg.num : GReg → BitVec 3
  | .eax => 0
  | .ecx => 1
  | .edx => 2
  | .ebx => 3
  | .esp => 4
  | .ebp => 5
  | .esi => 6
  | .edi => 7

/-- The 8-bit register of an rm or reg field (rule R133). -/
def Reg8.ofNum (n : BitVec 3) : Reg8 :=
  match n.toNat with
  | 0 => .al
  | 1 => .cl
  | 2 => .dl
  | 3 => .bl
  | 4 => .ah
  | 5 => .ch
  | 6 => .dh
  | _ => .bh

/-- The field value of an 8-bit register (rule R133). -/
def Reg8.num : Reg8 → BitVec 3
  | .al => 0
  | .cl => 1
  | .dl => 2
  | .bl => 3
  | .ah => 4
  | .ch => 5
  | .dh => 6
  | .bh => 7

/-- The byte of a list at a place; 0 past its end (a row is only built when the list is long enough). -/
def byteAt (bs : List Byte) (k : Nat) : Byte := bs.getD k 0

/-- The doubleword at a place of a list, little-endian (rule R131). -/
def dwordAt (bs : List Byte) (k : Nat) : Dword :=
  byteAt bs (k + 3) ++ byteAt bs (k + 2) ++ byteAt bs (k + 1) ++ byteAt bs k

/-- The four bytes of a doubleword in ascending address order (rule R131). -/
def dwordBytes (d : Dword) : List Byte :=
  [d.extractLsb' 0 8, d.extractLsb' 8 8, d.extractLsb' 16 8, d.extractLsb' 24 8]

/-- The rm field of a ModRM byte, bits 2-0 (rule R131). -/
def modrmRm (m : Byte) : BitVec 3 := m.extractLsb' 0 3

/-- The reg field of a ModRM byte, bits 5-3 (rule R131). -/
def modrmReg (m : Byte) : BitVec 3 := m.extractLsb' 3 3

/-- A ModRM byte with mod = 11b (rule R131). -/
def modrmRegister (reg rm : BitVec 3) : Byte := (3#2 ++ reg) ++ rm

/-- One row of spec/opcode_table.json: the leading bytes are selected when
`(b AND mask) = value`; `build` takes the operands from the whole instruction's bytes. -/
structure OpcodeRow where
  value  : List Byte
  mask   : List Byte
  length : Nat
  build  : List Byte → Instr

/-- The opcode table, row by row in its order, values and masks as the table prints them. -/
def opcodeTable : List OpcodeRow := [
  ⟨[0x0F, 0x00, 0xD8], [0xFF, 0xFF, 0xF8], 3, fun b => .ltrR16 (GReg.ofNum (modrmRm (byteAt b 2)))⟩,
  ⟨[0x0F, 0x00, 0x1D], [0xFF, 0xFF, 0xFF], 7, fun b => .ltrM16 (dwordAt b 3)⟩,
  ⟨[0x0F, 0x00, 0x0D], [0xFF, 0xFF, 0xFF], 7, fun b => .strM16 (dwordAt b 3)⟩,
  ⟨[0x0F, 0x00, 0xC8], [0xFF, 0xFF, 0xF8], 3, fun b => .strR (GReg.ofNum (modrmRm (byteAt b 2)))⟩,
  ⟨[0xE4], [0xFF], 2, fun b => .inAlImm8 (byteAt b 1).toNat⟩,
  ⟨[0xEC], [0xFF], 1, fun _ => .inAlDx⟩,
  ⟨[0xE6], [0xFF], 2, fun b => .outImm8Al (byteAt b 1).toNat⟩,
  ⟨[0xEE], [0xFF], 1, fun _ => .outDxAl⟩,
  ⟨[0xF4], [0xFF], 1, fun _ => .hlt⟩,
  ⟨[0x0F, 0xA2], [0xFF, 0xFF], 2, fun _ => .cpuid⟩,
  ⟨[0xCC], [0xFF], 1, fun _ => .int3⟩,
  ⟨[0xE2], [0xFF], 2, fun b => .loopRel8 (byteAt b 1)⟩,
  ⟨[0xB0], [0xFF], 2, fun b => .movAlImm8 (byteAt b 1)⟩,
  ⟨[0x88, 0xC0], [0xFF, 0xC0], 2,
    fun b => .movRm8R8 (Reg8.ofNum (modrmRm (byteAt b 1))) (Reg8.ofNum (modrmReg (byteAt b 1)))⟩,
  ⟨[0xB8], [0xFF], 5, fun b => .movEaxImm32 (dwordAt b 1)⟩,
  ⟨[0xB9], [0xFF], 5, fun b => .movEcxImm32 (dwordAt b 1)⟩,
  ⟨[0x24], [0xFF], 2, fun b => .andAlImm8 (byteAt b 1)⟩,
  ⟨[0x0C], [0xFF], 2, fun b => .orAlImm8 (byteAt b 1)⟩]

/-- Whether the bytes' leading part equals `value` under `mask`. -/
def maskMatches : (value mask bs : List Byte) → Bool
  | v :: vs, m :: ms, b :: bs => b &&& m == v && maskMatches vs ms bs
  | [], _, _ => true
  | _, _, _ => false

/-- Whether a row selects the bytes (rule R132). -/
def OpcodeRow.selects (r : OpcodeRow) (bs : List Byte) : Bool := maskMatches r.value r.mask bs

/-- Which name a byte sequence that no row selects is rejected by (rules R136 and R174). -/
def rejectReason (bs : List Byte) : Reject :=
  let b := byteAt bs 0
  if b = 0xE5 ∨ b = 0xE7 then .wideIo (some (byteAt bs 1))
  else if b = 0xED ∨ b = 0xEF then .wideIo none
  else .unknownOpcode

/-- The instruction at the head of a list of bytes, with its length, or why there is none. -/
def decode (bs : List Byte) : Except Reject (Instr × Nat) :=
  match opcodeTable.find? (fun r => r.selects bs) with
  | some r => if r.length ≤ bs.length then .ok (r.build bs, r.length) else .error .truncated
  | none => .error (rejectReason bs)

/-- The bytes of an instruction in fetch order (rules R132, R133, R138). -/
def encode : Instr → List Byte
  | .ltrR16 rm => [0x0F, 0x00, modrmRegister 3 rm.num]
  | .ltrM16 disp => [0x0F, 0x00, 0x1D] ++ dwordBytes disp
  | .strM16 disp => [0x0F, 0x00, 0x0D] ++ dwordBytes disp
  | .strR rm => [0x0F, 0x00, modrmRegister 1 rm.num]
  | .inAlImm8 port => [0xE4, BitVec.ofNat 8 port]
  | .inAlDx => [0xEC]
  | .outImm8Al port => [0xE6, BitVec.ofNat 8 port]
  | .outDxAl => [0xEE]
  | .hlt => [0xF4]
  | .cpuid => [0x0F, 0xA2]
  | .int3 => [0xCC]
  | .loopRel8 cb => [0xE2, cb]
  | .movAlImm8 ib => [0xB0, ib]
  | .movRm8R8 rm reg => [0x88, modrmRegister reg.num rm.num]
  | .movEaxImm32 id => 0xB8 :: dwordBytes id
  | .movEcxImm32 id => 0xB9 :: dwordBytes id
  | .andAlImm8 ib => [0x24, ib]
  | .orAlImm8 ib => [0x0C, ib]

/-- The longest instruction of the table, in bytes. -/
def maxInstrLength : Nat := 7

/-- The first bytes of an instruction given as one number, byte k being bits 8k+7 to 8k: `nbits`
bits of `w`, and zeros above them up to the longest instruction. -/
def tableWordBytes (nbits w : Nat) : List Byte :=
  (List.range maxInstrLength).map (fun k => BitVec.ofNat 8 (w % 2 ^ nbits / 2 ^ (8 * k)))

/-- The instruction `decode` reads from an instruction whose bits are `w` (byte k at bits 8k+7 to
8k), the bits above `nbits` being 0. -/
def decodeTableWord (nbits w : Nat) : Option Instr :=
  match decode (tableWordBytes nbits w) with
  | .ok (i, _) => some i
  | .error _ => none

end Sys2Proof
end

