-- ==== Sys2Proof/Config.lean ====
section
/-! DEFINITION. What the implementation fixes and the spec leaves open: the parameters of
spec/00_scope.md rule R4 and the free values (`draw`, rule R7).

A free value is an OPAQUE constant: it has no body, so nothing can be proved of its value and a
claim about it holds for every value. Where a fresh value is needed at each use the constant is
applied to `State.draws`, the model's own counter, which the use then advances. The task-switch function, which looks
at the whole state, is declared beside its type in Machine/TaskFunction.lean. The parameters whose
value the spec DECIDES (rule R4: RESERVED_POLICY, MAPEN_OTHER, ARR_MISALIGNED) have no constant here:
their decided treatment is the definition's own text. -/

namespace Sys2Proof

/-- The three effects spec/92_eei_decisions.md D23 names for a write to a write-protected cacheable
access (parameter `WPR1_WRITE_EFFECT`, OPEN). -/
inductive Wpr1WriteEffect where
  | dropped   -- nothing is written anywhere
  | busOnly   -- the write goes to the bus and not to the cache
  | fault     -- the access faults; which exception is not in the spec
  deriving DecidableEq, Repr, Inhabited

/-- What becomes of an interrupt request whose enabling and masking the spec does not give
(spec/60_exceptions.md rules R195 and R197). -/
inductive InterruptOutcome where
  | recognized
  | held
  | dropped
  deriving DecidableEq, Repr, Inhabited

/-- What an entry pushes on the stack it enters on, and the flags a handler starts with, which the spec does not
give (rules R143 and R198: what is pushed, where, in what widths, which flags change). What the spec does say is
saved (the return address of rule R183, the parameters of rule R143) takes room of its own besides. -/
structure EntryFrame where
  room    : Dword                      -- by how much the stack pointer drops beside the room said above
  retSlot : Dword                      -- where in the frame the return address stands
  eflags  : Dword                      -- the flags value a handler starts with (through the ID rule R63)
  saved   : List (Dword × List Byte)   -- what else is pushed: places in the frame and bytes, in order
  deriving DecidableEq, Repr, Inhabited

/-- A segment register by name (rule R64). -/
inductive SegName where
  | es | cs | ss | ds | fs | gs
  deriving DecidableEq, Repr

/-- A field of the CPU state a Task State Segment holds (rules R95 and R98). -/
inductive TaskField where
  | ip
  | flags
  | gpr (r : GReg)
  | seg (r : SegName)
  | cr3
  | ldt
  deriving DecidableEq, Repr

namespace Config

/-- DIR0, the CPU Device Identification Number (rule R53, parameter `DEVID`). -/
opaque devid : Byte

/-- DIR1 bits 7-4 (rule R54, parameter `SID`). -/
opaque sid : BitVec 4

/-- DIR1 bits 3-0 (rule R54, parameter `RID`). -/
opaque rid : BitVec 4

/-- `draw(8)` (rules R55, R166, R167). -/
opaque freeByte : Nat → Byte

/-- `draw(32)`. -/
opaque freeDword : Nat → Dword

/-- `EXT_IO`: the answer of the external bus to an I/O read cycle of a port (rule R4, D6). -/
opaque extIo : Nat → Word → Byte

/-- KEN# returned asserted for an access to an address (rule R112). -/
opaque ken : Nat → Dword → Bool

/-- WB/WT# returned high for an access to an address (rule R112). -/
opaque wbwt : Nat → Dword → Bool

/-- Whether this read of port 22h clears the pending selection: `PORT22_READ_EFFECT = either`
(rule R163, D7), a fresh choice at each read. -/
opaque port22Clears : Nat → Bool

/-- Whether the write-gather buffer is emitted before a stated condition asks for it (rule R122): drawn, while bytes wait, at the start and the end of each step, at each memory access, after the read cycle of a fetch, and before
each byte of a gathered write. -/
opaque flushEarly : Nat → Bool

/-- The LBA# pin of a cycle that is no memory access, on the number of cycles before it (rule R124; the rules that
set LBA#, R107 to R117, are about memory accesses only). -/
opaque ioLba : Nat → Bool

/-- `WPR1_WRITE_EFFECT` (rules R24, R116, D23). -/
opaque wpr1WriteEffect : Wpr1WriteEffect

/-- Under `busOnly`, whether the program's later reads see the bytes that only the bus received. -/
opaque wpr1BusVisible : Nat → Bool

/-- `RCE_IMPLIES_OUTSIDE_NONCACHEABLE`, decided true (rules R4 and R113, D12). -/
def rceImpliesOutsideNoncacheable : Bool := true

/-- `PARAM_UNIT_16`: whether the parameters of a 16-bit call gate are 4 bytes each, as Table 2-9
words it, or 2 (rules R4 and R94, D27). -/
opaque paramUnit16IsDword : Bool

/-- Linear base of the code segment a descriptor describes: the descriptor format the branch target
needs is not in the spec (rule R141). -/
opaque codeBase : Desc → Dword

/-- Privilege level of the code segment a descriptor describes (rule R204: a handler's privilege
level "is whatever the gate's target segment has"; the format is not in the spec). -/
opaque codeLevel : Desc → BitVec 2

/-- The frame of a handler or procedure entry (rules R143 and R198). -/
opaque entryFrame : Nat → EntryFrame

/-- Where in the frame on the new stack the k-th copied parameter of a call gate lands (rule R143), where no two of
the places so chosen overlap. -/
opaque callParamSlot : Nat → Nat → Dword

/-- What becomes of a request whose recognition the spec does not settle (rules R195, R197, D31). -/
opaque interruptOutcome : Nat → InterruptOutcome

/-- An NMI that arrives during SMI service with NMI_EN = 0: held (true) or dropped
(spec/93_implementation_defined.md U24). -/
opaque nmiHeld : Nat → Bool

/-- The bytes SMM entry saves into system management memory (rule R196: not in the spec). -/
opaque smmSaved : Nat → List (Dword × Byte)

end Config

end Sys2Proof
end

