-- ==== Sys2Proof/Machine/State.lean ====
section
/-! DEFINITION. The state of the machine (INVENTORY.md, '## State'), the reasons a step stops, the
small data types of the machine, and the state after reset. Every field is plain data. -/

namespace Sys2Proof.Machine

/-! ## Registers -/

/-- The eight general registers, 32 bits each (spec/10_state.md rule R61). -/
structure Gprs where
  eax : Dword
  ecx : Dword
  edx : Dword
  ebx : Dword
  esp : Dword
  ebp : Dword
  esi : Dword
  edi : Dword
  deriving DecidableEq, Repr

/-- The six segment registers (rule R64). -/
structure Segs where
  es : Word
  cs : Word
  ss : Word
  ds : Word
  fs : Word
  gs : Word
  deriving DecidableEq, Repr

/-- The value of a segment register. -/
def Segs.get (segs : Segs) : SegName → Word
  | .es => segs.es
  | .cs => segs.cs
  | .ss => segs.ss
  | .ds => segs.ds
  | .fs => segs.fs
  | .gs => segs.gs

/-- The Task Register: the selector (rule R10) and the descriptor cached at load time (rule R11). -/
structure TaskRegister where
  sel  : Word
  desc : Desc
  deriving DecidableEq, Repr

/-- Base and limit of a descriptor table, inputs of the model (rule R66). -/
structure DescTable where
  base  : Dword
  limit : Word
  deriving DecidableEq, Repr

/-- The debug registers the spec gives: four breakpoint addresses, DR6 and DR7 (rules R57 to R59). -/
structure DebugRegs where
  dr0 : Dword
  dr1 : Dword
  dr2 : Dword
  dr3 : Dword
  dr6 : Dword
  dr7 : Dword
  deriving DecidableEq, Repr

/-- The test registers, named and nothing more (rule R60). -/
structure TestRegs where
  tr3 : Dword
  tr4 : Dword
  tr5 : Dword
  tr6 : Dword
  tr7 : Dword
  deriving DecidableEq, Repr

/-- The three bytes of an Address Region Register, byte 0 at the lowest index (rule R40). -/
structure ArrReg where
  b0 : Byte
  b1 : Byte
  b2 : Byte
  deriving DecidableEq, Repr

/-- The configuration registers that can be written: CCR0 to CCR5, ARR0 to ARR7, RCR0 to RCR7
(rule R12). DIR0 and DIR1 are constants (`Config.devid`, `Config.sid`, `Config.rid`). -/
structure CfgRegs where
  ccr0 : Byte
  ccr1 : Byte
  ccr2 : Byte
  ccr3 : Byte
  ccr4 : Byte
  ccr5 : Byte
  arr0 : ArrReg
  arr1 : ArrReg
  arr2 : ArrReg
  arr3 : ArrReg
  arr4 : ArrReg
  arr5 : ArrReg
  arr6 : ArrReg
  arr7 : ArrReg
  rcr0 : Byte
  rcr1 : Byte
  rcr2 : Byte
  rcr3 : Byte
  rcr4 : Byte
  rcr5 : Byte
  rcr6 : Byte
  rcr7 : Byte
  deriving DecidableEq, Repr

/-- A byte of a configuration register, as an index names it (rule R13). -/
inductive CfgReg where
  | ccr0 | ccr1 | ccr2 | ccr3 | ccr4 | ccr5
  | arr (region : Fin 8) (byte : Fin 3)
  | rcr (region : Fin 8)
  | dir0 | dir1
  deriving DecidableEq, Repr

/-! ## Memory and the bus -/

/-- Memory: (address, byte) pairs, addresses strictly rising, no entry equal to what an unlisted
address reads as (`Memory.wf`, in Machine/Memory.lean). -/
abbrev Memory := List Host.Cell

/-- The attribute record of a memory access (spec/20_memory.md rule R106). -/
structure Attributes where
  cacheable      : Bool
  writeBack      : Bool
  gathered       : Bool
  weakLock       : Bool
  weakOrder      : Bool
  lba            : Bool
  writeProtected : Bool
  deriving DecidableEq, Repr

/-- The kinds of external cycle (rule R124). -/
inductive CycleKind where
  | memRead | memWrite | ioRead | ioWrite | intAck
  deriving DecidableEq, Repr

/-- An external bus cycle (rule R124): its kind, the memory address or the port number, the bytes, the LOCK#
pin (`lock`) and the LBA# pin (`lba`), true where asserted. `locked` is whether the cycle is executed as a locked
cycle, which it can be with LOCK# negated (rules R18, R119 and R197). `attrs` is the attribute record of a memory
access (rule R106). -/
structure BusEvent where
  kind    : CycleKind
  address : Dword
  bytes   : List Byte
  locked  : Bool
  lock    : Bool
  lba     : Bool
  attrs   : Option Attributes
  deriving DecidableEq, Repr

/-- The on-chip write buffer of write gathering (rules R71 and R122): the address of its first byte,
the bytes gathered so far, and the attributes of the write that began it. That the one cycle of several gathered
writes carries those, LBA# among them, whatever the later writes' attributes are and whatever the region registers
hold when it is emitted, is a DESIGN CHOICE: rules R106 and R122 do not say (notes/assumptions/24.md). -/
structure GatherBuffer where
  start : Dword
  bytes : List Byte
  attrs : Attributes
  deriving DecidableEq, Repr

/-! ## Descriptors -/

/-- What a gate descriptor's TYPE says it is (rule R90). -/
inductive GateKind where
  | call | task | interrupt | trap | notAGate
  deriving DecidableEq, Repr

/-- The decoded fields of a gate descriptor (rule R91); `size` is 16, 32, or none. -/
structure Gate where
  kind       : GateKind
  size       : Option Nat
  selector   : Word
  offset     : Dword
  present    : Bool
  dpl        : BitVec 2
  parameters : BitVec 5
  undoc12    : Bool
  undoc75    : BitVec 3
  deriving DecidableEq, Repr

/-- The layout of a Task State Segment (rule R100). -/
inductive TssKind where
  | tss16 | tss32
  deriving DecidableEq, Repr

/-- The descriptor tables a selector can name (rule R152). -/
inductive TableKind where
  | gdt | ldt
  deriving DecidableEq, Repr

/-! ## Events -/

/-- Why LTR or STR fails (spec/41_task_register.md rule R154). -/
inductive TrReason where
  | notProtectedMode | privilege | notInGdt | notATss
  deriving DecidableEq, Repr

/-- The events that take control away from the program (spec/60_exceptions.md rule R210).
`generalProtection` is raised by HLT, which is privileged (rule R180), at CPL other than 0 in protected
mode; the spec names no exception for that, PRESUMED (notes/assumptions/15.md). `taskFault` is the exception of a
task switch whose check fails: rule R147 leaves "every check and exception" open, and the task-switch function names
the vector (notes/assumptions/16.md). -/
inductive Event where
  | debug
  | breakpoint
  | invalidOpcode
  | generalProtection
  | trFault (reason : TrReason)
  | taskFault (vector : Byte)
  | hardwareInterrupt (vector : Byte)
  | nmi
  | smi
  deriving DecidableEq, Repr

/-- What a breakpoint condition looks at: the kind of an access (rule R211). -/
inductive AccessKind where
  | execute | read | write
  deriving DecidableEq, Repr

/-- One access to a linear address range (rule R211). -/
structure Access where
  kind    : AccessKind
  address : Dword
  bytes   : Nat
  deriving DecidableEq, Repr

/-- The causes of one debug exception (rule R191): the accesses whose breakpoint conditions occurred,
single step, and a task switch to a task whose T bit is set. -/
structure DebugCause where
  accesses   : List Access
  singleStep : Bool
  taskSwitch : Bool
  deriving DecidableEq, Repr

/-- A debug exception a task switch has left due: its causes, and whether it comes after the new task's first
instruction or before it, as the switch's function had it (rule R147 (e): open). -/
structure DueDebug where
  cause      : DebugCause
  afterFirst : Bool
  deriving DecidableEq, Repr

/-- Whether the CPU runs instructions. `raised` is the state at a `raise` (rule R198): the event has
been raised and control has not reached a handler; `ret` is the address the handler would return to. -/
inductive RunState where
  | running
  | halted
  | raised (event : Event) (ret : Dword)
  deriving DecidableEq, Repr

/-- The power state (rule R209). -/
inductive PowerState where
  | normal | suspend
  deriving DecidableEq, Repr

/-- What reaches the CPU from outside at an instruction boundary: the input pins RESET, SMI#, NMI and
SUSP# asserted (rule R70), and a hardware interrupt request with the vector its acknowledge cycle
supplies (rules R197 and R210). -/
inductive Input where
  | reset
  | smi
  | nmi
  | interrupt (vector : Byte)
  | susp
  deriving DecidableEq, Repr

/-! ## The state -/

/-- The whole state of the machine. Each field's rule and reset value stand in INVENTORY.md. -/
structure State where
  gprs       : Gprs
  segs       : Segs
  csBase     : Dword
  ldtSel     : Word
  eip        : Dword
  eflags     : Dword
  cr0        : Dword
  cr3        : Dword
  tr         : TaskRegister
  gdt        : DescTable
  ldt        : DescTable
  idt        : DescTable
  pmode      : Bool
  cpl        : BitVec 2
  inSmi      : Bool
  cfg        : CfgRegs
  cfgSel     : Option Byte
  dbg        : DebugRegs
  test       : TestRegs
  debugDue   : Option DueDebug
  runState   : RunState
  powerState : PowerState
  mem        : Memory
  smm        : Memory
  gather     : Option GatherBuffer
  events     : List BusEvent
  inputs     : List Input
  lastEvent  : Option Event
  draws      : Nat
  deriving DecidableEq, Repr

/-! ## Stops -/

/-- The faults: the machine itself stops. -/
inductive Fault where
  /-- Raised by a write to a write-protected cacheable address (CCR2.WPR1), by an instruction or by the
  processor, when `WPR1_WRITE_EFFECT` is `fault`: which exception that would be is not in the spec
  (spec/20_memory.md rule R116, D23). Safe: nothing is claimed after it. -/
  | wpr1Write
  deriving DecidableEq, Repr

/-- The refusals: the spec gives the situation no meaning. All are safe: nothing is claimed after. -/
inductive Refusal where
  /-- An instruction this model has no meaning for yet; answered by `exec` only. -/
  | notModelled (mnemonic : String)
  /-- Answered by `step` on bytes that are no row of the table (rule R136). -/
  | unknownOpcode
  /-- Answered by `step` on a word or doubleword I/O form that covers port 22h or 23h (rule R174). -/
  | wideConfigAccess
  /-- Answered by the OUT forms: a configuration write with a 1 in a reserved bit (rule R172 (a)). -/
  | reservedBitSet
  /-- Answered by the OUT forms: a CCR3 write with MAPEN 2h to Fh (rule R172 (b)). -/
  | mapenUndefined
  /-- Answered by the OUT forms: a CCR1 write that gives USE_SMI = 1 with SM3 = 0 (rule R172 (c)). -/
  | useSmiWithoutSm3
  /-- Answered at a memory access while an enabled region of nonzero size starts off its block
  boundary (spec/20_memory.md rule R104). -/
  | arrMisaligned
  /-- Answered by `step` when DR7 holds an R/Wi or LENi code 10b, "Not used" (spec/10_state.md R59). -/
  | dr7CodeNotUsed
  /-- Answered by `step` when an event has been raised and the IDT gives it no handler the spec gives
  a meaning to: no gate or a call gate (spec/93_implementation_defined.md U5, U27, U28). -/
  | noHandlerEntry
  /-- Answered by `step` when an event's entry needs the current TSS, or a new one, and there is none: TR holds no
  TSS descriptor (U13), the CPU is outside protected mode, where TR is not accessible (rule R201), or the
  selector locates no TSS descriptor in the GDT (U18). The transfers no instruction makes answer it too. -/
  | noTask
  /-- Answered by the transfers through a gate that a selector names, which no instruction makes: a gate that is
  neither a call gate nor a task gate, a call that is not admitted, a less privileged target (U5, U17, U28). -/
  | noGateTransfer
  deriving DecidableEq, Repr

/-! ## Reset -/

/-- The configuration registers after reset: all zero but CCR4.IORT = 5h
(spec/10_state.md rule R72, spec/70_reset_and_hazards.md rule R216). -/
def CfgRegs.reset : CfgRegs where
  ccr0 := 0
  ccr1 := 0
  ccr2 := 0
  ccr3 := 0
  ccr4 := 5
  ccr5 := 0
  arr0 := ⟨0, 0, 0⟩
  arr1 := ⟨0, 0, 0⟩
  arr2 := ⟨0, 0, 0⟩
  arr3 := ⟨0, 0, 0⟩
  arr4 := ⟨0, 0, 0⟩
  arr5 := ⟨0, 0, 0⟩
  arr6 := ⟨0, 0, 0⟩
  arr7 := ⟨0, 0, 0⟩
  rcr0 := 0
  rcr1 := 0
  rcr2 := 0
  rcr3 := 0
  rcr4 := 0
  rcr5 := 0
  rcr6 := 0
  rcr7 := 0

/-- The machine right after reset: the values of rule R72 where the spec gives one; elsewhere the
x86 family's, PRESUMED (notes/assumptions/2.md), and for what the family gives no value, zero. -/
def State.reset : State where
  gprs       := ⟨0, 0, 0, 0, 0, 0, 0, 0⟩
  segs       := ⟨0, 0xF000, 0, 0, 0, 0⟩
  csBase     := 0xFFFF0000
  ldtSel     := 0
  eip        := 0x0000FFF0
  eflags     := 0x00000002
  cr0        := 0x60000010
  cr3        := 0
  tr         := ⟨0, 0⟩
  gdt        := ⟨0, 0xFFFF⟩
  ldt        := ⟨0, 0xFFFF⟩
  idt        := ⟨0, 0x03FF⟩
  pmode      := false
  cpl        := 0
  inSmi      := false
  cfg        := CfgRegs.reset
  cfgSel     := none
  dbg        := ⟨0, 0, 0, 0, 0xFFFF0FF0, 0x00000400⟩
  test       := ⟨0, 0, 0, 0, 0⟩
  debugDue   := none
  runState   := .running
  powerState := .normal
  mem        := []
  smm        := []
  gather     := none
  events     := []
  inputs     := []
  lastEvent  := none
  draws      := 0

end Sys2Proof.Machine
end

