-- ==== Sys2Proof/Machine/Regions.lean ====
section
/-! DEFINITION. The fields of the configuration registers (spec/10_state.md sections 3 to 10) and the
address regions with the attributes they give a memory access (spec/20_memory.md section 4). -/

namespace Sys2Proof.Machine

namespace CfgRegs

/-! ## Fields of CCR0 to CCR5 -/

/-- CCR0.NC1 (rule R14). -/
def nc1 (c : CfgRegs) : Bool := c.ccr0.getLsbD 1
/-- CCR1.USE_SMI (rule R16). -/
def useSmi (c : CfgRegs) : Bool := c.ccr1.getLsbD 1
/-- CCR1.SMAC (rule R17). -/
def smac (c : CfgRegs) : Bool := c.ccr1.getLsbD 2
/-- CCR1.NO_LOCK (rule R18). -/
def noLock (c : CfgRegs) : Bool := c.ccr1.getLsbD 4
/-- CCR1.SM3 (rule R19). -/
def sm3 (c : CfgRegs) : Bool := c.ccr1.getLsbD 7
/-- CCR2.SADS (rule R21): timing only. -/
def sads (c : CfgRegs) : Bool := c.ccr2.getLsbD 1
/-- CCR2.LOCK_NW (rule R22). -/
def lockNw (c : CfgRegs) : Bool := c.ccr2.getLsbD 2
/-- CCR2.SUSP_HLT (rule R23). -/
def suspHlt (c : CfgRegs) : Bool := c.ccr2.getLsbD 3
/-- CCR2.WPR1 (rule R24). -/
def wpr1 (c : CfgRegs) : Bool := c.ccr2.getLsbD 4
/-- CCR2.USE_SUSP (rule R25). -/
def useSusp (c : CfgRegs) : Bool := c.ccr2.getLsbD 7
/-- CCR3.SMI_LOCK (rule R27). -/
def smiLock (c : CfgRegs) : Bool := c.ccr3.getLsbD 0
/-- CCR3.NMI_EN (rule R28). -/
def nmiEn (c : CfgRegs) : Bool := c.ccr3.getLsbD 1
/-- CCR3.LINBRST (rule R29): bus behaviour only. -/
def linbrst (c : CfgRegs) : Bool := c.ccr3.getLsbD 2
/-- CCR3.MAPEN (rules R26 and R30). -/
def mapen (c : CfgRegs) : BitVec 4 := c.ccr3.extractLsb' 4 4
/-- CCR4.IORT (rule R32). -/
def iort (c : CfgRegs) : BitVec 3 := c.ccr4.extractLsb' 0 3
/-- CCR4.DTE_EN (rule R33): hidden state only. -/
def dteEn (c : CfgRegs) : Bool := c.ccr4.getLsbD 4
/-- CCR4.CPUID (rule R34). -/
def cpuidEnabled (c : CfgRegs) : Bool := c.ccr4.getLsbD 7
/-- CCR5.WT_ALLOC (rule R36): cache behaviour only. -/
def wtAlloc (c : CfgRegs) : Bool := c.ccr5.getLsbD 0
/-- CCR5.SLOP (rule R37): timing only. -/
def slop (c : CfgRegs) : Bool := c.ccr5.getLsbD 1
/-- CCR5.LBR1 (rule R38). -/
def lbr1 (c : CfgRegs) : Bool := c.ccr5.getLsbD 4
/-- CCR5.ARREN (rule R39). -/
def arren (c : CfgRegs) : Bool := c.ccr5.getLsbD 5

/-- The minimum number of bus clocks between I/O accesses an IORT code specifies; none is "no delay"
(rules R32 and R229). No step reads it. -/
def iortClocks (code : BitVec 3) : Option Nat := if code = 7 then none else some (2 ^ code.toNat)

/-! ## ARR and RCR by number -/

/-- ARRi (rule R40). -/
def arr (c : CfgRegs) (i : Fin 8) : ArrReg :=
  match i with
  | 0 => c.arr0
  | 1 => c.arr1
  | 2 => c.arr2
  | 3 => c.arr3
  | 4 => c.arr4
  | 5 => c.arr5
  | 6 => c.arr6
  | 7 => c.arr7

/-- The registers with ARRi replaced. -/
def setArr (c : CfgRegs) (i : Fin 8) (v : ArrReg) : CfgRegs :=
  match i with
  | 0 => { c with arr0 := v }
  | 1 => { c with arr1 := v }
  | 2 => { c with arr2 := v }
  | 3 => { c with arr3 := v }
  | 4 => { c with arr4 := v }
  | 5 => { c with arr5 := v }
  | 6 => { c with arr6 := v }
  | 7 => { c with arr7 := v }

/-- RCRi (rule R45). -/
def rcr (c : CfgRegs) (i : Fin 8) : Byte :=
  match i with
  | 0 => c.rcr0
  | 1 => c.rcr1
  | 2 => c.rcr2
  | 3 => c.rcr3
  | 4 => c.rcr4
  | 5 => c.rcr5
  | 6 => c.rcr6
  | 7 => c.rcr7

/-- The registers with RCRi replaced. -/
def setRcr (c : CfgRegs) (i : Fin 8) (v : Byte) : CfgRegs :=
  match i with
  | 0 => { c with rcr0 := v }
  | 1 => { c with rcr1 := v }
  | 2 => { c with rcr2 := v }
  | 3 => { c with rcr3 := v }
  | 4 => { c with rcr4 := v }
  | 5 => { c with rcr5 := v }
  | 6 => { c with rcr6 := v }
  | 7 => { c with rcr7 := v }

/-! ## Address regions (rules R43, R104, R105) -/

/-- The region numbers. -/
def regions : List (Fin 8) := [0, 1, 2, 3, 4, 5, 6, 7]

/-- `start(i)`: the START ADDRESS field as a 32-bit address (rule R43). -/
def start (c : CfgRegs) (i : Fin 8) : Dword :=
  (((c.arr i).b0 ++ (c.arr i).b1) ++ (c.arr i).b2.extractLsb' 4 4) ++ 0#12

/-- `size(i)`: the SIZE field (rule R43). -/
def size (c : CfgRegs) (i : Fin 8) : BitVec 4 := (c.arr i).b2.extractLsb' 0 4

/-- `log2block(i)` of a nonzero SIZE code (rule R43). -/
def log2block (i : Fin 8) (sz : BitVec 4) : Nat :=
  if i ≤ 6 then (if sz = 0xF then 32 else 11 + sz.toNat) else 17 + sz.toNat

/-- `blockbytes(i)`: up to 2^32, a 33-bit quantity (rule R43). -/
def blockBytes (c : CfgRegs) (i : Fin 8) : Nat := 2 ^ log2block i (c.size i)

/-- `blockbytes(i) - 1` as a 32-bit mask: the offset bits inside the block. -/
def offsetMask (c : CfgRegs) (i : Fin 8) : Dword := BitVec.ofNat 32 (c.blockBytes i - 1)

/-- `arr_enabled(i)` (rule R39). -/
def arrEnabled (c : CfgRegs) (i : Fin 8) : Bool := c.arren || (decide (i = 3) && c.sm3)

/-- `aligned(i)`: the start address is on a block size boundary (rule R104). -/
def aligned (c : CfgRegs) (i : Fin 8) : Bool := c.start i &&& c.offsetMask i == 0

/-- Whether region i is in force: enabled and of nonzero size (rules R39 and R42). -/
def inForce (c : CfgRegs) (i : Fin 8) : Bool := c.arrEnabled i && c.size i != 0

/-- No region in force is off its block boundary: the condition under which attributes are computed
at all (rule R104, D11). -/
def regionsAligned (c : CfgRegs) : Bool := regions.all (fun i => !c.inForce i || c.aligned i)

/-- `in_region(i, a)` (rule R105). -/
def inRegion (c : CfgRegs) (i : Fin 8) (a : Dword) : Bool :=
  c.inForce i && c.aligned i && a &&& ~~~ (c.offsetMask i) == c.start i

/-- `in_fixed(a)`: 640 KByte to 1 MByte (rule R105). -/
def inFixed (a : Dword) : Bool := decide (0xA0000 ≤ a.toNat) && decide (a.toNat ≤ 0xFFFFF)

/-- `M(a)`: the regions that contain an address (rule R105). -/
def regionsOf (c : CfgRegs) (a : Dword) : List (Fin 8) := regions.filter (fun i => c.inRegion i a)

/-! ## Region-level attributes (rule R110) -/

/-- Whether RCRi makes region i non-cacheable: RCD = 1 for regions 0 to 6, RCE = 0 for region 7
(rules R46, R47, R108). -/
def rcrNoncache (c : CfgRegs) (i : Fin 8) : Bool :=
  if i = 7 then !(c.rcr i).getLsbD 0 else (c.rcr i).getLsbD 0

/-- `reg_noncache(a)`. -/
def regNoncache (c : CfgRegs) (a : Dword) : Bool := (c.regionsOf a).any c.rcrNoncache

/-- `reg_wt(a)`: WT, bit 4, of any containing region. -/
def regWt (c : CfgRegs) (a : Dword) : Bool := (c.regionsOf a).any (fun i => (c.rcr i).getLsbD 4)

/-- A permissive attribute bit of rule R110: held by every containing region, and false outside every
region. -/
def grantedByAll (c : CfgRegs) (bit : Nat) (a : Dword) : Bool :=
  !(c.regionsOf a).isEmpty && (c.regionsOf a).all (fun i => (c.rcr i).getLsbD bit)

/-- `reg_wwo(a)`: WWO, bit 1 (rule R48). -/
def regWwo (c : CfgRegs) (a : Dword) : Bool := c.grantedByAll 1 a
/-- `reg_wl(a)`: WL, bit 2 (rule R49). -/
def regWl (c : CfgRegs) (a : Dword) : Bool := c.grantedByAll 2 a
/-- `reg_wg(a)`: WG, bit 3 (rule R50). -/
def regWg (c : CfgRegs) (a : Dword) : Bool := c.grantedByAll 3 a
/-- `reg_nlb(a)`: NLB, bit 5 (rule R52). -/
def regNlb (c : CfgRegs) (a : Dword) : Bool := c.grantedByAll 5 a

/-! ## The attributes of an access (rules R111 to R120) -/

/-- `rce_active` (rule R113). -/
def rceActive (c : CfgRegs) : Bool := c.inForce 7 && (c.rcr 7).getLsbD 0

/-- `cacheable(a)`, given the KEN# pin (rules R113 and R115). -/
def cacheable (c : CfgRegs) (ken : Bool) (a : Dword) : Bool :=
  !c.regNoncache a
    && !(c.nc1 && inFixed a)
    && !(Config.rceImpliesOutsideNoncacheable && c.rceActive && !c.inRegion 7 a)
    && ken

/-- `write_back(a)`, given the KEN# and WB/WT# pins (rule R114). -/
def writeBack (c : CfgRegs) (ken wbwt : Bool) (a : Dword) : Bool :=
  c.cacheable ken a && !c.regWt a && wbwt

/-- `write_protected(a)` (rule R116). -/
def writeProtected (c : CfgRegs) (ken : Bool) (a : Dword) : Bool :=
  c.wpr1 && inFixed a && c.cacheable ken a

/-- `lba(a)` (rule R117). -/
def lba (c : CfgRegs) (a : Dword) : Bool := !c.regNlb a || (c.lbr1 && inFixed a)

/-- `weak_lock(a)` (rule R119). -/
def weakLock (c : CfgRegs) (a : Dword) : Bool := c.noLock || c.regWl a

/-- `weak_order(a)` (rule R120). The extension to previously cached addresses with CR0.CD = 1 needs no
clause: no attribute reads CD (rule R113). -/
def weakOrder (c : CfgRegs) (ken wbwt : Bool) (a : Dword) : Bool :=
  c.regWwo a && c.writeBack ken wbwt a

/-- The attribute record of an access (rule R106). -/
def attributes (c : CfgRegs) (ken wbwt : Bool) (a : Dword) : Attributes where
  cacheable := c.cacheable ken a
  writeBack := c.writeBack ken wbwt a
  gathered := c.regWg a
  weakLock := c.weakLock a
  weakOrder := c.weakOrder ken wbwt a
  lba := c.lba a
  writeProtected := c.writeProtected ken a

end CfgRegs

end Sys2Proof.Machine
end

