-- ==== Sys2Proof/Machine/Flags.lean ====
section
/-! DEFINITION. The flags and control bits the spec names (spec/10_state.md rules R63 and R65) and the
writes that a configuration bit guards. -/

namespace Sys2Proof.Machine

/-- EFLAGS.TF, bit 8 (rule R63). -/
def State.tf (s : State) : Bool := s.eflags.getLsbD 8

/-- EFLAGS.ID, bit 21 (rule R63). -/
def State.idFlag (s : State) : Bool := s.eflags.getLsbD 21

/-- EFLAGS.ID as a mask. -/
def idMask : Dword := 0x00200000

/-- `new` with the bits of `mask` taken from `old`. -/
def keepBits (mask old new : Dword) : Dword := (new &&& ~~~ mask) ||| (old &&& mask)

/-- A write of EFLAGS: while CCR4.CPUID = 0 the ID bit keeps its old value (rules R34 and R63). -/
def State.setEflags (v : Dword) (s : State) : State :=
  { s with eflags := if s.cfg.cpuidEnabled then v else keepBits idMask s.eflags v }

/-- CR0.NW, bit 29 (rule R65). -/
def State.nw (s : State) : Bool := s.cr0.getLsbD 29

/-- CR0.CD, bit 30 (rule R65). -/
def State.cd (s : State) : Bool := s.cr0.getLsbD 30

/-- CR0.NW as a mask. -/
def nwMask : Dword := 0x20000000

/-- A write of CR0 by whatever means: while CCR2.LOCK_NW = 1 the NW bit keeps its old value
(rule R22). -/
def State.setCr0 (v : Dword) (s : State) : State :=
  { s with cr0 := if s.cfg.lockNw then keepBits nwMask s.cr0 v else v }

/-- The arithmetic flags of EFLAGS (CF, PF, AF, ZF, SF, OF: bits 0, 2, 4, 6, 7, 11). PRESUMED: the
spec names no arithmetic flag (notes/assumptions/6.md). -/
def arithMask : Dword := 0x000008D5

/-- The arithmetic flags written with values the spec does not give (rule R138: "arithmetic flags
written"): a free value in each of them, every other bit kept. -/
def State.writeArithFlags (s : State) : State :=
  { s with
    eflags := keepBits arithMask (Config.freeDword s.draws) s.eflags
    draws := s.draws + 1 }

end Sys2Proof.Machine
end

