-- ==== Sys2Proof/Machine/Memory.lean ====
section
/-! DEFINITION. The two byte maps of the machine, main memory and system management memory, as sorted
lists in one canonical form (spec/20_memory.md rules R80 and R83). -/

namespace Sys2Proof.Machine

/-- What a byte that nothing has written reads as: 00h, DESIGN CHOICE (notes/assumptions/3.md). -/
def unlistedByte (_ : Nat) : Byte := 0

/-- The byte at an address. -/
def Memory.read : Memory → Nat → Byte
  | [], a => unlistedByte a
  | (a', b) :: m, a => if a = a' then b else Memory.read m a

/-- `m` without an entry for `a`. -/
def Memory.erase (m : Memory) (a : Nat) : Memory := m.filter (fun c => decide (c.1 ≠ a))

/-- `m` with an entry for `a`, which it has none of, in its place by address. -/
def Memory.insert : Memory → Nat → Byte → Memory
  | [], a, b => [(a, b)]
  | (a', b') :: m, a, b => if a < a' then (a, b) :: (a', b') :: m else (a', b') :: Memory.insert m a b

/-- `m` with the byte at `a` set, in canonical form: writing what an unlisted address reads as leaves no
entry. -/
def Memory.write (m : Memory) (a : Nat) (b : Byte) : Memory :=
  if b = unlistedByte a then m.erase a else (m.erase a).insert a b

/-- Addresses strictly rising from `lo` and below 2^32, no entry equal to what its address would read
as if unlisted. -/
def Memory.wfFrom (lo : Nat) : Memory → Bool
  | [] => true
  | (a, b) :: m =>
    decide (lo ≤ a) && decide (a < 0x100000000) && decide (b ≠ unlistedByte a) && Memory.wfFrom (a + 1) m

/-- The canonical form of a memory. -/
def Memory.wf (m : Memory) : Bool := Memory.wfFrom 0 m

end Sys2Proof.Machine
end

