-- ==== Sys2Proof/Machine/Bus.lean ====
section
/-! DEFINITION. Reads and writes of memory and the external bus cycles they make: routing to system
management memory, byte order, attributes, locking, write gathering, write protection
(spec/20_memory.md sections 1, 4 and 5). -/

namespace Sys2Proof.Machine

/-! ## Which byte map an access reaches (rule R83) -/

/-- Whether an access to physical address `a` reaches system management memory (rule R83). Every read and write asks it
of each byte's own address, so that an access across an edge of region 3 has bytes in both memories: the rule speaks of
an access to one address, DESIGN CHOICE (notes/assumptions/39.md). -/
def State.smmRouted (s : State) (a : Dword) : Bool :=
  s.cfg.sm3 && s.cfg.inRegion 3 a && (s.cfg.smac || s.inSmi)

/-- The byte an access to `a` reads. -/
def State.readByte (s : State) (a : Dword) : Byte :=
  if s.smmRouted a then s.smm.read a.toNat else s.mem.read a.toNat

/-- The state after a byte is written to `a`. -/
def State.writeByte (a : Dword) (b : Byte) (s : State) : State :=
  if s.smmRouted a then { s with smm := s.smm.write a.toNat b }
  else { s with mem := s.mem.write a.toNat b }

/-! ## `MemRead` and `MemWrite` (rules R7, R84, R85): little-endian, no alignment, addresses mod 2^32 -/

/-- The `n` bytes from `a` upwards. -/
def State.readBytes (s : State) (a : Dword) : Nat → List Byte
  | 0 => []
  | n + 1 => s.readByte a :: s.readBytes (a + 1) n

/-- `MemRead(a, 2)`. -/
def State.readWord (s : State) (a : Dword) : Word := s.readByte (a + 1) ++ s.readByte a

/-- `MemRead(a, 4)`. -/
def State.readDword (s : State) (a : Dword) : Dword := s.readWord (a + 2) ++ s.readWord a

/-- `MemRead(a, 8)`. -/
def State.readQword (s : State) (a : Dword) : Desc := s.readDword (a + 4) ++ s.readDword a

/-- The state after bytes are written from `a` upwards. -/
def State.writeBytes (a : Dword) : List Byte → State → State
  | [], s => s
  | b :: bs, s => State.writeBytes (a + 1) bs (s.writeByte a b)

/-- The two bytes of a word in ascending address order (rule R84). -/
def wordBytes (w : Word) : List Byte := [w.extractLsb' 0 8, w.extractLsb' 8 8]

/-! ## Bus cycles (rules R119, R122, R124) -/

/-- The attributes of an access to `a`, with the KEN# and WB/WT# pins drawn for it (rules R106, R112). -/
def State.attributesAt (s : State) (a : Dword) : Attributes :=
  s.cfg.attributes (Config.ken s.draws a) (Config.wbwt s.draws a) a

/-- The LOCK# pin of a cycle (rule R119): a page table access has it asserted always (`exempt`), a locked cycle
unless locking is weak. -/
def lockAsserted (exempt lockedCycle weakLock : Bool) : Bool := exempt || (lockedCycle && !weakLock)

/-- A memory cycle. The spec names no instruction that makes locked cycles (rule R119, N30). -/
def memCycle (kind : CycleKind) (a : Dword) (bs : List Byte) (at' : Attributes) : BusEvent where
  kind := kind
  address := a
  bytes := bs
  locked := false
  lock := lockAsserted false false at'.weakLock
  lba := at'.lba
  attrs := some at'

/-- An external I/O cycle of one byte at a port, `n` cycles having been recorded before it. -/
def ioCycle (kind : CycleKind) (port : Word) (v : Byte) (n : Nat) : BusEvent where
  kind := kind
  address := port.zeroExtend 32
  bytes := [v]
  locked := false
  lock := lockAsserted false false false
  lba := Config.ioLba n
  attrs := none

/-- The address an interrupt acknowledge cycle is recorded at, which the spec does not give (DESIGN CHOICE,
notes/assumptions/23.md). -/
def intAckAddress : Dword := 0

/-- The interrupt acknowledge cycle that supplies a vector (rules R18, R119, R197): executed as a locked cycle
whatever NO_LOCK and WL hold, "even though LOCK# is negated" where one of them weakens locking. It is recorded, and
its LOCK# pin computed, also while a region in force is off its boundary, that region then holding no address: rule R104
gives the attributes of no access there, DESIGN CHOICE (notes/assumptions/22.md). -/
def State.intAckCycle (s : State) (vector : Byte) : BusEvent where
  kind := .intAck
  address := intAckAddress
  bytes := [vector]
  locked := true
  lock := lockAsserted false true (s.cfg.weakLock intAckAddress)
  lba := Config.ioLba s.events.length
  attrs := none

/-- The draw counter advanced: a use of a free value has been made. -/
def State.draw (s : State) : State := { s with draws := s.draws + 1 }

/-- The state with an external cycle recorded last. -/
def State.emit (e : BusEvent) (s : State) : State := { s with events := s.events ++ [e] }

/-- The write-gather buffer emitted as one external write cycle, if it holds anything (rule R122). -/
def State.flushGather (s : State) : State :=
  match s.gather with
  | none => s
  | some g => { s with
      events := s.events ++ [memCycle .memWrite g.start g.bytes g.attrs]
      gather := none }

/-- The address that continues the buffer: right after its last byte. -/
def GatherBuffer.next (g : GatherBuffer) : Dword := g.start + BitVec.ofNat 32 g.bytes.length

/-- Whether a written byte at `a` continues the buffer inside its aligned 8-byte window (rule R122). -/
def GatherBuffer.continuedBy (g : GatherBuffer) (a : Dword) : Bool :=
  decide (a = g.next) && decide (a >>> 3 = g.start >>> 3)

/-- Whether an access at `a` is to a non-sequential location: neither a buffered byte nor the one that
continues the buffer (rule R122 (i); no flush is stated for reads of the buffered bytes). -/
def GatherBuffer.nonSequential (g : GatherBuffer) (a : Dword) : Bool :=
  decide (g.bytes.length < (a - g.start).toNat)

/-- The buffer emitted if it is full: eight bytes (rule R122 (ii)). -/
def State.flushIfFull (s : State) : State :=
  match s.gather with
  | none => s
  | some g => if 8 ≤ g.bytes.length then s.flushGather else s

/-- One written byte goes to the write-gather buffer (rule R122). The buffer keeps the attributes of the write that
began it, and the later write's are dropped: which of them the one cycle carries is not in the spec (rules R106 and
R122), DESIGN CHOICE (notes/assumptions/24.md). -/
def State.gatherByte (at' : Attributes) (a : Dword) (b : Byte) (s : State) : State :=
  match s.gather with
  | none => { s with gather := some ⟨a, [b], at'⟩ }
  | some g =>
    if g.continuedBy a then State.flushIfFull { s with gather := some { g with bytes := g.bytes ++ [b] } }
    else { s.flushGather with gather := some ⟨a, [b], at'⟩ }

/-- The write-gather buffer emitted before a stated condition asks for it, or not: "at any earlier time"
(rule R122), a free choice wherever this stands and bytes wait. -/
def State.emitEarly (s : State) : State :=
  match s.gather with
  | none => s
  | some _ => State.draw (if Config.flushEarly s.draws then s.flushGather else s)

/-- The bytes of a gathered write, one after another; before each of them what waits may leave early, so that a cycle
can come between two bytes of one write. -/
def State.gatherBytes (at' : Attributes) (a : Dword) : List Byte → State → State
  | [], s => s
  | b :: bs, s => State.gatherBytes at' (a + 1) bs (s.emitEarly.gatherByte at' a b)

/-- A non-writing access at `a` empties the buffer when it is non-sequential (rule R122 (i)). Whether an access of
several bytes is, which the rule does not say, is judged on its first address alone: DESIGN CHOICE
(notes/assumptions/24.md). -/
def State.noteAccess (a : Dword) (s : State) : State :=
  match s.gather with
  | none => s
  | some g => if g.nonSequential a then s.flushGather else s.emitEarly

/-- The external side of a write: gathered, or one external cycle after the buffer's (rules R121 (a),
R122, R124). -/
def State.writeCycle (a : Dword) (bs : List Byte) (s : State) : State :=
  let at' := s.attributesAt a
  if at'.gathered then s.draw.gatherBytes at' a bs
  else s.draw.flushGather.emit (memCycle .memWrite a bs at')

/-- A write of bytes at `a` that is not protected: the program's own view at once (rule R121 (c)), and the
cycle. -/
def State.plainWrite (a : Dword) (bs : List Byte) (s : State) : State :=
  (s.writeBytes a bs).writeCycle a bs

/-- Whether a write of `n` bytes at `a` touches a write-protected byte (rule R116). One write has one KEN# (rule
R112). That a write with a protected and an unprotected byte is protected as a whole is a DESIGN CHOICE
(notes/assumptions/9.md). -/
def State.storeProtected (s : State) (a : Dword) (n : Nat) : Bool :=
  let ken := Config.ken s.draws a
  s.cfg.wpr1 && (List.range n).any (fun k => s.cfg.writeProtected ken (a + BitVec.ofNat 32 k))

/-- A write to a write-protected address: the parameter `WPR1_WRITE_EFFECT` (rule R116, D23). One that is dropped never
reaches the write-gather buffer and counts for it as an access that is no write: by its first address alone, so that one
at a waiting byte, or at the one that would come next, need not empty it. How it counts is not in the spec: DESIGN
CHOICE (notes/assumptions/9.md). -/
def State.protectedStore (a : Dword) (bs : List Byte) (s : State) : Host.Outcome State Fault Refusal :=
  match Config.wpr1WriteEffect with
  | .dropped => .next (s.draw.noteAccess a)
  | .busOnly =>
    .next (State.writeCycle a bs (if Config.wpr1BusVisible s.draws then s.writeBytes a bs else s))
  | .fault => .fault .wpr1Write

/-- A write of bytes at `a` by the CPU, an instruction's store or the processor's own: the WPR1 effect where any
cacheable access is protected (rules R24 and R116), the plain write otherwise. -/
def State.busWrite (a : Dword) (bs : List Byte) (s : State) : Host.Outcome State Fault Refusal :=
  if s.storeProtected a bs.length then s.protectedStore a bs else .next (s.plainWrite a bs)

/-- What follows a next state. -/
def andThen (o : Host.Outcome State Fault Refusal) (f : State → Host.Outcome State Fault Refusal) :
    Host.Outcome State Fault Refusal :=
  match o with
  | .next t => f t
  | .fault why => .fault why
  | .refused why => .refused why

/-- Several writes in order. -/
def State.busWrites : List (Dword × List Byte) → State → Host.Outcome State Fault Refusal
  | [], s => .next s
  | w :: ws, s => andThen (s.busWrite w.1 w.2) (State.busWrites ws)

/-- The bus side of a data read of `n` bytes at `a`: the buffer, and one external cycle (rule R124). Reads are
recorded in program order; only a gathered write still waiting can stand after a later read. The spec does not give
the order of reads (rule R121): DESIGN CHOICE (notes/assumptions/36.md). Where the read covers bytes that still wait in
the write-gather buffer, the cycle carries the program's new bytes, the byte maps', before they have left the chip: the
spec gives only what the program sees (D29), DESIGN CHOICE (notes/assumptions/24.md). -/
def State.readCycle (a : Dword) (n : Nat) (s : State) : State :=
  State.emit (memCycle .memRead a (s.readBytes a n) (s.attributesAt a)) (s.draw.noteAccess a)

/-- Whether every access to `a` leaves the chip: non-cacheable even with KEN# returned asserted (rules R107, R113
and R115). -/
def State.alwaysExternal (s : State) (a : Dword) : Bool := !s.cfg.cacheable true a

/-- The bus side of a read by the processor itself, of a descriptor, a TSS field or a parameter (rule R86): an
external cycle where no cache can hold the address, none elsewhere (notes/assumptions/21.md). -/
def State.cpuRead (a : Dword) (n : Nat) (s : State) : State :=
  if s.alwaysExternal a then s.readCycle a n else s.noteAccess a

/-- Several reads by the processor in order. -/
def State.cpuReads (rs : List (Dword × Nat)) (s : State) : State := rs.foldl (fun t r => t.cpuRead r.1 r.2) s

/-- A store of bytes at `a` by an instruction: refused while a region in force is off its boundary
(rule R104), the CPU's write otherwise. -/
def State.store (a : Dword) (bs : List Byte) (s : State) : Host.Outcome State Fault Refusal :=
  if s.cfg.regionsAligned then s.busWrite a bs else .refused .arrMisaligned

end Sys2Proof.Machine
end

