-- ==== Sys2Proof/Machine/ConfigPort.lean ====
section
/-! DEFINITION. The configuration registers behind I/O ports 22h and 23h
(spec/42_config_register_access.md) and byte I/O to every other port. -/

namespace Sys2Proof.Machine

/-! ## Indexes (spec/10_state.md rules R13 and R41; rule R161) -/

/-- The register byte an index names, where one is assigned (rule R13: 40 indexes). -/
def cfgRegOf (idx : Byte) : Option CfgReg :=
  let n := idx.toNat
  if n = 0xC0 then some .ccr0
  else if n = 0xC1 then some .ccr1
  else if n = 0xC2 then some .ccr2
  else if n = 0xC3 then some .ccr3
  else if 0xC4 ≤ n ∧ n ≤ 0xDB then some (.arr (Fin.ofNat 8 ((n - 0xC4) / 3)) (Fin.ofNat 3 ((n - 0xC4) % 3)))
  else if 0xDC ≤ n ∧ n ≤ 0xE3 then some (.rcr (Fin.ofNat 8 (n - 0xDC)))
  else if n = 0xE8 then some .ccr4
  else if n = 0xE9 then some .ccr5
  else if n = 0xFE then some .dir0
  else if n = 0xFF then some .dir1
  else none

/-- `always(idx)`: C0h to CFh, FEh, FFh (rule R161). -/
def alwaysAccessible (idx : Byte) : Bool :=
  (decide (0xC0 ≤ idx.toNat) && decide (idx.toNat ≤ 0xCF)) || idx == 0xFE || idx == 0xFF

/-- `accessible(idx)`: always, or MAPEN = 1h (rule R161). -/
def CfgRegs.accessible (c : CfgRegs) (idx : Byte) : Bool := alwaysAccessible idx || c.mapen == 1

/-- The reserved bit positions of a register byte (rules R55 and R167). -/
def CfgReg.resmask : CfgReg → Byte
  | .ccr0 => 0xFD
  | .ccr1 => 0x69
  | .ccr2 => 0x61
  | .ccr3 => 0x08
  | .ccr4 => 0x68
  | .ccr5 => 0xCC
  | .arr _ _ => 0x00
  | .rcr _ => 0xC0
  | .dir0 => 0x00
  | .dir1 => 0x00

/-! ## Reading and writing a register byte -/

/-- One byte of an ARR. -/
def ArrReg.get (r : ArrReg) (k : Fin 3) : Byte :=
  match k with
  | 0 => r.b0
  | 1 => r.b1
  | 2 => r.b2

/-- An ARR with one byte replaced. -/
def ArrReg.set (r : ArrReg) (k : Fin 3) (v : Byte) : ArrReg :=
  match k with
  | 0 => { r with b0 := v }
  | 1 => { r with b1 := v }
  | 2 => { r with b2 := v }

/-- `cfg[idx]`, with DIR0 and DIR1 at their identification values (rules R53, R54, R167). -/
def CfgRegs.read (c : CfgRegs) : CfgReg → Byte
  | .ccr0 => c.ccr0
  | .ccr1 => c.ccr1
  | .ccr2 => c.ccr2
  | .ccr3 => c.ccr3
  | .ccr4 => c.ccr4
  | .ccr5 => c.ccr5
  | .arr i k => (c.arr i).get k
  | .rcr i => c.rcr i
  | .dir0 => Config.devid
  | .dir1 => Config.sid ++ Config.rid

/-- `cfg[idx] <- v`; DIR0 and DIR1 do not change (rule R171). -/
def CfgRegs.assign (c : CfgRegs) (r : CfgReg) (v : Byte) : CfgRegs :=
  match r with
  | .ccr0 => { c with ccr0 := v }
  | .ccr1 => { c with ccr1 := v }
  | .ccr2 => { c with ccr2 := v }
  | .ccr3 => { c with ccr3 := v }
  | .ccr4 => { c with ccr4 := v }
  | .ccr5 => { c with ccr5 := v }
  | .arr i k => c.setArr i ((c.arr i).set k v)
  | .rcr i => c.setRcr i v
  | .dir0 => c
  | .dir1 => c

/-- `locked`: SMI_LOCK = 1 outside an SMI service routine (rules R27, R168, R170). -/
def State.smiLocked (s : State) : Bool := s.cfg.smiLock && !s.inSmi

/-- The value a CCR1 write stores: SM3, SMAC and USE_SMI kept while locked (rule R168, C1h). -/
def ccr1Written (locked : Bool) (old v : Byte) : Byte :=
  if locked then (old &&& 0x86) ||| (v &&& 0x79) else v

/-- The value a CCR3 write stores: MAPEN and LINBRST from `v`, bit 3 zero, NMI_EN kept while locked,
SMI_LOCK set but never cleared (rule R168, C3h). -/
def ccr3Written (locked : Bool) (old v : Byte) : Byte :=
  let nmiEn := if locked then old.getLsbD 1 else v.getLsbD 1
  let smiLock := old.getLsbD 0 || v.getLsbD 0
  ((((v.extractLsb' 4 4 ++ 0#1) ++ v.extractLsb' 2 1) ++ BitVec.ofBool nmiEn) ++ BitVec.ofBool smiLock)

/-- The value a register byte holds after a write of `v` that is not refused (rule R168). -/
def writtenValue (locked : Bool) (c : CfgRegs) (r : CfgReg) (v : Byte) : Byte :=
  match r with
  | .ccr1 => ccr1Written locked c.ccr1 v
  | .ccr3 => ccr3Written locked c.ccr3 v
  | .arr i k => if i = 3 ∧ locked then (c.arr i).get k else v
  | .ccr0 => v
  | .ccr2 => v
  | .ccr4 => v
  | .ccr5 => v
  | .rcr _ => v
  | .dir0 => v
  | .dir1 => v

/-- The writes the spec gives no meaning (rule R172), in the order rule R168 tests them. -/
def writeRefusal (locked : Bool) (c : CfgRegs) (r : CfgReg) (v : Byte) : Option Refusal :=
  if v &&& r.resmask ≠ 0 then some .reservedBitSet
  else match r with
  | .ccr1 =>
    let new := ccr1Written locked c.ccr1 v
    if new.getLsbD 1 && !new.getLsbD 7 then some .useSmiWithoutSm3 else none
  | .ccr3 => if 2 ≤ (v.extractLsb' 4 4).toNat then some .mapenUndefined else none
  | .ccr0 => none
  | .ccr2 => none
  | .ccr4 => none
  | .ccr5 => none
  | .arr _ _ => none
  | .rcr _ => none
  | .dir0 => none
  | .dir1 => none

/-- `CfgWrite(idx, v)` (rule R168). -/
def State.cfgWrite (r : CfgReg) (v : Byte) (s : State) : Host.Outcome State Fault Refusal :=
  match writeRefusal s.smiLocked s.cfg r v with
  | some why => .refused why
  | none => .next { s with cfg := s.cfg.assign r (writtenValue s.smiLocked s.cfg r v) }

/-- `CfgRead(idx)`: the register byte with a draw in each reserved position (rule R167). -/
def State.cfgRead (r : CfgReg) (s : State) : State × Byte :=
  ({ s with draws := s.draws + 1 },
    (s.cfg.read r &&& ~~~ r.resmask) ||| (Config.freeByte s.draws &&& r.resmask))

/-! ## Ports (rules R162 to R166, R175) -/

/-- The register index port. -/
def indexPort : Word := 0x0022

/-- The data port. -/
def dataPort : Word := 0x0023

/-- `ExtIoWrite(port, v)`: an external I/O write cycle (rules R7 and R124). -/
def State.extIoWrite (port : Word) (v : Byte) (s : State) : State := 
  s.emit (ioCycle .ioWrite port v s.events.length)

/-- `ExtIoRead(port)`: an external I/O read cycle; the answer is a draw from `EXT_IO` (rule R7, D6). -/
def State.extIoRead (port : Word) (s : State) : State × Byte :=
  let v := Config.extIo s.draws port
  (State.emit (ioCycle .ioRead port v s.events.length) { s with draws := s.draws + 1 }, v)

/-- Where a port 23h access goes (rule R165). -/
inductive DataTarget where
  | external
  | register (r : CfgReg)
  | noRegister
  deriving DecidableEq, Repr

/-- The target of a port 23h access under the pending selection (rule R165). -/
def CfgRegs.dataTarget (c : CfgRegs) : Option Byte → DataTarget
  | none => .external
  | some idx =>
    if c.accessible idx then
      match cfgRegOf idx with
      | some r => .register r
      | none => .noRegister
    else .external

/-- `IoWrite8(22h, v)` (rule R162). -/
def State.writeIndex (v : Byte) (s : State) : State :=
  let s1 := { s with cfgSel := some v }
  if s.cfg.accessible v then s1 else s1.extIoWrite indexPort v

/-- `IoRead8(22h)`: external; whether it clears the selection is drawn (rule R163, D7). -/
def State.readIndexPort (s : State) : State × Byte :=
  State.extIoRead indexPort
    { s with cfgSel := if Config.port22Clears s.draws then none else s.cfgSel }

/-- `IoWrite8(23h, v)` (rules R164, R165, R166). -/
def State.writeData (v : Byte) (s : State) : Host.Outcome State Fault Refusal :=
  let s1 := { s with cfgSel := none }
  match s.cfg.dataTarget s.cfgSel with
  | .external => .next (s1.extIoWrite dataPort v)
  | .register r => s1.cfgWrite r v
  | .noRegister => .next s1

/-- `IoRead8(23h)` (rules R164, R165, R166). -/
def State.readData (s : State) : State × Byte :=
  let s1 := { s with cfgSel := none }
  match s.cfg.dataTarget s.cfgSel with
  | .external => s1.extIoRead dataPort
  | .register r => s1.cfgRead r
  | .noRegister => ({ s1 with draws := s1.draws + 1 }, Config.freeByte s1.draws)

/-- `IoWrite8(port, v)` (rules R162 to R165, R175). -/
def State.ioWrite (port : Word) (v : Byte) (s : State) : Host.Outcome State Fault Refusal :=
  if port = indexPort then .next (s.writeIndex v)
  else if port = dataPort then s.writeData v
  else .next (s.extIoWrite port v)

/-- `IoRead8(port)` (rules R163 to R165, R175). -/
def State.ioRead (port : Word) (s : State) : State × Byte :=
  if port = indexPort then s.readIndexPort
  else if port = dataPort then s.readData
  else s.extIoRead port

/-- Whether a doubleword I/O access at a port covers port 22h or 23h (rule R174). The word and
doubleword forms are 4 bytes wide in the 32-bit code segments of rule R131. -/
def wideCoversConfigPort (port : Word) : Bool :=
  (List.range 4).any (fun k => port + BitVec.ofNat 16 k == indexPort || port + BitVec.ofNat 16 k == dataPort)

end Sys2Proof.Machine
end

