-- ==== Sys2Proof/Machine/Debug.lean ====
section
/-! DEFINITION. The debug registers' fields (spec/10_state.md rules R57 to R59), the breakpoint
conditions (spec/60_exceptions.md rule R211) and what a debug exception writes (rule R191). -/

namespace Sys2Proof.Machine

/-- The breakpoint numbers. -/
def breakpoints : List (Fin 4) := [0, 1, 2, 3]

/-- DRi, a linear address (rule R57). -/
def DebugRegs.dr (d : DebugRegs) (i : Fin 4) : Dword :=
  match i with
  | 0 => d.dr0
  | 1 => d.dr1
  | 2 => d.dr2
  | 3 => d.dr3

/-- R/Wi: DR7 bits 17+4i to 16+4i (rule R59). -/
def DebugRegs.rw (d : DebugRegs) (i : Fin 4) : BitVec 2 := d.dr7.extractLsb' (16 + 4 * i.val) 2

/-- LENi: DR7 bits 19+4i to 18+4i (rule R59). -/
def DebugRegs.len (d : DebugRegs) (i : Fin 4) : BitVec 2 := d.dr7.extractLsb' (18 + 4 * i.val) 2

/-- Gi: DR7 bit 2i+1 (rule R59). -/
def DebugRegs.global (d : DebugRegs) (i : Fin 4) : Bool := d.dr7.getLsbD (2 * i.val + 1)

/-- Li: DR7 bit 2i (rule R59). -/
def DebugRegs.local' (d : DebugRegs) (i : Fin 4) : Bool := d.dr7.getLsbD (2 * i.val)

/-- Breakpoint i is enabled when Gi = 1 or Li = 1 (rule R59). -/
def DebugRegs.enabled (d : DebugRegs) (i : Fin 4) : Bool := d.global i || d.local' i

/-- DR7.GD, bit 13 (rule R59). -/
def DebugRegs.gd (d : DebugRegs) : Bool := d.dr7.getLsbD 13

/-- DR7 holds no R/Wi or LENi code 10b, "Not used" (rule R59, U6). -/
def DebugRegs.codesUsed (d : DebugRegs) : Bool :=
  breakpoints.all (fun i => d.rw i != 2 && d.len i != 2)

/-- `len_i`, in bytes (rule R211). -/
def DebugRegs.lenBytes (d : DebugRegs) (i : Fin 4) : Nat :=
  match (d.len i).toNat with
  | 0 => 1
  | 1 => 2
  | _ => 4

/-- `type_ok` (rule R211); an execution breakpoint requires LENi = 00b. -/
def DebugRegs.typeOk (d : DebugRegs) (i : Fin 4) (k : AccessKind) : Bool :=
  match (d.rw i).toNat, k with
  | 0, .execute => d.len i == 0
  | 1, .write => true
  | 3, .read => true
  | 3, .write => true
  | _, _ => false

/-- The address breakpoint i begins at: DRi, its low bits below `len_i` ignored (rule R211). -/
def DebugRegs.base (d : DebugRegs) (i : Fin 4) : Dword := d.dr i &&& ~~~ BitVec.ofNat 32 (d.lenBytes i - 1)

/-- `cond_i` of one access (rule R211): the type fits and `[a, a+n-1]` meets the `len_i` bytes at DRi, the
addresses taken modulo 2^32. -/
def DebugRegs.cond (d : DebugRegs) (i : Fin 4) (acc : Access) : Bool :=
  d.typeOk i acc.kind
    && (decide ((acc.address - d.base i).toNat < d.lenBytes i)
      || decide ((d.base i - acc.address).toNat < acc.bytes))

/-- Condition i occurred for one of the accesses. -/
def DebugRegs.occurred (d : DebugRegs) (accs : List Access) (i : Fin 4) : Bool := accs.any (d.cond i)

/-- An enabled breakpoint's condition occurred: a debug exception is due (rule R191 (b)). -/
def DebugRegs.hit (d : DebugRegs) (accs : List Access) : Bool :=
  breakpoints.any (fun i => d.enabled i && d.occurred accs i)

/-- A doubleword with one bit set where `b` holds. -/
def setBitIf (b : Bool) (n : Nat) (v : Dword) : Dword := if b then v ||| (1#32 <<< n) else v

/-- The causes of two, as one exception reports them all at once (rule R202). -/
def DebugCause.merge (c c' : DebugCause) : DebugCause where
  accesses := c.accesses ++ c'.accesses
  singleStep := c.singleStep || c'.singleStep
  taskSwitch := c.taskSwitch || c'.taskSwitch

/-- The causes a debug exception reports: those it is raised for and those already due. -/
def State.debugCause (s : State) (c : DebugCause) : DebugCause :=
  match s.debugDue with
  | none => c
  | some due => due.cause.merge c

/-- DR6 after a debug exception: Bi for each condition that occurred, enabled or not; BS (bit 14) for
single step; BT (bit 15) for a task switch; no bit cleared (rules R58 and R191). -/
def DebugRegs.dr6After (d : DebugRegs) (c : DebugCause) : Dword :=
  setBitIf c.taskSwitch 15 (setBitIf c.singleStep 14
    (setBitIf (d.occurred c.accesses 3) 3 (setBitIf (d.occurred c.accesses 2) 2
      (setBitIf (d.occurred c.accesses 1) 1 (setBitIf (d.occurred c.accesses 0) 0 d.dr6)))))

/-- DR7.GD as a mask. -/
def gdMask : Dword := 0x00002000

/-- The Li bits of DR7 as a mask. -/
def localMask : Dword := 0x00000055

/-- The debug registers before entering the debug handler (rule R191): DR6's bits, and GD cleared. -/
def DebugRegs.record (d : DebugRegs) (c : DebugCause) : DebugRegs :=
  { d with dr6 := d.dr6After c, dr7 := d.dr7 &&& ~~~ gdMask }

/-- The debug registers after a task switch (rules R59 and R147 (d)): every Li cleared, every Gi kept. -/
def DebugRegs.clearLocal (d : DebugRegs) : DebugRegs := { d with dr7 := d.dr7 &&& ~~~ localMask }

end Sys2Proof.Machine
end

