-- ==== Sys2Proof/Machine/Operands.lean ====
section
/-! DEFINITION. The operand forms of the instructions: the general registers by number and width
(spec/30_encoding.md rules R133 and R138) and the advance of EIP (spec/43_other_named_instructions.md
rule R185). -/

namespace Sys2Proof.Machine

/-- A 32-bit general register. -/
def Gprs.get (g : Gprs) : GReg → Dword
  | .eax => g.eax
  | .ecx => g.ecx
  | .edx => g.edx
  | .ebx => g.ebx
  | .esp => g.esp
  | .ebp => g.ebp
  | .esi => g.esi
  | .edi => g.edi

/-- The general registers with one of them set. -/
def Gprs.set (g : Gprs) (r : GReg) (v : Dword) : Gprs :=
  match r with
  | .eax => { g with eax := v }
  | .ecx => { g with ecx := v }
  | .edx => { g with edx := v }
  | .ebx => { g with ebx := v }
  | .esp => { g with esp := v }
  | .ebp => { g with ebp := v }
  | .esi => { g with esi := v }
  | .edi => { g with edi := v }

/-- The low half of a doubleword (AX in EAX, rule R138). -/
def lowWord (d : Dword) : Word := d.extractLsb' 0 16

/-- The high half of a doubleword. -/
def highWord (d : Dword) : Word := d.extractLsb' 16 16

/-- A doubleword with its low byte replaced (AL in EAX: bits 7-0, rule R138). -/
def setLowByte (d : Dword) (b : Byte) : Dword := d.extractLsb' 8 24 ++ b

/-- A doubleword with bits 15-8 replaced (AH in EAX, rule R138). -/
def setHighByte (d : Dword) (b : Byte) : Dword := (highWord d ++ b) ++ d.extractLsb' 0 8

/-- The 32-bit register an 8-bit register is part of (rule R133). -/
def Reg8.parent : Reg8 → GReg
  | .al => .eax
  | .cl => .ecx
  | .dl => .edx
  | .bl => .ebx
  | .ah => .eax
  | .ch => .ecx
  | .dh => .edx
  | .bh => .ebx

/-- Whether an 8-bit register is bits 15-8 of its parent (AH, CH, DH, BH) or bits 7-0. -/
def Reg8.isHigh : Reg8 → Bool
  | .al => false
  | .cl => false
  | .dl => false
  | .bl => false
  | .ah => true
  | .ch => true
  | .dh => true
  | .bh => true

/-- An 8-bit register (rules R133 and R138). -/
def Gprs.get8 (g : Gprs) (r : Reg8) : Byte :=
  if Reg8.isHigh r then (g.get (Reg8.parent r)).extractLsb' 8 8 else (g.get (Reg8.parent r)).extractLsb' 0 8

/-- The general registers with an 8-bit register set; the other bits of its parent stay. -/
def Gprs.set8 (g : Gprs) (r : Reg8) (v : Byte) : Gprs :=
  let p := Reg8.parent r
  g.set p (if Reg8.isHigh r then setHighByte (g.get p) v else setLowByte (g.get p) v)

/-- A 16-bit register operand: the low half of the general register (rules R133 and R138). -/
def Gprs.get16 (g : Gprs) (r : GReg) : Word := lowWord (g.get r)

/-- AL. -/
def State.al (s : State) : Byte := s.gprs.get8 .al

/-- DX, the port register of the DX forms of IN and OUT (rule R173). -/
def State.dx (s : State) : Word := s.gprs.get16 .edx

/-- The state with an 8-bit register set. -/
def State.setReg8 (r : Reg8) (v : Byte) (s : State) : State := { s with gprs := s.gprs.set8 r v }

/-- The state with a 32-bit register set. -/
def State.setReg (r : GReg) (v : Dword) (s : State) : State := { s with gprs := s.gprs.set r v }

/-- EIP advanced by an instruction's length, modulo 2^32 (rule R185). -/
def State.advance (n : Nat) (s : State) : State := { s with eip := s.eip + BitVec.ofNat 32 n }

end Sys2Proof.Machine
end

