-- ==== Sys2Proof/Machine/Descriptors.lean ====
section
/-! DEFINITION. Descriptors in memory: gate descriptors (spec/20_memory.md section 2), selectors and the
TSS descriptor layer (spec/41_task_register.md rules R152 and R153), and the two Task State Segment
layouts (spec/20_memory.md section 3). -/

namespace Sys2Proof.Machine

/-! ## Gate descriptors (rules R88 to R92) -/

/-- What a TYPE code is (rule R90). -/
def gateKind (type : BitVec 4) : GateKind :=
  match type.toNat with
  | 0x4 => .call
  | 0xC => .call
  | 0x5 => .task
  | 0x6 => .interrupt
  | 0xE => .interrupt
  | 0x7 => .trap
  | 0xF => .trap
  | _ => .notAGate

/-- The size a TYPE code gives (rule R90). -/
def gateSize (type : BitVec 4) : Option Nat :=
  match type.toNat with
  | 0x4 => some 16
  | 0x6 => some 16
  | 0x7 => some 16
  | 0xC => some 32
  | 0xE => some 32
  | 0xF => some 32
  | _ => none

/-- The gate two doublewords describe (rules R89 and R91). -/
def Gate.ofDwords (d0 d1 : Dword) : Gate where
  kind := gateKind (d1.extractLsb' 8 4)
  size := gateSize (d1.extractLsb' 8 4)
  selector := d0.extractLsb' 16 16
  offset := d1.extractLsb' 16 16 ++ d0.extractLsb' 0 16
  present := d1.getLsbD 15
  dpl := d1.extractLsb' 13 2
  parameters := d1.extractLsb' 0 5
  undoc12 := d1.getLsbD 12
  undoc75 := d1.extractLsb' 5 3

/-- `DecodeGate(g)` (rule R91). -/
def State.decodeGate (s : State) (g : Dword) : Gate :=
  Gate.ofDwords (s.readDword g) (s.readDword (g + 4))

/-- The processor's reads of a gate descriptor: its two doublewords (rule R88). -/
def gateReads (g : Dword) : List (Dword × Nat) := [(g, 4), (g + 4, 4)]

/-- The entry offset of a gate: OFFSET[15:0] for a 16-bit gate, OFFSET for a 32-bit one (rules R94 and
R141, D26). -/
def Gate.entryOffset (g : Gate) : Dword :=
  if g.size = some 16 then (lowWord g.offset).zeroExtend 32 else g.offset

/-! ## Selectors and the TSS descriptor layer -/

/-- `LocateDescriptor(sel)` (rule R152): the table the TI bit names, and the descriptor's address. -/
def State.locateDescriptor (s : State) (sel : Word) : TableKind × Dword :=
  let off : Dword := (sel.extractLsb' 3 13).zeroExtend 32 <<< 3
  if sel.getLsbD 2 then (.ldt, s.ldt.base + off) else (.gdt, s.gdt.base + off)

/-- The doubleword at +0 of a descriptor. -/
def descD0 (d : Desc) : Dword := d.extractLsb' 0 32

/-- The doubleword at +4 of a descriptor. -/
def descD1 (d : Desc) : Dword := d.extractLsb' 32 32

/-- The four-bit type of a descriptor, bits 11-8 of the doubleword at +4. -/
def descType (d : Desc) : BitVec 4 := (descD1 d).extractLsb' 8 4

/-- `IsTssDescriptor(desc)`, the default layer of rule R153: type 1h, 3h, 9h or Bh with bit 12 zero. -/
def isTssDescriptor (d : Desc) : Bool :=
  !(descD1 d).getLsbD 12 && (descType d == 0x1 || descType d == 0x3 || descType d == 0x9 || descType d == 0xB)

/-- `tss_kind(desc)` (rule R153): types 1h and 3h are 16-bit, 9h and Bh 32-bit. -/
def tssKind (d : Desc) : TssKind := if (descType d).getLsbD 3 then .tss32 else .tss16

/-- `tss_base(desc)` (rule R153). -/
def tssBase (d : Desc) : Dword :=
  ((descD1 d).extractLsb' 24 8 ++ (descD1 d).extractLsb' 0 8) ++ (descD0 d).extractLsb' 16 16

/-- The TSS TR points to (rule R155), where TR is accessible, "only ... during protected mode" (rule R201), and
holds a TSS descriptor at all (U13). -/
def State.currentTss (s : State) : Option (TssKind × Dword) :=
  if s.pmode ∧ isTssDescriptor s.tr.desc then some (tssKind s.tr.desc, tssBase s.tr.desc) else none

/-! ## Task State Segment fields (rules R95, R98, R99) -/

/-- The byte offset of general register k of the order EAX, ECX, EDX, EBX, ESP, EBP, ESI, EDI in a
TSS. -/
def tssGprOffset : TssKind → Nat → Nat
  | .tss32, k => 0x28 + 4 * k
  | .tss16, k => 0x12 + 2 * k

/-- The byte offset of segment register s of the order ES, CS, SS, DS, FS, GS in a TSS. -/
def tssSegOffset : TssKind → Nat → Nat
  | .tss32, s => 0x48 + 4 * s
  | .tss16, s => 0x22 + 2 * s

/-- The byte offset of the stack pointer for privilege level n in a TSS. -/
def tssSpOffset : TssKind → Nat → Nat
  | .tss32, n => 0x4 + 8 * n
  | .tss16, n => 0x2 + 4 * n

/-- The byte offset of the stack segment for privilege level n in a TSS. -/
def tssSsOffset : TssKind → Nat → Nat
  | .tss32, n => 0x8 + 8 * n
  | .tss16, n => 0x4 + 4 * n

/-- The byte offset of EIP or IP. -/
def tssIpOffset : TssKind → Nat
  | .tss32 => 0x20
  | .tss16 => 0x0E

/-- The byte offset of EFLAGS or FLAGS. -/
def tssFlagsOffset : TssKind → Nat
  | .tss32 => 0x24
  | .tss16 => 0x10

/-- The byte offset of the task's LDT selector. -/
def tssLdtOffset : TssKind → Nat
  | .tss32 => 0x60
  | .tss16 => 0x2A

/-- The byte offset of CR3 in a 32-bit TSS. -/
def tssCr3Offset : Nat := 0x1C

/-- The byte offset of the T bit's byte in a 32-bit TSS. -/
def tssTrapOffset : Nat := 0x64

/-- The byte offset of the I/O map base in a 32-bit TSS (rule R97). -/
def tssIoMapOffset : Nat := 0x66

/-- The number of a segment register in the order of a TSS. -/
def segIndex : SegName → Nat
  | .es => 0
  | .cs => 1
  | .ss => 2
  | .ds => 3
  | .fs => 4
  | .gs => 5

/-- The byte offset of a field in a TSS; the 16-bit layout has no FS, GS and CR3 (rules R95 and R98). -/
def taskFieldOffset : TssKind → TaskField → Option Nat
  | k, .ip => some (tssIpOffset k)
  | k, .flags => some (tssFlagsOffset k)
  | k, .gpr r => some (tssGprOffset k r.num.toNat)
  | .tss32, .seg r => some (tssSegOffset .tss32 (segIndex r))
  | .tss16, .seg r => if segIndex r < 4 then some (tssSegOffset .tss16 (segIndex r)) else none
  | .tss32, .cr3 => some tssCr3Offset
  | .tss16, .cr3 => none
  | k, .ldt => some (tssLdtOffset k)

/-- An address inside a TSS. -/
def tssField (base : Dword) (offset : Nat) : Dword := base + BitVec.ofNat 32 offset

/-- The back link, OLD TSS SELECTOR. -/
def State.tssBackLink (s : State) (t : Dword) : Word := s.readWord t

/-- A doubleword whose low half is `w` and whose high half the spec does not give. -/
def freeHigh (draw : Nat) (w : Word) : Dword := highWord (Config.freeDword draw) ++ w

/-- The stack pair (SS, ESP) a TSS holds for privilege level n (rules R99 and R143). The 16-bit layout holds SP; the
high half of ESP, which the spec does not give, is then a free value (notes/assumptions/29.md). -/
def State.tssStack (s : State) (k : TssKind) (t : Dword) (n : Nat) : Word × Dword :=
  (s.readWord (tssField t (tssSsOffset k n)),
    match k with
    | .tss32 => s.readDword (tssField t (tssSpOffset .tss32 n))
    | .tss16 => freeHigh s.draws (s.readWord (tssField t (tssSpOffset .tss16 n))))

/-- The processor's reads of that pair. -/
def tssStackReads (k : TssKind) (t : Dword) (n : Nat) : List (Dword × Nat) :=
  [(tssField t (tssSsOffset k n), 2), (tssField t (tssSpOffset k n), match k with | .tss32 => 4 | .tss16 => 2)]

/-- The processor's reads of the task state a 32-bit TSS holds, field by field, the T bit among them. The order of
these reads, which only the record of cycles shows, is not in the spec (rule R101): the order of the layout, the T bit
last, is a DESIGN CHOICE (notes/assumptions/16.md), here and in `taskReads16`. -/
def taskReads32 (t : Dword) : List (Dword × Nat) :=
  [(tssField t tssCr3Offset, 4), (tssField t (tssIpOffset .tss32), 4), (tssField t (tssFlagsOffset .tss32), 4)]
  ++ (List.range 8).map (fun k => (tssField t (tssGprOffset .tss32 k), 4))
  ++ (List.range 6).map (fun k => (tssField t (tssSegOffset .tss32 k), 2))
  ++ [(tssField t (tssLdtOffset .tss32), 2), (tssField t tssTrapOffset, 1)]

/-- The processor's reads of the task state a 16-bit TSS holds, field by field. -/
def taskReads16 (t : Dword) : List (Dword × Nat) :=
  [(tssField t (tssIpOffset .tss16), 2), (tssField t (tssFlagsOffset .tss16), 2)]
  ++ (List.range 8).map (fun k => (tssField t (tssGprOffset .tss16 k), 2))
  ++ (List.range 4).map (fun k => (tssField t (tssSegOffset .tss16 k), 2))
  ++ [(tssField t (tssLdtOffset .tss16), 2)]

/-- The processor's reads of the task state a TSS holds. -/
def taskReads : TssKind → Dword → List (Dword × Nat)
  | .tss32, t => taskReads32 t
  | .tss16, t => taskReads16 t

/-- The reserved fields of a TSS, which the processor does not write: the high halves beside the back link, the stack
segments and the selectors, and the low half of the doubleword at +64h, of which bit 0 is the T bit. The 16-bit layout
has none (rules R95, R96 and R98, decision D24). -/
def tssReserved : TssKind → Dword → List (Dword × Nat)
  | .tss32, t =>
    ([0x02, 0x0A, 0x12, 0x1A, 0x4A, 0x4E, 0x52, 0x56, 0x5A, 0x5E, 0x62, 0x64] : List Nat).map (fun o => (tssField t o, 2))
  | .tss16, _ => []

/-- Whether `m` bytes at `a` and `n` bytes at `b` share one, the addresses taken modulo 2^32. -/
def placesMeet (a : Dword) (m : Nat) (b : Dword) (n : Nat) : Bool :=
  decide ((a - b).toNat < n) || decide ((b - a).toNat < m)

/-- `Tss32.T` (rule R96). -/
def State.tssTrap (s : State) (t : Dword) : Bool := (s.readByte (tssField t tssTrapOffset)).getLsbD 0

/-- `Tss32.iomap` (rule R97). -/
def State.tssIoMap (s : State) (t : Dword) : Word := s.readWord (tssField t tssIoMapOffset)

end Sys2Proof.Machine
end

