-- ==== Sys2Proof/Machine/TaskFunction.lean ====
section
/-! DEFINITION. The task-switch function of rules R4 and R147: what a task switch does beyond the five stated facts.
The facts themselves, and the settled part of the rule, are `State.taskSwitch` in Machine/Ops.lean. -/

namespace Sys2Proof.Machine

/-- When a task switch writes the old selector to the new TSS's back link (rule R147: "the conditions are not
given"). -/
inductive BackLink where
  | never
  | beforeSave
  | beforeLoad
  | afterLoad
  deriving DecidableEq, Repr, Inhabited

/-- What one task switch does at the points rule R147 leaves open. -/
structure TaskChoice where
  saves           : List TaskField               -- what is saved and not only loaded, in the order of the writes
  descriptorFirst : Bool                         -- the new TSS descriptor is read before the old state is saved
  backLink        : BackLink                     -- when the back link is written, if at all
  writes          : List (Dword × List Byte)     -- what else is written, before the load (see `otherWrites`)
  cr0             : Option Dword                 -- what is written to CR0, if anything
  setsFlags       : Dword                        -- flags set beside the loaded ones: a nested-task flag, say
  trapAfterFirst  : Bool                         -- the T bit's debug exception comes after the first instruction
  deriving DecidableEq, Repr, Inhabited

/-- The fields a switch saves. The address the task is to resume at is saved under every choice: without it nothing
of fact (a), "saves the current CPU state", would be left (DESIGN CHOICE, notes/assumptions/16.md). -/
def TaskChoice.savedFields (c : TaskChoice) : List TaskField :=
  if .ip ∈ c.saves then c.saves else .ip :: c.saves

/-- Whether the new descriptor is read before the save: it is where the back link is written before it. -/
def TaskChoice.readsFirst (c : TaskChoice) : Bool := c.descriptorFirst || decide (c.backLink = .beforeSave)

/-- The points of a task switch at which a check can fail: at its begin, when the old state is saved, when TR, the back
link and the other writes are in place and the load is to come, and when the new state is loaded. -/
inductive TaskPhase where
  | begun
  | saved
  | entered
  | loaded
  deriving DecidableEq, Repr

/-- The task-switch function: what a switch to a selector does, judged on the state it begins at, and its checks, each
judged on the state it has come to. A check that fails names the vector of its exception. -/
structure TaskFunction where
  choose : Word → State → TaskChoice
  check  : TaskPhase → Word → State → Option Byte
  deriving Inhabited

end Sys2Proof.Machine

namespace Sys2Proof

/-- The task-switch function the machine's own task switches use (rules R4 and R147): a free value. -/
opaque Config.taskFunction : Machine.TaskFunction

end Sys2Proof
end

