-- ==== Sys2Proof/Machine/Ops.lean ====
section
/-! DEFINITION. The shared operations over the whole state: entering a handler through the IDT, the task
switch, taking an exception (spec/40_gate_transfers.md, spec/60_exceptions.md rules R191 to R198), the
call through a call gate, and the answers to the input pins (spec/60_exceptions.md section 3).

The spec gives no return from an exception: rule R199 ("The source names no return instruction and says
nothing of what a return restores"), and no row of the opcode table is one. -/

namespace Sys2Proof.Machine

/-! ## Code segments (rules R141 and R204) -/

/-- CS:EIP loaded. The target's linear base and privilege level are those of the code segment
descriptor the selector locates, whose format is not in the spec (free functions of it). -/
def State.loadCs (sel : Word) (eip : Dword) (s : State) : State :=
  let desc := s.readQword (s.locateDescriptor sel).2
  { s with
    segs := { s.segs with cs := sel }
    eip := eip
    csBase := Config.codeBase desc
    cpl := Config.codeLevel desc }

/-- The privilege level a transfer to a selector runs at (rule R204). -/
def State.targetLevel (s : State) (sel : Word) : BitVec 2 :=
  Config.codeLevel (s.readQword (s.locateDescriptor sel).2)

/-- Whether a transfer to a level raises privilege. -/
def State.rises (s : State) (level : BitVec 2) : Bool := decide (level.toNat < s.cpl.toNat)

/-- The stack (SS, ESP) a transfer to a level starts from: the current TSS's pair for that level where
privilege rises (rules R143 and R198 (d)), the running stack otherwise; none where a TSS is needed and
there is none (U13, R201). -/
def State.entryStack (level : BitVec 2) (s : State) : Option (Word × Dword) :=
  if s.rises level then
    match s.currentTss with
    | some (k, t) => some (s.tssStack k t level.toNat)
    | none => none
  else some (s.segs.ss, s.gprs.esp)

/-- The processor's reads for a transfer to a selector: the code segment descriptor and, where privilege rises, the
new stack pair. -/
def State.transferReads (sel : Word) (s : State) : List (Dword × Nat) :=
  let level := s.targetLevel sel
  ((s.locateDescriptor sel).2, 8) ::
    match s.currentTss with
    | some (k, t) => if s.rises level then tssStackReads k t level.toNat else []
    | none => []

/-- A place inside a stack frame of `depth` bytes from `esp` upwards for `n` bytes: the offset `o`, brought into
the frame. -/
def frameSlot (esp : Dword) (depth n : Nat) (o : Dword) : Dword :=
  esp + BitVec.ofNat 32 (o.toNat % (depth - n + 1))

/-- What an entry pushes of its own, each piece inside the frame. -/
def framePushes (frame : EntryFrame) (esp : Dword) (depth : Nat) : List (Dword × List Byte) :=
  frame.saved.map (fun w => (frameSlot esp depth (w.2.take depth).length w.1, w.2.take depth))

/-- The stack pointer moved to a stack with a frame of `depth` bytes, and CS:EIP loaded: a procedure or a handler
entered at `sel:eip`. -/
def State.enterAt (sel : Word) (eip : Dword) (stack : Word × Dword) (depth : Nat) (s : State) : State :=
  State.loadCs sel eip { s with
    draws := s.draws + 1
    segs := { s.segs with ss := stack.1 }
    gprs := { s.gprs with esp := stack.2 - BitVec.ofNat 32 depth } }

/-- The return address as a handler's frame holds it: four bytes for a 32-bit gate, the low two for a 16-bit one
(PRESUMED, notes/assumptions/12.md). -/
def Gate.returnBytes (g : Gate) (ret : Dword) : List Byte :=
  if g.size = some 16 then wordBytes (lowWord ret) else dwordBytes ret

/-- The handler of a trap or interrupt gate entered (rules R144, R145, R198 (b), (d)). The return address is saved
in the frame (rule R183); where in it, what else is pushed, how far the stack pointer drops and which flags change
are not in the spec: a free frame (rule R198). The target's level is compared with nothing but to choose the stack: a
handler less privileged than the interrupted program is entered as well, on the running stack. Rule R144 leaves "the
privilege rule" open: DESIGN CHOICE (notes/assumptions/11.md). -/
def State.enterHandler (g : Gate) (ret : Dword) (s : State) : Host.Outcome State Fault Refusal :=
  match s.entryStack (s.targetLevel g.selector) with
  | none => .refused .noTask
  | some stack =>
    let frame := Config.entryFrame s.draws
    let back := g.returnBytes ret
    let depth := frame.room.toNat + back.length
    let s1 := (s.cpuReads (s.transferReads g.selector)).enterAt g.selector g.entryOffset stack depth
    let slot := frameSlot s1.gprs.esp depth back.length frame.retSlot
    andThen (s1.busWrites (framePushes frame s1.gprs.esp depth ++ [(slot, back)])) fun s2 =>
      .next { s2.setEflags frame.eflags with runState := .running, powerState := .normal }

/-! ## Task switch (rules R101, R146, R147) -/

/-- The bytes a 32-bit register takes in a TSS: four, or its low half in the 16-bit layout (rules R95 and R98). -/
def TssKind.registerBytes : TssKind → Dword → List Byte
  | .tss32, v => dwordBytes v
  | .tss16, v => wordBytes (lowWord v)

/-- The bytes of a field of the current CPU state, the task to resume at `ret`. -/
def State.taskFieldBytes (k : TssKind) (ret : Dword) (s : State) : TaskField → List Byte
  | .ip => k.registerBytes ret
  | .flags => k.registerBytes s.eflags
  | .gpr r => k.registerBytes (s.gprs.get r)
  | .seg r => wordBytes (s.segs.get r)
  | .cr3 => k.registerBytes s.cr3
  | .ldt => wordBytes s.ldtSel

/-- The writes that save the current CPU state into the TSS of kind `k` at the fields the choice saves, in its
order, where the layout has them. Nothing else of the TSS is written, no reserved field either (rules R96, R101). -/
def State.saveWrites (c : TaskChoice) (k : TssKind) (t ret : Dword) (s : State) : List (Dword × List Byte) :=
  c.savedFields.filterMap (fun f =>
    (taskFieldOffset k f).map (fun o => (tssField t o, s.taskFieldBytes k ret f)))

/-- The places no other write of a switch may touch: the fields it saves in the TSS of kind `k` at `t`, the back link,
the loaded fields and the T bit of the TSS it enters, and the reserved fields of both, which the processor does not
write (rule R96, decision D24). -/
def State.keptPlaces (c : TaskChoice) (k : TssKind) (t ret : Dword) (desc : Desc) (s : State) : List (Dword × Nat) :=
  (s.saveWrites c k t ret).map (fun w => (w.1, w.2.length))
    ++ (tssBase desc, 2) :: taskReads (tssKind desc) (tssBase desc)
    ++ tssReserved k t ++ tssReserved (tssKind desc) (tssBase desc)

/-- The other writes of a switch, a busy mark in a descriptor among them: those listed that touch no kept place. "Any
supplied function must satisfy (a) to (e)" (rule R147): the state saved stays saved, and the state loaded is the one the
new TSS holds. A listed write that would touch one is no write of the switch (DESIGN CHOICE,
notes/assumptions/16.md). -/
def TaskChoice.otherWrites (c : TaskChoice) (kept : List (Dword × Nat)) : List (Dword × List Byte) :=
  c.writes.filter (fun w => kept.all (fun p => !placesMeet w.1 w.2.length p.1 p.2))

/-- The current CPU state saved into the TSS of kind `k` at `t` (rule R147 (a)). -/
def State.saveTask (c : TaskChoice) (k : TssKind) (t ret : Dword) (s : State) :
    Host.Outcome State Fault Refusal :=
  s.busWrites (s.saveWrites c k t ret)

/-- The CPU state loaded from a 32-bit TSS (rules R95, R147). -/
def State.loadTask32 (t : Dword) (s : State) : State :=
  let r := fun k => s.readDword (tssField t (tssGprOffset .tss32 k))
  let g := fun k => s.readWord (tssField t (tssSegOffset .tss32 k))
  let s1 := { s with
    gprs := ⟨r 0, r 1, r 2, r 3, r 4, r 5, r 6, r 7⟩
    segs := ⟨g 0, g 1, g 2, g 3, g 4, g 5⟩
    cr3 := s.readDword (tssField t tssCr3Offset)
    ldtSel := s.readWord (tssField t (tssLdtOffset .tss32)) }
  (s1.setEflags (s.readDword (tssField t (tssFlagsOffset .tss32)))).loadCs (g 1)
    (s.readDword (tssField t (tssIpOffset .tss32)))

/-- The CPU state loaded from a 16-bit TSS (rules R98, R147): what that layout does not hold (the high
halves, FS, GS) is free; CR3 stays. -/
def State.loadTask16 (t : Dword) (s : State) : State :=
  let r := fun k => freeHigh (s.draws + k) (s.readWord (tssField t (tssGprOffset .tss16 k)))
  let g := fun k => s.readWord (tssField t (tssSegOffset .tss16 k))
  let s1 := { s with
    draws := s.draws + 11
    gprs := ⟨r 0, r 1, r 2, r 3, r 4, r 5, r 6, r 7⟩
    segs := ⟨g 0, g 1, g 2, g 3, lowWord (Config.freeDword (s.draws + 8)),
      lowWord (Config.freeDword (s.draws + 9))⟩
    ldtSel := s.readWord (tssField t (tssLdtOffset .tss16)) }
  (s1.setEflags (freeHigh (s.draws + 10) (s.readWord (tssField t (tssFlagsOffset .tss16))))).loadCs (g 1)
    ((s.readWord (tssField t (tssIpOffset .tss16))).zeroExtend 32)

/-- The CPU state loaded from a TSS, after the reads that takes: of its fields, and of the code segment descriptor
its CS selects. -/
def State.loadTask (k : TssKind) (t : Dword) (s : State) : State :=
  let cs := s.readWord (tssField t (tssSegOffset k 1))
  let s1 := s.cpuReads (taskReads k t ++ [((s.locateDescriptor cs).2, 8)])
  match k with
  | .tss32 => s1.loadTask32 t
  | .tss16 => s1.loadTask16 t

/-- The new task's TSS descriptor, where the selector indexes one in the GDT (rules R11 and R150). -/
def State.tssDescriptor (s : State) (sel : Word) : Option Desc :=
  match s.locateDescriptor sel with
  | (.gdt, a) => if isTssDescriptor (s.readQword a) then some (s.readQword a) else none
  | (.ldt, _) => none

/-- The old selector written to the new TSS's back link where the switch writes it at this time (R147 (c)). -/
def State.writeBackLink (now : Bool) (old : Word) (t : Dword) (s : State) : Host.Outcome State Fault Refusal :=
  if now then s.busWrite t (wordBytes old) else .next s

/-- Whether a task switch leaves a debug exception due: the new TSS is a 32-bit one with its T bit set
(rule R147 (e)). -/
def State.trapsTask (s : State) (desc : Desc) : Bool :=
  decide (tssKind desc = .tss32) && s.tssTrap (tssBase desc)

/-- A new task's T bit adds its cause to the debug exception that is due, and it comes when the switch has it. -/
def State.dueForTask (c : TaskChoice) (trap : Bool) (s : State) : Option DueDebug :=
  if trap then some ⟨s.debugCause ⟨[], false, true⟩, c.trapAfterFirst⟩ else s.debugDue

/-- A check of the task-switch function, and what follows where it passes. One that fails leaves its exception raised,
for the next step to deliver with `ret` as the address to return to, at the state the switch has come to (DESIGN
CHOICE, notes/assumptions/16.md: rule R147 leaves "every check and exception" open). -/
def State.checked (f : TaskFunction) (phase : TaskPhase) (sel : Word) (ret : Dword) (s : State)
    (go : State → Host.Outcome State Fault Refusal) : Host.Outcome State Fault Refusal :=
  match f.check phase sel s with
  | none => go s.draw
  | some v => .next { s.draw with runState := .raised (.taskFault v) ret }

/-- CR0 as the switch leaves it, through the rule that holds for every write of it (rule R22). -/
def State.taskCr0 (c : TaskChoice) (s : State) : State :=
  match c.cr0 with
  | none => s
  | some v => s.setCr0 v

/-- The new task's marks: CR0 and the flags set beside the loaded ones as the switch has them (the latter through the
ID rule R63), every Li cleared, the debug exception of its T bit due (rule R147 (d), (e)). -/
def State.markTask (c : TaskChoice) (desc : Desc) (s : State) : State :=
  { (s.taskCr0 c).setEflags (s.eflags ||| c.setsFlags) with
    dbg := s.dbg.clearLocal
    debugDue := s.dueForTask c (s.trapsTask desc)
    runState := .running
    powerState := .normal }

/-- The new task in place: TR, the switch's other writes, which touch none of the places `kept`, and its back link, its
state, its marks (rule R147 (b) to (e)). No busy mark of a descriptor and no nested-task flag is named by the spec (entry
N38): they are among the writes and the flags of the task-switch function. Where the check of the loaded task fails and
its T bit is set, the check's exception is delivered first, and the debug exception stays due at its handler: rules R147
and R202 give no order, DESIGN CHOICE (notes/assumptions/16.md). -/
def State.startTask (f : TaskFunction) (c : TaskChoice) (kept : List (Dword × Nat)) (old sel : Word) (desc : Desc)
    (ret : Dword) (s : State) : Host.Outcome State Fault Refusal :=
  s.checked f .saved sel ret fun s1 =>
  andThen (State.busWrites (c.otherWrites kept) { s1 with tr := ⟨sel, desc⟩ }) fun s2 =>
  andThen (s2.writeBackLink (c.backLink = .beforeLoad) old (tssBase desc)) fun s3 =>
  s3.checked f .entered sel ret fun s4 =>
  andThen (State.writeBackLink (c.backLink = .afterLoad) old (tssBase desc)
    (s4.loadTask (tssKind desc) (tssBase desc))) fun s5 =>
  State.checked f .loaded sel s5.eip (s5.markTask c desc) .next

/-- The switch itself, the current TSS being the one of kind `k` at `t`: the current state saved, the new descriptor,
and the new task started, in the order the switch has them (rule R147). Refused where the spec gives no meaning: the
selector locates no TSS descriptor. -/
def State.changeTask (f : TaskFunction) (c : TaskChoice) (k : TssKind) (t : Dword) (sel : Word) (ret : Dword)
    (s : State) : Host.Outcome State Fault Refusal :=
  let a := (s.locateDescriptor sel).2
  if c.readsFirst then
    match s.tssDescriptor sel with
    | none => .refused .noTask
    | some desc =>
      andThen (State.writeBackLink (c.backLink = .beforeSave) s.tr.sel (tssBase desc) (s.cpuRead a 8)) fun s1 =>
      andThen (s1.saveTask c k t ret) fun s2 =>
      s2.startTask f c (s.keptPlaces c k t ret desc) s.tr.sel sel desc ret
  else
    andThen (s.saveTask c k t ret) fun s1 =>
      match s1.tssDescriptor sel with
      | none => .refused .noTask
      | some desc => State.startTask f c (s.keptPlaces c k t ret desc) s.tr.sel sel desc ret (s1.cpuRead a 8)

/-- A task switch to the TSS a selector locates (rule R147), the interrupted task to resume at `ret`, under the
task-switch function `f` (rule R4). Refused where the spec gives no meaning: there is no current TSS. -/
def State.taskSwitch (f : TaskFunction) (sel : Word) (ret : Dword) (s : State) :
    Host.Outcome State Fault Refusal :=
  match s.currentTss with
  | none => .refused .noTask
  | some (k, t) => s.checked f .begun sel ret fun s1 => s1.changeTask f (f.choose sel s) k t sel ret

/-! ## Taking an exception -/

/-- The vector of an event that is delivered through the IDT (rule R210); TrFault's are those rule R154
maps its reasons to (invalid opcode 6, general protection 13, which is PRESUMED for a privileged HLT:
notes/assumptions/15.md), a task switch's the one its check names; SMI has none. -/
def Event.vector : Event → Option Byte
  | .debug => some 1
  | .nmi => some 2
  | .breakpoint => some 3
  | .invalidOpcode => some 6
  | .generalProtection => some 13
  | .trFault .notProtectedMode => some 6
  | .trFault .privilege => some 13
  | .trFault .notInGdt => some 13
  | .trFault .notATss => some 13
  | .taskFault v => some v
  | .hardwareInterrupt v => some v
  | .smi => none

/-- The address of the IDT descriptor of a vector (rule R198: `idt_base + 8 * vector`). -/
def State.idtEntry (s : State) (vector : Byte) : Dword := s.idt.base + (vector.zeroExtend 32 <<< 3)

/-- Control transferred to the handler of an event (rule R198 (a) to (d)): through a trap or interrupt
gate to its SELECTOR:OFFSET, through a task gate by a task switch. Refused where the spec gives no
meaning: no gate or a call gate in the IDT (U5, U28), no TSS where one is needed (U13), a
region in force off its boundary (rule R104). Through a task gate no error code is pushed on the new task's stack,
whatever the event (TrFault, general protection and a task switch's failed check among them): ESP is exactly what the
new TSS gives. Rule R198 leaves open whether one is pushed: DESIGN CHOICE (notes/assumptions/12.md). -/
def State.deliver (ev : Event) (ret : Dword) (s : State) : Host.Outcome State Fault Refusal :=
  match ev.vector with
  | none => .refused .noHandlerEntry
  | some v =>
    if s.cfg.regionsAligned then
      let a := s.idtEntry v
      let g := s.decodeGate a
      let s1 := s.cpuReads (gateReads a)
      match g.kind with
      | .trap => s1.enterHandler g ret
      | .interrupt => s1.enterHandler g ret
      | .task => s1.taskSwitch Config.taskFunction g.selector ret
      | .call => .refused .noHandlerEntry
      | .notAGate => .refused .noHandlerEntry
    else .refused .arrMisaligned

/-- `raise`: TAKING AN EXCEPTION or an interrupt (rule R198). The event is recorded and control goes to its
handler; where the spec gives the entry no meaning, or the entry's own writes fault, the state at the raise stands,
marked `raised`. `ret` is the address a handler would return to. The spec gives it for INT 3 only (rule R183): that it
is the faulting instruction's own address at TrFault, InvalidOpcode and general protection, and that of the next
instruction at an NMI, a hardware interrupt and a debug exception, is a DESIGN CHOICE (notes/assumptions/38.md). -/
def State.raise (ev : Event) (ret : Dword) (s : State) : State :=
  let s1 := { s with lastEvent := some ev }
  match s1.deliver ev ret with
  | .next t => t
  | .fault _ => { s1 with runState := .raised ev ret }
  | .refused _ => { s1 with runState := .raised ev ret }

/-- A debug exception: DR6 and DR7 first, with all its causes and those already due at once, then the entry
(rules R191 and R202). -/
def State.raiseDebug (c : DebugCause) (ret : Dword) (s : State) : State :=
  State.raise .debug ret { s with dbg := s.dbg.record (s.debugCause c), debugDue := none }

/-- Whether the debug exception a new task's T bit made due is raised before the task's next instruction: whether
it comes before or after the first one is not in the spec (rule R147), the switch said. -/
def State.trapNow (s : State) : Bool :=
  match s.debugDue with
  | none => false
  | some due => !due.afterFirst

/-! ## Input pins (rules R70, R195 to R197, R209, R215) -/

/-- RESET asserted (rules R215 to R218): every register at its reset value; memory, the record of bus
cycles, the inputs still to come and the draw counter are no part of the CPU and stay. Among the inputs is a request
made before and held pending (an NMI, an interrupt request, SMI# or SUSP#): it survives RESET. Whether it does is not in
the source, which does not describe the reset sequence (rule R215): DESIGN CHOICE (notes/assumptions/17.md). So is what
memory holds where bytes still waited in the write-gather buffer: the buffer is dropped with no cycle, and memory keeps
the bytes the program wrote (the same). -/
def State.resetPin (s : State) : State :=
  { State.reset with
    mem := s.mem, smm := s.smm, events := s.events, inputs := s.inputs, draws := s.draws }

/-- SMIACT# active: an SMI is being serviced and the pin is enabled (rules R16 and R196). That an enabled SMIACT# is
active exactly then is a DESIGN CHOICE: the spec says only that USE_SMI = 1 enables the pin
(notes/assumptions/35.md). -/
def State.smiact (s : State) : Bool := s.cfg.useSmi && s.inSmi

/-- SUSPA#: floats (none) unless USE_SUSP is set; active in suspend mode (rules R25 and R209). That it is active in
a suspend mode HLT has entered as well is a DESIGN CHOICE: R209 derives only that SUSPA# acknowledges SUSP#
(notes/assumptions/35.md). -/
def State.suspa (s : State) : Option Bool :=
  if s.cfg.useSusp then some (decide (s.powerState = .suspend)) else none

/-- `smi_recognized` for an asserted SMI# (rule R196). -/
def CfgRegs.smiRecognized (c : CfgRegs) : Bool := c.useSmi && !c.smac

/-- Bytes saved straight into system management memory. -/
def saveSmm (m : Memory) (ws : List (Dword × Byte)) : Memory :=
  ws.foldl (fun t w => t.write w.1.toNat w.2) m

/-- An SMI service routine entered (rule R196): `in_smi` becomes 1. The state saved, the entry address and
the registers the routine starts with are not in the spec: free values, EFLAGS and CR0 through the rules
that hold for every write of them (R22, R63). That the save makes no external cycle (rule R124) and is no access for
the write-gather buffer (rule R122) is a DESIGN CHOICE (notes/assumptions/19.md). -/
def State.enterSmm (s : State) : State :=
  let d := fun k => Config.freeDword (s.draws + k)
  let w := fun k => lowWord (d k)
  let s1 := (s.setEflags (d 16)).setCr0 (d 17)
  { s1 with
    inSmi := true
    gprs := ⟨d 0, d 1, d 2, d 3, d 4, d 5, d 6, d 7⟩
    segs := ⟨w 8, w 9, w 10, w 11, w 12, w 13⟩
    eip := d 14
    csBase := d 15
    cr3 := d 18
    pmode := (d 19).getLsbD 0
    cpl := (d 20).extractLsb' 0 2
    smm := saveSmm s.smm (Config.smmSaved s.draws)
    runState := .running
    powerState := .normal
    lastEvent := some .smi
    draws := s.draws + 21 }

/-! ## Transfers through a gate that a selector names (rules R140 to R143, R146). No row of the opcode table makes
one. -/

/-- The size in bytes of one copied parameter (rules R94 and R143, D27). -/
def Gate.parameterUnit (g : Gate) : Nat :=
  if g.size = some 16 ∧ Config.paramUnit16IsDword = false then 2 else 4

/-- How many bytes the copied parameters of a call gate take. -/
def Gate.parameterBytes (g : Gate) : Nat := g.parameterUnit * g.parameters.toNat

/-- The address of the k-th parameter on the caller's stack: from the old stack pointer upwards (rule R143). The
stack segment's linear base is taken as 0. -/
def State.parameterSource (g : Gate) (k : Nat) (s : State) : Dword :=
  s.gprs.esp + BitVec.ofNat 32 (g.parameterUnit * k)

/-- No two of the places overlap, each taking `unit` bytes. -/
def placesApart (unit : Nat) : List Dword → Bool
  | [] => true
  | x :: xs =>
    xs.all (fun y => decide (unit ≤ (y - x).toNat) && decide (unit ≤ (x - y).toNat)) && placesApart unit xs

/-- Where on the new stack each parameter lands, in a frame of `depth` bytes at `esp`: not in the spec (rule R143), so
free places in the frame where no two of those overlap, and else one after another from the new stack pointer upwards.
Every parameter so reaches the new stack. -/
def Gate.parameterPlaces (g : Gate) (draw : Nat) (esp : Dword) (depth : Nat) : List Dword :=
  let free := (List.range g.parameters.toNat).map (fun k =>
    frameSlot esp depth g.parameterUnit (Config.callParamSlot draw k))
  if placesApart g.parameterUnit free then free
  else (List.range g.parameters.toNat).map (fun k => esp + BitVec.ofNat 32 (g.parameterUnit * k))

/-- The copy of a gate's parameters from the stack of `s` to their places in the frame of `depth` bytes at `esp` on the
called procedure's stack (rule R143). That the first is written first, which only the record of cycles shows, is a
DESIGN CHOICE (notes/assumptions/28.md: the rule leaves the order of the copy open). -/
def State.parameterWrites (g : Gate) (esp : Dword) (depth : Nat) (s : State) : List (Dword × List Byte) :=
  List.zipWith (fun place k => (place, s.readBytes (s.parameterSource g k) g.parameterUnit))
    (g.parameterPlaces s.draws esp depth) (List.range g.parameters.toNat)

/-- The processor's reads of a gate's parameters. -/
def State.parameterReads (g : Gate) (s : State) : List (Dword × Nat) :=
  (List.range g.parameters.toNat).map (fun k => (s.parameterSource g k, g.parameterUnit))

/-- The procedure of a call gate entered: CS, EIP and the stack, and nothing of EFLAGS (rule R141). Where privilege
rises the parameters are copied to the new stack (rule R143); what else is pushed, and where, is a free frame. -/
def State.enterProcedure (g : Gate) (s : State) : Host.Outcome State Fault Refusal :=
  match s.entryStack (s.targetLevel g.selector) with
  | none => .refused .noTask
  | some stack =>
    let frame := Config.entryFrame s.draws
    let copies := s.rises (s.targetLevel g.selector)
    let depth := frame.room.toNat + (if copies then g.parameterBytes else 0)
    let reads := s.transferReads g.selector ++ (if copies then s.parameterReads g else [])
    let s1 := (s.cpuReads reads).enterAt g.selector g.entryOffset stack depth
    s1.busWrites (framePushes frame s1.gprs.esp depth
      ++ if copies then s.parameterWrites g s1.gprs.esp depth else [])

/-- A procedure call through the call gate at `a` (rules R141 to R143). `admits` is the parameter
`CallGateAdmits(CPL, G, target segment)` of rules R4 and R142, on CPL, the raw gate and the raw target
segment descriptor. Refused where the spec gives no meaning: not a call gate, a call `admits` does not admit,
a target less privileged than the caller (rule R142: never made), a needed TSS there is none of, a
region off its boundary. The call goes on outside protected mode too where the level does not rise (a rise needs a TSS,
which protected mode alone has): what differs between the modes is not in the source (rule R201), DESIGN CHOICE
(notes/assumptions/28.md). -/
def State.callGate (admits : BitVec 2 → Desc → Desc → Bool) (a : Dword) (s : State) :
    Host.Outcome State Fault Refusal :=
  let g := s.decodeGate a
  if s.cfg.regionsAligned then
    if g.kind = .call
        ∧ (s.targetLevel g.selector).toNat ≤ s.cpl.toNat
        ∧ admits s.cpl (s.readQword a) (s.readQword (s.locateDescriptor g.selector).2) then
      (s.cpuReads (gateReads a)).enterProcedure g
    else .refused .noGateTransfer
  else .refused .arrMisaligned

/-- A transfer of control to a selector that refers to a gate in the GDT or the LDT (rules R93, R140 and R146): a
call through a call gate, or, the interrupted task to resume at `ret`, a task switch through a task gate, whose
OFFSET and PARAMETERS are not used. An interrupt or trap gate "can only be located in the IDT" (U28). -/
def State.gateTransfer (admits : BitVec 2 → Desc → Desc → Bool) (f : TaskFunction) (sel : Word) (ret : Dword)
    (s : State) : Host.Outcome State Fault Refusal :=
  let a := (s.locateDescriptor sel).2
  let g := s.decodeGate a
  if s.cfg.regionsAligned then
    match g.kind with
    | .call => s.callGate admits a
    | .task => (s.cpuReads (gateReads a)).taskSwitch f g.selector ret
    | .interrupt => .refused .noGateTransfer
    | .trap => .refused .noGateTransfer
    | .notAGate => .refused .noGateTransfer
  else .refused .arrMisaligned

end Sys2Proof.Machine
end

