-- ==== Sys2Proof/Machine/Control.lean ====
section
/-! DEFINITION. HLT, CPUID, INT 3 and LOOP (spec/43_other_named_instructions.md). -/

namespace Sys2Proof.Machine

/-- `HLT` (rule R180): halted, and in suspend mode where CCR2.SUSP_HLT is set. It is privileged, CPL 0 in
protected mode; that the other case raises general protection is PRESUMED (notes/assumptions/15.md). -/
def execHlt (s : State) : Host.Outcome State Fault Refusal :=
  if s.pmode && s.cpl != 0 then .next (s.raise .generalProtection s.eip)
  else .next (State.advance 1 { s with
    runState := .halted
    powerState := if s.cfg.suspHlt then .suspend else s.powerState })

/-- `CPUID` (rule R181): InvalidOpcode while CCR4.CPUID = 0. Otherwise "the instruction executes but what it
returns, and in which registers, is not in the source": every general register is a free value
(notes/assumptions/8.md). The exception's return address is the instruction's own (DESIGN CHOICE,
notes/assumptions/38.md). -/
def execCpuid (s : State) : Host.Outcome State Fault Refusal :=
  if s.cfg.cpuidEnabled then
    let d := fun k => Config.freeDword (s.draws + k)
    .next (State.advance 2 { s with
      gprs := ⟨d 0, d 1, d 2, d 3, d 4, d 5, d 6, d 7⟩
      draws := s.draws + 8 })
  else .next (s.raise .invalidOpcode s.eip)

/-- `INT 3` (rule R183): Breakpoint is raised; the return address is that of the next byte. -/
def execInt3 (s : State) : Host.Outcome State Fault Refusal :=
  .next (s.raise .breakpoint (s.eip + 1))

/-- `LOOP rel8` (rule R184): ECX decremented modulo 2^32; the branch taken while it is not zero. -/
def execLoopRel8 (cb : Byte) (s : State) : Host.Outcome State Fault Refusal :=
  let ecx := s.gprs.ecx - 1
  let next := s.eip + 2
  .next { State.setReg .ecx ecx s with eip := if ecx ≠ 0 then next + cb.signExtend 32 else next }

end Sys2Proof.Machine
end

