-- ==== Sys2Proof/Machine/Moves.lean ====
section
/-! DEFINITION. The helper instructions MOV, AND and OR (spec/30_encoding.md rule R138). -/

namespace Sys2Proof.Machine

/-- `MOV AL, imm8`: `AL <- ib`. -/
def execMovAlImm8 (ib : Byte) (s : State) : Host.Outcome State Fault Refusal :=
  .next (State.advance 2 (State.setReg8 .al ib s))

/-- `MOV r/m8, r8`: the register named by rm `<-` the register named by reg. -/
def execMovRm8R8 (rm reg : Reg8) (s : State) : Host.Outcome State Fault Refusal :=
  .next (State.advance 2 (State.setReg8 rm (s.gprs.get8 reg) s))

/-- `MOV EAX, imm32`: `EAX <- id`. -/
def execMovEaxImm32 (id : Dword) (s : State) : Host.Outcome State Fault Refusal :=
  .next (State.advance 5 (State.setReg .eax id s))

/-- `MOV ECX, imm32`: `ECX <- id`. -/
def execMovEcxImm32 (id : Dword) (s : State) : Host.Outcome State Fault Refusal :=
  .next (State.advance 5 (State.setReg .ecx id s))

/-- `AND AL, imm8`: `AL <- AL AND ib`; arithmetic flags written. -/
def execAndAlImm8 (ib : Byte) (s : State) : Host.Outcome State Fault Refusal :=
  .next (State.advance 2 (State.setReg8 .al (s.al &&& ib) s.writeArithFlags))

/-- `OR AL, imm8`: `AL <- AL OR ib`; arithmetic flags written. -/
def execOrAlImm8 (ib : Byte) (s : State) : Host.Outcome State Fault Refusal :=
  .next (State.advance 2 (State.setReg8 .al (s.al ||| ib) s.writeArithFlags))

end Sys2Proof.Machine
end

