-- ==== Sys2Proof/Machine/PortIo.lean ====
section
/-! DEFINITION. The byte forms of IN and OUT (spec/42_config_register_access.md rule R173). -/

namespace Sys2Proof.Machine

/-- `port = zext_16(ib)` (rule R134). -/
def immPort (port : Nat) : Word := BitVec.ofNat 16 port

/-- `AL <- IoRead8(port)`, the instruction being `len` bytes long (rule R173). -/
def State.inAl (len : Nat) (port : Word) (s : State) : State :=
  let r := s.ioRead port
  State.advance len (State.setReg8 .al r.2 r.1)

/-- `IoWrite8(port, AL)`, the instruction being `len` bytes long (rule R173). -/
def State.outAl (len : Nat) (port : Word) (s : State) : Host.Outcome State Fault Refusal :=
  match s.ioWrite port s.al with
  | .next t => .next (t.advance len)
  | .fault why => .fault why
  | .refused why => .refused why

/-- `IN AL, imm8`. -/
def execInAlImm8 (port : Nat) (s : State) : Host.Outcome State Fault Refusal :=
  .next (s.inAl 2 (immPort port))

/-- `IN AL, DX`. -/
def execInAlDx (s : State) : Host.Outcome State Fault Refusal := .next (s.inAl 1 s.dx)

/-- `OUT imm8, AL`. -/
def execOutImm8Al (port : Nat) (s : State) : Host.Outcome State Fault Refusal :=
  s.outAl 2 (immPort port)

/-- `OUT DX, AL`. -/
def execOutDxAl (s : State) : Host.Outcome State Fault Refusal := s.outAl 1 s.dx

end Sys2Proof.Machine
end

