-- ==== Sys2Proof/Machine/TaskRegister.lean ====
section
/-! DEFINITION. LTR and STR (spec/41_task_register.md). -/

namespace Sys2Proof.Machine

/-- The conditions LTR tests before it reads its operand: protected mode, then CPL 0 (rule R150). -/
def State.ltrAccessFault (s : State) : Option TrReason :=
  if s.pmode then (if s.cpl = 0 then none else some .privilege) else some .notProtectedMode

/-- TR loaded from a selector (rule R150 from `LocateDescriptor` on), the instruction being `len` bytes
long; a failed condition raises TrFault, which writes no TR (rules R154 and R194), with the instruction's own address
to return to (DESIGN CHOICE, notes/assumptions/38.md). -/
def State.loadTr (len : Nat) (sel : Word) (s : State) : Host.Outcome State Fault Refusal :=
  match s.locateDescriptor sel with
  | (.ldt, _) => .next (s.raise (.trFault .notInGdt) s.eip)
  | (.gdt, a) =>
    if s.cfg.regionsAligned then
      let s1 := s.cpuRead a 8
      let desc := s1.readQword a
      if isTssDescriptor desc then .next (State.advance len { s1 with tr := ⟨sel, desc⟩ })
      else .next (s1.raise (.trFault .notATss) s1.eip)
    else .refused .arrMisaligned

/-- `LTR r16` (rule R150). -/
def execLtrR16 (rm : GReg) (s : State) : Host.Outcome State Fault Refusal :=
  match s.ltrAccessFault with
  | some why => .next (s.raise (.trFault why) s.eip)
  | none => s.loadTr 3 (s.gprs.get16 rm)

/-- `LTR m16` (rule R150): the selector is the word at the displacement. -/
def execLtrM16 (disp : Dword) (s : State) : Host.Outcome State Fault Refusal :=
  match s.ltrAccessFault with
  | some why => .next (s.raise (.trFault why) s.eip)
  | none =>
    if s.cfg.regionsAligned then State.loadTr 7 (s.readWord disp) (s.readCycle disp 2)
    else .refused .arrMisaligned

/-- `STR m16` (rule R151): allowed at every CPL. -/
def execStrM16 (disp : Dword) (s : State) : Host.Outcome State Fault Refusal :=
  if s.pmode then
    match s.store disp (wordBytes s.tr.sel) with
    | .next t => .next (t.advance 7)
    | .fault why => .fault why
    | .refused why => .refused why
  else .next (s.raise (.trFault .notProtectedMode) s.eip)

/-- `STR r` with a 32-bit register destination: TR.sel in the low half; the high half, which rule R151
says the source does not specify, is a free value (notes/assumptions/7.md). -/
def execStrR (rm : GReg) (s : State) : Host.Outcome State Fault Refusal :=
  if s.pmode then
    .next (State.advance 3 (State.setReg rm (freeHigh s.draws s.tr.sel) { s with draws := s.draws + 1 }))
  else .next (s.raise (.trFault .notProtectedMode) s.eip)

end Sys2Proof.Machine
end

