-- ==== Sys2Proof/Machine/Dispatch.lean ====
section
/-! DEFINITION. The meaning of each instruction: one arm per constructor of `Instr`. -/

namespace Sys2Proof.Machine

def exec (i : Instr) (s : State) : Host.Outcome State Fault Refusal :=
  match i with
  | .ltrR16 rm => Sys2Proof.Machine.execLtrR16 rm s
  | .ltrM16 disp => Sys2Proof.Machine.execLtrM16 disp s
  | .strM16 disp => Sys2Proof.Machine.execStrM16 disp s
  | .strR rm => Sys2Proof.Machine.execStrR rm s
  | .inAlImm8 port => Sys2Proof.Machine.execInAlImm8 port s
  | .inAlDx => Sys2Proof.Machine.execInAlDx s
  | .outImm8Al port => Sys2Proof.Machine.execOutImm8Al port s
  | .outDxAl => Sys2Proof.Machine.execOutDxAl s
  | .hlt => Sys2Proof.Machine.execHlt s
  | .cpuid => Sys2Proof.Machine.execCpuid s
  | .int3 => Sys2Proof.Machine.execInt3 s
  | .loopRel8 cb => Sys2Proof.Machine.execLoopRel8 cb s
  | .movAlImm8 ib => Sys2Proof.Machine.execMovAlImm8 ib s
  | .movRm8R8 rm reg => Sys2Proof.Machine.execMovRm8R8 rm reg s
  | .movEaxImm32 id => Sys2Proof.Machine.execMovEaxImm32 id s
  | .movEcxImm32 id => Sys2Proof.Machine.execMovEcxImm32 id s
  | .andAlImm8 ib => Sys2Proof.Machine.execAndAlImm8 ib s
  | .orAlImm8 ib => Sys2Proof.Machine.execOrAlImm8 ib s

end Sys2Proof.Machine
end

