-- ==== Sys2Proof/Machine/Fetch.lean ====
section
/-! DEFINITION. What a step does around an instruction: the input pins at the instruction boundary, the
fetch, the execution breakpoints before and the debug exception after it
(spec/43_other_named_instructions.md rule R185, spec/60_exceptions.md). -/

namespace Sys2Proof.Machine

/-- What a step has come to before an instruction runs: it is over, or an instruction of `len` bytes is to
run at a state. -/
inductive Prepared where
  | settled (o : Host.Outcome State Fault Refusal)
  | execute (i : Instr) (len : Nat) (s : State)

/-- The state at the start of a step. The write-gather buffer may be emitted here, as at any time before a stated
condition asks for it (rule R122). -/
def State.begin (s : State) : State := State.emitEarly { s with lastEvent := none }

/-- What a step that goes on ends with: what waits in the write-gather buffer may still leave in the same step, after
every access of it (rule R122: "at any earlier time"). -/
def closeStep (o : Host.Outcome State Fault Refusal) : Host.Outcome State Fault Refusal :=
  andThen o fun t => .next t.emitEarly

/-- The linear address of the next instruction (rules R62, R132, R141). -/
def State.fetchAddress (s : State) : Dword := s.csBase + s.eip

/-- The bytes at the program counter, as many as the longest instruction has. They are the bytes memory holds now,
so that every earlier store is seen by the fetch: the spec does not say whether it is (rule R125), DESIGN CHOICE
(notes/assumptions/37.md). -/
def State.fetchBytes (s : State) : List Byte := s.readBytes s.fetchAddress maxInstrLength

/-- The bus side of the fetch of an instruction of `len` bytes: an external cycle where no cache can hold the
address, none elsewhere (rule R124, notes/assumptions/21.md). What waits in the write-gather buffer may leave after that
cycle as well, before any cycle of the instruction, an I/O cycle among them (rule R122: "at any earlier time"). -/
def State.fetchCycle (len : Nat) (s : State) : State :=
  if s.alwaysExternal s.fetchAddress then (s.readCycle s.fetchAddress len).emitEarly else s

/-- The refusal that answers a byte sequence that is no instruction (rules R136 and R174). -/
def State.rejectRefusal (s : State) : Reject → Refusal
  | .unknownOpcode => .unknownOpcode
  | .truncated => .unknownOpcode
  | .wideIo (some ib) => if wideCoversConfigPort (ib.zeroExtend 16) then .wideConfigAccess else .unknownOpcode
  | .wideIo none => if wideCoversConfigPort s.dx then .wideConfigAccess else .unknownOpcode

/-- The execution of the instruction at the program counter, as an access: a breakpoint matches only the first
byte of an instruction (rule R211). -/
def State.executeAccess (s : State) : Access := ⟨.execute, s.fetchAddress, 1⟩

/-- The data accesses an instruction that begins at a state makes (rule R211): LTR reads its operand once protected
mode and CPL 0 have been tested, STR writes its in protected mode (rules R150, R151). The processor's own accesses to
descriptors are none: rule R86 tells them apart from data accesses. -/
def State.dataAccesses (s : State) : Instr → List Access
  | .ltrR16 _ => []
  | .ltrM16 disp => if s.ltrAccessFault = none then [⟨.read, disp, 2⟩] else []
  | .strM16 disp => if s.pmode then [⟨.write, disp, 2⟩] else []
  | .strR _ => []
  | .inAlImm8 _ => []
  | .inAlDx => []
  | .outImm8Al _ => []
  | .outDxAl => []
  | .hlt => []
  | .cpuid => []
  | .int3 => []
  | .loopRel8 _ => []
  | .movAlImm8 _ => []
  | .movRm8R8 _ _ => []
  | .movEaxImm32 _ => []
  | .movEcxImm32 _ => []
  | .andAlImm8 _ => []
  | .orAlImm8 _ => []

/-- The instruction at the program counter fetched and decoded. Refused: a DR7 code "Not used" (rule R59),
a region in force off its boundary (rule R104), bytes of no row (rule R136). A debug exception due from a task
switch is raised before the instruction where the switch has it so (rule R147 (e)); an enabled execution breakpoint
raises Debug before it (rule R191 (b)). Bytes of no row are refused whatever the breakpoints: the spec gives no order
between the two, DESIGN CHOICE (notes/assumptions/20.md). So is the order of the other two on a new task's first
instruction, which rule R202 does not give: an exception due before it reports BT without the breakpoint's Bi, and the
breakpoint's own exception follows; of one due after it the breakpoint's exception reports BT, before the instruction
(notes/assumptions/20.md). -/
def State.fetch (s : State) : Prepared :=
  if s.dbg.codesUsed then
    if s.cfg.regionsAligned then
      if s.trapNow then .settled (.next (s.raiseDebug ⟨[], false, false⟩ s.eip))
      else match decode s.fetchBytes with
      | .error why => .settled (.refused (s.rejectRefusal why))
      | .ok (i, len) =>
        let s1 := s.fetchCycle len
        if s.dbg.hit [s.executeAccess] then
          .settled (.next (s1.raiseDebug ⟨[s.executeAccess], false, false⟩ s.eip))
        else .execute i len s1
    else .settled (.refused .arrMisaligned)
  else .settled (.refused .dr7CodeNotUsed)

/-- The event of a `raised` state, whose entry had no meaning when it was raised, delivered once more. -/
def State.redeliver (ev : Event) (ret : Dword) (s : State) : Host.Outcome State Fault Refusal :=
  State.deliver ev ret { s with lastEvent := some ev }

/-- Whether the CPU runs instructions (rules R180 and R209). -/
def State.isRunning (s : State) : Bool := decide (s.runState = .running) && decide (s.powerState = .normal)

/-- The step without an input to answer: an instruction where the CPU runs; a halted or suspended CPU stays
as it is (D31); a raised event is delivered. -/
def State.proceed (s : State) : Prepared :=
  match s.runState with
  | .raised ev ret => .settled (s.redeliver ev ret)
  | .halted => .settled (.next s)
  | .running => if s.powerState = .normal then s.fetch else .settled (.next s)

/-- An input taken: the SMI service routine, or the handler of an NMI or of a hardware interrupt, the latter
after its interrupt acknowledge cycle (rules R195 to R197). That one request makes one such cycle is a DESIGN CHOICE:
the spec gives no number (notes/assumptions/23.md). The address a handler returns to is that of the instruction that
would have run next (DESIGN CHOICE, notes/assumptions/38.md). -/
def State.accept (i : Input) (s : State) : State :=
  match i with
  | .smi => s.enterSmm
  | .nmi => s.raise .nmi s.eip
  | .interrupt v => (s.emit (s.intAckCycle v)).raise (.hardwareInterrupt v) s.eip
  | .susp => { s with powerState := .suspend }
  | .reset => s.resetPin

/-- A request the CPU recognizes for certain while it runs instructions (`certain`), and otherwise as the
rules outside the spec provide: recognized, held or dropped, a free choice (rules R195 to R197, D31). A request that
is held waits behind every input still to come: the spec gives no order among pending requests, DESIGN CHOICE
(notes/assumptions/18.md). -/
def State.request (i : Input) (certain : Bool) (s : State) : Prepared :=
  let s1 := { s with draws := s.draws + 1 }
  match if certain && s.isRunning then .recognized else Config.interruptOutcome s.draws with
  | .recognized => .settled (.next (s1.accept i))
  | .held => State.proceed { s1 with inputs := s.inputs ++ [i] }
  | .dropped => s1.proceed

/-- The step with an input to answer, already taken from the list (rules R195 to R197, R209, R215). An NMI held during
SMI service waits behind the inputs still to come, as any held request does (DESIGN CHOICE, notes/assumptions/18.md). -/
def State.answer (i : Input) (s : State) : Prepared :=
  match i with
  | .reset => .settled (.next (s.accept .reset))
  | .susp => if s.cfg.useSusp then .settled (.next (s.accept .susp)) else s.proceed
  | .smi => if s.cfg.smiRecognized then s.request .smi true else s.proceed
  | .interrupt v => s.request (.interrupt v) false
  | .nmi =>
    if s.inSmi then
      if s.cfg.nmiEn then s.request .nmi true
      else if Config.nmiHeld s.draws then
        State.proceed { s with inputs := s.inputs ++ [.nmi], draws := s.draws + 1 }
      else State.proceed { s with draws := s.draws + 1 }
    else s.request .nmi false

/-- Everything a step does before an instruction runs. In a `raised` state only RESET is answered before
the event is. -/
def State.prepare (s : State) : Prepared :=
  let s0 := s.begin
  match s0.inputs with
  | [] => s0.proceed
  | i :: rest =>
    match i, s0.runState with
    | .reset, _ => State.answer .reset { s0 with inputs := rest }
    | _, .raised _ _ => s0.proceed
    | i, _ => State.answer i { s0 with inputs := rest }

/-- Whether the instruction a step ran was executed: it raised no event, or it is the software interrupt INT 3. A
faulting instruction "is not executed" (rule R192). -/
def State.executed (t : State) : Bool := decide (t.lastEvent = none) || decide (t.lastEvent = some .breakpoint)

/-- What an instruction that began at `s` and ran to `t` gives a debug exception after it: the conditions of its
execution and its data accesses, and single step (rules R185, R191 and R211). -/
def State.instructionCause (i : Instr) (s t : State) : DebugCause :=
  ⟨s.executeAccess :: s.dataAccesses i, s.tf && t.executed, false⟩

/-- What a step does after an instruction that began at `s` has run to `t`. A debug exception that was due when it
began comes now, with all causes (rules R147 (e) and R202). One its own task switch has made due takes the
instruction's causes, and comes with the next step. Otherwise: nothing if it raised an event itself; Debug if TF was
1 or an enabled data breakpoint's condition occurred (rules R185 and R191). The debug exception so comes in the
instruction's own step, before any input that waits at the same boundary: rule R202 gives no order between the two,
DESIGN CHOICE (notes/assumptions/18.md). It reports this instruction's causes alone, without the Bi of an enabled
execution breakpoint on the next instruction, whose own exception comes in a later entry, before that instruction:
rule R202 gives no order between these two either, DESIGN CHOICE (notes/assumptions/20.md). Where one was due and the
instruction raised an event of its own, the event's handler is entered first and the debug exception then raised from
there in the same step, before the handler's first instruction: rules R147 and R202 give no order here either, DESIGN
CHOICE (notes/assumptions/20.md). -/
def State.finish (i : Instr) (s t : State) : State :=
  let cause := State.instructionCause i s t
  match t.runState, t.debugDue, t.lastEvent with
  | .raised _ _, _, _ => t
  | _, some due, _ =>
    if s.debugDue.isSome then t.raiseDebug cause t.eip
    else { t with debugDue := some { due with cause := due.cause.merge cause } }
  | _, none, some _ => t
  | _, none, none =>
    if s.tf || t.dbg.hit (s.dataAccesses i) then t.raiseDebug cause t.eip else t

/-- The bytes of an instruction stored where the next fetch reads them. -/
def State.storeFetchBytes (bs : List Byte) (s : State) : State := s.writeBytes s.fetchAddress bs

end Sys2Proof.Machine
end

