-- ==== Sys2Proof/Machine/Step.lean ====
section
/-! DEFINITION. One step of the machine. -/

namespace Sys2Proof.Machine

/-- One step: an input answered, or one instruction run, with the debug exception that follows it. -/
def step (s : State) : Host.Outcome State Fault Refusal :=
  match s.prepare with
  | .settled o => closeStep o
  | .execute i _ s1 => closeStep (andThen (exec i s1) fun t => .next (State.finish i s1 t))

/-- `s` with an instruction (`nbits` bits of `w`, byte k at bits 8k+7 to 8k, zeros above) stored where the
next fetch reads. -/
def State.withFetchWord (s : State) (nbits w : Nat) : State := s.storeFetchBytes (tableWordBytes nbits w)

end Sys2Proof.Machine
end

