-- ==== Sys2Proof/Safety.lean ====
section
/-! DEFINITION. What counts as a good state and a safe step, in the terms the claims use. -/

namespace Sys2Proof.Machine

/-- The reserved bits of the configuration registers are stored as 0
(spec/10_state.md rule R55, spec/92_eei_decisions.md D3). -/
def CfgRegs.reservedZero (c : CfgRegs) : Bool :=
  c.ccr0 &&& 0xFD == 0 && c.ccr1 &&& 0x69 == 0 && c.ccr2 &&& 0x61 == 0 && c.ccr3 &&& 0x08 == 0
    && c.ccr4 &&& 0x68 == 0 && c.ccr5 &&& 0xCC == 0
    && CfgRegs.regions.all (fun i => c.rcr i &&& 0xC0 == 0)

/-- The configuration registers are in a state the spec gives a meaning to: reserved bits 0, MAPEN 0h or
1h (rules R30 and R161), USE_SMI only with SM3 (rule R16). -/
def CfgRegs.legal (c : CfgRegs) : Bool :=
  c.reservedZero && decide (c.mapen.toNat ≤ 1) && (!c.useSmi || c.sm3)

/-- The write-gather buffer holds 1 to 7 bytes of one aligned 8-byte window (rule R122: at 8 it is
emitted). -/
def GatherBuffer.legal (g : GatherBuffer) : Bool :=
  decide (1 ≤ g.bytes.length) && decide (g.start.toNat % 8 + g.bytes.length ≤ 8) && decide (g.bytes.length < 8)

/-- What every step keeps: both memories in canonical form, the configuration registers legal, no DR7 code
"Not used", the write-gather buffer legal. -/
def State.good (s : State) : Bool :=
  s.mem.wf && s.smm.wf && s.cfg.legal && s.dbg.codesUsed && s.gather.all GatherBuffer.legal

/-- A step that goes on. -/
def State.stepSafe (s : State) : Prop := ∃ t, step s = .next t

/-! ## Vocabulary of the claims about ports (spec/42_config_register_access.md) -/

/-- `i` is a byte form of OUT that addresses `port` in `s` (rule R173). -/
def State.outsTo (s : State) (i : Instr) (port : Word) : Prop :=
  (∃ p, i = .outImm8Al p ∧ p < 256 ∧ p = port.toNat) ∨ (i = .outDxAl ∧ s.gprs.edx.extractLsb' 0 16 = port)

/-- `i` is a byte form of IN that addresses `port` in `s` (rule R173). -/
def State.insFrom (s : State) (i : Instr) (port : Word) : Prop :=
  (∃ p, i = .inAlImm8 p ∧ p < 256 ∧ p = port.toNat) ∨ (i = .inAlDx ∧ s.gprs.edx.extractLsb' 0 16 = port)

/-- An index of C0h to CFh, FEh or FFh, or any index while MAPEN = 1h (rule R161). -/
def State.indexAccessible (s : State) (idx : Byte) : Prop :=
  (0xC0 ≤ idx.toNat ∧ idx.toNat ≤ 0xCF) ∨ idx = 0xFE ∨ idx = 0xFF ∨ s.cfg.ccr3.extractLsb' 4 4 = 1

/-- The external I/O cycle of one byte at a port that a state records next (rule R124). Its LBA# pin, which the
spec gives for memory accesses only, is a free value (notes/assumptions/23.md). -/
def State.ioEvent (s : State) (kind : CycleKind) (port : Word) (v : Byte) : BusEvent where
  kind := kind
  address := port.zeroExtend 32
  bytes := [v]
  locked := false
  lock := false
  lba := Config.ioLba s.events.length
  attrs := none

/-! ## Vocabulary of the claims about memory -/

/-- A cycle of a kind that carries bytes at an address, executed unlocked (rules R119 and R124). -/
def BusEvent.carries (e : BusEvent) (kind : CycleKind) (a : Dword) (bs : List Byte) : Prop :=
  e.kind = kind ∧ e.address = a ∧ e.bytes = bs ∧ e.locked = false ∧ e.lock = false

/-- The bytes of a write, each with its address. -/
def cells (a : Dword) : List Byte → List (Dword × Byte)
  | [] => []
  | b :: bs => (a, b) :: cells (a + 1) bs

/-- The bytes a cycle carries, each with its address. -/
def BusEvent.cells (e : BusEvent) : List (Dword × Byte) := Machine.cells e.address e.bytes

/-- The bytes that wait in the write-gather buffer, each with its address. -/
def State.waitingCells (s : State) : List (Dword × Byte) :=
  match s.gather with
  | none => []
  | some g => cells g.start g.bytes

/-- `t` is `s` but for the write-gather buffer, the record of bus cycles and the draw counter: no register, no
byte of memory and no configuration register differs. -/
def State.sameButBus (s t : State) : Prop :=
  t = { s with gather := t.gather, events := t.events, draws := t.draws }

/-! ## Vocabulary of the claims about events -/

/-- What the IDT entry of a vector is (rule R198: the descriptor at `idt_base + 8 * vector`). -/
def State.idtKind (s : State) (v : Byte) : GateKind :=
  (s.decodeGate (s.idt.base + 8 * BitVec.ofNat 32 v.toNat)).kind

/-- `depth` bytes of a frame: what a free frame takes and what the spec says is saved besides. -/
def frameDepth (n saved : Nat) : Nat := (Config.entryFrame n).room.toNat + saved

/-- A write by the processor cannot end in the fault of `WPR1_WRITE_EFFECT` (rule R116). -/
def State.writesGoOn (s : State) : Prop := s.cfg.ccr2.getLsbD 4 = false ∨ Config.wpr1WriteEffect ≠ .fault

end Sys2Proof.Machine
end

