-- ==== Sys2Proof/Certificates/Slice0/Obligations.lean ====
section
/-! DEFINITION. The statements for the provers. Each names what it states; its docstring names the rules of spec/
it formalises, and the log entry where it rests on a choice of the model. -/

open Sys2Proof Sys2Proof.Machine

/-! ## Encoding -/

/-- Every well-formed instruction's encoding, whatever follows it in memory, decodes to that instruction with
every operand, and to its length (rules R132, R133, R138). -/
def Obligations.DecodeInvertsEncode : Prop :=
  ∀ (i : Instr) (rest : List Byte), i.WellFormed = true → decode (encode i ++ rest) = .ok (i, i.length)

/-- Every byte sequence the decoder accepts begins with the encoding of the instruction it reads: each
instruction has one encoding, and no bit of it is dropped or misread (rules R132, R133, R138). -/
def Obligations.EncodeInvertsDecode : Prop :=
  ∀ (bs : List Byte) (i : Instr) (n : Nat), decode bs = .ok (i, n) →
    i.WellFormed = true ∧ n = i.length ∧ bs = encode i ++ bs.drop n

/-- The words the spec writes out decode to the instructions it says they are: LTR AX and STR word [disp32]
(rule R133), MOV AL, C3h with OUT 22h, AL (rule R173), MOV AH, AL and MOV AL, AH (rule R138), CPUID (rule R132 and
program G of spec/95_test_vectors.md), and the bytes of programs B, D and E there, HLT and LOOP among them. -/
def Obligations.SpelledWordsDecode : Prop :=
  decode [0x0F, 0x00, 0xD8] = .ok (.ltrR16 .eax, 3)
  ∧ decode [0x0F, 0x00, 0x0D, 0x00, 0x20, 0x00, 0x00] = .ok (.strM16 0x00002000, 7)
  ∧ decode [0xB0, 0xC3, 0xE6, 0x22] = .ok (.movAlImm8 0xC3, 2)
  ∧ decode [0xE6, 0x22] = .ok (.outImm8Al 0x22, 2)
  ∧ decode [0xE4, 0x23] = .ok (.inAlImm8 0x23, 2)
  ∧ decode [0x88, 0xC4] = .ok (.movRm8R8 .ah .al, 2)
  ∧ decode [0x88, 0xE0] = .ok (.movRm8R8 .al .ah, 2)
  ∧ decode [0x24, 0x07] = .ok (.andAlImm8 0x07, 2)
  ∧ decode [0xB9, 0x03, 0x00, 0x00, 0x00] = .ok (.movEcxImm32 3, 5)
  ∧ decode [0xE2, 0xFE] = .ok (.loopRel8 0xFE, 2)
  ∧ decode [0x0F, 0xA2] = .ok (.cpuid, 2)
  ∧ decode [0xF4] = .ok (.hlt, 1)

/-- Bytes at the program counter that no row of the table selects are refused: as an unknown opcode, or, for some
word and doubleword forms of IN and OUT, as one that covers port 22h or 23h. Every prefixed form and every word or
doubleword form of IN and OUT is among the refused ones (rule R136). That a doubleword form on ports p to p+3 that
take in port 22h or 23h has the name of rule R174, where R136 names these first bytes unknown opcodes, is the
model's deduction (notes/assumptions/31.md); the word forms are prefixed forms. That no debug exception of a task
switch comes first is a premise. That such bytes are refused also where an enabled execution breakpoint stands on
them, before it is reported, is the model's choice (DESIGN CHOICE, notes/assumptions/20.md). -/
def Obligations.UnlistedBytesRefused : Prop :=
  (∀ s : State, s.inputs = [] → s.runState = .running → s.powerState = .normal → s.dbg.codesUsed = true →
    s.cfg.regionsAligned = true →
    s.trapNow = false →
    ((∀ r ∈ opcodeTable, r.selects s.fetchBytes = false) →
      step s = .refused .unknownOpcode
        ∨ (s.readByte s.fetchAddress = 0xE5 ∨ s.readByte s.fetchAddress = 0xE7
            ∨ s.readByte s.fetchAddress = 0xED ∨ s.readByte s.fetchAddress = 0xEF)
          ∧ step s = .refused .wideConfigAccess)
    ∧ (s.readByte s.fetchAddress = 0xE5 ∨ s.readByte s.fetchAddress = 0xE7 →
        0x1F ≤ (s.readByte (s.fetchAddress + 1)).toNat → (s.readByte (s.fetchAddress + 1)).toNat ≤ 0x23 →
        step s = .refused .wideConfigAccess)
    ∧ (s.readByte s.fetchAddress = 0xED ∨ s.readByte s.fetchAddress = 0xEF →
        0x1F ≤ s.gprs.edx.toNat % 0x10000 → s.gprs.edx.toNat % 0x10000 ≤ 0x23 →
        step s = .refused .wideConfigAccess))
  ∧ ∀ (b : Byte) (rest : List Byte),
      b ∈ [0x26, 0x2E, 0x36, 0x3E, 0x64, 0x65, 0x66, 0x67, 0xF0, 0xF2, 0xF3, 0xE5, 0xE7, 0xED, 0xEF] →
      ∀ r ∈ opcodeTable, r.selects (b :: rest) = false

/-! ## The step -/

/-- A step of a CPU that runs instructions, with no input waiting and no debug exception to take first, runs the
instruction its program counter holds, from the state after its fetch, and then what `State.finish` adds. That state
is the one the step begins with (`State.begin`: the event of the last step forgotten; the write-gather buffer as it
was or, as rule R122 allows, emitted), but for the read cycle of the fetch where no cache can hold the address
(notes/assumptions/21.md), after which, too, what waits may leave. At the end of the step, as at its start, what then
waits in the buffer stays or leaves as one write cycle (rule R122: "at any earlier time"; notes/assumptions/24.md). -/
def Obligations.StepRunsDecodedInstruction : Prop :=
  ∀ (s : State) (i : Instr) (len : Nat), s.inputs = [] → s.runState = .running → s.powerState = .normal →
    s.dbg.codesUsed = true →
    s.cfg.regionsAligned = true → s.trapNow = false → decode s.fetchBytes = .ok (i, len) →
    s.dbg.hit [s.executeAccess] = false →
    (step s = match exec i (s.begin.fetchCycle len) with
      | .next t => .next (State.finish i (s.begin.fetchCycle len) t).emitEarly
      | .fault why => .fault why
      | .refused why => .refused why)
    ∧ s.begin = State.emitEarly { s with lastEvent := none }
    ∧ (∀ t : State, (t.gather = none → t.emitEarly = t)
      ∧ ∀ g, t.gather = some g → t.emitEarly = { t with draws := t.draws + 1 }
        ∨ ∃ e, t.emitEarly = { t with gather := none, events := t.events ++ [e], draws := t.draws + 1 }
            ∧ e.carries .memWrite g.start g.bytes)
    ∧ State.sameButBus s.begin (s.begin.fetchCycle len)
    ∧ (s.cfg.cacheable true s.fetchAddress = true → s.begin.fetchCycle len = s.begin)
    ∧ (s.gather = none → s.cfg.cacheable true s.fetchAddress = false →
        ∃ e, (s.begin.fetchCycle len).events = s.events ++ [e]
          ∧ e.carries .memRead s.fetchAddress (s.readBytes s.fetchAddress len))

/-- After an instruction that raised no event itself: if EFLAGS.TF was 1 when it began, or it made a data access an
enabled breakpoint's condition describes, or a debug exception of the task switch before it is still due, ONE debug
exception follows before the next instruction, with every cause that occurred: BS for the single step, Bi for each
condition, BT for the task switch; GD, bit 13 of DR7, is cleared. Otherwise the step is the instruction alone, and what
may leave the write-gather buffer (rules R147 (e), R185, R191 and R202). That a data breakpoint's exception comes after
the instruction the source does not say: it is general knowledge (entry G24; DEDUCED, notes/assumptions/20.md); and
that a task switch's comes after this one where it is still due is the task-switch function's
(notes/assumptions/16.md). That it comes before, and without the Bi of, an enabled execution breakpoint on the next
instruction is the model's choice (notes/assumptions/20.md: rule R202 gives no order). -/
def Obligations.DebugAfterInstruction : Prop :=
  ∀ (s : State) (i : Instr) (len : Nat) (t : State), s.inputs = [] → s.runState = .running → s.powerState = .normal →
    s.dbg.codesUsed = true → s.cfg.regionsAligned = true → s.trapNow = false →
    decode s.fetchBytes = .ok (i, len) → s.dbg.hit [s.executeAccess] = false →
    exec i (s.begin.fetchCycle len) = .next t → t.lastEvent = none →
    (s.eflags.getLsbD 8 = true ∨ t.dbg.hit (s.dataAccesses i) = true ∨ s.debugDue ≠ none →
      ∃ u, step s = .next u ∧ u.lastEvent = some .debug ∧ u.dbg.dr7.getLsbD 13 = false
        ∧ (s.eflags.getLsbD 8 = true → u.dbg.dr6.getLsbD 14 = true)
        ∧ (∀ b : Fin 4, t.dbg.occurred (s.dataAccesses i) b = true → u.dbg.dr6.getLsbD b.val = true)
        ∧ ∀ due, s.debugDue = some due →
            (due.cause.taskSwitch = true → u.dbg.dr6.getLsbD 15 = true)
            ∧ (due.cause.singleStep = true → u.dbg.dr6.getLsbD 14 = true)
            ∧ ∀ b : Fin 4, t.dbg.occurred due.cause.accesses b = true → u.dbg.dr6.getLsbD b.val = true)
    ∧ (s.eflags.getLsbD 8 = false → t.dbg.hit (s.dataAccesses i) = false → s.debugDue = none →
      step s = .next t.emitEarly)

/-- The debug exceptions BEFORE an instruction, which then has not run: the program counter to return to is its own. An
enabled execution breakpoint on the instruction at the program counter raises one (rule R191 (b); that it is before is
general knowledge, entry G24). And one that a task switch to a task with T set has left due is raised where the
switch's function has it before the first instruction of the new task, ahead of a breakpoint there: whether it has is
not in the spec (rule R147 (e), notes/assumptions/16.md), nor is that order (notes/assumptions/20.md). The address to
return to is notes/assumptions/38.md. That a breakpoint here is not part of the exception of the instruction before it,
where that has one, is notes/assumptions/20.md too. -/
def Obligations.DebugBeforeInstruction : Prop :=
  (∀ (s : State) (i : Instr) (len : Nat), s.inputs = [] → s.runState = .running → s.powerState = .normal →
    s.dbg.codesUsed = true →
    s.cfg.regionsAligned = true → s.trapNow = false → decode s.fetchBytes = .ok (i, len) →
    s.dbg.hit [s.executeAccess] = true →
    step s = .next ((s.begin.fetchCycle len).raiseDebug ⟨[s.executeAccess], false, false⟩ s.eip).emitEarly)
  ∧ ∀ (s : State) (due : DueDebug), s.inputs = [] → s.runState = .running → s.powerState = .normal →
    s.dbg.codesUsed = true →
    s.cfg.regionsAligned = true → s.debugDue = some due →
    (due.afterFirst = false → step s = .next (s.begin.raiseDebug ⟨[], false, false⟩ s.eip).emitEarly)
    ∧ (due.afterFirst = true → s.trapNow = false)
    ∧ State.trapNow { s with debugDue := none } = false

/-- A step stops while DR7 holds an R/Wi code (bits 17+4i to 16+4i) or a LENi code (bits 19+4i to 18+4i) 10b, "Not
used" (rule R59, entry U6). -/
def Obligations.Dr7NotUsedCodeRefused : Prop :=
  ∀ (s : State) (i : Fin 4), s.inputs = [] → s.runState = .running → s.powerState = .normal →
    (s.dbg.dr7.extractLsb' (16 + 4 * i.val) 2 = 2 ∨ s.dbg.dr7.extractLsb' (18 + 4 * i.val) 2 = 2) →
      step s = .refused .dr7CodeNotUsed

/-- A step stops while an enabled address region of nonzero size starts off its block boundary: refusing the first
access whose attributes are computed is the spec's decision D11 for rule R104, and that the fetch is such an access is
the model's deduction (DEDUCED, notes/assumptions/22.md). Where each such region starts on its boundary, nothing is
stopped for it. -/
def Obligations.MisalignedRegionRefused : Prop :=
  (∀ (s : State) (i : Fin 8), s.inputs = [] → s.runState = .running → s.powerState = .normal →
    s.dbg.codesUsed = true → s.cfg.arrEnabled i = true → s.cfg.size i ≠ 0 →
    (s.cfg.start i).toNat % s.cfg.blockBytes i ≠ 0 → step s = .refused .arrMisaligned)
  ∧ ∀ c : CfgRegs, (∀ i, c.arrEnabled i = true → c.size i ≠ 0 → (c.start i).toNat % c.blockBytes i = 0) →
      c.regionsAligned = true

/-! ## Reset -/

/-- After reset every configuration register byte is 00h, reserved bits included, but CCR4 = 05h; DIR0 and DIR1
hold their identification values at all times (rule R216). -/
def Obligations.ResetConfigurationRegisters : Prop :=
  (∀ r : CfgReg, r ≠ .dir0 → r ≠ .dir1 → State.reset.cfg.read r = if r = .ccr4 then 0x05 else 0x00)
  ∧ ∀ c : CfgRegs, c.read .dir0 = Config.devid ∧ c.read .dir1 = Config.sid ++ Config.rid

/-- The state after reset meets the invariant every step keeps. Its clauses about what the spec gives no reset value
rest on the model's: that DR7 holds no code "Not used" on DR7 = 0000_0400h (PRESUMED, notes/assumptions/2.md), that the
write-gather buffer and the two memories list nothing on notes/assumptions/17.md and notes/assumptions/3.md (rule R72
leaves DR7 and that buffer unspecified). -/
def Obligations.ResetStateGood : Prop := State.reset.good = true

/-- Asserting RESET, in whatever state, puts every configuration register at its reset value: SMI_LOCK is cleared and
every locked field is writable again, in any mode (rule R218). Memory stays (DESIGN CHOICE, notes/assumptions/17.md),
and so do the inputs behind RESET, a request held pending among them, and the bytes in memory that still waited in the
write-gather buffer, which is dropped (the same). -/
def Obligations.ResetPinClearsSmiLock : Prop :=
  ∀ (s : State) (rest : List Input), s.inputs = .reset :: rest →
    ∃ t, step s = .next t ∧ t.cfg = CfgRegs.reset ∧ t.cfg.ccr3.getLsbD 0 = false ∧ t.smiLocked = false
      ∧ (∀ b : Bool, State.smiLocked { t with inSmi := b } = false)
      ∧ t.inputs = rest ∧ t.mem = s.mem ∧ t.smm = s.smm

/-- In the reset state every memory access takes the defaults of an address outside every region, the fixed region
has no control in force, SMI# is ignored, SUSPA# floats, HLT would not suspend, CR0.NW can be modified and CPUID
is disabled (rule R220). -/
def Obligations.ResetMachineBehaviour : Prop :=
  (∀ (ken wbwt : Bool) (a : Dword), CfgRegs.reset.attributes ken wbwt a =
    { cacheable := ken, writeBack := ken && wbwt, gathered := false, weakLock := false, weakOrder := false,
      lba := true, writeProtected := false })
  ∧ (∀ i : Fin 8, CfgRegs.reset.inForce i = false) ∧ CfgRegs.reset.regionsAligned = true
  ∧ CfgRegs.reset.smiRecognized = false ∧ State.reset.smiact = false ∧ State.reset.suspa = none
  ∧ CfgRegs.reset.suspHlt = false ∧ CfgRegs.reset.lockNw = false ∧ CfgRegs.reset.cpuidEnabled = false
  ∧ CfgRegs.iortClocks CfgRegs.reset.iort = some 32

/-! ## What every step keeps -/

/-- THE INVARIANT: from every good state, a step that goes on ends in a good state: both memories in canonical
form, the reserved configuration bits 0, MAPEN 0h or 1h, USE_SMI only with SM3, no DR7 code "Not used", the
write-gather buffer inside one 8-byte window and never full (rules R16, R30, R55, R59, R122). -/
def Obligations.StepKeepsGood : Prop :=
  ∀ s t : State, s.good = true → step s = .next t → t.good = true

/-- SMI_LOCK, once set, stays set until RESET, in whatever mode and whatever is written; while it is set outside an
SMI service routine no step but RESET changes USE_SMI, SMAC, SM3, NMI_EN or ARR3 (rules R27 and R218). -/
def Obligations.SmiLockHoldsUntilReset : Prop :=
  ∀ s t : State, step s = .next t → s.inputs.head? ≠ some .reset → s.cfg.ccr3.getLsbD 0 = true →
    t.cfg.ccr3.getLsbD 0 = true
    ∧ (s.inSmi = false → t.cfg.ccr1.getLsbD 1 = s.cfg.ccr1.getLsbD 1 ∧ t.cfg.ccr1.getLsbD 2 = s.cfg.ccr1.getLsbD 2
      ∧ t.cfg.ccr1.getLsbD 7 = s.cfg.ccr1.getLsbD 7
        ∧ t.cfg.ccr3.getLsbD 1 = s.cfg.ccr3.getLsbD 1 ∧ t.cfg.arr 3 = s.cfg.arr 3)

/-- The configuration registers are reached only through I/O ports 22h and 23h: a step that changes one is RESET,
or it ran an OUT to port 23h while a register index was selected (rule R12). -/
def Obligations.ConfigurationChangesThroughPortOnly : Prop :=
  ∀ s t : State, step s = .next t → s.inputs.head? ≠ some .reset → t.cfg ≠ s.cfg →
    s.runState = .running ∧ s.cfgSel ≠ none ∧
      ∃ i, (∃ len, decode s.fetchBytes = .ok (i, len)) ∧ (i = .outImm8Al 0x23 ∨ i = .outDxAl ∧ s.dx = 0x23)

/-- TR is written by LTR and by a task switch, and by nothing else. A step other than RESET that changes TR ran LTR; or
it raised an event whose IDT entry is a task gate: an input or a debug exception before the instruction, the
instruction's own event, or the debug exception after it (rules R10, R155 and R198 (c)). A step that raises no event
and changes TR ran LTR. -/
def Obligations.TrChangesByLtrOrTaskSwitchOnly : Prop :=
  ∀ s t : State, step s = .next t → s.inputs.head? ≠ some .reset → t.tr ≠ s.tr →
    ∀ ranLtr : Prop, (ranLtr ↔ ∃ i len, decode s.fetchBytes = .ok (i, len)
        ∧ ((∃ rm, i = .ltrR16 rm) ∨ ∃ disp, i = .ltrM16 disp)) →
    (t.lastEvent = none → ranLtr)
    ∧ (ranLtr
      ∨ (∃ ev v, t.lastEvent = some ev ∧ ev.vector = some v ∧ s.idtKind v = .task)
      ∨ ∃ u i len w, State.sameButBus { s with inputs := u.inputs, lastEvent := none } u
          ∧ decode s.fetchBytes = .ok (i, len) ∧ exec i u = .next w
          ∧ ((∃ ev v, w.lastEvent = some ev ∧ ev.vector = some v ∧ s.idtKind v = .task)
            ∨ t.lastEvent = some .debug ∧ w.idtKind 1 = .task))

/-- While CCR2.LOCK_NW = 1, before and after a step, no step but RESET changes CR0.NW (rule R22); and while CCR4.CPUID =
0, before and after a step, the step leaves EFLAGS.ID as it was (rules R34 and R63). A step that clears LOCK_NW or sets
CPUID, an OUT to port 23h, can end with a debug exception through a task gate, which then may write the flag. -/
def Obligations.LockedFlagsKept : Prop :=
  ∀ s t : State, step s = .next t → s.inputs.head? ≠ some .reset →
    (s.cfg.ccr2.getLsbD 2 = true → t.cfg.ccr2.getLsbD 2 = true → t.cr0.getLsbD 29 = s.cr0.getLsbD 29)
    ∧ (s.cfg.ccr4.getLsbD 7 = false → t.cfg.ccr4.getLsbD 7 = false → t.eflags.getLsbD 21 = s.eflags.getLsbD 21)

/-- The record of external cycles only grows, in program order: no step takes back or reorders a cycle (rules R121
(a) and R124). -/
def Obligations.BusCyclesOnlyAppended : Prop :=
  ∀ s t : State, step s = .next t → ∃ new, t.events = s.events ++ new

/-- A halted CPU with no input waiting stays as it is, every register and every byte of memory: only the bytes that
wait in the write-gather buffer may leave the chip, as one write cycle (rule R122). So does one that SUSP# has put in
suspend mode (rules R180 and R209; DESIGN CHOICE, notes/assumptions/14.md, from decision D31). -/
def Obligations.HaltedStays : Prop :=
  ∀ s t : State, s.inputs = [] → (s.runState = .halted ∨ s.runState = .running ∧ s.powerState = .suspend) →
    step s = .next t →
    t = { s with gather := t.gather, events := t.events, draws := t.draws, lastEvent := none }
      ∧ (∀ a, t.readByte a = s.readByte a)
      ∧ (s.gather = none → t = { s with lastEvent := none })
      ∧ ∀ g, s.gather = some g → t.gather = some g ∧ t.events = s.events
          ∨ t.gather = none ∧ ∃ e, t.events = s.events ++ [e] ∧ e.carries .memWrite g.start g.bytes

/-! ## LTR and STR -/

/-- LTR, both forms (rules R150, R152, R153, R154). The selector's format is rule R152's, the TSS descriptor types are
rule R153's default (PRESUMED, notes/assumptions/27.md), TrFault is decision D17, and that the descriptor is not marked
busy is decision D33 (notes/assumptions/26.md). Its source is the low half of a general register or the word at the
displacement. Outside protected mode, then at a privilege level other than 0, then for a selector whose bit 2 is 1,
then for a descriptor that is no TSS descriptor, it raises TrFault with that reason at a state with the same TR;
otherwise TR takes the selector and the eight descriptor bytes at `gdt_base + 8 * sel[15:3]`, EIP moves past the
instruction, and nothing else changes but the bus side of its reads. The address TrFault has to return to, the
instruction's own, is a DESIGN CHOICE (notes/assumptions/38.md). -/
def Obligations.LtrRule : Prop :=
  ∀ (s : State) (i : Instr) (sel : Word), s.cfg.regionsAligned = true →
    ((∃ rm, i = .ltrR16 rm ∧ sel = (s.gprs.get rm).extractLsb' 0 16)
      ∨ ∃ disp, i = .ltrM16 disp ∧ sel = s.readByte (disp + 1) ++ s.readByte disp) →
    (s.pmode = false → exec i s = .next (s.raise (.trFault .notProtectedMode) s.eip))
    ∧ (s.pmode = true → s.cpl ≠ 0 → exec i s = .next (s.raise (.trFault .privilege) s.eip))
    ∧ (s.pmode = true → s.cpl = 0 →
        (sel.getLsbD 2 = true →
          ∃ u, s.sameButBus u ∧ exec i s = .next (u.raise (.trFault .notInGdt) s.eip))
        ∧ (sel.getLsbD 2 = false →
            ∀ desc, desc = s.readQword (s.gdt.base + 8 * BitVec.ofNat 32 (sel.toNat / 8)) →
            (¬ (desc.getLsbD 44 = false ∧ desc.extractLsb' 40 4 ∈ [0x1#4, 0x3#4, 0x9#4, 0xB#4]) →
              ∃ u, s.sameButBus u ∧ exec i s = .next (u.raise (.trFault .notATss) s.eip))
            ∧ (desc.getLsbD 44 = false → desc.extractLsb' 40 4 ∈ [0x1#4, 0x3#4, 0x9#4, 0xB#4] →
              ∃ t, exec i s = .next t ∧ t.tr.sel = sel ∧ t.tr.desc = desc
                ∧ t.eip = s.eip + BitVec.ofNat 32 i.length
                ∧ State.sameButBus { s with tr := t.tr, eip := t.eip } t
                ∧ ∀ a, t.readByte a = s.readByte a)))

/-- STR to memory (rule R151): outside protected mode TrFault; in protected mode, at every privilege level, the word at
the displacement becomes TR.sel, every other byte of memory stays, EIP moves past the instruction, and no register,
flag, special register or configuration register changes. (Where the destination is not write-protected:
`StrToProtectedMemory` has the other case.) The address TrFault has to return to, the instruction's own, is a DESIGN
CHOICE (notes/assumptions/38.md). -/
def Obligations.StrToMemory : Prop :=
  ∀ (s : State) (disp : Dword),
    (s.pmode = false → exec (.strM16 disp) s = .next (s.raise (.trFault .notProtectedMode) s.eip))
    ∧ (s.pmode = true → s.cfg.regionsAligned = true → s.storeProtected disp 2 = false →
        ∃ t, exec (.strM16 disp) s = .next t
          ∧ t.readByte disp = s.tr.sel.extractLsb' 0 8 ∧ t.readByte (disp + 1) = s.tr.sel.extractLsb' 8 8
          ∧ (∀ a, a ≠ disp → a ≠ disp + 1 → t.readByte a = s.readByte a)
          ∧ t.eip = s.eip + 7
          ∧ State.sameButBus { s with eip := t.eip, mem := t.mem, smm := t.smm } t)

/-- A store of STR to a write-protected byte has the effect `WPR1_WRITE_EFFECT` names, and EIP moves on unless that is
the fault; no other register changes. Dropped: no byte of memory changes and no cycle is made but that of bytes that
waited in the write-gather buffer. Bus only: the word goes to the bus, as one write cycle after that of waiting bytes,
or, in a gathered region, goes to the empty buffer and waits there whole or, where the window ends between its bytes or
what waits leaves early, its second byte alone; and either no byte of memory changes or the program sees the stored
word. A store is protected exactly with CCR2.WPR1 = 1 and a stored byte in A0000h to FFFFFh that is cacheable with the
KEN# of the access (rules R24, R112, R113, R116 and decision D23). Rule R116 and D23 refuse such a store until the
parameter is fixed: that it runs with each of the three effects, that a word with one protected byte is protected
whole, and that under the bus-only effect the program may or may not see the stored word, are DESIGN CHOICES of
notes/assumptions/9.md. -/
def Obligations.StrToProtectedMemory : Prop :=
  ∀ (s : State) (disp : Dword), s.pmode = true → s.cfg.regionsAligned = true →
    (if s.storeProtected disp 2 = true then
      match Config.wpr1WriteEffect with
      | .dropped => ∃ t, exec (.strM16 disp) s = .next t ∧ t.eip = s.eip + 7
          ∧ State.sameButBus { s with eip := t.eip } t ∧ (∀ a, t.readByte a = s.readByte a)
          ∧ (s.gather = none → t.events = s.events)
          ∧ ∀ g, s.gather = some g → t.events = s.events
              ∨ ∃ e, t.events = s.events ++ [e] ∧ e.carries .memWrite g.start g.bytes
      | .busOnly => ∃ t, exec (.strM16 disp) s = .next t ∧ t.eip = s.eip + 7
          ∧ State.sameButBus { s with eip := t.eip, mem := t.mem, smm := t.smm } t
          ∧ ((∀ a, t.readByte a = s.readByte a)
            ∨ (t.readByte disp = s.tr.sel.extractLsb' 0 8 ∧ t.readByte (disp + 1) = s.tr.sel.extractLsb' 8 8
              ∧ ∀ a, a ≠ disp → a ≠ disp + 1 → t.readByte a = s.readByte a))
          ∧ (s.cfg.regWg disp = false → ∃ before e, t.events = s.events ++ before ++ [e]
              ∧ e.carries .memWrite disp [s.tr.sel.extractLsb' 0 8, s.tr.sel.extractLsb' 8 8]
              ∧ (s.gather = none → before = [])
              ∧ ∀ g, s.gather = some g → ∃ e', before = [e'] ∧ e'.carries .memWrite g.start g.bytes)
          ∧ (s.cfg.regWg disp = true → s.gather = none →
              (disp.toNat % 8 ≠ 7 ∧ t.events = s.events
                ∧ ∃ at', t.gather = some ⟨disp, [s.tr.sel.extractLsb' 0 8, s.tr.sel.extractLsb' 8 8], at'⟩)
              ∨ ∃ e at', t.events = s.events ++ [e] ∧ e.carries .memWrite disp [s.tr.sel.extractLsb' 0 8]
                ∧ t.gather = some ⟨disp + 1, [s.tr.sel.extractLsb' 8 8], at'⟩)
      | .fault => exec (.strM16 disp) s = .fault .wpr1Write
    else ∃ t, exec (.strM16 disp) s = .next t)
    ∧ (s.storeProtected disp 2 = true ↔ s.cfg.ccr2.getLsbD 4 = true
        ∧ ∃ a, (a = disp ∨ a = disp + 1) ∧ 0xA0000 ≤ a.toNat ∧ a.toNat ≤ 0xFFFFF
          ∧ (s.cfg.attributes (Config.ken s.draws disp) (Config.wbwt s.draws disp) a).cacheable = true)

/-- STR to a register: outside protected mode TrFault (rule R151); in protected mode, at every privilege level, the low
half of the destination becomes TR.sel, and every other register, flag and byte of memory stays. Rule R151 and entry
U25 refuse a 32-bit register destination: that it runs and writes the low half is the model's choice (DESIGN CHOICE,
notes/assumptions/7.md). Nothing is said of the high half, which the spec does not specify (a free value, the same
entry). The address TrFault has to return to, the instruction's own, is a DESIGN CHOICE (notes/assumptions/38.md). -/
def Obligations.StrToRegister : Prop :=
  ∀ (s : State) (rm : GReg),
    (s.pmode = false → exec (.strR rm) s = .next (s.raise (.trFault .notProtectedMode) s.eip))
    ∧ (s.pmode = true →
        ∃ t, exec (.strR rm) s = .next t ∧ (t.gprs.get rm).extractLsb' 0 16 = s.tr.sel
          ∧ (∀ r, r ≠ rm → t.gprs.get r = s.gprs.get r)
          ∧ t.eip = s.eip + 3
          ∧ t = { s with gprs := t.gprs, eip := t.eip, draws := t.draws }
          ∧ ∀ a, t.readByte a = s.readByte a)

/-! ## Ports 22h and 23h -/

/-- OUT to port 22h, either form: the index written becomes the pending selection, an index that is not accessible
also goes out as an external I/O write, and nothing else changes but EIP (rules R161 and R162). That the write of an
index that is not accessible goes outside is the spec's own decision D9. -/
def Obligations.OutSelectsIndex : Prop :=
  ∀ (s : State) (i : Instr), s.outsTo i 0x22 →
    ∃ t, exec i s = .next t ∧ t.cfgSel = some (s.gprs.eax.extractLsb' 0 8)
      ∧ (s.indexAccessible (s.gprs.eax.extractLsb' 0 8) → t.events = s.events)
      ∧ (¬ s.indexAccessible (s.gprs.eax.extractLsb' 0 8) →
          t.events = s.events ++ [s.ioEvent .ioWrite 0x22 (s.gprs.eax.extractLsb' 0 8)])
      ∧ t = { s with cfgSel := t.cfgSel, events := t.events, eip := s.eip + BitVec.ofNat 32 i.length }
      ∧ ∀ a, t.readByte a = s.readByte a

/-- OUT to port 23h, either form, with an accessible, assigned index selected and data that rule R172 does not
refuse, stores what rule R168 says (the SMI lock of R170 and the read-only DIR0 and DIR1 of R171 among it),
leaves every other configuration register byte, consumes the selection, makes no external cycle, and changes
nothing else but EIP. `v` is AL. -/
def Obligations.OutWritesConfigurationRegister : Prop :=
  ∀ (s : State) (i : Instr) (idx : Byte) (r : CfgReg) (v : Byte), s.outsTo i 0x23 → s.cfgSel = some idx →
    s.indexAccessible idx → cfgRegOf idx = some r → v = s.gprs.eax.extractLsb' 0 8 → v &&& r.resmask = 0 →
    (r = .ccr1 → s.cfg.ccr3.getLsbD 0 = true ∧ s.inSmi = false → s.cfg.ccr1.getLsbD 1 = true →
      s.cfg.ccr1.getLsbD 7 = true) →
    (r = .ccr1 → ¬ (s.cfg.ccr3.getLsbD 0 = true ∧ s.inSmi = false) → v.getLsbD 1 = true → v.getLsbD 7 = true) →
    (r = .ccr3 → (v.extractLsb' 4 4).toNat ≤ 1) →
    ∃ t, exec i s = .next t
      ∧ t = { s with cfgSel := none, cfg := t.cfg, eip := s.eip + BitVec.ofNat 32 i.length }
      ∧ (∀ r', r' ≠ r → t.cfg.read r' = s.cfg.read r')
      ∧ (r ≠ .ccr1 → r ≠ .ccr3 → (∀ k, r ≠ .arr 3 k) → r ≠ .dir0 → r ≠ .dir1 → t.cfg.read r = v)
      ∧ (r = .ccr1 → ∀ n, n < 8 → t.cfg.ccr1.getLsbD n =
          if (s.cfg.ccr3.getLsbD 0 = true ∧ s.inSmi = false) ∧ (n = 1 ∨ n = 2 ∨ n = 7) then s.cfg.ccr1.getLsbD n
          else v.getLsbD n)
      ∧ (r = .ccr3 → t.cfg.ccr3.extractLsb' 4 4 = v.extractLsb' 4 4 ∧ t.cfg.ccr3.getLsbD 3 = false
          ∧ t.cfg.ccr3.getLsbD 2 = v.getLsbD 2
          ∧ t.cfg.ccr3.getLsbD 1 = (if s.cfg.ccr3.getLsbD 0 = true
            ∧ s.inSmi = false then s.cfg.ccr3.getLsbD 1 else v.getLsbD 1)
          ∧ t.cfg.ccr3.getLsbD 0 = (s.cfg.ccr3.getLsbD 0 || v.getLsbD 0))
      ∧ (∀ k, r = .arr 3 k → t.cfg.read r =
          if s.cfg.ccr3.getLsbD 0 = true ∧ s.inSmi = false then s.cfg.read r else v)
      ∧ (r = .dir0 ∨ r = .dir1 → t.cfg = s.cfg)

/-- The configuration writes rule R172 gives no meaning stop by name: (a) a 1 in a reserved bit position, (b) a
CCR3 write with MAPEN 2h to Fh, (c) a CCR1 write that gives USE_SMI = 1 with SM3 = 0. The three refusals are the
spec's decisions D3, D4 and D19 (notes/assumptions/33.md). -/
def Obligations.UndefinedConfigurationWritesRefused : Prop :=
  ∀ (s : State) (i : Instr) (idx : Byte) (r : CfgReg) (v : Byte), s.outsTo i 0x23 → s.cfgSel = some idx →
    s.indexAccessible idx → cfgRegOf idx = some r → v = s.gprs.eax.extractLsb' 0 8 →
    (v &&& r.resmask ≠ 0 → exec i s = .refused .reservedBitSet)
    ∧ (r = .ccr3 → v &&& r.resmask = 0 → 2 ≤ (v.extractLsb' 4 4).toNat → exec i s = .refused .mapenUndefined)
    ∧ (r = .ccr1 → v &&& r.resmask = 0 → ¬ (s.cfg.ccr3.getLsbD 0 = true ∧ s.inSmi = false) →
        v.getLsbD 1 = true → v.getLsbD 7 = false → exec i s = .refused .useSmiWithoutSm3)

/-- An access to port 23h with no accessible index selected goes outside: one external cycle, no configuration
register changes, the selection is consumed; the byte read is the cycle's (rules R164 and R165). -/
def Obligations.DataPortWithoutSelectionIsExternal : Prop :=
  ∀ (s : State) (i : Instr), (∀ idx, s.cfgSel = some idx → ¬ s.indexAccessible idx) →
    (s.outsTo i 0x23 → exec i s = .next { s with
      cfgSel := none, events := s.events ++ [s.ioEvent .ioWrite 0x23 (s.gprs.eax.extractLsb' 0 8)],
      eip := s.eip + BitVec.ofNat 32 i.length })
    ∧ (s.insFrom i 0x23 → ∃ t v, exec i s = .next t ∧ t.gprs.eax.extractLsb' 0 8 = v
        ∧ t.events = s.events ++ [s.ioEvent .ioRead 0x23 v] ∧ t.cfgSel = none
        ∧ t.gprs.eax.extractLsb' 8 24 = s.gprs.eax.extractLsb' 8 24
        ∧ t = { s with
            cfgSel := none, events := t.events, draws := t.draws,
            gprs := { s.gprs with eax := t.gprs.eax }, eip := s.eip + BitVec.ofNat 32 i.length })

/-- The second of two successive accesses to port 23h is external, whatever was selected before the first: each
data transfer must be preceded by an index selection (rules R160, R164 and R222). -/
def Obligations.SecondDataAccessIsExternal : Prop :=
  ∀ (s t : State) (i j : Instr), (s.outsTo i 0x23 ∨ s.insFrom i 0x23) → exec i s = .next t →
    (t.outsTo j 0x23 ∨ t.insFrom j 0x23) →
    ∃ u e, exec j t = .next u ∧ u.events = t.events ++ [e] ∧ (e.kind = .ioWrite ∨ e.kind = .ioRead)
      ∧ e.address = 0x23 ∧ u.cfg = t.cfg

/-- An access to port 23h with MAPEN = 1h and an index selected that holds no register makes no external cycle,
changes no configuration register and consumes the selection; AL after a read is not stated (rule R166, whose
behaviour for an index without a register is the spec's own decision D5). -/
def Obligations.UnassignedIndexHasNoRegister : Prop :=
  ∀ (s : State) (i : Instr) (idx : Byte), s.cfgSel = some idx → s.cfg.ccr3.extractLsb' 4 4 = 1 →
    (idx.toNat ≤ 0xBF ∨ (0xE4 ≤ idx.toNat ∧ idx.toNat ≤ 0xE7) ∨ (0xEA ≤ idx.toNat ∧ idx.toNat ≤ 0xFD)) →
    (s.outsTo i 0x23 → exec i s = .next { s with
      cfgSel := none, eip := s.eip + BitVec.ofNat 32 i.length })
    ∧ (s.insFrom i 0x23 → ∃ t, exec i s = .next t
        ∧ t.gprs.eax.extractLsb' 8 24 = s.gprs.eax.extractLsb' 8 24
        ∧ t = { s with
            cfgSel := none, draws := t.draws,
            gprs := { s.gprs with eax := t.gprs.eax }, eip := s.eip + BitVec.ofNat 32 i.length })

/-- IN from port 23h with an accessible, assigned index selected: AL takes the register byte in every position that
is not reserved (nothing is said of the reserved ones, a draw each), no configuration register changes, the
selection is consumed and no external cycle occurs (rule R167). -/
def Obligations.InReadsConfigurationRegister : Prop :=
  ∀ (s : State) (i : Instr) (idx : Byte) (r : CfgReg), s.insFrom i 0x23 → s.cfgSel = some idx →
    s.indexAccessible idx → cfgRegOf idx = some r →
    ∃ t, exec i s = .next t
      ∧ (∀ n, n < 8 → r.resmask.getLsbD n = false →
          (t.gprs.eax.extractLsb' 0 8).getLsbD n = (s.cfg.read r).getLsbD n)
      ∧ t.gprs.eax.extractLsb' 8 24 = s.gprs.eax.extractLsb' 8 24
      ∧ t = { s with
            cfgSel := none, draws := t.draws,
            gprs := { s.gprs with eax := t.gprs.eax }, eip := s.eip + BitVec.ofNat 32 i.length }

/-- The index map and the reserved bit positions: the 40 assigned indexes, each with its register byte, and the
bits of each that are reserved (rules R13, R41 and R55). -/
def Obligations.IndexMapAndReservedBits : Prop :=
  (∀ idx : Byte, cfgRegOf idx ≠ none ↔
    (0xC0 ≤ idx.toNat ∧ idx.toNat ≤ 0xE3) ∨ idx = 0xE8 ∨ idx = 0xE9 ∨ idx = 0xFE ∨ idx = 0xFF)
  ∧ (∀ (i : Fin 8) (k : Fin 3), cfgRegOf (BitVec.ofNat 8 (0xC4 + 3 * i.val + k.val)) = some (.arr i k))
  ∧ (∀ i : Fin 8, cfgRegOf (BitVec.ofNat 8 (0xDC + i.val)) = some (.rcr i))
  ∧ cfgRegOf 0xC0 = some .ccr0 ∧ cfgRegOf 0xC1 = some .ccr1 ∧ cfgRegOf 0xC2 = some .ccr2
  ∧ cfgRegOf 0xC3 = some .ccr3 ∧ cfgRegOf 0xE8 = some .ccr4 ∧ cfgRegOf 0xE9 = some .ccr5
  ∧ cfgRegOf 0xFE = some .dir0 ∧ cfgRegOf 0xFF = some .dir1
  ∧ CfgReg.ccr0.resmask = 0xFD ∧ CfgReg.ccr1.resmask = 0x69 ∧ CfgReg.ccr2.resmask = 0x61
  ∧ CfgReg.ccr3.resmask = 0x08 ∧ CfgReg.ccr4.resmask = 0x68 ∧ CfgReg.ccr5.resmask = 0xCC
  ∧ (∀ i k, (CfgReg.arr i k).resmask = 0x00) ∧ (∀ i, (CfgReg.rcr i).resmask = 0xC0)
  ∧ CfgReg.dir0.resmask = 0x00 ∧ CfgReg.dir1.resmask = 0x00

/-- IN from port 22h: always an external cycle, whose byte AL takes; no configuration register changes (rule R163).
The pending selection is afterwards what it was or none: that is the spec's own decision D7 (parameter
`PORT22_READ_EFFECT`; DEDUCED, notes/assumptions/25.md), and the statement does not say that each of the two happens. -/
def Obligations.InFromIndexPortIsExternal : Prop :=
  ∀ (s : State) (i : Instr), s.insFrom i 0x22 →
    ∃ t v, exec i s = .next t ∧ t.gprs.eax.extractLsb' 0 8 = v
      ∧ t.events = s.events ++ [s.ioEvent .ioRead 0x22 v] ∧ (t.cfgSel = s.cfgSel ∨ t.cfgSel = none)
      ∧ t.gprs.eax.extractLsb' 8 24 = s.gprs.eax.extractLsb' 8 24
      ∧ t = { s with
            cfgSel := t.cfgSel, events := t.events, draws := t.draws,
            gprs := { s.gprs with eax := t.gprs.eax }, eip := s.eip + BitVec.ofNat 32 i.length }

/-- A byte access to any other port is one external I/O cycle and leaves the pending selection alone (rule R175; that
the selection stays is marked derived there). -/
def Obligations.OtherPortsAreExternal : Prop :=
  ∀ (s : State) (i : Instr) (port : Word), port ≠ 0x22 → port ≠ 0x23 →
    (s.outsTo i port → exec i s = .next { s with
      events := s.events ++ [s.ioEvent .ioWrite port (s.gprs.eax.extractLsb' 0 8)],
      eip := s.eip + BitVec.ofNat 32 i.length })
    ∧ (s.insFrom i port → ∃ t v, exec i s = .next t ∧ t.gprs.eax.extractLsb' 0 8 = v
        ∧ t.events = s.events ++ [s.ioEvent .ioRead port v]
        ∧ t.gprs.eax.extractLsb' 8 24 = s.gprs.eax.extractLsb' 8 24
        ∧ t = { s with
            events := t.events, draws := t.draws,
            gprs := { s.gprs with eax := t.gprs.eax }, eip := s.eip + BitVec.ofNat 32 i.length })

/-! ## HLT, CPUID, INT 3, LOOP -/

/-- HLT, privileged (CPL 0 in protected mode): EIP advances by 1, the CPU is halted, and in suspend mode exactly where
CCR2.SUSP_HLT (bit 3) was 1; nothing else changes (rule R180). At another privilege level it does not halt but raises
an exception; which one is the model's presumption (notes/assumptions/15.md). The address the exception has to return
to, the instruction's own, is a DESIGN CHOICE (notes/assumptions/38.md). -/
def Obligations.HltHalts : Prop :=
  ∀ s : State,
    (s.pmode = false ∨ s.cpl = 0 →
      ∃ t, exec .hlt s = .next t ∧ t.eip = s.eip + 1 ∧ t.runState = .halted
        ∧ (s.cfg.ccr2.getLsbD 3 = true → t.powerState = .suspend)
        ∧ (s.cfg.ccr2.getLsbD 3 = false → t.powerState = s.powerState)
        ∧ t = { s with eip := t.eip, runState := t.runState, powerState := t.powerState }
        ∧ ∀ a, t.readByte a = s.readByte a)
    ∧ (s.pmode = true → s.cpl ≠ 0 → exec .hlt s = .next (s.raise .generalProtection s.eip))

/-- CPUID: with CCR4.CPUID (bit 7) = 0 it raises InvalidOpcode with EIP not advanced, and has no other effect (rules
R34, R181, R192). With CCR4.CPUID = 1 rule R181 and entry U15 refuse it for want of its result: that it then executes,
EIP advances by 2, and no flag, segment, control or configuration register and no byte of memory changes, is the
model's choice (DESIGN CHOICE, the unsafe part of notes/assumptions/8.md). Nothing is said of the general registers
(free values, the same entry). The address InvalidOpcode has to return to, the instruction's own, is a DESIGN CHOICE
(notes/assumptions/38.md). -/
def Obligations.CpuidRule : Prop :=
  ∀ s : State,
    (s.cfg.ccr4.getLsbD 7 = false → exec .cpuid s = .next (s.raise .invalidOpcode s.eip))
    ∧ (s.cfg.ccr4.getLsbD 7 = true → ∃ t, exec .cpuid s = .next t ∧ t.eip = s.eip + 2
        ∧ t = { s with eip := t.eip, gprs := t.gprs, draws := t.draws } ∧ ∀ a, t.readByte a = s.readByte a)

/-- INT 3 raises Breakpoint with the address of the byte after the CCh as the one to return to, and so enters the
handler the IDT gives vector 3 (rules R183, R193 and R198; `ExceptionEntry` has every kind of gate). Through a trap or
interrupt gate control goes to its SELECTOR:OFFSET (rules R144 and R145; that a 16-bit gate uses the low half of OFFSET
is general knowledge of rules R94 and R141, decision D26) with the return address saved in the frame, by whose depth the
stack pointer drops: four bytes for a 32-bit gate, the low two for a 16-bit one, at a place in the frame that is free
(PRESUMED and DESIGN CHOICE, notes/assumptions/12.md); it can fail to be written only by the effect of
`WPR1_WRITE_EFFECT`. That CR0, CR3, TR and every general register but ESP stay is a
DESIGN CHOICE too (notes/assumptions/12.md: R198 does not list what stays). A handler that is more privileged needs
a current TSS (entry U13), so a current TSS, or CPL 0, is a premise of that part. -/
def Obligations.Int3EntersHandler : Prop :=
  (∀ s : State, exec .int3 s = .next (s.raise .breakpoint (s.eip + 1)))
  ∧ ∀ (s : State) (g : Gate), s.cfg.regionsAligned = true → s.currentTss ≠ none ∨ s.cpl = 0 → s.writesGoOn →
    g = s.decodeGate (s.idt.base + 24) → (g.kind = .trap ∨ g.kind = .interrupt) →
    ∃ t, exec .int3 s = .next t ∧ t.segs.cs = g.selector
      ∧ (g.size = some 16 → t.eip.toNat = g.offset.toNat % 0x10000)
      ∧ (g.size = some 32 → t.eip = g.offset)
      ∧ (∃ n, ∀ depth, depth = frameDepth n (if g.size = some 16 then 2 else 4) →
          (¬ t.cpl.toNat < s.cpl.toNat → t.gprs.esp = s.gprs.esp - BitVec.ofNat 32 depth)
          ∧ (t.cpl.toNat < s.cpl.toNat → ∀ tb, s.currentTss = some (.tss32, tb) →
              t.gprs.esp = s.readDword (tb + 4 + 8 * t.cpl.zeroExtend 32) - BitVec.ofNat 32 depth)
          ∧ (t.cpl.toNat < s.cpl.toNat → ∀ tb, s.currentTss = some (.tss16, tb) →
              t.gprs.esp.extractLsb' 0 16
                = s.readWord (tb + 2 + 4 * t.cpl.zeroExtend 32) - BitVec.ofNat 16 depth)
          ∧ (s.cfg.ccr2.getLsbD 4 = false →
              (g.size = some 32 → t.readDword
                (frameSlot t.gprs.esp depth 4 (Config.entryFrame n).retSlot) = s.eip + 1)
              ∧ (g.size = some 16 → t.readWord
                (frameSlot t.gprs.esp depth 2 (Config.entryFrame n).retSlot) = (s.eip + 1).extractLsb' 0 16)))
      ∧ t.runState = .running ∧ t.lastEvent = some .breakpoint
      ∧ t.dbg = s.dbg ∧ t.debugDue = s.debugDue ∧ t.tr = s.tr ∧ t.cfg = s.cfg ∧ t.cfgSel = s.cfgSel
      ∧ t.cr0 = s.cr0 ∧ t.cr3 = s.cr3
      ∧ (∀ r, r ≠ .esp → t.gprs.get r = s.gprs.get r)

/-- LOOP: ECX drops by 1 modulo 2^32, and the branch to EIP + 2 + the sign-extended displacement is taken unless ECX
was 1; no flag and no memory changes; the result is the same whatever CCR5.SLOP holds (rules R37 and R184). -/
def Obligations.LoopRule : Prop :=
  ∀ (s : State) (cb : Byte), ∃ t, exec (.loopRel8 cb) s = .next t
    ∧ t.gprs.ecx.toNat = (s.gprs.ecx.toNat + 0xFFFFFFFF) % 0x100000000
    ∧ (s.gprs.ecx = 1 → t.eip = s.eip + 2)
    ∧ (s.gprs.ecx ≠ 1 → t.eip = s.eip + 2 + BitVec.ofInt 32 cb.toInt)
    ∧ t = { s with gprs := { s.gprs with ecx := t.gprs.ecx }, eip := t.eip }
    ∧ (∀ a, t.readByte a = s.readByte a)
    ∧ ∀ ccr5 : Byte, exec (.loopRel8 cb) { s with cfg := { s.cfg with ccr5 := ccr5 } }
        = .next { t with cfg := { t.cfg with ccr5 := ccr5 } }

/-! ## The helper instructions -/

/-- The MOV forms (rule R138): the destination takes the source; every other 8-bit register, the high halves and
ESP, EBP, ESI and EDI keep their values; no flag, no memory, nothing else but EIP changes. -/
def Obligations.MovRule : Prop :=
  (∀ (s : State) (rm reg : Reg8), ∃ t, exec (.movRm8R8 rm reg) s = .next t
    ∧ t.gprs.get8 rm = s.gprs.get8 reg ∧ (∀ r, r ≠ rm → t.gprs.get8 r = s.gprs.get8 r)
    ∧ (∀ r, (t.gprs.get r).extractLsb' 16 16 = (s.gprs.get r).extractLsb' 16 16)
    ∧ t.gprs.esp = s.gprs.esp ∧ t.gprs.ebp = s.gprs.ebp ∧ t.gprs.esi = s.gprs.esi ∧ t.gprs.edi = s.gprs.edi
    ∧ t = { s with gprs := t.gprs, eip := s.eip + 2 })
  ∧ (∀ (s : State) (ib : Byte), ∃ t, exec (.movAlImm8 ib) s = .next t
    ∧ t.gprs.eax.extractLsb' 0 8 = ib ∧ t.gprs.eax.extractLsb' 8 24 = s.gprs.eax.extractLsb' 8 24
    ∧ t = { s with gprs := { s.gprs with eax := t.gprs.eax }, eip := s.eip + 2 })
  ∧ (∀ (s : State) (id : Dword), exec (.movEaxImm32 id) s
      = .next { s with gprs := { s.gprs with eax := id }, eip := s.eip + 5 })
  ∧ ∀ (s : State) (id : Dword), exec (.movEcxImm32 id) s
      = .next { s with gprs := { s.gprs with ecx := id }, eip := s.eip + 5 }

/-- AND and OR on AL (rule R138): AL takes the bitwise result; bits 31-8 of EAX, every other register and all memory
stay; of EFLAGS only the arithmetic flags may change, whose values the spec does not give (their positions are
PRESUMED, notes/assumptions/6.md). -/
def Obligations.AndOrRule : Prop :=
  ∀ (s : State) (i : Instr) (ib result : Byte),
    (i = .andAlImm8 ib ∧ result = s.gprs.eax.extractLsb' 0 8 &&& ib
      ∨ i = .orAlImm8 ib ∧ result = s.gprs.eax.extractLsb' 0 8 ||| ib) →
    ∃ t, exec i s = .next t ∧ t.gprs.eax.extractLsb' 0 8 = result
      ∧ t.gprs.eax.extractLsb' 8 24 = s.gprs.eax.extractLsb' 8 24
      ∧ (∀ n, n < 32 → n ∉ [0, 2, 4, 6, 7, 11] → t.eflags.getLsbD n = s.eflags.getLsbD n)
      ∧ t = { s with
          gprs := { s.gprs with eax := t.gprs.eax }, eip := s.eip + 2, eflags := t.eflags,
          draws := t.draws }
      ∧ ∀ a, t.readByte a = s.readByte a

/-! ## Memory -/

/-- Memory is little-endian, whatever the alignment: bits 8k+7 to 8k of a word, doubleword or 8-byte read are the
byte k addresses up; a word or doubleword written is read back whole; and a write leaves every byte outside it
(rules R84 and R85). The byte order and the free alignment are the spec's own decisions D2 and D36
(notes/assumptions/4.md). -/
def Obligations.MemoryLittleEndian : Prop :=
  ∀ (s : State) (a : Dword),
    (∀ k, k < 2 → (s.readWord a).extractLsb' (8 * k) 8 = s.readByte (a + BitVec.ofNat 32 k))
    ∧ (∀ k, k < 4 → (s.readDword a).extractLsb' (8 * k) 8 = s.readByte (a + BitVec.ofNat 32 k))
    ∧ (∀ k, k < 8 → (s.readQword a).extractLsb' (8 * k) 8 = s.readByte (a + BitVec.ofNat 32 k))
    ∧ (∀ v : Word, (s.writeBytes a (wordBytes v)).readWord a = v)
    ∧ (∀ v : Dword, (s.writeBytes a (dwordBytes v)).readDword a = v)
    ∧ ∀ (bs : List Byte) (x : Dword), (∀ k, k < bs.length → x ≠ a + BitVec.ofNat 32 k) →
        (s.writeBytes a bs).readByte x = s.readByte x

/-- An access to an address of region 3 with CCR1.SM3 = 1, and SMAC = 1 or an SMI being serviced, reaches system
management memory instead of main memory, and every other access main memory: seen on the store of STR
(rule R83). That a word across an edge of the region goes byte by byte, each by its own address, is the model's choice
(DESIGN CHOICE, notes/assumptions/39.md). -/
def Obligations.SmmAddressSpace : Prop :=
  ∀ (s : State) (disp : Dword), s.pmode = true → s.cfg.regionsAligned = true → s.storeProtected disp 2 = false →
    ∀ inSmmSpace : Dword → Prop,
      (∀ a, inSmmSpace a ↔
        s.cfg.ccr1.getLsbD 7 = true ∧ s.cfg.inRegion 3 a = true ∧ (s.cfg.ccr1.getLsbD 2 = true ∨ s.inSmi = true)) →
      ∃ t, exec (.strM16 disp) s = .next t
        ∧ (∀ a, inSmmSpace a → t.mem.read a.toNat = s.mem.read a.toNat)
        ∧ (∀ a, ¬ inSmmSpace a → t.smm.read a.toNat = s.smm.read a.toNat)
        ∧ (inSmmSpace disp → t.smm.read disp.toNat = s.tr.sel.extractLsb' 0 8)
        ∧ (¬ inSmmSpace disp → t.mem.read disp.toNat = s.tr.sel.extractLsb' 0 8)
        ∧ (inSmmSpace (disp + 1) → t.smm.read (disp + 1).toNat = s.tr.sel.extractLsb' 8 8)
        ∧ (¬ inSmmSpace (disp + 1) → t.mem.read (disp + 1).toNat = s.tr.sel.extractLsb' 8 8)

/-- An address lies in region i exactly when the region is enabled (CCR5.ARREN, or region 3 with CCR1.SM3), of nonzero
SIZE, starts on a multiple of its block size, and the address is one of the block's bytes. The start address
is ARR bytes 0, 1 and the high nibble of byte 2; the block size is that of the SIZE table (rules R39, R40, R42,
R43, R104 and R105; R43 and R105 are marked derived in the spec). -/
def Obligations.RegionMembership : Prop :=
  ∀ (c : CfgRegs) (i : Fin 8) (a : Dword) (start block size : Nat),
    start = (c.arr i).b0.toNat * 0x1000000 + (c.arr i).b1.toNat * 0x10000
      + (c.arr i).b2.toNat / 0x10 * 0x1000 →
    size = (c.arr i).b2.toNat % 0x10 →
    block = 1024 *
      (if i = 7 then
        [0, 256, 512, 1024, 2048, 4096, 8192, 16384, 32768, 65536, 131072, 262144, 524288, 1048576, 2097152,
          4194304].getD size 0
      else
        [0, 4, 8, 16, 32, 64, 128, 256, 512, 1024, 2048, 4096, 8192, 16384, 32768, 4194304].getD size 0) →
    (c.inRegion i a = true ↔
      (c.ccr5.getLsbD 5 = true ∨ i = 3 ∧ c.ccr1.getLsbD 7 = true) ∧ size ≠ 0 ∧ start % block = 0
        ∧ start ≤ a.toNat ∧ a.toNat < start + block)

/-- The region-level attributes: a restrictive one holds where some containing region asks for it, a permissive one
where there is a containing region and every one grants it; outside every region none holds (rule R110, which the
spec derives from R107 to R109). The attributes of an access are what these, the fixed region's controls, NO_LOCK, RCE
in use and the pins make of them, at every address (rules R113 to R115, R117 to R120). In exactly one region they are
those of its RCR (rule R108): non-cacheable with RCD = 1 (with RCE = 0 in region 7), write-through with WT = 1,
gathered with WG = 1, weakly locked with WL = 1, weakly ordered with WWO = 1 where it is write-back, LBA# not asserted
with NLB = 1. The spec's own decisions in this: NC1 and LBR1 win over the regions (rule R111) by D18; KEN# negated and
WB/WT# low veto inside a region too by D13, which with R108's inference makes region 7 non-cacheable with RCE = 0; RCE
in use rules the addresses outside region 7 by D12. -/
def Obligations.RegionLevelAttributes : Prop :=
  ∀ (c : CfgRegs) (a : Dword),
    (c.regNoncache a = true ↔ ∃ i, c.inRegion i a = true
      ∧ ((i ≠ 7 ∧ (c.rcr i).getLsbD 0 = true) ∨ (i = 7 ∧ (c.rcr i).getLsbD 0 = false)))
    ∧ (c.regWt a = true ↔ ∃ i, c.inRegion i a = true ∧ (c.rcr i).getLsbD 4 = true)
    ∧ (c.regWg a = true ↔ (∃ i, c.inRegion i a = true) ∧ ∀ i, c.inRegion i a = true → (c.rcr i).getLsbD 3 = true)
    ∧ (c.regWl a = true ↔ (∃ i, c.inRegion i a = true) ∧ ∀ i, c.inRegion i a = true → (c.rcr i).getLsbD 2 = true)
    ∧ (c.regWwo a = true ↔ (∃ i, c.inRegion i a = true) ∧ ∀ i, c.inRegion i a = true → (c.rcr i).getLsbD 1 = true)
    ∧ (c.regNlb a = true ↔ (∃ i, c.inRegion i a = true) ∧ ∀ i, c.inRegion i a = true → (c.rcr i).getLsbD 5 = true)
    ∧ ∀ (ken wbwt fixed outside7 : Bool) (at' : Attributes), at' = c.attributes ken wbwt a →
      (fixed = true ↔ 0xA0000 ≤ a.toNat ∧ a.toNat ≤ 0xFFFFF) →
      (outside7 = true ↔ c.ccr5.getLsbD 5 = true ∧ (c.arr 7).b2.extractLsb' 0 4 ≠ 0 ∧ (c.rcr 7).getLsbD 0 = true
        ∧ c.inRegion 7 a = false) →
      (at'.cacheable = true ↔ ken = true ∧ c.regNoncache a = false ∧ ¬ (c.ccr0.getLsbD 1 = true ∧ fixed = true)
        ∧ outside7 = false)
      ∧ (at'.writeBack = true ↔ at'.cacheable = true ∧ c.regWt a = false ∧ wbwt = true)
      ∧ at'.gathered = c.regWg a
      ∧ (at'.weakLock = true ↔ c.ccr1.getLsbD 4 = true ∨ c.regWl a = true)
      ∧ (at'.weakOrder = true ↔ c.regWwo a = true ∧ at'.writeBack = true)
      ∧ (at'.lba = true ↔ c.regNlb a = false ∨ c.ccr5.getLsbD 4 = true ∧ fixed = true)
      ∧ ∀ i, c.inRegion i a = true → (∀ j, c.inRegion j a = true → j = i) →
        (at'.cacheable = true ↔ ken = true ∧ (c.rcr i).getLsbD 0 = decide (i = 7)
          ∧ ¬ (c.ccr0.getLsbD 1 = true ∧ fixed = true) ∧ outside7 = false)
        ∧ (at'.writeBack = true ↔ at'.cacheable = true ∧ (c.rcr i).getLsbD 4 = false ∧ wbwt = true)
        ∧ at'.gathered = (c.rcr i).getLsbD 3
        ∧ (at'.weakLock = true ↔ c.ccr1.getLsbD 4 = true ∨ (c.rcr i).getLsbD 2 = true)
        ∧ (at'.weakOrder = true ↔ (c.rcr i).getLsbD 1 = true ∧ at'.writeBack = true)
        ∧ (at'.lba = true ↔ (c.rcr i).getLsbD 5 = false ∨ c.ccr5.getLsbD 4 = true ∧ fixed = true)

/-- An access to an address in no region: LBA# asserted, not gathered, strong ordering, locking as CCR1.NO_LOCK has
it, cached exactly if KEN# is returned asserted, unless NC1 covers it or RCE is in use (region 7 enabled by
CCR5.ARREN, of nonzero SIZE, RCR7 bit 0 set: rules R113 and R115), and write-back if then WB/WT# is high (rule R107). -/
def Obligations.OutsideEveryRegion : Prop :=
  ∀ (c : CfgRegs) (ken wbwt : Bool) (a : Dword), (∀ i, c.inRegion i a = false) →
    let at' := c.attributes ken wbwt a
    at'.lba = true ∧ at'.gathered = false ∧ at'.weakOrder = false ∧ at'.weakLock = c.ccr1.getLsbD 4
      ∧ at'.writeBack = (at'.cacheable && wbwt)
      ∧ (¬ (c.ccr0.getLsbD 1 = true ∧ 0xA0000 ≤ a.toNat ∧ a.toNat ≤ 0xFFFFF) →
          ¬ (c.ccr5.getLsbD 5 = true ∧ (c.arr 7).b2.extractLsb' 0 4 ≠ 0 ∧ (c.rcr 7).getLsbD 0 = true) →
          at'.cacheable = ken)

/-- Where two regions overlap and disagree, the restrictive attribute takes precedence: LBA# asserted,
non-cacheable, no write-back, not gathered, strong locking, strong ordering (rule R109). That region 7 asks for
non-cacheable with RCE = 0 is rule R108's inference, marked derived there, and that CCR1.NO_LOCK weakens locking
whatever the regions hold, so that it is 0 in the clause about locking, is rule R119's. -/
def Obligations.OverlapPrecedence : Prop :=
  ∀ (c : CfgRegs) (ken wbwt : Bool) (a : Dword) (i j : Fin 8), i ≠ j → c.inRegion i a = true →
    c.inRegion j a = true →
    let at' := c.attributes ken wbwt a
    ((c.rcr i).getLsbD 5 = false → at'.lba = true)
    ∧ (i ≠ 7 → (c.rcr i).getLsbD 0 = true → at'.cacheable = false)
    ∧ (i = 7 → (c.rcr i).getLsbD 0 = false → at'.cacheable = false)
    ∧ ((c.rcr i).getLsbD 4 = true → at'.writeBack = false)
    ∧ ((c.rcr i).getLsbD 3 = false → at'.gathered = false)
    ∧ ((c.rcr i).getLsbD 2 = false → c.ccr1.getLsbD 4 = false → at'.weakLock = false)
    ∧ ((c.rcr i).getLsbD 1 = false → at'.weakOrder = false)

/-- The fixed region 640 KByte to 1 MByte and the whole-space controls: NC1 makes it non-cacheable, LBR1 asserts LBA#
on it, WPR1 write-protects exactly its cacheable accesses, NO_LOCK weakens locking everywhere; RCE in use (region 7
enabled by CCR5.ARREN, of nonzero SIZE, RCR7 bit 0 set) makes every address outside region 7 non-cacheable, and KEN#
negated any address (rules R111, R113, R115, R116, R117 and R119). The spec's own decisions in this: that NC1 and LBR1
win over the regions (rule R111: "the source does not say") is D18, that KEN# negated vetoes inside a region too is D13,
and that RCE rules the addresses outside region 7, and only while that region is in use, is D12. -/
def Obligations.FixedRegionControls : Prop :=
  ∀ (c : CfgRegs) (ken wbwt : Bool) (a : Dword),
    let at' := c.attributes ken wbwt a
    (0xA0000 ≤ a.toNat → a.toNat ≤ 0xFFFFF → c.ccr0.getLsbD 1 = true → at'.cacheable = false)
    ∧ (0xA0000 ≤ a.toNat → a.toNat ≤ 0xFFFFF → c.ccr5.getLsbD 4 = true → at'.lba = true)
    ∧ (at'.writeProtected = true ↔
        c.ccr2.getLsbD 4 = true ∧ 0xA0000 ≤ a.toNat ∧ a.toNat ≤ 0xFFFFF ∧ at'.cacheable = true)
    ∧ (c.ccr1.getLsbD 4 = true → at'.weakLock = true)
    ∧ (c.ccr5.getLsbD 5 = true → (c.arr 7).b2.extractLsb' 0 4 ≠ 0 → (c.rcr 7).getLsbD 0 = true →
        c.inRegion 7 a = false → at'.cacheable = false)
    ∧ (ken = false → at'.cacheable = false)

/-- Write gathering (rules R118, R121 and R122, example E7), for a write of up to eight bytes that is not
write-protected. A write outside a gathered region emits what waits and then its own cycle. To a gathered region:
whatever the free choices, every byte leaves or waits once, in order, by write cycles inside one aligned 8-byte window
each, and bytes that do not continue what waits first emit that as one cycle. And, unless one of the choices
`flushEarly` consulted in this write has what waits leave early: bytes that begin a buffer or are sequential to the
bytes waiting, in one window, wait with them and make no cycle while they are fewer than eight, eight leave the chip as
ONE write cycle, and across the end of a window the bytes before it leave with what they continue and those after it
begin a buffer. A read at a non-sequential location emits what waits. The program reads the bytes at once all the same.
The model's choices in this: an ungathered write makes its own cycle whatever a cache absorbs
(notes/assumptions/21.md), these cycles are unlocked (notes/assumptions/23.md), a byte already waiting is
non-sequential, a read is non-sequential by its first address, and the attributes are those of the write that began the
buffer (notes/assumptions/24.md). -/
def Obligations.WriteGathering : Prop :=
  (∀ (s : State) (a : Dword) (bs : List Byte), bs ≠ [] → bs.length ≤ 8 → s.storeProtected a bs.length = false →
    s.gather.all GatherBuffer.legal = true →
    ∀ continues : GatherBuffer → Prop, (∀ g, continues g ↔
      a = g.start + BitVec.ofNat 32 g.bytes.length ∧ g.start.toNat / 8 = a.toNat / 8) →
    ∃ t, s.busWrite a bs = .next t
      ∧ (∀ k (h : k < bs.length), t.readByte (a + BitVec.ofNat 32 k) = bs[k])
      ∧ (∀ x, (∀ k, k < bs.length → x ≠ a + BitVec.ofNat 32 k) → t.readByte x = s.readByte x)
      ∧ (s.cfg.regWg a = false → t.gather = none
        ∧ (s.gather = none → ∃ e, t.events = s.events ++ [e] ∧ e.carries .memWrite a bs)
        ∧ ∀ g, s.gather = some g → ∃ e e', t.events = s.events ++ [e, e']
            ∧ e.carries .memWrite g.start g.bytes ∧ e'.carries .memWrite a bs)
      ∧ (s.cfg.regWg a = true →
        (∃ es, t.events = s.events ++ es
          ∧ es.flatMap BusEvent.cells ++ t.waitingCells = s.waitingCells ++ cells a bs
          ∧ (∀ e ∈ es, e.carries .memWrite e.address e.bytes ∧ e.bytes ≠ []
              ∧ e.address.toNat % 8 + e.bytes.length ≤ 8)
          ∧ ∀ g, s.gather = some g → ¬ continues g →
              ∃ e rest, es = e :: rest ∧ e.carries .memWrite g.start g.bytes)
        ∧ ((∃ j, s.draws < j ∧ j ≤ s.draws + bs.length ∧ Config.flushEarly j = true)
          ∨ ∃ before first joined,
            (s.gather = none ∧ before = [] ∧ first = a ∧ joined = bs
              ∨ ∃ g, s.gather = some g
                ∧ (continues g ∧ before = [] ∧ first = g.start ∧ joined = g.bytes ++ bs
                  ∨ ¬ continues g ∧ first = a ∧ joined = bs
                    ∧ ∃ e, before = [e] ∧ e.carries .memWrite g.start g.bytes))
            ∧ ∀ room, room = 8 - first.toNat % 8 →
              (joined.length < 8 → joined.length ≤ room → t.events = s.events ++ before
                ∧ ∃ at', t.gather = some ⟨first, joined, at'⟩
                  ∧ ∀ g, s.gather = some g → continues g → at' = g.attrs)
              ∧ (joined.length = 8 → room = 8 → t.gather = none
                ∧ ∃ e, t.events = s.events ++ before ++ [e] ∧ e.carries .memWrite first joined)
              ∧ (room < joined.length → ∃ e at', t.events = s.events ++ before ++ [e]
                ∧ e.carries .memWrite first (joined.take room)
                ∧ t.gather = some ⟨first + BitVec.ofNat 32 room, joined.drop room, at'⟩))))
  ∧ ∀ (s : State) (a : Dword) (g : GatherBuffer) (n : Nat), s.gather = some g →
      g.bytes.length < (a - g.start).toNat →
      (s.readCycle a n).gather = none ∧ ∃ e e', (s.readCycle a n).events = s.events ++ [e, e']
        ∧ e.carries .memWrite g.start g.bytes ∧ e'.carries .memRead a (s.readBytes a n)

/-- The word STR stores outside a gathered region is one external write cycle of its two bytes, and the word LTR loads
from memory is one external read cycle; then, and for LTR from a register alone, comes the read cycle of the descriptor
where no cache can hold that, and none elsewhere: unlocked, with the LBA# state of the address (rules R117, R119 and
R124). Recorded whether or not a cache absorbs the access, once for the word, with the attributes of its first address,
and unlocked: DESIGN CHOICES of notes/assumptions/21.md and notes/assumptions/23.md. -/
def Obligations.DataAccessCycles : Prop :=
  ∀ (s : State) (disp : Dword), s.gather = none → s.pmode = true → s.cfg.regionsAligned = true →
    (s.cfg.regWg disp = false → s.storeProtected disp 2 = false →
      ∃ t e, exec (.strM16 disp) s = .next t ∧ t.events = s.events ++ [e] ∧ e.lba = s.cfg.lba disp
        ∧ e.carries .memWrite disp [s.tr.sel.extractLsb' 0 8, s.tr.sel.extractLsb' 8 8])
    ∧ (∀ d, d = s.gdt.base + 8 * BitVec.ofNat 32 ((s.readWord disp).toNat / 8) → s.cpl = 0 →
      s.readByte disp &&& 0x04 = 0 → isTssDescriptor (s.readQword d) = true →
      ∃ t e ds, exec (.ltrM16 disp) s = .next t ∧ t.events = s.events ++ e :: ds ∧ e.lba = s.cfg.lba disp
        ∧ e.carries .memRead disp [s.readByte disp, s.readByte (disp + 1)]
        ∧ (s.cfg.cacheable true d = true → ds = [])
        ∧ (s.cfg.cacheable true d = false → ∃ e', ds = [e'] ∧ e'.lba = s.cfg.lba d
            ∧ e'.carries .memRead d (s.readBytes d 8)))
    ∧ ∀ (rm : GReg) (sel : Word) (d : Dword), sel = (s.gprs.get rm).extractLsb' 0 16 →
      d = s.gdt.base + 8 * BitVec.ofNat 32 (sel.toNat / 8) → s.cpl = 0 → sel.getLsbD 2 = false →
      isTssDescriptor (s.readQword d) = true →
      ∃ t ds, exec (.ltrR16 rm) s = .next t ∧ t.events = s.events ++ ds
        ∧ (s.cfg.cacheable true d = true → ds = [])
        ∧ (s.cfg.cacheable true d = false → ∃ e, ds = [e] ∧ e.lba = s.cfg.lba d
            ∧ e.carries .memRead d (s.readBytes d 8))

/-! ## Gates and tasks -/

/-- A gate descriptor byte by byte, and what its TYPE says it is (rules R88 to R91; the order of the bytes is rule R84,
the spec's own decision D2, and R91 is marked derived). -/
def Obligations.GateDescriptorDecode : Prop :=
  ∀ (s : State) (g : Dword) (type : BitVec 4), type = (s.readByte (g + 5)).extractLsb' 0 4 →
    s.readByte g = (s.decodeGate g).offset.extractLsb' 0 8
    ∧ s.readByte (g + 1) = (s.decodeGate g).offset.extractLsb' 8 8
    ∧ s.readByte (g + 2) = (s.decodeGate g).selector.extractLsb' 0 8
    ∧ s.readByte (g + 3) = (s.decodeGate g).selector.extractLsb' 8 8
    ∧ s.readByte (g + 4) = (s.decodeGate g).undoc75 ++ (s.decodeGate g).parameters
    ∧ (s.readByte (g + 5)).getLsbD 7 = (s.decodeGate g).present
    ∧ (s.readByte (g + 5)).extractLsb' 5 2 = (s.decodeGate g).dpl
    ∧ (s.readByte (g + 5)).getLsbD 4 = (s.decodeGate g).undoc12
    ∧ s.readByte (g + 6) = (s.decodeGate g).offset.extractLsb' 16 8
    ∧ s.readByte (g + 7) = (s.decodeGate g).offset.extractLsb' 24 8
    ∧ ((s.decodeGate g).kind = .call ↔ type = 0x4 ∨ type = 0xC)
    ∧ ((s.decodeGate g).kind = .task ↔ type = 0x5)
    ∧ ((s.decodeGate g).kind = .interrupt ↔ type = 0x6 ∨ type = 0xE)
    ∧ ((s.decodeGate g).kind = .trap ↔ type = 0x7 ∨ type = 0xF)
    ∧ ((s.decodeGate g).size = some 16 ↔ type = 0x4 ∨ type = 0x6 ∨ type = 0x7)
    ∧ ((s.decodeGate g).size = some 32 ↔ type = 0xC ∨ type = 0xE ∨ type = 0xF)
    ∧ ((s.decodeGate g).size = none ∨ (s.decodeGate g).size = some 16 ∨ (s.decodeGate g).size = some 32)

/-- Transfers through a gate that a selector names, which no row of the opcode table makes (notes/assumptions/28.md). A
call through a call gate goes on where the gate is a call gate, the target is not less privileged than the caller, the
privilege check `admits` admits it, there is a TSS where privilege rises, and nothing is write-protected. Where it goes
on it goes to the gate's SELECTOR:OFFSET (the low half of OFFSET for a 16-bit gate: general knowledge of rules R94 and
R141, decision D26), at the level of its segment and never at a less privileged one; where it raises privilege the
stack is the one the current TSS holds for the new level (the low half of ESP where that is a 16-bit TSS), and every
parameter is copied from the caller's stack to a place of its own in the frame there. EFLAGS is not written, and every
byte of memory outside the frame stays (rules R141, R142 and R143). A task gate in the GDT or the LDT is a task switch
to its SELECTOR (rules R93, R140 and R146); the other gates are refused. That SS stays where privilege does not rise,
and that configuration, TR and debug registers stay, are choices of notes/assumptions/12.md and
notes/assumptions/28.md; so is, of the latter, that a call which does not raise privilege goes on outside protected mode
too (rule R201 leaves what differs between the modes open). -/
def Obligations.CallGateTransfer : Prop :=
  (∀ (s t : State) (admits : BitVec 2 → Desc → Desc → Bool) (a : Dword) (g : Gate), g = s.decodeGate a →
    s.callGate admits a = .next t →
    g.kind = .call ∧ t.segs.cs = g.selector
    ∧ (g.size = some 16 → t.eip.toNat = g.offset.toNat % 0x10000)
    ∧ (g.size = some 32 → t.eip = g.offset)
    ∧ t.cpl = s.targetLevel g.selector ∧ t.cpl.toNat ≤ s.cpl.toNat
    ∧ (t.cpl.toNat < s.cpl.toNat → ∃ k tb, s.currentTss = some (k, tb)
        ∧ (k = .tss32 → t.segs.ss = s.readWord (tb + 8 + 8 * t.cpl.zeroExtend 32))
        ∧ (k = .tss16 → t.segs.ss = s.readWord (tb + 4 + 4 * t.cpl.zeroExtend 32)))
    ∧ (t.cpl = s.cpl → t.segs.ss = s.segs.ss)
    ∧ (∃ n, ∀ depth unit : Nat,
        unit = (if g.size = some 16 ∧ Config.paramUnit16IsDword = false then 2 else 4) →
        depth = frameDepth n (if t.cpl.toNat < s.cpl.toNat then unit * g.parameters.toNat else 0) →
        (t.cpl = s.cpl → t.gprs.esp = s.gprs.esp - BitVec.ofNat 32 depth)
        ∧ (t.cpl.toNat < s.cpl.toNat → ∀ tb, s.currentTss = some (.tss32, tb) →
            t.gprs.esp = s.readDword (tb + 4 + 8 * t.cpl.zeroExtend 32) - BitVec.ofNat 32 depth)
        ∧ (t.cpl.toNat < s.cpl.toNat → ∀ tb, s.currentTss = some (.tss16, tb) →
            t.gprs.esp.extractLsb' 0 16
              = s.readWord (tb + 2 + 4 * t.cpl.zeroExtend 32) - BitVec.ofNat 16 depth)
        ∧ (∀ x, depth ≤ (x - t.gprs.esp).toNat → t.readByte x = s.readByte x)
        ∧ (t.cpl.toNat < s.cpl.toNat → ∀ places : List Dword, places = g.parameterPlaces n t.gprs.esp depth →
            places.length = g.parameters.toNat
            ∧ (∀ j k (hj : j < places.length) (hk : k < places.length), j ≠ k →
                unit ≤ (places[j] - places[k]).toNat)
            ∧ (depth < 0x100000000 → ∀ k (hk : k < places.length),
                (places[k] - t.gprs.esp).toNat + unit ≤ depth)
            ∧ (s.cfg.ccr2.getLsbD 4 = false → ∀ k (hk : k < places.length),
                t.readBytes places[k] unit = s.readBytes (s.gprs.esp + BitVec.ofNat 32 (unit * k)) unit)))
    ∧ t.eflags = s.eflags ∧ t.cfg = s.cfg ∧ t.tr = s.tr ∧ t.dbg = s.dbg ∧ t.cr0 = s.cr0 ∧ t.cr3 = s.cr3
    ∧ (∀ r, r ≠ .esp → t.gprs.get r = s.gprs.get r))
  ∧ (∀ (s : State) (admits : BitVec 2 → Desc → Desc → Bool) (a : Dword) (g : Gate), g = s.decodeGate a →
    s.cfg.regionsAligned = true → s.writesGoOn → g.kind = .call →
    (s.targetLevel g.selector).toNat ≤ s.cpl.toNat →
    admits s.cpl (s.readQword a) (s.readQword (s.locateDescriptor g.selector).2) = true →
    s.currentTss ≠ none ∨ s.targetLevel g.selector = s.cpl → ∃ t, s.callGate admits a = .next t)
  ∧ ∀ (s : State) (admits : BitVec 2 → Desc → Desc → Bool) (f : TaskFunction) (sel : Word) (ret a : Dword) (g : Gate),
    s.cfg.regionsAligned = true →
    a = (if sel.getLsbD 2 then s.ldt.base else s.gdt.base) + 8 * BitVec.ofNat 32 (sel.toNat / 8) →
    g = s.decodeGate a →
    (g.kind = .call → s.gateTransfer admits f sel ret = s.callGate admits a)
    ∧ (g.kind = .task → ∃ u, s.sameButBus u
        ∧ s.gateTransfer admits f sel ret = u.taskSwitch f g.selector ret)
    ∧ (g.kind ≠ .call → g.kind ≠ .task → s.gateTransfer admits f sel ret = .refused .noGateTransfer)

/-- A task switch, under every task-switch function `f` (rule R4), whose choice for it is `c`. It goes on where there
is a current TSS, the selector locates a TSS descriptor in the GDT, and no write of it can fault; without a current TSS
it is refused. A check that fails leaves the exception it names raised, at the state the switch has come to: at the
begin with the task as it was; at the save with its state saved; once TR holds the new selector and descriptor with the
old registers; or with the new task in place. Whatever `f` writes, the state saved in the old TSS stays saved, EIP in
it, unless the back link, written after the save, lies over it (rule R147 (a)); and the fields loaded are those the new
TSS held, unless the save lies over them. The reserved fields of either TSS (and the rest of the byte that holds the T
bit) are not written, but where a back link, or in the new TSS the save, lies over them (rule R96, decision D24). Once
the new task is in place, TR holds the new selector and its descriptor, read before or after the save as `c` has it;
the back link of the new TSS holds the old selector where `c` has it written (and, where that is before the save, no
saved field lies over it); every Li of DR7 is cleared, every Gi kept; the registers are those the new TSS holds, in its
own layout, with the flags `c` adds; CR0 is as it was or as `c` has it, its NW bit kept under LOCK_NW; and if a 32-bit
TSS has its T bit set, the debug exception for it is due when `c` has it, DR6 not yet written (rules R22, R95, R96,
R98, R99 and R147). What the rule leaves open and `f` does not decide (that `f` writes no field it loads, nor the T bit
of the old TSS, the times of the checks, the effect of one that fails) are choices of notes/assumptions/16.md, the
zero-extended IP of a 16-bit TSS one of notes/assumptions/29.md. The current TSS is the one whose descriptor TR holds,
in protected mode alone (rules R155 and R201); the descriptor's layout is rule R153's default (PRESUMED,
notes/assumptions/27.md). -/
def Obligations.TaskSwitchLoadsTask : Prop :=
  ∀ reserved : Nat → Prop, (∀ n, reserved n ↔ n % 4 ≥ 2 ∧ (n < 0x04 ∨ 0x08 ≤ n ∧ n < 0x0C ∨ 0x10 ≤ n ∧ n < 0x14
      ∨ 0x18 ≤ n ∧ n < 0x1C ∨ 0x48 ≤ n ∧ n < 0x64) ∨ n = 0x64 ∨ n = 0x65) →
  ∀ (f : TaskFunction) (c : TaskChoice) (s : State) (sel : Word) (ret a : Dword),
    a = (if sel.getLsbD 2 then s.ldt.base else s.gdt.base) + 8 * BitVec.ofNat 32 (sel.toNat / 8) →
    c = f.choose sel s →
    (∀ k tb, s.currentTss = some (k, tb) ↔ s.pmode = true ∧ s.tr.desc.getLsbD 44 = false
      ∧ (k = .tss16 ∧ s.tr.desc.extractLsb' 40 4 ∈ [0x1#4, 0x3#4] ∨ k = .tss32
        ∧ s.tr.desc.extractLsb' 40 4 ∈ [0x9#4, 0xB#4])
      ∧ tb = s.tr.desc.extractLsb' 56 8 ++ s.tr.desc.extractLsb' 16 24)
    ∧ (s.currentTss = none → s.taskSwitch f sel ret = .refused .noTask)
    ∧ (∀ v, s.currentTss ≠ none → f.check .begun sel s = some v →
      s.taskSwitch f sel ret
        = .next { s with draws := s.draws + 1, runState := .raised (.taskFault v) ret })
    ∧ (∀ k tb, s.currentTss = some (k, tb) → f.check .begun sel s = none → sel.getLsbD 2 = false → s.writesGoOn →
      (c.readsFirst = true → isTssDescriptor (s.readQword a) = true) →
      (∀ u, c.readsFirst = false → State.saveTask c k tb ret { s with draws := s.draws + 1 } = .next u →
        isTssDescriptor (u.readQword a) = true) →
      ∃ t, s.taskSwitch f sel ret = .next t)
    ∧ ∀ t, f.check .begun sel s = none → s.taskSwitch f sel ret = .next t →
      (∀ k old, s.currentTss = some (k, old) → s.cfg.ccr2.getLsbD 4 = false →
        (c.backLink = .never ∨ c.backLink = .beforeSave
          ∨ (tssBase t.tr.desc - old).toNat < 0x0D ∨ 0x62 ≤ (tssBase t.tr.desc - old).toNat) →
        (k = .tss32 → t.readDword (old + 0x20) = ret)
        ∧ (k = .tss16 → t.readWord (old + 0x0E) = ret.extractLsb' 0 16)
        ∧ ∀ w ∈ s.saveWrites c k old ret, ∀ j (h : j < w.2.length), t.readByte (w.1 + BitVec.ofNat 32 j) = w.2[j])
      ∧ (∀ old, s.currentTss = some (.tss32, old) → ∀ n, reserved n →
        (c.backLink ≠ .never → 2 ≤ (old + BitVec.ofNat 32 n
          - tssBase (if c.backLink = .beforeSave then s.readQword a else t.tr.desc)).toNat) →
        t.readByte (old + BitVec.ofNat 32 n) = s.readByte (old + BitVec.ofNat 32 n))
      ∧ ((∃ u v, f.check .saved sel u = some v
        ∧ t = { u with draws := u.draws + 1, runState := .raised (.taskFault v) ret }
        ∧ State.sameButBus { s with mem := u.mem, smm := u.smm } u)
      ∨ (∃ u v, f.check .entered sel u = some v
        ∧ t = { u with draws := u.draws + 1, runState := .raised (.taskFault v) ret }
        ∧ u.tr.sel = sel ∧ isTssDescriptor u.tr.desc = true
        ∧ State.sameButBus { s with tr := u.tr, mem := u.mem, smm := u.smm } u)
      ∨ (t.runState = .running
          ∨ ∃ u v, f.check .loaded sel u = some v
            ∧ t = { u with draws := u.draws + 1, runState := .raised (.taskFault v) u.eip })
        ∧ t.tr.sel = sel ∧ isTssDescriptor t.tr.desc = true
        ∧ (c.readsFirst = true → t.tr.desc = s.readQword a)
        ∧ (c.readsFirst = false → ∃ k tb u, s.currentTss = some (k, tb)
            ∧ State.saveTask c k tb ret { s with draws := s.draws + 1 } = .next u ∧ t.tr.desc = u.readQword a)
        ∧ (∀ i : Fin 4, t.dbg.dr7.getLsbD (2 * i.val) = false
            ∧ t.dbg.dr7.getLsbD (2 * i.val + 1) = s.dbg.dr7.getLsbD (2 * i.val + 1))
        ∧ t.dbg.dr6 = s.dbg.dr6 ∧ t.lastEvent = s.lastEvent ∧ t.cfg = s.cfg
        ∧ (c.cr0 = none → t.cr0 = s.cr0)
        ∧ (∀ v n, c.cr0 = some v → t.cr0.getLsbD n
            = if n = 29 ∧ s.cfg.ccr2.getLsbD 2 = true then s.cr0.getLsbD n else v.getLsbD n)
        ∧ ∀ tb, tb = tssBase t.tr.desc →
          (c.backLink = .beforeLoad ∨ c.backLink = .afterLoad → s.cfg.ccr2.getLsbD 4 = false →
            t.readWord tb = s.tr.sel)
          ∧ (c.backLink = .beforeSave → s.cfg.ccr2.getLsbD 4 = false →
            (∀ k old, s.currentTss = some (k, old) → (tb - old).toNat < 0x0D ∨ 0x62 ≤ (tb - old).toNat) →
            t.readWord tb = s.tr.sel)
          ∧ (∀ p ∈ taskReads (tssKind t.tr.desc) tb, ∀ n, n < p.2 →
            (∀ k old, s.currentTss = some (k, old) → (p.1 + BitVec.ofNat 32 n - old).toNat < 0x0E
              ∨ 0x62 ≤ (p.1 + BitVec.ofNat 32 n - old).toNat) →
            t.readByte (p.1 + BitVec.ofNat 32 n) = s.readByte (p.1 + BitVec.ofNat 32 n))
          ∧ (tssKind t.tr.desc = .tss32 → ∀ n, reserved n →
            (∀ k old, s.currentTss = some (k, old) → (tb + BitVec.ofNat 32 n - old).toNat < 0x0E
              ∨ 0x62 ≤ (tb + BitVec.ofNat 32 n - old).toNat) →
            t.readByte (tb + BitVec.ofNat 32 n) = s.readByte (tb + BitVec.ofNat 32 n))
          ∧ (tssKind t.tr.desc = .tss32 →
            t.gprs.eax = t.readDword (tb + 0x28) ∧ t.gprs.ecx = t.readDword (tb + 0x2C)
            ∧ t.gprs.edx = t.readDword (tb + 0x30) ∧ t.gprs.ebx = t.readDword (tb + 0x34)
            ∧ t.gprs.esp = t.readDword (tb + 0x38) ∧ t.gprs.ebp = t.readDword (tb + 0x3C)
            ∧ t.gprs.esi = t.readDword (tb + 0x40) ∧ t.gprs.edi = t.readDword (tb + 0x44)
            ∧ t.segs.es = t.readWord (tb + 0x48) ∧ t.segs.cs = t.readWord (tb + 0x4C)
            ∧ t.segs.ss = t.readWord (tb + 0x50) ∧ t.segs.ds = t.readWord (tb + 0x54)
            ∧ t.segs.fs = t.readWord (tb + 0x58) ∧ t.segs.gs = t.readWord (tb + 0x5C)
            ∧ t.eip = t.readDword (tb + 0x20) ∧ t.cr3 = t.readDword (tb + 0x1C)
            ∧ t.ldtSel = t.readWord (tb + 0x60)
            ∧ (∀ n, n < 32 → n ≠ 21 → t.eflags.getLsbD n
                = ((t.readDword (tb + 0x24)).getLsbD n || c.setsFlags.getLsbD n))
            ∧ ((t.readByte (tb + 0x64)).getLsbD 0 = true →
                ∃ due, t.debugDue = some due ∧ due.cause.taskSwitch = true ∧ due.afterFirst = c.trapAfterFirst
                  ∧ ∀ before, s.debugDue = some before → due.cause = { before.cause with taskSwitch := true })
            ∧ ((t.readByte (tb + 0x64)).getLsbD 0 = false → t.debugDue = s.debugDue))
          ∧ (tssKind t.tr.desc = .tss16 →
            (∀ r, (t.gprs.get r).extractLsb' 0 16 = t.readWord (tb + 0x12 + 2 * r.num.zeroExtend 32))
            ∧ t.segs.es = t.readWord (tb + 0x22) ∧ t.segs.cs = t.readWord (tb + 0x24)
            ∧ t.segs.ss = t.readWord (tb + 0x26) ∧ t.segs.ds = t.readWord (tb + 0x28)
            ∧ t.eip = (t.readWord (tb + 0x0E)).zeroExtend 32 ∧ t.ldtSel = t.readWord (tb + 0x2A)
            ∧ (∀ n, n < 16 → t.eflags.getLsbD n
                = ((t.readWord (tb + 0x10)).getLsbD n || c.setsFlags.getLsbD n))
            ∧ t.debugDue = s.debugDue))

/-- The save of a task switch, under every choice `c` of the task-switch function, with CCR2.WPR1 = 0: the TSS takes
EIP (the address to resume at) and each of EFLAGS, the general registers, the segment registers, CR3 and the LDT
selector that `c` saves, at its offset of the layout; every other one of these fields, the back link, the stacks for
levels 0 to 2, the reserved halves beside the selectors, the rest of the TSS and all other memory keep their bytes
(rules R95, R96, R98 and R147 (a)). Which fields fact (a)'s "current CPU state" is the rule leaves open, and `c` says;
that EIP is among them under every choice, and that nothing else is, are DESIGN CHOICES (notes/assumptions/16.md). -/
def Obligations.TaskSwitchSavesTask : Prop :=
  ∀ (c : TaskChoice) (s : State) (tb ret : Dword), s.cfg.ccr2.getLsbD 4 = false →
    (∃ t, s.saveTask c .tss32 tb ret = .next t
      ∧ t.readDword (tb + 0x20) = ret
      ∧ t.readDword (tb + 0x24) = (if .flags ∈ c.saves then s.eflags else s.readDword (tb + 0x24))
      ∧ (∀ r, t.readDword (tb + 0x28 + 4 * r.num.zeroExtend 32) =
          if .gpr r ∈ c.saves then s.gprs.get r else s.readDword (tb + 0x28 + 4 * r.num.zeroExtend 32))
      ∧ t.readWord (tb + 0x48) = (if .seg .es ∈ c.saves then s.segs.es else s.readWord (tb + 0x48))
      ∧ t.readWord (tb + 0x4C) = (if .seg .cs ∈ c.saves then s.segs.cs else s.readWord (tb + 0x4C))
      ∧ t.readWord (tb + 0x50) = (if .seg .ss ∈ c.saves then s.segs.ss else s.readWord (tb + 0x50))
      ∧ t.readWord (tb + 0x54) = (if .seg .ds ∈ c.saves then s.segs.ds else s.readWord (tb + 0x54))
      ∧ t.readWord (tb + 0x58) = (if .seg .fs ∈ c.saves then s.segs.fs else s.readWord (tb + 0x58))
      ∧ t.readWord (tb + 0x5C) = (if .seg .gs ∈ c.saves then s.segs.gs else s.readWord (tb + 0x5C))
      ∧ t.readDword (tb + 0x1C) = (if .cr3 ∈ c.saves then s.cr3 else s.readDword (tb + 0x1C))
      ∧ t.readWord (tb + 0x60) = (if .ldt ∈ c.saves then s.ldtSel else s.readWord (tb + 0x60))
      ∧ (∀ k, k < 0x1C → t.readByte (tb + BitVec.ofNat 32 k) = s.readByte (tb + BitVec.ofNat 32 k))
      ∧ (∀ k, k < 6 → t.readWord (tb + 0x4A + 4 * BitVec.ofNat 32 k)
          = s.readWord (tb + 0x4A + 4 * BitVec.ofNat 32 k))
      ∧ (∀ x, 0x62 ≤ (x - tb).toNat → t.readByte x = s.readByte x)
      ∧ t = { s with mem := t.mem, smm := t.smm, gather := t.gather, events := t.events, draws := t.draws })
    ∧ ∃ t, s.saveTask c .tss16 tb ret = .next t
      ∧ t.readWord (tb + 0x0E) = ret.extractLsb' 0 16
      ∧ t.readWord (tb + 0x10) =
          (if .flags ∈ c.saves then s.eflags.extractLsb' 0 16 else s.readWord (tb + 0x10))
      ∧ (∀ r, t.readWord (tb + 0x12 + 2 * r.num.zeroExtend 32) =
          if .gpr r ∈ c.saves then (s.gprs.get r).extractLsb' 0 16
          else s.readWord (tb + 0x12 + 2 * r.num.zeroExtend 32))
      ∧ t.readWord (tb + 0x22) = (if .seg .es ∈ c.saves then s.segs.es else s.readWord (tb + 0x22))
      ∧ t.readWord (tb + 0x24) = (if .seg .cs ∈ c.saves then s.segs.cs else s.readWord (tb + 0x24))
      ∧ t.readWord (tb + 0x26) = (if .seg .ss ∈ c.saves then s.segs.ss else s.readWord (tb + 0x26))
      ∧ t.readWord (tb + 0x28) = (if .seg .ds ∈ c.saves then s.segs.ds else s.readWord (tb + 0x28))
      ∧ t.readWord (tb + 0x2A) = (if .ldt ∈ c.saves then s.ldtSel else s.readWord (tb + 0x2A))
      ∧ (∀ k, k < 0x0E → t.readByte (tb + BitVec.ofNat 32 k) = s.readByte (tb + BitVec.ofNat 32 k))
      ∧ (∀ x, 0x2C ≤ (x - tb).toNat → t.readByte x = s.readByte x)
      ∧ t = { s with mem := t.mem, smm := t.smm, gather := t.gather, events := t.events, draws := t.draws }

/-! ## Exceptions, debug and inputs -/

/-- Taking an exception or interrupt, by the kind of the IDT entry of its vector (rule R198). (a), (b), (d): through a
trap or interrupt gate the handler is entered at the gate's SELECTOR:OFFSET (rules R144 and R145; at the low half of
OFFSET for a 16-bit gate, which is general knowledge of rule R94, decision D26), at the level of its segment (rule
R204), on the current TSS's stack for that level where privilege rises (the low half of ESP where that is a 16-bit TSS,
rule R99) and on the running one otherwise (the latter is notes/assumptions/12.md); every byte of memory outside its
frame stays. (c): through a task gate there is a task switch to the gate's SELECTOR (rule R146), at a state that
differs on the bus side only, and nothing is done after it: that no error code is pushed on the new task's stack, which
rule R198 leaves open, is a choice of notes/assumptions/12.md. Where the IDT entry is no gate or a call gate (entries
U5 and U27), or a stack is needed and there is no TSS for it (U13), nothing changes and the event stands raised; so it
does where the task switch does not go on (notes/assumptions/13.md). Entry is the same in every mode, the gate's P and
DPL are not checked, and a handler less privileged than the interrupted program is entered as well
(notes/assumptions/11.md). The vectors are those of rule R210, for TrFault those of rule R154, and for a task switch's
failed check the one it names (notes/assumptions/16.md). -/
def Obligations.ExceptionEntry : Prop :=
  (∀ (s : State) (ev : Event) (v : Byte) (ret : Dword) (g : Gate), s.cfg.regionsAligned = true → ev.vector = some v →
    g = s.decodeGate (s.idt.base + 8 * BitVec.ofNat 32 v.toNat) →
    (g.kind = .trap ∨ g.kind = .interrupt → s.currentTss ≠ none ∨ s.cpl = 0 → s.writesGoOn →
      ∀ t, t = s.raise ev ret →
      t.segs.cs = g.selector
      ∧ (g.size = some 16 → t.eip.toNat = g.offset.toNat % 0x10000)
      ∧ (g.size = some 32 → t.eip = g.offset)
      ∧ t.cpl = s.targetLevel g.selector
      ∧ t.runState = .running ∧ t.lastEvent = some ev ∧ t.tr = s.tr ∧ t.dbg = s.dbg ∧ t.cfg = s.cfg
      ∧ (¬ t.cpl.toNat < s.cpl.toNat → t.segs.ss = s.segs.ss)
      ∧ (t.cpl.toNat < s.cpl.toNat → ∃ k tb, s.currentTss = some (k, tb)
          ∧ (k = .tss32 → t.segs.ss = s.readWord (tb + 8 + 8 * t.cpl.zeroExtend 32))
          ∧ (k = .tss16 → t.segs.ss = s.readWord (tb + 4 + 4 * t.cpl.zeroExtend 32)))
      ∧ ∃ n, ∀ depth, depth = frameDepth n (if g.size = some 16 then 2 else 4) →
          (¬ t.cpl.toNat < s.cpl.toNat → t.gprs.esp = s.gprs.esp - BitVec.ofNat 32 depth)
          ∧ (t.cpl.toNat < s.cpl.toNat → ∀ tb, s.currentTss = some (.tss32, tb) →
              t.gprs.esp = s.readDword (tb + 4 + 8 * t.cpl.zeroExtend 32) - BitVec.ofNat 32 depth)
          ∧ (t.cpl.toNat < s.cpl.toNat → ∀ tb, s.currentTss = some (.tss16, tb) →
              t.gprs.esp.extractLsb' 0 16
                = s.readWord (tb + 2 + 4 * t.cpl.zeroExtend 32) - BitVec.ofNat 16 depth)
          ∧ ∀ x, depth ≤ (x - t.gprs.esp).toNat → t.readByte x = s.readByte x)
    ∧ (g.kind = .task → ∃ u, State.sameButBus { s with lastEvent := some ev } u
        ∧ match u.taskSwitch Config.taskFunction g.selector ret with
          | .next t => s.raise ev ret = t
          | .fault _ => s.raise ev ret = { s with lastEvent := some ev, runState := .raised ev ret }
          | .refused _ => s.raise ev ret = { s with lastEvent := some ev, runState := .raised ev ret })
    ∧ (g.kind = .call ∨ g.kind = .notAGate
        ∨ (g.kind = .trap ∨ g.kind = .interrupt) ∧ s.currentTss = none
          ∧ (s.targetLevel g.selector).toNat < s.cpl.toNat →
      s.raise ev ret = { s with lastEvent := some ev, runState := .raised ev ret }))
  ∧ Event.vector .debug = some 1 ∧ Event.nmi.vector = some 2 ∧ Event.breakpoint.vector = some 3
  ∧ Event.invalidOpcode.vector = some 6 ∧ (∀ v, (Event.hardwareInterrupt v).vector = some v)
  ∧ Event.smi.vector = none ∧ (Event.trFault .notProtectedMode).vector = some 6
  ∧ (∀ v, (Event.taskFault v).vector = some v)
  ∧ ∀ r : TrReason, r ≠ .notProtectedMode → (Event.trFault r).vector = some 13

/-- What a debug exception records, all its causes and those already due at once: Bi for every condition that
occurred, enabled or not; BS for single step; BT for a switch to a task with T set; GD, bit 13 of DR7, is cleared and,
unless the handler is reached through a task gate, no other bit of DR7 changes; no other bit of DR6 changes, none is
cleared, and the breakpoint addresses stay (rules R57, R58, R59, R191 and R202). -/
def Obligations.DebugExceptionRecords : Prop :=
  ∀ (s : State) (c d : DebugCause) (ret : Dword),
    (s.debugDue = none → d = c) →
    (∀ due, s.debugDue = some due →
      d = ⟨due.cause.accesses ++ c.accesses, due.cause.singleStep || c.singleStep,
        due.cause.taskSwitch || c.taskSwitch⟩) →
    (s.raiseDebug c ret).lastEvent = some .debug
    ∧ (∀ i : Fin 4, (s.raiseDebug c ret).dbg.dr6.getLsbD i.val
        = (s.dbg.dr6.getLsbD i.val || d.accesses.any (fun acc => s.dbg.cond i acc)))
    ∧ (s.raiseDebug c ret).dbg.dr6.getLsbD 14 = (s.dbg.dr6.getLsbD 14 || d.singleStep)
    ∧ (s.raiseDebug c ret).dbg.dr6.getLsbD 15 = (s.dbg.dr6.getLsbD 15 || d.taskSwitch)
    ∧ (∀ n, n ∉ [0, 1, 2, 3, 14, 15] → (s.raiseDebug c ret).dbg.dr6.getLsbD n = s.dbg.dr6.getLsbD n)
    ∧ (s.raiseDebug c ret).dbg.dr7.getLsbD 13 = false
    ∧ (s.idtKind 1 ≠ .task → ∀ n, n ≠ 13 → (s.raiseDebug c ret).dbg.dr7.getLsbD n = s.dbg.dr7.getLsbD n)
    ∧ ∀ i : Fin 4, (s.raiseDebug c ret).dbg.dr i = s.dbg.dr i

/-- Breakpoint condition i of an access: the access is of the kind R/Wi (DR7 bits 17+4i to 16+4i) selects (00b
execution, with LENi 00b; 01b writes; 11b reads or writes) and some byte of it is one of the 1, 2 or 4 bytes LENi (bits
19+4i to 18+4i) selects, which begin at DRi with its low bits ignored (rules R59 and R211). Condition i occurs for a
list of accesses where one of them meets it, and an enabled breakpoint's does where moreover DR7 bit 2i (Li) or 2i+1
(Gi) is 1 (rules R59 and R191 (b)). The execution of an instruction counts as an access at the linear address of the
program counter, csBase + EIP (PRESUMED, notes/assumptions/10.md), and to its first byte alone; the only data accesses
are the word LTR reads in protected mode at CPL 0 and the word STR writes in protected mode, not the processor's own
(rules R86, R150, R151 and R211; notes/assumptions/20.md). -/
def Obligations.BreakpointCondition : Prop :=
  (∀ (d : DebugRegs) (i : Fin 4) (acc : Access) (rw lenCode : BitVec 2) (len : Nat) (base : Dword),
    d.codesUsed = true → 0 < acc.bytes → rw = d.dr7.extractLsb' (16 + 4 * i.val) 2 →
    lenCode = d.dr7.extractLsb' (18 + 4 * i.val) 2 →
    len = (if lenCode = 0 then 1 else if lenCode = 1 then 2 else 4) →
    base.toNat = (d.dr i).toNat - (d.dr i).toNat % len →
    (d.cond i acc = true ↔
      (rw = 0 ∧ lenCode = 0 ∧ acc.kind = .execute ∨ rw = 1 ∧ acc.kind = .write
        ∨ rw = 3 ∧ (acc.kind = .read ∨ acc.kind = .write))
      ∧ ∃ x : Dword, (x - acc.address).toNat < acc.bytes ∧ (x - base).toNat < len))
  ∧ (∀ (d : DebugRegs) (accs : List Access),
      (∀ i, d.occurred accs i = true ↔ ∃ acc ∈ accs, d.cond i acc = true)
      ∧ (d.hit accs = true ↔ ∃ i : Fin 4,
          (d.dr7.getLsbD (2 * i.val) = true ∨ d.dr7.getLsbD (2 * i.val + 1) = true)
          ∧ ∃ acc ∈ accs, d.cond i acc = true))
  ∧ ∀ s : State, s.executeAccess.kind = .execute ∧ s.executeAccess.address = s.csBase + s.eip
      ∧ s.executeAccess.bytes = 1
      ∧ (∀ disp, s.dataAccesses (.ltrM16 disp) = if s.pmode = true ∧ s.cpl = 0 then [⟨.read, disp, 2⟩] else [])
      ∧ (∀ disp, s.dataAccesses (.strM16 disp) = if s.pmode = true then [⟨.write, disp, 2⟩] else [])
      ∧ ∀ i : Instr, (∀ disp, i ≠ .ltrM16 disp ∧ i ≠ .strM16 disp) → s.dataAccesses i = []

/-- SMI# is recognized exactly with CCR1.USE_SMI = 1 and CCR1.SMAC = 0: a CPU that runs instructions then enters the
SMI service routine; otherwise the request is ignored (rule R196). What the entry does is not in the source: that
configuration registers, TR and main memory stay is a DESIGN CHOICE (notes/assumptions/19.md). -/
def Obligations.SmiRecognition : Prop :=
  ∀ s : State, s.runState = .running → s.powerState = .normal →
    (∀ rest, s.inputs = .smi :: rest → s.cfg.ccr1.getLsbD 1 = true → s.cfg.ccr1.getLsbD 2 = false →
      ∃ t, step s = .next t ∧ t.inSmi = true ∧ t.lastEvent = some .smi ∧ t.cfg = s.cfg ∧ t.inputs = rest
        ∧ t.tr = s.tr ∧ t.mem = s.mem)
    ∧ (s.inputs = [.smi] → ¬ (s.cfg.ccr1.getLsbD 1 = true ∧ s.cfg.ccr1.getLsbD 2 = false) →
        step s = step { s with inputs := [] })

/-- While an SMI is serviced an NMI is recognized with CCR3.NMI_EN = 1, and not recognized with NMI_EN = 0: the step is
then another event or none (rule R195). The address to return to is a DESIGN CHOICE (notes/assumptions/38.md). -/
def Obligations.NmiDuringSmiService : Prop :=
  ∀ s : State, s.runState = .running → s.powerState = .normal → s.inSmi = true → s.inputs = [.nmi] →
    (s.cfg.ccr3.getLsbD 1 = true →
      step s = .next (State.raise .nmi s.eip { s.begin with inputs := [], draws := s.begin.draws + 1 }).emitEarly)
    ∧ (s.cfg.ccr3.getLsbD 1 = false → ∀ t, step s = .next t → t.lastEvent ≠ some .nmi)

/-- SUSP# with CCR2.USE_SUSP = 1 puts a CPU that runs instructions in suspend mode, SUSPA# active, with all
architectural state kept; with USE_SUSP = 0 it is ignored and SUSPA# floats (rules R25 and R209). -/
def Obligations.SuspendPin : Prop :=
  ∀ s : State, s.runState = .running → s.powerState = .normal → s.inputs = [.susp] →
    (s.cfg.ccr2.getLsbD 7 = true →
      ∃ t, step s = .next t ∧ t.powerState = .suspend ∧ t.suspa = some true
        ∧ t = { s with
            powerState := .suspend, inputs := [], lastEvent := none,
            gather := t.gather, events := t.events, draws := t.draws })
    ∧ (s.cfg.ccr2.getLsbD 7 = false → s.suspa = none ∧ step s = step { s with inputs := [] })

/-- A hardware interrupt request that is recognized makes an interrupt acknowledge cycle that supplies the vector, and
is then raised (rules R197, R198 and R210). The cycle is executed as a locked cycle whatever CCR1.NO_LOCK and WL hold
(the second sentence of rules R18 and R119). That LOCK# is negated on it while NO_LOCK is set, although the first
sentence of these rules excepts it, that one request makes exactly one such cycle, and the address it is recorded at,
whose WL counts, are DESIGN CHOICES (notes/assumptions/23.md), that a region off its boundary holds no address there is
another (notes/assumptions/22.md), and so is the address to return to
(notes/assumptions/38.md). What recognizes a request is not in the spec: a free choice; one that is not
recognized raises no such event (notes/assumptions/18.md). -/
def Obligations.HardwareInterrupt : Prop :=
  ∀ (s : State) (v : Byte), s.inputs = [.interrupt v] → (∀ ev ret, s.runState ≠ .raised ev ret) →
    match Config.interruptOutcome s.begin.draws with
    | .recognized =>
      ∃ e, step s = .next (State.raise (.hardwareInterrupt v) s.eip { s.begin with
          inputs := [], events := s.begin.events ++ [e], draws := s.begin.draws + 1 }).emitEarly
        ∧ e.kind = .intAck ∧ e.bytes = [v] ∧ e.locked = true
        ∧ (s.cfg.ccr1.getLsbD 4 = true → e.lock = false)
        ∧ (s.cfg.ccr1.getLsbD 4 = false → (∀ i, s.cfg.inRegion i intAckAddress = false) → e.lock = true)
    | .held => ∀ t, step s = .next t → t.lastEvent ≠ some (.hardwareInterrupt v)
    | .dropped => ∀ t, step s = .next t → t.lastEvent ≠ some (.hardwareInterrupt v)
end

