-- ==== Sys2Proof/Laws/Memory.lean ====
section
/-! SUPPORT. The basic laws of the byte maps: a read after a write, and the canonical form. -/

namespace Sys2Proof.Machine

theorem Memory.read_erase_same (m : Memory) (a : Nat) : (m.erase a).read a = unlistedByte a := by
  induction m with
  | nil => rfl
  | cons c m ih =>
    by_cases h : c.1 = a
    · simpa [Memory.erase, h] using ih
    · simpa [Memory.erase, h, Memory.read, Ne.symm h] using ih

theorem Memory.read_erase_other (m : Memory) {a a' : Nat} (h : a' ≠ a) :
    (m.erase a).read a' = m.read a' := by
  induction m with
  | nil => rfl
  | cons c m ih =>
    by_cases hc : c.1 = a
    · have : a' ≠ c.1 := hc ▸ h
      simpa [Memory.erase, hc, Memory.read, h] using ih
    · by_cases ha : a' = c.1 <;> simp_all [Memory.erase, Memory.read]

theorem Memory.read_insert_same (m : Memory) (a : Nat) (b : Byte) (h : ∀ c ∈ m, c.1 ≠ a) :
    (m.insert a b).read a = b := by
  induction m with
  | nil => simp [Memory.insert, Memory.read]
  | cons c m ih =>
    have hc : a ≠ c.1 := Ne.symm (h c (by simp))
    have ih := ih (fun d hd => h d (by simp [hd]))
    by_cases hlt : a < c.1 <;> simp [Memory.insert, Memory.read, hlt, hc, ih]

theorem Memory.read_insert_other (m : Memory) {a a' : Nat} (b : Byte) (h : a' ≠ a) :
    (m.insert a b).read a' = m.read a' := by
  induction m with
  | nil => simp [Memory.insert, Memory.read, h]
  | cons c m ih => by_cases hlt : a < c.1 <;> simp [Memory.insert, Memory.read, hlt, h, ih]

/-- Reading the address just written gives the value written. -/
@[simp] theorem Memory.read_write_same (m : Memory) (a : Nat) (b : Byte) : (m.write a b).read a = b := by
  unfold Memory.write
  split
  · rename_i h; rw [Memory.read_erase_same, h]
  · exact Memory.read_insert_same _ _ _ (fun c hc => by
      simp only [Memory.erase, List.mem_filter, decide_eq_true_eq] at hc; exact hc.2)

/-- A write leaves every other address alone. -/
theorem Memory.read_write_other (m : Memory) {a a' : Nat} (b : Byte) (h : a' ≠ a) :
    (m.write a b).read a' = m.read a' := by
  unfold Memory.write
  split
  · exact Memory.read_erase_other m h
  · rw [Memory.read_insert_other _ _ h, Memory.read_erase_other m h]

/-! ## The canonical form -/

theorem Memory.wfFrom_mono {lo lo' : Nat} (h : lo' ≤ lo) {m : Memory} (hm : Memory.wfFrom lo m = true) :
    Memory.wfFrom lo' m = true := by
  cases m with
  | nil => rfl
  | cons c m => simp_all [Memory.wfFrom]; omega

theorem Memory.wfFrom_erase (m : Memory) (a : Nat) : ∀ {lo : Nat}, Memory.wfFrom lo m = true →
    Memory.wfFrom lo (m.erase a) = true := by
  induction m with
  | nil => intro lo _; rfl
  | cons c m ih =>
    obtain ⟨a', b'⟩ := c
    intro lo h
    simp only [Memory.wfFrom, Bool.and_eq_true, decide_eq_true_eq] at h
    obtain ⟨⟨⟨h1, h2⟩, h3⟩, h4⟩ := h
    have ih := ih h4
    by_cases hc : a' = a
    · simpa [Memory.erase, hc] using Memory.wfFrom_mono (by omega : lo ≤ a' + 1) ih
    · have : Memory.erase ((a', b') :: m) a = (a', b') :: Memory.erase m a := by simp [Memory.erase, hc]
      simp [this, Memory.wfFrom, h1, h2, h3, ih]

theorem Memory.wfFrom_insert (m : Memory) (a : Nat) (b : Byte) (hb : b ≠ unlistedByte a) (ha : a < 0x100000000) :
    ∀ {lo : Nat}, lo ≤ a → (∀ c ∈ m, c.1 ≠ a) → Memory.wfFrom lo m = true →
    Memory.wfFrom lo (m.insert a b) = true := by
  induction m with
  | nil => intro lo hlo _ _; simp [Memory.insert, Memory.wfFrom, hlo, hb, ha]
  | cons c m ih =>
    obtain ⟨a', b'⟩ := c
    intro lo hlo hne h
    simp only [Memory.wfFrom, Bool.and_eq_true, decide_eq_true_eq] at h
    obtain ⟨⟨⟨h1, h2⟩, h3⟩, h4⟩ := h
    by_cases hlt : a < a'
    · have : a + 1 ≤ a' := hlt
      simp [Memory.insert, hlt, Memory.wfFrom, hlo, hb, ha, h2, h3, h4, this]
    · have hne' : a' ≠ a := hne (a', b') (by simp)
      have := ih (lo := a' + 1) (by omega) (fun d hd => hne d (by simp [hd])) h4
      simp [Memory.insert, hlt, Memory.wfFrom, h1, h2, h3, this]

/-- A write keeps the canonical form. -/
theorem Memory.wf_write {m : Memory} (h : m.wf = true) {a : Nat} (ha : a < 0x100000000) (b : Byte) :
    (m.write a b).wf = true := by
  have he := Memory.wfFrom_erase m a h
  unfold Memory.write
  split
  · exact he
  · rename_i hb
    exact Memory.wfFrom_insert _ a b hb ha (Nat.zero_le a) (fun c hc => by
      simp only [Memory.erase, List.mem_filter, decide_eq_true_eq] at hc; exact hc.2) he

end Sys2Proof.Machine
end

