-- ==== Sys2Proof/Laws/State.lean ====
section
/-! SUPPORT. One lemma per field of `State` for each of its plain updates, so that no later proof unfolds a
record update. -/

namespace Sys2Proof.Machine

/-! ## State.setReg8 -/

@[simp] theorem State.setReg8_gprs (r : Reg8) (v : Byte) (s : State) : (State.setReg8 r v s).gprs = s.gprs.set8 r v := rfl
@[simp] theorem State.setReg8_segs (r : Reg8) (v : Byte) (s : State) : (State.setReg8 r v s).segs = s.segs := rfl
@[simp] theorem State.setReg8_csBase (r : Reg8) (v : Byte) (s : State) : (State.setReg8 r v s).csBase = s.csBase := rfl
@[simp] theorem State.setReg8_ldtSel (r : Reg8) (v : Byte) (s : State) : (State.setReg8 r v s).ldtSel = s.ldtSel := rfl
@[simp] theorem State.setReg8_eip (r : Reg8) (v : Byte) (s : State) : (State.setReg8 r v s).eip = s.eip := rfl
@[simp] theorem State.setReg8_eflags (r : Reg8) (v : Byte) (s : State) : (State.setReg8 r v s).eflags = s.eflags := rfl
@[simp] theorem State.setReg8_cr0 (r : Reg8) (v : Byte) (s : State) : (State.setReg8 r v s).cr0 = s.cr0 := rfl
@[simp] theorem State.setReg8_cr3 (r : Reg8) (v : Byte) (s : State) : (State.setReg8 r v s).cr3 = s.cr3 := rfl
@[simp] theorem State.setReg8_tr (r : Reg8) (v : Byte) (s : State) : (State.setReg8 r v s).tr = s.tr := rfl
@[simp] theorem State.setReg8_gdt (r : Reg8) (v : Byte) (s : State) : (State.setReg8 r v s).gdt = s.gdt := rfl
@[simp] theorem State.setReg8_ldt (r : Reg8) (v : Byte) (s : State) : (State.setReg8 r v s).ldt = s.ldt := rfl
@[simp] theorem State.setReg8_idt (r : Reg8) (v : Byte) (s : State) : (State.setReg8 r v s).idt = s.idt := rfl
@[simp] theorem State.setReg8_pmode (r : Reg8) (v : Byte) (s : State) : (State.setReg8 r v s).pmode = s.pmode := rfl
@[simp] theorem State.setReg8_cpl (r : Reg8) (v : Byte) (s : State) : (State.setReg8 r v s).cpl = s.cpl := rfl
@[simp] theorem State.setReg8_inSmi (r : Reg8) (v : Byte) (s : State) : (State.setReg8 r v s).inSmi = s.inSmi := rfl
@[simp] theorem State.setReg8_cfg (r : Reg8) (v : Byte) (s : State) : (State.setReg8 r v s).cfg = s.cfg := rfl
@[simp] theorem State.setReg8_cfgSel (r : Reg8) (v : Byte) (s : State) : (State.setReg8 r v s).cfgSel = s.cfgSel := rfl
@[simp] theorem State.setReg8_dbg (r : Reg8) (v : Byte) (s : State) : (State.setReg8 r v s).dbg = s.dbg := rfl
@[simp] theorem State.setReg8_test (r : Reg8) (v : Byte) (s : State) : (State.setReg8 r v s).test = s.test := rfl
@[simp] theorem State.setReg8_debugDue (r : Reg8) (v : Byte) (s : State) : (State.setReg8 r v s).debugDue = s.debugDue := rfl
@[simp] theorem State.setReg8_runState (r : Reg8) (v : Byte) (s : State) : (State.setReg8 r v s).runState = s.runState := rfl
@[simp] theorem State.setReg8_powerState (r : Reg8) (v : Byte) (s : State) : (State.setReg8 r v s).powerState = s.powerState := rfl
@[simp] theorem State.setReg8_mem (r : Reg8) (v : Byte) (s : State) : (State.setReg8 r v s).mem = s.mem := rfl
@[simp] theorem State.setReg8_smm (r : Reg8) (v : Byte) (s : State) : (State.setReg8 r v s).smm = s.smm := rfl
@[simp] theorem State.setReg8_gather (r : Reg8) (v : Byte) (s : State) : (State.setReg8 r v s).gather = s.gather := rfl
@[simp] theorem State.setReg8_events (r : Reg8) (v : Byte) (s : State) : (State.setReg8 r v s).events = s.events := rfl
@[simp] theorem State.setReg8_inputs (r : Reg8) (v : Byte) (s : State) : (State.setReg8 r v s).inputs = s.inputs := rfl
@[simp] theorem State.setReg8_lastEvent (r : Reg8) (v : Byte) (s : State) : (State.setReg8 r v s).lastEvent = s.lastEvent := rfl
@[simp] theorem State.setReg8_draws (r : Reg8) (v : Byte) (s : State) : (State.setReg8 r v s).draws = s.draws := rfl

/-! ## State.setReg -/

@[simp] theorem State.setReg_gprs (r : GReg) (v : Dword) (s : State) : (State.setReg r v s).gprs = s.gprs.set r v := rfl
@[simp] theorem State.setReg_segs (r : GReg) (v : Dword) (s : State) : (State.setReg r v s).segs = s.segs := rfl
@[simp] theorem State.setReg_csBase (r : GReg) (v : Dword) (s : State) : (State.setReg r v s).csBase = s.csBase := rfl
@[simp] theorem State.setReg_ldtSel (r : GReg) (v : Dword) (s : State) : (State.setReg r v s).ldtSel = s.ldtSel := rfl
@[simp] theorem State.setReg_eip (r : GReg) (v : Dword) (s : State) : (State.setReg r v s).eip = s.eip := rfl
@[simp] theorem State.setReg_eflags (r : GReg) (v : Dword) (s : State) : (State.setReg r v s).eflags = s.eflags := rfl
@[simp] theorem State.setReg_cr0 (r : GReg) (v : Dword) (s : State) : (State.setReg r v s).cr0 = s.cr0 := rfl
@[simp] theorem State.setReg_cr3 (r : GReg) (v : Dword) (s : State) : (State.setReg r v s).cr3 = s.cr3 := rfl
@[simp] theorem State.setReg_tr (r : GReg) (v : Dword) (s : State) : (State.setReg r v s).tr = s.tr := rfl
@[simp] theorem State.setReg_gdt (r : GReg) (v : Dword) (s : State) : (State.setReg r v s).gdt = s.gdt := rfl
@[simp] theorem State.setReg_ldt (r : GReg) (v : Dword) (s : State) : (State.setReg r v s).ldt = s.ldt := rfl
@[simp] theorem State.setReg_idt (r : GReg) (v : Dword) (s : State) : (State.setReg r v s).idt = s.idt := rfl
@[simp] theorem State.setReg_pmode (r : GReg) (v : Dword) (s : State) : (State.setReg r v s).pmode = s.pmode := rfl
@[simp] theorem State.setReg_cpl (r : GReg) (v : Dword) (s : State) : (State.setReg r v s).cpl = s.cpl := rfl
@[simp] theorem State.setReg_inSmi (r : GReg) (v : Dword) (s : State) : (State.setReg r v s).inSmi = s.inSmi := rfl
@[simp] theorem State.setReg_cfg (r : GReg) (v : Dword) (s : State) : (State.setReg r v s).cfg = s.cfg := rfl
@[simp] theorem State.setReg_cfgSel (r : GReg) (v : Dword) (s : State) : (State.setReg r v s).cfgSel = s.cfgSel := rfl
@[simp] theorem State.setReg_dbg (r : GReg) (v : Dword) (s : State) : (State.setReg r v s).dbg = s.dbg := rfl
@[simp] theorem State.setReg_test (r : GReg) (v : Dword) (s : State) : (State.setReg r v s).test = s.test := rfl
@[simp] theorem State.setReg_debugDue (r : GReg) (v : Dword) (s : State) : (State.setReg r v s).debugDue = s.debugDue := rfl
@[simp] theorem State.setReg_runState (r : GReg) (v : Dword) (s : State) : (State.setReg r v s).runState = s.runState := rfl
@[simp] theorem State.setReg_powerState (r : GReg) (v : Dword) (s : State) : (State.setReg r v s).powerState = s.powerState := rfl
@[simp] theorem State.setReg_mem (r : GReg) (v : Dword) (s : State) : (State.setReg r v s).mem = s.mem := rfl
@[simp] theorem State.setReg_smm (r : GReg) (v : Dword) (s : State) : (State.setReg r v s).smm = s.smm := rfl
@[simp] theorem State.setReg_gather (r : GReg) (v : Dword) (s : State) : (State.setReg r v s).gather = s.gather := rfl
@[simp] theorem State.setReg_events (r : GReg) (v : Dword) (s : State) : (State.setReg r v s).events = s.events := rfl
@[simp] theorem State.setReg_inputs (r : GReg) (v : Dword) (s : State) : (State.setReg r v s).inputs = s.inputs := rfl
@[simp] theorem State.setReg_lastEvent (r : GReg) (v : Dword) (s : State) : (State.setReg r v s).lastEvent = s.lastEvent := rfl
@[simp] theorem State.setReg_draws (r : GReg) (v : Dword) (s : State) : (State.setReg r v s).draws = s.draws := rfl

/-! ## State.advance -/

@[simp] theorem State.advance_gprs (n : Nat) (s : State) : (State.advance n s).gprs = s.gprs := rfl
@[simp] theorem State.advance_segs (n : Nat) (s : State) : (State.advance n s).segs = s.segs := rfl
@[simp] theorem State.advance_csBase (n : Nat) (s : State) : (State.advance n s).csBase = s.csBase := rfl
@[simp] theorem State.advance_ldtSel (n : Nat) (s : State) : (State.advance n s).ldtSel = s.ldtSel := rfl
@[simp] theorem State.advance_eip (n : Nat) (s : State) : (State.advance n s).eip = s.eip + BitVec.ofNat 32 n := rfl
@[simp] theorem State.advance_eflags (n : Nat) (s : State) : (State.advance n s).eflags = s.eflags := rfl
@[simp] theorem State.advance_cr0 (n : Nat) (s : State) : (State.advance n s).cr0 = s.cr0 := rfl
@[simp] theorem State.advance_cr3 (n : Nat) (s : State) : (State.advance n s).cr3 = s.cr3 := rfl
@[simp] theorem State.advance_tr (n : Nat) (s : State) : (State.advance n s).tr = s.tr := rfl
@[simp] theorem State.advance_gdt (n : Nat) (s : State) : (State.advance n s).gdt = s.gdt := rfl
@[simp] theorem State.advance_ldt (n : Nat) (s : State) : (State.advance n s).ldt = s.ldt := rfl
@[simp] theorem State.advance_idt (n : Nat) (s : State) : (State.advance n s).idt = s.idt := rfl
@[simp] theorem State.advance_pmode (n : Nat) (s : State) : (State.advance n s).pmode = s.pmode := rfl
@[simp] theorem State.advance_cpl (n : Nat) (s : State) : (State.advance n s).cpl = s.cpl := rfl
@[simp] theorem State.advance_inSmi (n : Nat) (s : State) : (State.advance n s).inSmi = s.inSmi := rfl
@[simp] theorem State.advance_cfg (n : Nat) (s : State) : (State.advance n s).cfg = s.cfg := rfl
@[simp] theorem State.advance_cfgSel (n : Nat) (s : State) : (State.advance n s).cfgSel = s.cfgSel := rfl
@[simp] theorem State.advance_dbg (n : Nat) (s : State) : (State.advance n s).dbg = s.dbg := rfl
@[simp] theorem State.advance_test (n : Nat) (s : State) : (State.advance n s).test = s.test := rfl
@[simp] theorem State.advance_debugDue (n : Nat) (s : State) : (State.advance n s).debugDue = s.debugDue := rfl
@[simp] theorem State.advance_runState (n : Nat) (s : State) : (State.advance n s).runState = s.runState := rfl
@[simp] theorem State.advance_powerState (n : Nat) (s : State) : (State.advance n s).powerState = s.powerState := rfl
@[simp] theorem State.advance_mem (n : Nat) (s : State) : (State.advance n s).mem = s.mem := rfl
@[simp] theorem State.advance_smm (n : Nat) (s : State) : (State.advance n s).smm = s.smm := rfl
@[simp] theorem State.advance_gather (n : Nat) (s : State) : (State.advance n s).gather = s.gather := rfl
@[simp] theorem State.advance_events (n : Nat) (s : State) : (State.advance n s).events = s.events := rfl
@[simp] theorem State.advance_inputs (n : Nat) (s : State) : (State.advance n s).inputs = s.inputs := rfl
@[simp] theorem State.advance_lastEvent (n : Nat) (s : State) : (State.advance n s).lastEvent = s.lastEvent := rfl
@[simp] theorem State.advance_draws (n : Nat) (s : State) : (State.advance n s).draws = s.draws := rfl

/-! ## State.setEflags -/

@[simp] theorem State.setEflags_gprs (v : Dword) (s : State) : (State.setEflags v s).gprs = s.gprs := rfl
@[simp] theorem State.setEflags_segs (v : Dword) (s : State) : (State.setEflags v s).segs = s.segs := rfl
@[simp] theorem State.setEflags_csBase (v : Dword) (s : State) : (State.setEflags v s).csBase = s.csBase := rfl
@[simp] theorem State.setEflags_ldtSel (v : Dword) (s : State) : (State.setEflags v s).ldtSel = s.ldtSel := rfl
@[simp] theorem State.setEflags_eip (v : Dword) (s : State) : (State.setEflags v s).eip = s.eip := rfl
@[simp] theorem State.setEflags_eflags (v : Dword) (s : State) : (State.setEflags v s).eflags = if s.cfg.cpuidEnabled then v else keepBits idMask s.eflags v := rfl
@[simp] theorem State.setEflags_cr0 (v : Dword) (s : State) : (State.setEflags v s).cr0 = s.cr0 := rfl
@[simp] theorem State.setEflags_cr3 (v : Dword) (s : State) : (State.setEflags v s).cr3 = s.cr3 := rfl
@[simp] theorem State.setEflags_tr (v : Dword) (s : State) : (State.setEflags v s).tr = s.tr := rfl
@[simp] theorem State.setEflags_gdt (v : Dword) (s : State) : (State.setEflags v s).gdt = s.gdt := rfl
@[simp] theorem State.setEflags_ldt (v : Dword) (s : State) : (State.setEflags v s).ldt = s.ldt := rfl
@[simp] theorem State.setEflags_idt (v : Dword) (s : State) : (State.setEflags v s).idt = s.idt := rfl
@[simp] theorem State.setEflags_pmode (v : Dword) (s : State) : (State.setEflags v s).pmode = s.pmode := rfl
@[simp] theorem State.setEflags_cpl (v : Dword) (s : State) : (State.setEflags v s).cpl = s.cpl := rfl
@[simp] theorem State.setEflags_inSmi (v : Dword) (s : State) : (State.setEflags v s).inSmi = s.inSmi := rfl
@[simp] theorem State.setEflags_cfg (v : Dword) (s : State) : (State.setEflags v s).cfg = s.cfg := rfl
@[simp] theorem State.setEflags_cfgSel (v : Dword) (s : State) : (State.setEflags v s).cfgSel = s.cfgSel := rfl
@[simp] theorem State.setEflags_dbg (v : Dword) (s : State) : (State.setEflags v s).dbg = s.dbg := rfl
@[simp] theorem State.setEflags_test (v : Dword) (s : State) : (State.setEflags v s).test = s.test := rfl
@[simp] theorem State.setEflags_debugDue (v : Dword) (s : State) : (State.setEflags v s).debugDue = s.debugDue := rfl
@[simp] theorem State.setEflags_runState (v : Dword) (s : State) : (State.setEflags v s).runState = s.runState := rfl
@[simp] theorem State.setEflags_powerState (v : Dword) (s : State) : (State.setEflags v s).powerState = s.powerState := rfl
@[simp] theorem State.setEflags_mem (v : Dword) (s : State) : (State.setEflags v s).mem = s.mem := rfl
@[simp] theorem State.setEflags_smm (v : Dword) (s : State) : (State.setEflags v s).smm = s.smm := rfl
@[simp] theorem State.setEflags_gather (v : Dword) (s : State) : (State.setEflags v s).gather = s.gather := rfl
@[simp] theorem State.setEflags_events (v : Dword) (s : State) : (State.setEflags v s).events = s.events := rfl
@[simp] theorem State.setEflags_inputs (v : Dword) (s : State) : (State.setEflags v s).inputs = s.inputs := rfl
@[simp] theorem State.setEflags_lastEvent (v : Dword) (s : State) : (State.setEflags v s).lastEvent = s.lastEvent := rfl
@[simp] theorem State.setEflags_draws (v : Dword) (s : State) : (State.setEflags v s).draws = s.draws := rfl

/-! ## State.setCr0 -/

@[simp] theorem State.setCr0_gprs (v : Dword) (s : State) : (State.setCr0 v s).gprs = s.gprs := rfl
@[simp] theorem State.setCr0_segs (v : Dword) (s : State) : (State.setCr0 v s).segs = s.segs := rfl
@[simp] theorem State.setCr0_csBase (v : Dword) (s : State) : (State.setCr0 v s).csBase = s.csBase := rfl
@[simp] theorem State.setCr0_ldtSel (v : Dword) (s : State) : (State.setCr0 v s).ldtSel = s.ldtSel := rfl
@[simp] theorem State.setCr0_eip (v : Dword) (s : State) : (State.setCr0 v s).eip = s.eip := rfl
@[simp] theorem State.setCr0_eflags (v : Dword) (s : State) : (State.setCr0 v s).eflags = s.eflags := rfl
@[simp] theorem State.setCr0_cr0 (v : Dword) (s : State) : (State.setCr0 v s).cr0 = if s.cfg.lockNw then keepBits nwMask s.cr0 v else v := rfl
@[simp] theorem State.setCr0_cr3 (v : Dword) (s : State) : (State.setCr0 v s).cr3 = s.cr3 := rfl
@[simp] theorem State.setCr0_tr (v : Dword) (s : State) : (State.setCr0 v s).tr = s.tr := rfl
@[simp] theorem State.setCr0_gdt (v : Dword) (s : State) : (State.setCr0 v s).gdt = s.gdt := rfl
@[simp] theorem State.setCr0_ldt (v : Dword) (s : State) : (State.setCr0 v s).ldt = s.ldt := rfl
@[simp] theorem State.setCr0_idt (v : Dword) (s : State) : (State.setCr0 v s).idt = s.idt := rfl
@[simp] theorem State.setCr0_pmode (v : Dword) (s : State) : (State.setCr0 v s).pmode = s.pmode := rfl
@[simp] theorem State.setCr0_cpl (v : Dword) (s : State) : (State.setCr0 v s).cpl = s.cpl := rfl
@[simp] theorem State.setCr0_inSmi (v : Dword) (s : State) : (State.setCr0 v s).inSmi = s.inSmi := rfl
@[simp] theorem State.setCr0_cfg (v : Dword) (s : State) : (State.setCr0 v s).cfg = s.cfg := rfl
@[simp] theorem State.setCr0_cfgSel (v : Dword) (s : State) : (State.setCr0 v s).cfgSel = s.cfgSel := rfl
@[simp] theorem State.setCr0_dbg (v : Dword) (s : State) : (State.setCr0 v s).dbg = s.dbg := rfl
@[simp] theorem State.setCr0_test (v : Dword) (s : State) : (State.setCr0 v s).test = s.test := rfl
@[simp] theorem State.setCr0_debugDue (v : Dword) (s : State) : (State.setCr0 v s).debugDue = s.debugDue := rfl
@[simp] theorem State.setCr0_runState (v : Dword) (s : State) : (State.setCr0 v s).runState = s.runState := rfl
@[simp] theorem State.setCr0_powerState (v : Dword) (s : State) : (State.setCr0 v s).powerState = s.powerState := rfl
@[simp] theorem State.setCr0_mem (v : Dword) (s : State) : (State.setCr0 v s).mem = s.mem := rfl
@[simp] theorem State.setCr0_smm (v : Dword) (s : State) : (State.setCr0 v s).smm = s.smm := rfl
@[simp] theorem State.setCr0_gather (v : Dword) (s : State) : (State.setCr0 v s).gather = s.gather := rfl
@[simp] theorem State.setCr0_events (v : Dword) (s : State) : (State.setCr0 v s).events = s.events := rfl
@[simp] theorem State.setCr0_inputs (v : Dword) (s : State) : (State.setCr0 v s).inputs = s.inputs := rfl
@[simp] theorem State.setCr0_lastEvent (v : Dword) (s : State) : (State.setCr0 v s).lastEvent = s.lastEvent := rfl
@[simp] theorem State.setCr0_draws (v : Dword) (s : State) : (State.setCr0 v s).draws = s.draws := rfl

/-! ## State.writeArithFlags -/

@[simp] theorem State.writeArithFlags_gprs (s : State) : (State.writeArithFlags s).gprs = s.gprs := rfl
@[simp] theorem State.writeArithFlags_segs (s : State) : (State.writeArithFlags s).segs = s.segs := rfl
@[simp] theorem State.writeArithFlags_csBase (s : State) : (State.writeArithFlags s).csBase = s.csBase := rfl
@[simp] theorem State.writeArithFlags_ldtSel (s : State) : (State.writeArithFlags s).ldtSel = s.ldtSel := rfl
@[simp] theorem State.writeArithFlags_eip (s : State) : (State.writeArithFlags s).eip = s.eip := rfl
@[simp] theorem State.writeArithFlags_eflags (s : State) : (State.writeArithFlags s).eflags = keepBits arithMask (Config.freeDword s.draws) s.eflags := rfl
@[simp] theorem State.writeArithFlags_cr0 (s : State) : (State.writeArithFlags s).cr0 = s.cr0 := rfl
@[simp] theorem State.writeArithFlags_cr3 (s : State) : (State.writeArithFlags s).cr3 = s.cr3 := rfl
@[simp] theorem State.writeArithFlags_tr (s : State) : (State.writeArithFlags s).tr = s.tr := rfl
@[simp] theorem State.writeArithFlags_gdt (s : State) : (State.writeArithFlags s).gdt = s.gdt := rfl
@[simp] theorem State.writeArithFlags_ldt (s : State) : (State.writeArithFlags s).ldt = s.ldt := rfl
@[simp] theorem State.writeArithFlags_idt (s : State) : (State.writeArithFlags s).idt = s.idt := rfl
@[simp] theorem State.writeArithFlags_pmode (s : State) : (State.writeArithFlags s).pmode = s.pmode := rfl
@[simp] theorem State.writeArithFlags_cpl (s : State) : (State.writeArithFlags s).cpl = s.cpl := rfl
@[simp] theorem State.writeArithFlags_inSmi (s : State) : (State.writeArithFlags s).inSmi = s.inSmi := rfl
@[simp] theorem State.writeArithFlags_cfg (s : State) : (State.writeArithFlags s).cfg = s.cfg := rfl
@[simp] theorem State.writeArithFlags_cfgSel (s : State) : (State.writeArithFlags s).cfgSel = s.cfgSel := rfl
@[simp] theorem State.writeArithFlags_dbg (s : State) : (State.writeArithFlags s).dbg = s.dbg := rfl
@[simp] theorem State.writeArithFlags_test (s : State) : (State.writeArithFlags s).test = s.test := rfl
@[simp] theorem State.writeArithFlags_debugDue (s : State) : (State.writeArithFlags s).debugDue = s.debugDue := rfl
@[simp] theorem State.writeArithFlags_runState (s : State) : (State.writeArithFlags s).runState = s.runState := rfl
@[simp] theorem State.writeArithFlags_powerState (s : State) : (State.writeArithFlags s).powerState = s.powerState := rfl
@[simp] theorem State.writeArithFlags_mem (s : State) : (State.writeArithFlags s).mem = s.mem := rfl
@[simp] theorem State.writeArithFlags_smm (s : State) : (State.writeArithFlags s).smm = s.smm := rfl
@[simp] theorem State.writeArithFlags_gather (s : State) : (State.writeArithFlags s).gather = s.gather := rfl
@[simp] theorem State.writeArithFlags_events (s : State) : (State.writeArithFlags s).events = s.events := rfl
@[simp] theorem State.writeArithFlags_inputs (s : State) : (State.writeArithFlags s).inputs = s.inputs := rfl
@[simp] theorem State.writeArithFlags_lastEvent (s : State) : (State.writeArithFlags s).lastEvent = s.lastEvent := rfl
@[simp] theorem State.writeArithFlags_draws (s : State) : (State.writeArithFlags s).draws = s.draws + 1 := rfl

/-! ## State.emit -/

@[simp] theorem State.emit_gprs (e : BusEvent) (s : State) : (State.emit e s).gprs = s.gprs := rfl
@[simp] theorem State.emit_segs (e : BusEvent) (s : State) : (State.emit e s).segs = s.segs := rfl
@[simp] theorem State.emit_csBase (e : BusEvent) (s : State) : (State.emit e s).csBase = s.csBase := rfl
@[simp] theorem State.emit_ldtSel (e : BusEvent) (s : State) : (State.emit e s).ldtSel = s.ldtSel := rfl
@[simp] theorem State.emit_eip (e : BusEvent) (s : State) : (State.emit e s).eip = s.eip := rfl
@[simp] theorem State.emit_eflags (e : BusEvent) (s : State) : (State.emit e s).eflags = s.eflags := rfl
@[simp] theorem State.emit_cr0 (e : BusEvent) (s : State) : (State.emit e s).cr0 = s.cr0 := rfl
@[simp] theorem State.emit_cr3 (e : BusEvent) (s : State) : (State.emit e s).cr3 = s.cr3 := rfl
@[simp] theorem State.emit_tr (e : BusEvent) (s : State) : (State.emit e s).tr = s.tr := rfl
@[simp] theorem State.emit_gdt (e : BusEvent) (s : State) : (State.emit e s).gdt = s.gdt := rfl
@[simp] theorem State.emit_ldt (e : BusEvent) (s : State) : (State.emit e s).ldt = s.ldt := rfl
@[simp] theorem State.emit_idt (e : BusEvent) (s : State) : (State.emit e s).idt = s.idt := rfl
@[simp] theorem State.emit_pmode (e : BusEvent) (s : State) : (State.emit e s).pmode = s.pmode := rfl
@[simp] theorem State.emit_cpl (e : BusEvent) (s : State) : (State.emit e s).cpl = s.cpl := rfl
@[simp] theorem State.emit_inSmi (e : BusEvent) (s : State) : (State.emit e s).inSmi = s.inSmi := rfl
@[simp] theorem State.emit_cfg (e : BusEvent) (s : State) : (State.emit e s).cfg = s.cfg := rfl
@[simp] theorem State.emit_cfgSel (e : BusEvent) (s : State) : (State.emit e s).cfgSel = s.cfgSel := rfl
@[simp] theorem State.emit_dbg (e : BusEvent) (s : State) : (State.emit e s).dbg = s.dbg := rfl
@[simp] theorem State.emit_test (e : BusEvent) (s : State) : (State.emit e s).test = s.test := rfl
@[simp] theorem State.emit_debugDue (e : BusEvent) (s : State) : (State.emit e s).debugDue = s.debugDue := rfl
@[simp] theorem State.emit_runState (e : BusEvent) (s : State) : (State.emit e s).runState = s.runState := rfl
@[simp] theorem State.emit_powerState (e : BusEvent) (s : State) : (State.emit e s).powerState = s.powerState := rfl
@[simp] theorem State.emit_mem (e : BusEvent) (s : State) : (State.emit e s).mem = s.mem := rfl
@[simp] theorem State.emit_smm (e : BusEvent) (s : State) : (State.emit e s).smm = s.smm := rfl
@[simp] theorem State.emit_gather (e : BusEvent) (s : State) : (State.emit e s).gather = s.gather := rfl
@[simp] theorem State.emit_events (e : BusEvent) (s : State) : (State.emit e s).events = s.events ++ [e] := rfl
@[simp] theorem State.emit_inputs (e : BusEvent) (s : State) : (State.emit e s).inputs = s.inputs := rfl
@[simp] theorem State.emit_lastEvent (e : BusEvent) (s : State) : (State.emit e s).lastEvent = s.lastEvent := rfl
@[simp] theorem State.emit_draws (e : BusEvent) (s : State) : (State.emit e s).draws = s.draws := rfl

/-! ## State.draw -/

@[simp] theorem State.draw_gprs (s : State) : (State.draw s).gprs = s.gprs := rfl
@[simp] theorem State.draw_segs (s : State) : (State.draw s).segs = s.segs := rfl
@[simp] theorem State.draw_csBase (s : State) : (State.draw s).csBase = s.csBase := rfl
@[simp] theorem State.draw_ldtSel (s : State) : (State.draw s).ldtSel = s.ldtSel := rfl
@[simp] theorem State.draw_eip (s : State) : (State.draw s).eip = s.eip := rfl
@[simp] theorem State.draw_eflags (s : State) : (State.draw s).eflags = s.eflags := rfl
@[simp] theorem State.draw_cr0 (s : State) : (State.draw s).cr0 = s.cr0 := rfl
@[simp] theorem State.draw_cr3 (s : State) : (State.draw s).cr3 = s.cr3 := rfl
@[simp] theorem State.draw_tr (s : State) : (State.draw s).tr = s.tr := rfl
@[simp] theorem State.draw_gdt (s : State) : (State.draw s).gdt = s.gdt := rfl
@[simp] theorem State.draw_ldt (s : State) : (State.draw s).ldt = s.ldt := rfl
@[simp] theorem State.draw_idt (s : State) : (State.draw s).idt = s.idt := rfl
@[simp] theorem State.draw_pmode (s : State) : (State.draw s).pmode = s.pmode := rfl
@[simp] theorem State.draw_cpl (s : State) : (State.draw s).cpl = s.cpl := rfl
@[simp] theorem State.draw_inSmi (s : State) : (State.draw s).inSmi = s.inSmi := rfl
@[simp] theorem State.draw_cfg (s : State) : (State.draw s).cfg = s.cfg := rfl
@[simp] theorem State.draw_cfgSel (s : State) : (State.draw s).cfgSel = s.cfgSel := rfl
@[simp] theorem State.draw_dbg (s : State) : (State.draw s).dbg = s.dbg := rfl
@[simp] theorem State.draw_test (s : State) : (State.draw s).test = s.test := rfl
@[simp] theorem State.draw_debugDue (s : State) : (State.draw s).debugDue = s.debugDue := rfl
@[simp] theorem State.draw_runState (s : State) : (State.draw s).runState = s.runState := rfl
@[simp] theorem State.draw_powerState (s : State) : (State.draw s).powerState = s.powerState := rfl
@[simp] theorem State.draw_mem (s : State) : (State.draw s).mem = s.mem := rfl
@[simp] theorem State.draw_smm (s : State) : (State.draw s).smm = s.smm := rfl
@[simp] theorem State.draw_gather (s : State) : (State.draw s).gather = s.gather := rfl
@[simp] theorem State.draw_events (s : State) : (State.draw s).events = s.events := rfl
@[simp] theorem State.draw_inputs (s : State) : (State.draw s).inputs = s.inputs := rfl
@[simp] theorem State.draw_lastEvent (s : State) : (State.draw s).lastEvent = s.lastEvent := rfl
@[simp] theorem State.draw_draws (s : State) : (State.draw s).draws = s.draws + 1 := rfl

end Sys2Proof.Machine
end

