-- ==== Sys2Proof/Laws/Bus.lean ====
section
/-! SUPPORT. Everything a memory or bus operation can do, said once: it changes nothing but the two byte maps,
the write-gather buffer, the record of bus cycles and the draw counter; it keeps the canonical form and
the buffer's form; and it only appends to the record. -/

namespace Sys2Proof.Machine

/-- `t` is `s` but for the byte maps, the write-gather buffer, the record of cycles and the draw counter. -/
def SameCpu (s t : State) : Prop :=
  t = { s with mem := t.mem, smm := t.smm, gather := t.gather, events := t.events, draws := t.draws }

/-- What a memory or bus operation does to a state. -/
structure BusStep (s t : State) : Prop where
  cpu    : SameCpu s t
  mem    : s.mem.wf = true → t.mem.wf = true
  smm    : s.smm.wf = true → t.smm.wf = true
  gather : s.gather.all GatherBuffer.legal = true → t.gather.all GatherBuffer.legal = true
  events : s.events <+: t.events

namespace SameCpu

variable {s t u : State}

theorem eqn (h : SameCpu s t) :
    t = { s with mem := t.mem, smm := t.smm, gather := t.gather, events := t.events, draws := t.draws } := h

theorem refl (s : State) : SameCpu s s := rfl

theorem trans (h : SameCpu s t) (h' : SameCpu t u) : SameCpu s u := by
  unfold SameCpu at *
  rw [h', h]

theorem gprs (h : SameCpu s t) : t.gprs = s.gprs := (congrArg State.gprs h.eqn).trans rfl
theorem segs (h : SameCpu s t) : t.segs = s.segs := (congrArg State.segs h.eqn).trans rfl
theorem csBase (h : SameCpu s t) : t.csBase = s.csBase := (congrArg State.csBase h.eqn).trans rfl
theorem ldtSel (h : SameCpu s t) : t.ldtSel = s.ldtSel := (congrArg State.ldtSel h.eqn).trans rfl
theorem eip (h : SameCpu s t) : t.eip = s.eip := (congrArg State.eip h.eqn).trans rfl
theorem eflags (h : SameCpu s t) : t.eflags = s.eflags := (congrArg State.eflags h.eqn).trans rfl
theorem cr0 (h : SameCpu s t) : t.cr0 = s.cr0 := (congrArg State.cr0 h.eqn).trans rfl
theorem cr3 (h : SameCpu s t) : t.cr3 = s.cr3 := (congrArg State.cr3 h.eqn).trans rfl
theorem tr (h : SameCpu s t) : t.tr = s.tr := (congrArg State.tr h.eqn).trans rfl
theorem gdt (h : SameCpu s t) : t.gdt = s.gdt := (congrArg State.gdt h.eqn).trans rfl
theorem ldt (h : SameCpu s t) : t.ldt = s.ldt := (congrArg State.ldt h.eqn).trans rfl
theorem idt (h : SameCpu s t) : t.idt = s.idt := (congrArg State.idt h.eqn).trans rfl
theorem pmode (h : SameCpu s t) : t.pmode = s.pmode := (congrArg State.pmode h.eqn).trans rfl
theorem cpl (h : SameCpu s t) : t.cpl = s.cpl := (congrArg State.cpl h.eqn).trans rfl
theorem inSmi (h : SameCpu s t) : t.inSmi = s.inSmi := (congrArg State.inSmi h.eqn).trans rfl
theorem cfg (h : SameCpu s t) : t.cfg = s.cfg := (congrArg State.cfg h.eqn).trans rfl
theorem cfgSel (h : SameCpu s t) : t.cfgSel = s.cfgSel := (congrArg State.cfgSel h.eqn).trans rfl
theorem dbg (h : SameCpu s t) : t.dbg = s.dbg := (congrArg State.dbg h.eqn).trans rfl
theorem debugDue (h : SameCpu s t) : t.debugDue = s.debugDue := (congrArg State.debugDue h.eqn).trans rfl
theorem test (h : SameCpu s t) : t.test = s.test := (congrArg State.test h.eqn).trans rfl
theorem runState (h : SameCpu s t) : t.runState = s.runState := (congrArg State.runState h.eqn).trans rfl
theorem powerState (h : SameCpu s t) : t.powerState = s.powerState := (congrArg State.powerState h.eqn).trans rfl
theorem inputs (h : SameCpu s t) : t.inputs = s.inputs := (congrArg State.inputs h.eqn).trans rfl
theorem lastEvent (h : SameCpu s t) : t.lastEvent = s.lastEvent := (congrArg State.lastEvent h.eqn).trans rfl

/-- The routing of an address to a byte map does not change. -/
theorem smmRouted (h : SameCpu s t) (a : Dword) : t.smmRouted a = s.smmRouted a := by
  simp [State.smmRouted, h.cfg, h.inSmi]

end SameCpu

namespace BusStep

variable {s t u : State}

theorem refl (s : State) : BusStep s s := ⟨SameCpu.refl s, id, id, id, List.prefix_refl _⟩

theorem trans (h : BusStep s t) (h' : BusStep t u) : BusStep s u :=
  ⟨h.cpu.trans h'.cpu, h'.mem ∘ h.mem, h'.smm ∘ h.smm, h'.gather ∘ h.gather, h.events.trans h'.events⟩

end BusStep

/-! ## Byte maps -/

theorem State.writeByte_busStep (a : Dword) (b : Byte) (s : State) : BusStep s (s.writeByte a b) := by
  unfold State.writeByte
  split
  · exact ⟨rfl, id, fun h => Memory.wf_write h a.isLt b, id, List.prefix_refl _⟩
  · exact ⟨rfl, fun h => Memory.wf_write h a.isLt b, id, id, List.prefix_refl _⟩

theorem State.writeBytes_busStep (bs : List Byte) : ∀ (a : Dword) (s : State), BusStep s (s.writeBytes a bs) := by
  induction bs with
  | nil => exact fun _ s => BusStep.refl s
  | cons b bs ih => exact fun a s => (State.writeByte_busStep a b s).trans (ih (a + 1) _)

/-- The byte just written is read back, in main and in system management memory alike. -/
@[simp] theorem State.readByte_writeByte_same (a : Dword) (b : Byte) (s : State) :
    (s.writeByte a b).readByte a = b := by
  have h := (State.writeByte_busStep a b s).cpu.smmRouted a
  unfold State.readByte
  rw [h]
  unfold State.writeByte
  by_cases hr : s.smmRouted a <;> simp [hr]

/-- A write of one byte leaves every other address alone. -/
theorem State.readByte_writeByte_other {a a' : Dword} (b : Byte) (s : State) (hne : a' ≠ a) :
    (s.writeByte a b).readByte a' = s.readByte a' := by
  have h := (State.writeByte_busStep a b s).cpu.smmRouted a'
  have hn : a'.toNat ≠ a.toNat := fun h => hne (BitVec.eq_of_toNat_eq h)
  unfold State.readByte
  rw [h]
  unfold State.writeByte
  by_cases hr : s.smmRouted a <;> by_cases hr' : s.smmRouted a' <;>
    simp [hr, hr', Memory.read_write_other _ _ hn]

/-- A write of bytes leaves every address outside them alone. -/
theorem State.readByte_writeBytes_other (bs : List Byte) : ∀ (a : Dword) (s : State) (a' : Dword),
    (∀ k < bs.length, a' ≠ a + BitVec.ofNat 32 k) → (s.writeBytes a bs).readByte a' = s.readByte a' := by
  induction bs with
  | nil => exact fun _ _ _ _ => rfl
  | cons b bs ih =>
    intro a s a' h
    have h0 : a' ≠ a := by simpa using h 0 (by simp)
    have hs : (State.writeBytes (a + 1) bs (s.writeByte a b)).readByte a' = (s.writeByte a b).readByte a' := by
      refine ih (a + 1) _ a' (fun k hk => ?_)
      have h' := h (k + 1) (by simpa using hk)
      have e : a + BitVec.ofNat 32 (k + 1) = a + 1 + BitVec.ofNat 32 k := by
        apply BitVec.eq_of_toNat_eq
        have h1 : (1 : Dword).toNat = 1 := rfl
        simp only [BitVec.toNat_add, BitVec.toNat_ofNat, h1]
        omega
      rwa [e] at h'
    rw [State.writeBytes, hs, State.readByte_writeByte_other b s h0]

/-! ## Cycles -/

/-- A read depends on the byte maps and the routing only. -/
theorem State.readByte_congr {s t : State} (hm : t.mem = s.mem) (hs : t.smm = s.smm)
    (hr : ∀ a, t.smmRouted a = s.smmRouted a) (a : Dword) : t.readByte a = s.readByte a := by
  simp [State.readByte, hm, hs, hr]

/-- Wider reads depend on the bytes only. -/
theorem State.readWord_congr {s t : State} (h : ∀ a, t.readByte a = s.readByte a) (a : Dword) :
    t.readWord a = s.readWord a := by
  simp [State.readWord, h]

theorem State.readDword_congr {s t : State} (h : ∀ a, t.readByte a = s.readByte a) (a : Dword) :
    t.readDword a = s.readDword a := by
  simp [State.readDword, State.readWord_congr h]

theorem State.readQword_congr {s t : State} (h : ∀ a, t.readByte a = s.readByte a) (a : Dword) :
    t.readQword a = s.readQword a := by
  simp [State.readQword, State.readDword_congr h]

theorem State.readBytes_congr {s t : State} (h : ∀ a, t.readByte a = s.readByte a) (n : Nat) :
    ∀ a, t.readBytes a n = s.readBytes a n := by
  induction n with
  | zero => exact fun _ => rfl
  | succ n ih => exact fun a => by simp [State.readBytes, h, ih]

/-- A bus operation that leaves both byte maps alone. -/
structure CycleStep (s t : State) : Prop extends BusStep s t where
  sameMem : t.mem = s.mem
  sameSmm : t.smm = s.smm

namespace CycleStep

variable {s t u : State}

theorem refl (s : State) : CycleStep s s := ⟨BusStep.refl s, rfl, rfl⟩

theorem trans (h : CycleStep s t) (h' : CycleStep t u) : CycleStep s u :=
  ⟨h.toBusStep.trans h'.toBusStep, h'.sameMem.trans h.sameMem, h'.sameSmm.trans h.sameSmm⟩

theorem readByte (h : CycleStep s t) (a : Dword) : t.readByte a = s.readByte a :=
  State.readByte_congr h.sameMem h.sameSmm h.cpu.smmRouted a

end CycleStep

theorem State.draw_cycleStep (s : State) (n : Nat) : CycleStep s { s with draws := n } :=
  ⟨⟨rfl, id, id, id, List.prefix_refl _⟩, rfl, rfl⟩

theorem State.emit_cycleStep (e : BusEvent) (s : State) : CycleStep s (s.emit e) :=
  ⟨⟨rfl, id, id, id, List.prefix_append _ _⟩, rfl, rfl⟩

theorem State.flushGather_cycleStep (s : State) : CycleStep s s.flushGather := by
  unfold State.flushGather
  split
  · exact CycleStep.refl s
  · exact ⟨⟨rfl, id, id, fun _ => rfl, List.prefix_append _ _⟩, rfl, rfl⟩

@[simp] theorem State.flushGather_gather (s : State) : s.flushGather.gather = none := by
  unfold State.flushGather
  split <;> simp_all

theorem GatherBuffer.legal_single (a : Dword) (b : Byte) (at' : Attributes) :
    GatherBuffer.legal ⟨a, [b], at'⟩ = true := by
  simp [GatherBuffer.legal]; omega

theorem GatherBuffer.legal_continued {g : GatherBuffer} {a : Dword} (b : Byte) (hg : g.legal = true)
    (h : g.continuedBy a = true) :
    g.start.toNat % 8 + (g.bytes ++ [b]).length ≤ 8 := by
  simp only [GatherBuffer.continuedBy, GatherBuffer.next, Bool.and_eq_true, decide_eq_true_eq] at h
  simp only [GatherBuffer.legal, Bool.and_eq_true, decide_eq_true_eq] at hg
  obtain ⟨h, hw⟩ := h
  obtain rfl := of_decide_eq_true h
  have hw := congrArg BitVec.toNat hw
  simp only [BitVec.toNat_ushiftRight, BitVec.toNat_add, BitVec.toNat_ofNat, Nat.shiftRight_eq_div_pow] at hw
  have := g.start.isLt
  simp only [List.length_append, List.length_cons, List.length_nil]
  omega

theorem State.emitEarly_cycleStep (s : State) : CycleStep s s.emitEarly := by
  unfold State.emitEarly
  split
  · exact CycleStep.refl s
  · split
    · exact s.flushGather_cycleStep.trans (State.draw_cycleStep _ _)
    · exact s.draw_cycleStep _

/-- An early emission may come only where bytes wait. -/
theorem State.emitEarly_of_none {s : State} (h : s.gather = none) : s.emitEarly = s := by
  unfold State.emitEarly
  rw [h]

theorem State.gatherByte_cycleStep (at' : Attributes) (a : Dword) (b : Byte) (s : State) :
    CycleStep s (s.gatherByte at' a b) := by
  unfold State.gatherByte
  split
  · exact ⟨⟨rfl, id, id, fun _ => by simpa using GatherBuffer.legal_single a b at', List.prefix_refl _⟩, rfl, rfl⟩
  · rename_i g hg
    split
    · rename_i hc
      unfold State.flushIfFull
      simp only
      split
      · exact ⟨⟨rfl, id, id, fun _ => rfl, List.prefix_append _ _⟩, rfl, rfl⟩
      · rename_i hlen
        refine ⟨⟨rfl, id, id, fun h => ?_, List.prefix_refl _⟩, rfl, rfl⟩
        rw [hg] at h
        have h' := GatherBuffer.legal_continued b (by simpa using h) hc
        simp only [GatherBuffer.legal, Option.all_some, Bool.and_eq_true, decide_eq_true_eq]
        refine ⟨⟨by simp, h'⟩, by omega⟩
    · have h := s.flushGather_cycleStep
      exact ⟨⟨h.cpu.trans rfl, h.mem, h.smm, fun _ => by simpa using GatherBuffer.legal_single a b at', h.events⟩,
        h.sameMem, h.sameSmm⟩

theorem State.gatherBytes_cycleStep (at' : Attributes) (bs : List Byte) : ∀ (a : Dword) (s : State),
    CycleStep s (s.gatherBytes at' a bs) := by
  induction bs with
  | nil => exact fun _ s => CycleStep.refl s
  | cons b bs ih =>
    exact fun a s => (s.emitEarly_cycleStep.trans (State.gatherByte_cycleStep at' a b _)).trans (ih (a + 1) _)

theorem State.noteAccess_cycleStep (a : Dword) (s : State) : CycleStep s (s.noteAccess a) := by
  unfold State.noteAccess
  split
  · exact CycleStep.refl s
  · split
    · exact s.flushGather_cycleStep
    · exact s.emitEarly_cycleStep

theorem State.writeCycle_cycleStep (a : Dword) (bs : List Byte) (s : State) : CycleStep s (s.writeCycle a bs) := by
  unfold State.writeCycle
  simp only
  split
  · exact (s.draw_cycleStep _).trans (State.gatherBytes_cycleStep _ bs a _)
  · exact (s.draw_cycleStep _).trans ((State.flushGather_cycleStep _).trans (State.emit_cycleStep _ _))

theorem State.readCycle_cycleStep (a : Dword) (n : Nat) (s : State) : CycleStep s (s.readCycle a n) :=
  (s.draw_cycleStep _).trans ((State.noteAccess_cycleStep a _).trans (State.emit_cycleStep _ _))

theorem State.cpuRead_cycleStep (a : Dword) (n : Nat) (s : State) : CycleStep s (s.cpuRead a n) := by
  unfold State.cpuRead
  split
  · exact s.readCycle_cycleStep a n
  · exact s.noteAccess_cycleStep a

theorem State.cpuReads_cycleStep (rs : List (Dword × Nat)) : ∀ s : State, CycleStep s (s.cpuReads rs) := by
  induction rs with
  | nil => exact fun s => CycleStep.refl s
  | cons r rs ih => exact fun s => (s.cpuRead_cycleStep r.1 r.2).trans (ih _)

/-! ## Writes -/

/-- A sequence that goes on has gone on at its first part. -/
theorem andThen_next {o : Host.Outcome State Fault Refusal} {f : State → Host.Outcome State Fault Refusal}
    {t : State} (h : andThen o f = .next t) : ∃ u, o = .next u ∧ f u = .next t := by
  cases o with
  | next u => exact ⟨u, rfl, h⟩
  | fault _ => cases h
  | refused _ => cases h

/-- A sequence goes on where each part does. -/
theorem andThen_goes_on {o : Host.Outcome State Fault Refusal} {f : State → Host.Outcome State Fault Refusal}
    (ho : ∃ u, o = .next u) (hf : ∀ u, ∃ t, f u = .next t) : ∃ t, andThen o f = .next t := by
  obtain ⟨u, rfl⟩ := ho
  exact hf u

theorem State.plainWrite_busStep (a : Dword) (bs : List Byte) (s : State) : BusStep s (s.plainWrite a bs) :=
  (State.writeBytes_busStep bs a s).trans (State.writeCycle_cycleStep a bs _).toBusStep

/-- What the bytes read as after a write by the CPU is what the byte maps hold after it. -/
theorem State.readByte_plainWrite (a : Dword) (bs : List Byte) (s : State) (a' : Dword) :
    (s.plainWrite a bs).readByte a' = (s.writeBytes a bs).readByte a' :=
  (State.writeCycle_cycleStep a bs _).readByte a'

theorem State.protectedStore_busStep {a : Dword} {bs : List Byte} {s t : State}
    (h : s.protectedStore a bs = .next t) : BusStep s t := by
  unfold State.protectedStore at h
  split at h
  · cases h
    exact ((s.draw_cycleStep _).trans (State.noteAccess_cycleStep a _)).toBusStep
  · cases h
    split
    · exact State.plainWrite_busStep a bs s
    · exact (State.writeCycle_cycleStep a bs s).toBusStep
  · cases h

/-- A write that goes on is a bus operation, protected or not. -/
theorem State.busWrite_busStep {a : Dword} {bs : List Byte} {s t : State} (h : s.busWrite a bs = .next t) :
    BusStep s t := by
  unfold State.busWrite at h
  split at h
  · exact State.protectedStore_busStep h
  · cases h
    exact State.plainWrite_busStep a bs s

/-- A write to bytes that are not write-protected goes on, and is the plain write. -/
theorem State.busWrite_of_unprotected {a : Dword} {bs : List Byte} {s : State}
    (hp : s.storeProtected a bs.length = false) : s.busWrite a bs = .next (s.plainWrite a bs) := by
  simp [State.busWrite, hp]

/-- Nothing is protected with CCR2.WPR1 = 0. -/
theorem State.storeProtected_of_wpr1 {s : State} (h : s.cfg.wpr1 = false) (a : Dword) (n : Nat) :
    s.storeProtected a n = false := by
  simp [State.storeProtected, h]

theorem State.busWrites_busStep : ∀ (ws : List (Dword × List Byte)) {s t : State}, s.busWrites ws = .next t →
    BusStep s t
  | [], s, t, h => by cases h; exact BusStep.refl s
  | w :: ws, s, t, h => by
    obtain ⟨u, hu, h⟩ := andThen_next h
    exact (State.busWrite_busStep hu).trans (State.busWrites_busStep ws h)

/-- Writes go on where none can be protected by a fault. -/
theorem State.busWrites_goes_on : ∀ (ws : List (Dword × List Byte)) (s : State),
    s.cfg.wpr1 = false ∨ Config.wpr1WriteEffect ≠ .fault → ∃ t, s.busWrites ws = .next t
  | [], s, _ => ⟨s, rfl⟩
  | w :: ws, s, h => by
    have hw : ∃ u, s.busWrite w.1 w.2 = .next u := by
      rcases h with h | h
      · exact ⟨_, State.busWrite_of_unprotected (State.storeProtected_of_wpr1 h _ _)⟩
      · unfold State.busWrite
        split
        · unfold State.protectedStore
          split
          · exact ⟨_, rfl⟩
          · exact ⟨_, rfl⟩
          · exact absurd ‹_› h
        · exact ⟨_, rfl⟩
    obtain ⟨u, hu⟩ := hw
    obtain ⟨t, ht⟩ := State.busWrites_goes_on ws u (by rwa [(State.busWrite_busStep hu).cpu.cfg])
    exact ⟨t, by rw [State.busWrites, hu]; exact ht⟩

/-- A store that goes on is a bus operation. -/
theorem State.store_busStep {a : Dword} {bs : List Byte} {s t : State} (h : s.store a bs = .next t) :
    BusStep s t := by
  unfold State.store at h
  split at h
  · exact State.busWrite_busStep h
  · cases h

/-- A store to bytes that are not write-protected goes on, and is the plain write. -/
theorem State.store_of_unprotected {a : Dword} {bs : List Byte} {s : State} (hr : s.cfg.regionsAligned = true)
    (hp : s.storeProtected a bs.length = false) : s.store a bs = .next (s.plainWrite a bs) := by
  rw [State.store, if_pos hr, State.busWrite_of_unprotected hp]

end Sys2Proof.Machine
end

