-- ==== Sys2Proof/Laws/Config.lean ====
section
/-! SUPPORT. The configuration registers: a byte read after a write of the same or another byte, what the
stored value of a write is, and that a write that is not refused keeps the registers legal. -/

namespace Sys2Proof.Machine

/-! ## Reading after an assignment -/

theorem CfgRegs.arr_setArr (c : CfgRegs) (i j : Fin 8) (v : ArrReg) :
    (c.setArr i v).arr j = if j = i then v else c.arr j := by
  fin_cases i <;> fin_cases j <;> rfl

theorem CfgRegs.rcr_setRcr (c : CfgRegs) (i j : Fin 8) (v : Byte) :
    (c.setRcr i v).rcr j = if j = i then v else c.rcr j := by
  fin_cases i <;> fin_cases j <;> rfl

@[simp] theorem CfgRegs.rcr_setArr (c : CfgRegs) (i j : Fin 8) (v : ArrReg) : (c.setArr i v).rcr j = c.rcr j := by
  fin_cases i <;> fin_cases j <;> rfl

@[simp] theorem CfgRegs.arr_setRcr (c : CfgRegs) (i j : Fin 8) (v : Byte) : (c.setRcr i v).arr j = c.arr j := by
  fin_cases i <;> fin_cases j <;> rfl

theorem ArrReg.get_set (r : ArrReg) (j k : Fin 3) (v : Byte) : (r.set j v).get k = if k = j then v else r.get k := by
  fin_cases j <;> fin_cases k <;> rfl

/-- The six control registers do not depend on the ARRs and RCRs. -/
@[simp] theorem CfgRegs.ccr0_setArr (c : CfgRegs) (i : Fin 8) (v : ArrReg) : (c.setArr i v).ccr0 = c.ccr0 := by fin_cases i <;> rfl
@[simp] theorem CfgRegs.ccr1_setArr (c : CfgRegs) (i : Fin 8) (v : ArrReg) : (c.setArr i v).ccr1 = c.ccr1 := by fin_cases i <;> rfl
@[simp] theorem CfgRegs.ccr2_setArr (c : CfgRegs) (i : Fin 8) (v : ArrReg) : (c.setArr i v).ccr2 = c.ccr2 := by fin_cases i <;> rfl
@[simp] theorem CfgRegs.ccr3_setArr (c : CfgRegs) (i : Fin 8) (v : ArrReg) : (c.setArr i v).ccr3 = c.ccr3 := by fin_cases i <;> rfl
@[simp] theorem CfgRegs.ccr4_setArr (c : CfgRegs) (i : Fin 8) (v : ArrReg) : (c.setArr i v).ccr4 = c.ccr4 := by fin_cases i <;> rfl
@[simp] theorem CfgRegs.ccr5_setArr (c : CfgRegs) (i : Fin 8) (v : ArrReg) : (c.setArr i v).ccr5 = c.ccr5 := by fin_cases i <;> rfl
@[simp] theorem CfgRegs.ccr0_setRcr (c : CfgRegs) (i : Fin 8) (v : Byte) : (c.setRcr i v).ccr0 = c.ccr0 := by fin_cases i <;> rfl
@[simp] theorem CfgRegs.ccr1_setRcr (c : CfgRegs) (i : Fin 8) (v : Byte) : (c.setRcr i v).ccr1 = c.ccr1 := by fin_cases i <;> rfl
@[simp] theorem CfgRegs.ccr2_setRcr (c : CfgRegs) (i : Fin 8) (v : Byte) : (c.setRcr i v).ccr2 = c.ccr2 := by fin_cases i <;> rfl
@[simp] theorem CfgRegs.ccr3_setRcr (c : CfgRegs) (i : Fin 8) (v : Byte) : (c.setRcr i v).ccr3 = c.ccr3 := by fin_cases i <;> rfl
@[simp] theorem CfgRegs.ccr4_setRcr (c : CfgRegs) (i : Fin 8) (v : Byte) : (c.setRcr i v).ccr4 = c.ccr4 := by fin_cases i <;> rfl
@[simp] theorem CfgRegs.ccr5_setRcr (c : CfgRegs) (i : Fin 8) (v : Byte) : (c.setRcr i v).ccr5 = c.ccr5 := by fin_cases i <;> rfl

/-- A register byte holds what was assigned to it, DIR0 and DIR1 apart. -/
theorem CfgRegs.read_assign_same (c : CfgRegs) {r : CfgReg} (v : Byte) (h0 : r ≠ .dir0) (h1 : r ≠ .dir1) :
    (c.assign r v).read r = v := by
  cases r with
  | arr i k => simp [CfgRegs.assign, CfgRegs.read, CfgRegs.arr_setArr, ArrReg.get_set]
  | rcr i => simp [CfgRegs.assign, CfgRegs.read, CfgRegs.rcr_setRcr]
  | dir0 => exact absurd rfl h0
  | dir1 => exact absurd rfl h1
  | _ => rfl

/-- Every other register byte keeps its value. -/
theorem CfgRegs.read_assign_other (c : CfgRegs) {r r' : CfgReg} (v : Byte) (h : r' ≠ r) :
    (c.assign r v).read r' = c.read r' := by
  cases r with
  | arr i k =>
    cases r' with
    | arr i' k' =>
      simp only [CfgRegs.assign, CfgRegs.read, CfgRegs.arr_setArr]
      by_cases hi : i' = i
      · subst hi
        have : k' ≠ k := fun e => h (by rw [e])
        simp [ArrReg.get_set, this]
      · simp [hi]
    | _ => simp [CfgRegs.assign, CfgRegs.read]
  | rcr i =>
    cases r' with
    | rcr i' =>
      have : i' ≠ i := fun e => h (by rw [e])
      simp [CfgRegs.assign, CfgRegs.read, CfgRegs.rcr_setRcr, this]
    | _ => simp [CfgRegs.assign, CfgRegs.read]
  | _ => cases r' <;> first | rfl | exact absurd rfl h

/-- Two sets of configuration registers with the same bytes at every index are the same. -/
theorem CfgRegs.ext_read {c d : CfgRegs} (h : ∀ r, c.read r = d.read r) : c = d := by
  have ha : ∀ i, c.arr i = d.arr i := by
    intro i
    have h0 : (c.arr i).b0 = (d.arr i).b0 := h (.arr i 0)
    have h1 : (c.arr i).b1 = (d.arr i).b1 := h (.arr i 1)
    have h2 : (c.arr i).b2 = (d.arr i).b2 := h (.arr i 2)
    generalize c.arr i = x at *
    generalize d.arr i = y at *
    cases x; cases y; simp_all
  have hr : ∀ i, c.rcr i = d.rcr i := fun i => h (.rcr i)
  have a := fun i => ha i
  have r := fun i => hr i
  have c0 : c.ccr0 = d.ccr0 := h .ccr0
  have c1 : c.ccr1 = d.ccr1 := h .ccr1
  have c2 : c.ccr2 = d.ccr2 := h .ccr2
  have c3 : c.ccr3 = d.ccr3 := h .ccr3
  have c4 : c.ccr4 = d.ccr4 := h .ccr4
  have c5 : c.ccr5 = d.ccr5 := h .ccr5
  have a0 : c.arr0 = d.arr0 := a 0
  have a1 : c.arr1 = d.arr1 := a 1
  have a2 : c.arr2 = d.arr2 := a 2
  have a3 : c.arr3 = d.arr3 := a 3
  have a4 : c.arr4 = d.arr4 := a 4
  have a5 : c.arr5 = d.arr5 := a 5
  have a6 : c.arr6 = d.arr6 := a 6
  have a7 : c.arr7 = d.arr7 := a 7
  have r0 : c.rcr0 = d.rcr0 := r 0
  have r1 : c.rcr1 = d.rcr1 := r 1
  have r2 : c.rcr2 = d.rcr2 := r 2
  have r3 : c.rcr3 = d.rcr3 := r 3
  have r4 : c.rcr4 = d.rcr4 := r 4
  have r5 : c.rcr5 = d.rcr5 := r 5
  have r6 : c.rcr6 = d.rcr6 := r 6
  have r7 : c.rcr7 = d.rcr7 := r 7
  cases c; cases d
  simp only at c0 c1 c2 c3 c4 c5 a0 a1 a2 a3 a4 a5 a6 a7 r0 r1 r2 r3 r4 r5 r6 r7
  subst c0 c1 c2 c3 c4 c5 a0 a1 a2 a3 a4 a5 a6 a7 r0 r1 r2 r3 r4 r5 r6 r7
  rfl

/-! ## The value a write stores -/

theorem ccr3_pieces : ∀ (m : BitVec 4) (l : BitVec 1) (n k : Bool),
    let v : Byte := (((m ++ 0#1) ++ l) ++ BitVec.ofBool n) ++ BitVec.ofBool k
    v.extractLsb' 4 4 = m ∧ v.extractLsb' 2 1 = l ∧ v.getLsbD 1 = n ∧ v.getLsbD 0 = k ∧ v &&& 0x08 = 0 := by
  decide

/-- The fields of a written CCR3. -/
theorem ccr3Written_fields (locked : Bool) (old v : Byte) :
    (ccr3Written locked old v).extractLsb' 4 4 = v.extractLsb' 4 4
    ∧ (ccr3Written locked old v).extractLsb' 2 1 = v.extractLsb' 2 1
    ∧ (ccr3Written locked old v).getLsbD 1 = (if locked then old.getLsbD 1 else v.getLsbD 1)
    ∧ (ccr3Written locked old v).getLsbD 0 = (old.getLsbD 0 || v.getLsbD 0)
    ∧ ccr3Written locked old v &&& 0x08 = 0 :=
  ccr3_pieces _ _ _ _

/-- Under the lock a written CCR1 takes USE_SMI, SMAC and SM3 from the old value and the rest from the
data. -/
theorem ccr1Written_locked_getLsbD (old v : Byte) {n : Nat} (hn : n < 8) :
    (ccr1Written true old v).getLsbD n =
      if n = 1 ∨ n = 2 ∨ n = 7 then old.getLsbD n else v.getLsbD n := by
  have h : (ccr1Written true old v).getLsbD n =
      ((old.getLsbD n && (0x86 : Byte).getLsbD n) || (v.getLsbD n && (0x79 : Byte).getLsbD n)) := by
    simp only [ccr1Written, if_true, BitVec.getLsbD_or, BitVec.getLsbD_and]
  rw [h]
  interval_cases n <;> simp

theorem ccr1Written_reserved (locked : Bool) (old v : Byte) (h : v &&& 0x69 = 0) :
    ccr1Written locked old v &&& 0x69 = 0 := by
  cases locked
  · exact h
  · apply BitVec.eq_of_getLsbD_eq
    intro n hn
    have hv := congrArg (·.getLsbD n) h
    simp only [BitVec.getLsbD_and] at hv
    rw [BitVec.getLsbD_and, ccr1Written_locked_getLsbD old v hn]
    interval_cases n <;> simp_all

/-! ## Writes keep the registers legal -/

theorem CfgRegs.rcr_all_assign_ccr {c d : CfgRegs} (h : ∀ i, d.rcr i = c.rcr i)
    (hc : (CfgRegs.regions.all fun i => c.rcr i &&& 0xC0 == 0) = true) :
    (CfgRegs.regions.all fun i => d.rcr i &&& 0xC0 == 0) = true := by
  simpa [h] using hc

/-- A configuration write that is not refused keeps the registers legal (rules R168 and R172). -/
theorem CfgRegs.legal_write {locked : Bool} {c : CfgRegs} {r : CfgReg} {v : Byte} (hc : c.legal = true)
    (hw : writeRefusal locked c r v = none) :
    (c.assign r (writtenValue locked c r v)).legal = true := by
  simp only [CfgRegs.legal, CfgRegs.reservedZero, Bool.and_eq_true, beq_iff_eq, decide_eq_true_eq] at hc ⊢
  simp only [CfgRegs.useSmi, CfgRegs.sm3, CfgRegs.mapen] at hc ⊢
  obtain ⟨⟨⟨⟨⟨⟨⟨⟨h0, h1⟩, h2⟩, h3⟩, h4⟩, h5⟩, hr⟩, hm⟩, hs⟩ := hc
  have hv : v &&& r.resmask = 0 := by
    by_contra hv
    unfold writeRefusal at hw
    rw [if_pos hv] at hw
    cases hw
  cases r with
  | ccr0 => exact ⟨⟨⟨⟨⟨⟨⟨⟨hv, h1⟩, h2⟩, h3⟩, h4⟩, h5⟩, hr⟩, hm⟩, hs⟩
  | ccr1 =>
    have hres := ccr1Written_reserved locked c.ccr1 v hv
    refine ⟨⟨⟨⟨⟨⟨⟨⟨h0, hres⟩, h2⟩, h3⟩, h4⟩, h5⟩, hr⟩, hm⟩, ?_⟩
    have : ¬ v &&& CfgReg.ccr1.resmask ≠ 0 := fun h => h hv
    rw [writeRefusal, if_neg this] at hw
    simp only at hw
    split at hw
    · cases hw
    · rename_i hn
      show (!(ccr1Written locked c.ccr1 v).getLsbD 1 || (ccr1Written locked c.ccr1 v).getLsbD 7) = true
      cases h1 : (ccr1Written locked c.ccr1 v).getLsbD 1 <;> cases h7 : (ccr1Written locked c.ccr1 v).getLsbD 7 <;>
        simp_all
  | ccr2 => exact ⟨⟨⟨⟨⟨⟨⟨⟨h0, h1⟩, hv⟩, h3⟩, h4⟩, h5⟩, hr⟩, hm⟩, hs⟩
  | ccr3 =>
    obtain ⟨e1, -, -, -, e5⟩ := ccr3Written_fields locked c.ccr3 v
    refine ⟨⟨⟨⟨⟨⟨⟨⟨h0, h1⟩, h2⟩, e5⟩, h4⟩, h5⟩, hr⟩, ?_⟩, hs⟩
    have : ¬ v &&& CfgReg.ccr3.resmask ≠ 0 := fun h => h hv
    rw [writeRefusal, if_neg this] at hw
    split at hw
    · cases hw
    · show ((ccr3Written locked c.ccr3 v).extractLsb' 4 4).toNat ≤ 1
      rw [e1]
      omega
  | ccr4 => exact ⟨⟨⟨⟨⟨⟨⟨⟨h0, h1⟩, h2⟩, h3⟩, hv⟩, h5⟩, hr⟩, hm⟩, hs⟩
  | ccr5 => exact ⟨⟨⟨⟨⟨⟨⟨⟨h0, h1⟩, h2⟩, h3⟩, h4⟩, hv⟩, hr⟩, hm⟩, hs⟩
  | arr i k =>
    simp only [CfgRegs.assign, CfgRegs.ccr0_setArr, CfgRegs.ccr1_setArr, CfgRegs.ccr2_setArr, CfgRegs.ccr3_setArr,
      CfgRegs.ccr4_setArr, CfgRegs.ccr5_setArr, CfgRegs.rcr_setArr]
    exact ⟨⟨⟨⟨⟨⟨⟨⟨h0, h1⟩, h2⟩, h3⟩, h4⟩, h5⟩, hr⟩, hm⟩, hs⟩
  | rcr i =>
    simp only [CfgRegs.assign, writtenValue, CfgRegs.ccr0_setRcr, CfgRegs.ccr1_setRcr, CfgRegs.ccr2_setRcr,
      CfgRegs.ccr3_setRcr, CfgRegs.ccr4_setRcr, CfgRegs.ccr5_setRcr, CfgRegs.rcr_setRcr]
    refine ⟨⟨⟨⟨⟨⟨⟨⟨h0, h1⟩, h2⟩, h3⟩, h4⟩, h5⟩, ?_⟩, hm⟩, hs⟩
    simp only [List.all_eq_true, beq_iff_eq] at hr ⊢
    intro j hj
    split
    · exact hv
    · exact hr j hj
  | dir0 => exact ⟨⟨⟨⟨⟨⟨⟨⟨h0, h1⟩, h2⟩, h3⟩, h4⟩, h5⟩, hr⟩, hm⟩, hs⟩
  | dir1 => exact ⟨⟨⟨⟨⟨⟨⟨⟨h0, h1⟩, h2⟩, h3⟩, h4⟩, h5⟩, hr⟩, hm⟩, hs⟩

/-! ## SMI_LOCK -/

/-- SMI_LOCK, once set, stays set under every configuration write (rules R27 and R170). -/
theorem CfgRegs.smiLock_write {locked : Bool} {c : CfgRegs} (r : CfgReg) (v : Byte) (h : c.smiLock = true) :
    (c.assign r (writtenValue locked c r v)).smiLock = true := by
  unfold CfgRegs.smiLock at *
  cases r with
  | ccr3 =>
    show (ccr3Written locked c.ccr3 v).getLsbD 0 = true
    rw [(ccr3Written_fields locked c.ccr3 v).2.2.2.1, h, Bool.true_or]
  | arr i k => simpa [CfgRegs.assign] using h
  | rcr i => simpa [CfgRegs.assign] using h
  | _ => exact h

/-- The bits SMI_LOCK locks (rule R170). -/
structure CfgRegs.SameLockedBits (c d : CfgRegs) : Prop where
  useSmi : d.useSmi = c.useSmi
  smac   : d.smac = c.smac
  sm3    : d.sm3 = c.sm3
  nmiEn  : d.nmiEn = c.nmiEn
  arr3   : d.arr 3 = c.arr 3

/-- A configuration write under the lock changes none of the locked bits (rule R170). -/
theorem CfgRegs.locked_write (c : CfgRegs) (r : CfgReg) (v : Byte) :
    CfgRegs.SameLockedBits c (c.assign r (writtenValue true c r v)) := by
  cases r with
  | ccr1 =>
    have h := fun n hn => ccr1Written_locked_getLsbD c.ccr1 v (n := n) hn
    exact ⟨(h 1 (by decide)).trans rfl, (h 2 (by decide)).trans rfl, (h 7 (by decide)).trans rfl, rfl, rfl⟩
  | ccr3 =>
    exact ⟨rfl, rfl, rfl, (ccr3Written_fields true c.ccr3 v).2.2.1, rfl⟩
  | arr i k =>
    refine ⟨?_, ?_, ?_, ?_, ?_⟩
    · simp [CfgRegs.assign, CfgRegs.useSmi]
    · simp [CfgRegs.assign, CfgRegs.smac]
    · simp [CfgRegs.assign, CfgRegs.sm3]
    · simp [CfgRegs.assign, CfgRegs.nmiEn]
    · simp only [CfgRegs.assign, CfgRegs.arr_setArr]
      split
      · rename_i h
        subst h
        simp only [writtenValue, true_and, if_true]
        fin_cases k <;> rfl
      · rfl
  | rcr i =>
    refine ⟨?_, ?_, ?_, ?_, ?_⟩
    · simp [CfgRegs.assign, CfgRegs.useSmi]
    · simp [CfgRegs.assign, CfgRegs.smac]
    · simp [CfgRegs.assign, CfgRegs.sm3]
    · simp [CfgRegs.assign, CfgRegs.nmiEn]
    · simp [CfgRegs.assign]
  | _ => exact ⟨rfl, rfl, rfl, rfl, rfl⟩

end Sys2Proof.Machine
end

