-- ==== Sys2Proof/Laws/Debug.lean ====
section
/-! SUPPORT. The debug registers: what a debug exception and a task switch leave of DR0 to DR3 and DR7. -/

namespace Sys2Proof.Machine

/-- Bits 16 and up of DR7 survive the clearing of bits below 16. -/
theorem extract_high_mask (v m : Dword) (hm : m.toNat < 2 ^ 16) {k : Nat} (hk : 16 ≤ k) :
    (v &&& ~~~ m).extractLsb' k 2 = v.extractLsb' k 2 := by
  apply BitVec.eq_of_getLsbD_eq
  intro j hj
  have : m.getLsbD (k + j) = false := by
    exact Nat.testBit_lt_two_pow (lt_of_lt_of_le hm (Nat.pow_le_pow_right (by decide) (by omega)))
  simp [hj, this]
  intro h
  exact BitVec.lt_of_getLsbD h

theorem DebugRegs.record_rw (d : DebugRegs) (c : DebugCause) (i : Fin 4) : (d.record c).rw i = d.rw i :=
  extract_high_mask d.dr7 gdMask (by decide) (by omega)

theorem DebugRegs.record_len (d : DebugRegs) (c : DebugCause) (i : Fin 4) : (d.record c).len i = d.len i :=
  extract_high_mask d.dr7 gdMask (by decide) (by omega)

theorem DebugRegs.clearLocal_rw (d : DebugRegs) (i : Fin 4) : d.clearLocal.rw i = d.rw i :=
  extract_high_mask d.dr7 localMask (by decide) (by omega)

theorem DebugRegs.clearLocal_len (d : DebugRegs) (i : Fin 4) : d.clearLocal.len i = d.len i :=
  extract_high_mask d.dr7 localMask (by decide) (by omega)

@[simp] theorem DebugRegs.record_dr (d : DebugRegs) (c : DebugCause) (i : Fin 4) : (d.record c).dr i = d.dr i := by
  fin_cases i <;> rfl

@[simp] theorem DebugRegs.clearLocal_dr (d : DebugRegs) (i : Fin 4) : d.clearLocal.dr i = d.dr i := by
  fin_cases i <;> rfl

@[simp] theorem DebugRegs.record_codesUsed (d : DebugRegs) (c : DebugCause) :
    (d.record c).codesUsed = d.codesUsed := by
  simp only [DebugRegs.codesUsed, DebugRegs.record_rw, DebugRegs.record_len]

@[simp] theorem DebugRegs.clearLocal_codesUsed (d : DebugRegs) : d.clearLocal.codesUsed = d.codesUsed := by
  simp only [DebugRegs.codesUsed, DebugRegs.clearLocal_rw, DebugRegs.clearLocal_len]

end Sys2Proof.Machine
end

