-- ==== Sys2Proof/Laws/Word.lean ====
section
/-! SUPPORT. Appending and cutting bit vectors, in arithmetic. -/

namespace Sys2Proof

/-- The value of two parts put together. -/
theorem toNat_append_add {m n : Nat} (hi : BitVec m) (lo : BitVec n) :
    (hi ++ lo).toNat = hi.toNat * 2 ^ n + lo.toNat := by
  rw [BitVec.toNat_append, Nat.shiftLeft_eq, Nat.mul_comm, ← Nat.two_pow_add_eq_or_of_lt lo.isLt]

/-- The value of a part cut out. -/
theorem toNat_extract_div {w : Nat} (v : BitVec w) (start len : Nat) :
    (v.extractLsb' start len).toNat = v.toNat / 2 ^ start % 2 ^ len := by
  rw [BitVec.extractLsb'_toNat, Nat.shiftRight_eq_div_pow]

/-- A doubleword put together from the bytes it was cut into. -/
theorem dword_of_bytes (d : Dword) :
    (d.extractLsb' 24 8 ++ d.extractLsb' 16 8 ++ d.extractLsb' 8 8 ++ d.extractLsb' 0 8 : BitVec 32) = d := by
  apply BitVec.eq_of_toNat_eq
  have := d.isLt
  simp only [toNat_append_add, toNat_extract_div]
  omega

end Sys2Proof
end

