-- ==== Sys2Proof/Laws/Decode.lean ====
section
/-! SUPPORT. The fields of an encoding: what reading a field of an encoded byte or doubleword gives back. -/

namespace Sys2Proof

@[simp] theorem GReg.ofNum_num (r : GReg) : GReg.ofNum r.num = r := by cases r <;> rfl

@[simp] theorem Reg8.ofNum_num (r : Reg8) : Reg8.ofNum r.num = r := by cases r <;> rfl

@[simp] theorem GReg.num_ofNum : ∀ n : BitVec 3, (GReg.ofNum n).num = n := by decide

@[simp] theorem Reg8.num_ofNum : ∀ n : BitVec 3, (Reg8.ofNum n).num = n := by decide

@[simp] theorem modrmRm_modrmRegister : ∀ reg rm : BitVec 3, modrmRm (modrmRegister reg rm) = rm := by decide

@[simp] theorem modrmReg_modrmRegister : ∀ reg rm : BitVec 3, modrmReg (modrmRegister reg rm) = reg := by decide

/-- A ModRM byte of mod = 11b is put together again from its fields. -/
theorem modrmRegister_fields : ∀ m : Byte, m &&& 0xC0 = 0xC0 → modrmRegister (modrmReg m) (modrmRm m) = m := by
  decide

/-- A displacement or immediate is read back from its four bytes. -/
theorem dwordAt_dwordBytes (pre : List Byte) (d : Dword) (rest : List Byte) :
    dwordAt (pre ++ (dwordBytes d ++ rest)) pre.length = d := by
  have h : ∀ k, byteAt (pre ++ (dwordBytes d ++ rest)) (pre.length + k) = byteAt (dwordBytes d ++ rest) k := by
    intro k
    simp only [byteAt, List.getD_eq_getElem?_getD]
    rw [List.getElem?_append_right (Nat.le_add_right _ _), Nat.add_sub_cancel_left]
  have h0 := h 0
  rw [Nat.add_zero] at h0
  unfold dwordAt
  rw [h 3, h 2, h 1, h0]
  exact dword_of_bytes d

/-! ## Which row selects a byte sequence -/

/-- What a match under a mask says of each byte. -/
theorem maskMatches_byteAt : ∀ (value mask bs : List Byte), maskMatches value mask bs = true →
    ∀ p, p < value.length → byteAt bs p &&& mask.getD p 0 = value.getD p 0
  | [], _, _, _, _, h => absurd h (Nat.not_lt_zero _)
  | v :: vs, [], _, h, _, _ => by cases h
  | v :: vs, m :: ms, [], h, _, _ => by cases h
  | v :: vs, m :: ms, b :: bs, h, 0, _ => by
    simp only [maskMatches, Bool.and_eq_true, beq_iff_eq] at h
    exact h.1
  | v :: vs, m :: ms, b :: bs, h, p + 1, hp => by
    simp only [maskMatches, Bool.and_eq_true, beq_iff_eq] at h
    have := maskMatches_byteAt vs ms bs h.2 p (by simpa using hp)
    simpa [byteAt, List.getD_eq_getElem?_getD] using this

/-- Two rows ask for different values of a byte at some place. -/
def OpcodeRow.clash (r r' : OpcodeRow) : Bool :=
  (List.range 3).any fun p => decide (p < r.value.length) && decide (p < r'.value.length)
    && (r.value.getD p 0 &&& r'.mask.getD p 0 != r'.value.getD p 0 &&& r.mask.getD p 0)

theorem OpcodeRow.not_both_select {r r' : OpcodeRow} (h : r.clash r' = true) (bs : List Byte)
    (hr : r.selects bs = true) (hr' : r'.selects bs = true) : False := by
  simp only [OpcodeRow.clash, List.any_eq_true, Bool.and_eq_true, decide_eq_true_eq, bne_iff_ne] at h
  obtain ⟨p, -, ⟨h1, h2⟩, hne⟩ := h
  have e1 := maskMatches_byteAt _ _ _ hr p h1
  have e2 := maskMatches_byteAt _ _ _ hr' p h2
  apply hne
  rw [← e1, ← e2, BitVec.and_assoc, BitVec.and_assoc, BitVec.and_comm (r.mask.getD p 0)]

/-- The rows of the table, two by two. -/
theorem opcodeTable_pairwise_clash : opcodeTable.Pairwise (fun r r' => r.clash r' = true) := by
  decide

theorem find?_of_pairwise {α : Type} {p : α → Bool} {l : List α} {x : α}
    (hw : l.Pairwise fun a b => p a = true → p b = true → False) (hx : x ∈ l) (hp : p x = true) :
    l.find? p = some x := by
  induction l with
  | nil => cases hx
  | cons y l ih =>
    rw [List.pairwise_cons] at hw
    rcases List.mem_cons.1 hx with rfl | hm
    · exact List.find?_cons_of_pos hp
    · rw [List.find?_cons_of_neg (fun hy => hw.1 x hm hy hp)]
      exact ih hw.2 hm

/-- A row that selects a byte sequence is the row the decoder finds. -/
theorem decode_of_row {r : OpcodeRow} (hm : r ∈ opcodeTable) {bs : List Byte} (hs : r.selects bs = true)
    (hl : r.length ≤ bs.length) : decode bs = .ok (r.build bs, r.length) := by
  have hw := opcodeTable_pairwise_clash.imp (fun {a b} h => OpcodeRow.not_both_select (r := a) (r' := b) h bs)
  have hf := find?_of_pairwise (p := fun r => r.selects bs) hw hm hs
  simp only [decode, hf, if_pos hl]

/-- What a decoding that succeeds has found. -/
theorem row_of_decode {bs : List Byte} {i : Instr} {n : Nat} (h : decode bs = .ok (i, n)) :
    ∃ r ∈ opcodeTable, r.selects bs = true ∧ r.length ≤ bs.length ∧ i = r.build bs ∧ n = r.length := by
  unfold decode at h
  split at h
  · rename_i r hr
    split at h
    · cases h
      exact ⟨r, List.mem_of_find?_eq_some hr, by simpa using List.find?_some hr, ‹_›, rfl, rfl⟩
    · cases h
  · cases h

end Sys2Proof
end

