-- ==== Sys2Proof/Laws/Operands.lean ====
section
/-! SUPPORT. The register file: what a read gives after a write of the same or another register. -/

namespace Sys2Proof.Machine

@[simp] theorem Gprs.get_set_same (g : Gprs) (r : GReg) (v : Dword) : (g.set r v).get r = v := by
  cases r <;> rfl

theorem Gprs.get_set_other (g : Gprs) {r r' : GReg} (v : Dword) (h : r' ≠ r) :
    (g.set r v).get r' = g.get r' := by
  cases r <;> cases r' <;> first | rfl | exact absurd rfl h

/-- Bit i of a doubleword put together from two parts, whatever their widths. -/
theorem getLsbD_dword_append {m n : Nat} (h : m + n = 32) (hi : BitVec m) (lo : BitVec n) (d : Dword)
    (e : d.toNat = (hi ++ lo).toNat) (i : Nat) :
    d.getLsbD i = if i < n then lo.getLsbD i else hi.getLsbD (i - n) := by
  have : d = (hi ++ lo).cast h := BitVec.eq_of_toNat_eq (by simpa using e)
  rw [this, BitVec.getLsbD_cast, BitVec.getLsbD_append]

theorem setLowByte_getLsbD (d : Dword) (b : Byte) (i : Nat) :
    (setLowByte d b).getLsbD i = if i < 8 then b.getLsbD i else (d.extractLsb' 8 24).getLsbD (i - 8) :=
  getLsbD_dword_append rfl _ _ _ rfl i

theorem setHighByte_getLsbD (d : Dword) (b : Byte) (i : Nat) :
    (setHighByte d b).getLsbD i =
      if i < 8 then d.getLsbD i else if i < 16 then b.getLsbD (i - 8) else (highWord d).getLsbD (i - 16) := by
  have h := getLsbD_dword_append (m := 24) (n := 8) rfl (highWord d ++ b) (d.extractLsb' 0 8)
    (setHighByte d b) rfl i
  rw [h]
  by_cases h8 : i < 8
  · simp [h8]
  · have hc : (highWord d ++ b : BitVec 24).getLsbD (i - 8) =
        if i - 8 < 8 then b.getLsbD (i - 8) else (highWord d).getLsbD (i - 8 - 8) := by
      have := BitVec.getLsbD_append (x := highWord d) (y := b) (i := i - 8)
      by_cases hlt : i - 8 < 8 <;> simp_all
    rw [if_neg h8, if_neg h8]
    refine hc.trans ?_
    by_cases h16 : i < 16
    · rw [if_pos (by omega), if_pos h16]
    · rw [if_neg (by omega), if_neg h16, Nat.sub_sub]

@[simp] theorem lowWord_freeHigh (k : Nat) (w : Word) : lowWord (freeHigh k w) = w := by
  apply BitVec.eq_of_getLsbD_eq
  intro i hi
  have h := getLsbD_dword_append (m := 16) (n := 16) rfl (highWord (Config.freeDword k)) w (freeHigh k w) rfl i
  rw [if_pos hi] at h
  simpa [lowWord, hi] using h

theorem setLowByte_low (d : Dword) (b : Byte) : (setLowByte d b).extractLsb' 0 8 = b := by
  apply BitVec.eq_of_getLsbD_eq
  intro i hi
  simp only [BitVec.getLsbD_extractLsb', setLowByte_getLsbD]
  simp [hi]

theorem setHighByte_high (d : Dword) (b : Byte) : (setHighByte d b).extractLsb' 8 8 = b := by
  apply BitVec.eq_of_getLsbD_eq
  intro i hi
  simp only [BitVec.getLsbD_extractLsb', setHighByte_getLsbD]
  have h1 : ¬ 8 + i < 8 := by omega
  have h2 : 8 + i < 16 := by omega
  simp [hi, h1, h2]

theorem setLowByte_high (d : Dword) (b : Byte) :
    (setLowByte d b).extractLsb' 8 8 = d.extractLsb' 8 8 := by
  apply BitVec.eq_of_getLsbD_eq
  intro i hi
  simp only [BitVec.getLsbD_extractLsb', setLowByte_getLsbD]
  have h1 : ¬ 8 + i < 8 := by omega
  have h2 : i < 24 := by omega
  simp [hi, h1, h2]

theorem setHighByte_low (d : Dword) (b : Byte) :
    (setHighByte d b).extractLsb' 0 8 = d.extractLsb' 0 8 := by
  apply BitVec.eq_of_getLsbD_eq
  intro i hi
  simp only [BitVec.getLsbD_extractLsb', setHighByte_getLsbD]
  simp [hi]

/-- An 8-bit register holds what was written to it. -/
@[simp] theorem Gprs.get8_set8_same (g : Gprs) (r : Reg8) (v : Byte) : (g.set8 r v).get8 r = v := by
  cases h : Reg8.isHigh r <;>
    simp [Gprs.get8, Gprs.set8, h, setLowByte_low, setHighByte_high]

/-- An 8-bit register keeps its value when another one is written, the other half of its word among them. -/
theorem Gprs.get8_set8_other (g : Gprs) {r r' : Reg8} (v : Byte) (h : r' ≠ r) :
    (g.set8 r v).get8 r' = g.get8 r' := by
  by_cases hp : Reg8.parent r' = Reg8.parent r
  · have hh : Reg8.isHigh r' = !Reg8.isHigh r := by
      cases r <;> cases r' <;> first | rfl | exact absurd rfl h | exact absurd hp (by decide)
    cases hr : Reg8.isHigh r <;>
      simp [Gprs.get8, Gprs.set8, hp, hh, hr, setLowByte_high, setHighByte_low]
  · simp only [Gprs.get8, Gprs.set8, Gprs.get_set_other _ _ hp]

/-- A 32-bit register none of whose parts was written keeps its value. -/
theorem Gprs.get_set8_other (g : Gprs) {r : Reg8} {r' : GReg} (v : Byte) (h : r' ≠ Reg8.parent r) :
    (g.set8 r v).get r' = g.get r' := Gprs.get_set_other _ _ h

/-- The high half of a register survives a write of one of its bytes. -/
theorem Gprs.high_set8 (g : Gprs) (r : Reg8) (v : Byte) (r' : GReg) :
    highWord ((g.set8 r v).get r') = highWord (g.get r') := by
  by_cases hp : r' = Reg8.parent r
  · subst hp
    apply BitVec.eq_of_getLsbD_eq
    intro i hi
    have h1 : ¬ 16 + i < 8 := by omega
    have h2 : ¬ 16 + i < 16 := by omega
    have h3 : 16 + i - 8 < 24 := by omega
    have h4 : 8 + (16 + i - 8) = 16 + i := by omega
    cases hr : Reg8.isHigh r <;>
      simp [Gprs.set8, hr, highWord, setLowByte_getLsbD, setHighByte_getLsbD, hi, h1, h2, h3, h4]
  · rw [Gprs.get_set8_other g v hp]

end Sys2Proof.Machine
end

