-- ==== Sys2Proof/Laws/Transfer.lean ====
section
/-! SUPPORT. Everything a control transfer can do, said once: entering a handler, a task switch and taking an
exception change none of the configuration registers, the descriptor tables, the mode, the test
registers or the waiting inputs; they keep EFLAGS.ID while CPUID is disabled, CR0.NW while it is locked, and every
invariant of `State.good`. -/

namespace Sys2Proof.Machine

/-- What an instruction that writes no configuration register keeps. -/
structure Ran (s t : State) : Prop where
  gdt       : t.gdt = s.gdt
  ldt       : t.ldt = s.ldt
  idt       : t.idt = s.idt
  pmode     : t.pmode = s.pmode
  inSmi     : t.inSmi = s.inSmi
  cfg       : t.cfg = s.cfg
  test      : t.test = s.test
  nw        : s.cfg.lockNw = true → t.nw = s.nw
  inputs    : t.inputs = s.inputs
  dr        : ∀ i, t.dbg.dr i = s.dbg.dr i
  codesUsed : t.dbg.codesUsed = s.dbg.codesUsed
  id        : s.cfg.cpuidEnabled = false → t.idFlag = s.idFlag
  mem       : s.mem.wf = true → t.mem.wf = true
  smm       : s.smm.wf = true → t.smm.wf = true
  gather    : s.gather.all GatherBuffer.legal = true → t.gather.all GatherBuffer.legal = true
  events    : s.events <+: t.events

/-- What a control transfer keeps: the above, and the pending index selection. -/
structure Transfer (s t : State) : Prop extends Ran s t where
  cfgSel : t.cfgSel = s.cfgSel

namespace Ran

variable {s t u : State}

theorem trans (h : Ran s t) (h' : Ran t u) : Ran s u where
  gdt := h'.gdt.trans h.gdt
  ldt := h'.ldt.trans h.ldt
  idt := h'.idt.trans h.idt
  pmode := h'.pmode.trans h.pmode
  inSmi := h'.inSmi.trans h.inSmi
  cfg := h'.cfg.trans h.cfg
  test := h'.test.trans h.test
  nw := fun e => (h'.nw (h.cfg ▸ e)).trans (h.nw e)
  inputs := h'.inputs.trans h.inputs
  dr := fun i => (h'.dr i).trans (h.dr i)
  codesUsed := h'.codesUsed.trans h.codesUsed
  id := fun e => (h'.id (h.cfg ▸ e)).trans (h.id e)
  mem := h'.mem ∘ h.mem
  smm := h'.smm ∘ h.smm
  gather := h'.gather ∘ h.gather
  events := h.events.trans h'.events

/-- An instruction that writes no configuration register keeps the state good. -/
theorem good (h : Ran s t) (hg : s.good = true) : t.good = true := by
  simp only [State.good, Bool.and_eq_true] at hg ⊢
  obtain ⟨⟨⟨⟨h1, h2⟩, h3⟩, h4⟩, h5⟩ := hg
  exact ⟨⟨⟨⟨h.mem h1, h.smm h2⟩, by rw [h.cfg]; exact h3⟩, by rw [h.codesUsed]; exact h4⟩, h.gather h5⟩

end Ran

namespace Transfer

variable {s t u : State}

theorem trans (h : Transfer s t) (h' : Transfer t u) : Transfer s u :=
  ⟨h.toRan.trans h'.toRan, h'.cfgSel.trans h.cfgSel⟩

end Transfer

/-- A bus operation is a transfer in this sense. -/
theorem BusStep.transfer {s t : State} (h : BusStep s t) : Transfer s t where
  gdt := h.cpu.gdt
  ldt := h.cpu.ldt
  idt := h.cpu.idt
  pmode := h.cpu.pmode
  inSmi := h.cpu.inSmi
  cfg := h.cpu.cfg
  test := h.cpu.test
  nw := fun _ => by simp [State.nw, h.cpu.cr0]
  inputs := h.cpu.inputs
  dr := fun i => by rw [h.cpu.dbg]
  codesUsed := by rw [h.cpu.dbg]
  id := fun _ => by simp [State.idFlag, h.cpu.eflags]
  mem := h.mem
  smm := h.smm
  gather := h.gather
  events := h.events
  cfgSel := h.cpu.cfgSel

/-- A change of registers that `Ran` lets change: what is left to show is what becomes of the breakpoint addresses, of
the DR7 codes, of EFLAGS.ID and of CR0.NW. -/
theorem Ran.of_kept {s t : State} (hd : ∀ i, t.dbg.dr i = s.dbg.dr i) (hc : t.dbg.codesUsed = s.dbg.codesUsed)
    (hi : s.cfg.cpuidEnabled = false → t.idFlag = s.idFlag)
    (hn : s.cfg.lockNw = true → t.nw = s.nw := by exact fun _ => rfl)
    (kept : s = { t with
      gprs := s.gprs, segs := s.segs, csBase := s.csBase, ldtSel := s.ldtSel, eip := s.eip, eflags := s.eflags,
      cr0 := s.cr0, cr3 := s.cr3, tr := s.tr, cpl := s.cpl, cfgSel := s.cfgSel, dbg := s.dbg, debugDue := s.debugDue,
      runState := s.runState, powerState := s.powerState, lastEvent := s.lastEvent, draws := s.draws } := by rfl) :
    Ran s t := by
  have same : ∀ {α : Type} (f : State → α), f s = f _ := fun f => congrArg f kept
  exact {
    gdt := (same State.gdt).symm
    ldt := (same State.ldt).symm
    idt := (same State.idt).symm
    pmode := (same State.pmode).symm
    inSmi := (same State.inSmi).symm
    cfg := (same State.cfg).symm
    test := (same State.test).symm
    nw := hn
    inputs := (same State.inputs).symm
    dr := hd
    codesUsed := hc
    id := hi
    mem := fun h => same State.mem ▸ h
    smm := fun h => same State.smm ▸ h
    gather := fun h => same State.gather ▸ h
    events := same State.events ▸ List.prefix_refl _ }

theorem Ran.refl (s : State) : Ran s s := Ran.of_kept (fun _ => rfl) rfl (fun _ => rfl)

theorem Transfer.refl (s : State) : Transfer s s := ⟨Ran.refl s, rfl⟩

/-- A change of registers a transfer may change, EFLAGS apart. -/
theorem Transfer.of_registers (s : State) (gprs : Gprs) (segs : Segs) (csBase : Dword) (ldtSel : Word)
    (eip cr3 : Dword) (tr : TaskRegister) (cpl : BitVec 2) (dbg : DebugRegs) (debugDue : Option DueDebug)
    (runState : RunState) (powerState : PowerState) (lastEvent : Option Event) (draws : Nat)
    (hd : ∀ i, dbg.dr i = s.dbg.dr i) (hc : dbg.codesUsed = s.dbg.codesUsed) :
    Transfer s { s with
      gprs := gprs, segs := segs, csBase := csBase, ldtSel := ldtSel, eip := eip, cr3 := cr3, tr := tr,
      cpl := cpl, dbg := dbg, debugDue := debugDue, runState := runState, powerState := powerState, lastEvent := lastEvent,
      draws := draws } :=
  ⟨Ran.of_kept hd hc (fun _ => rfl), rfl⟩

/-- Bits outside the mask come from the new value, bits of the mask from the old one. -/
theorem keepBits_getLsbD (mask old new : Dword) {i : Nat} (hi : i < 32) :
    (keepBits mask old new).getLsbD i = if mask.getLsbD i then old.getLsbD i else new.getLsbD i := by
  rw [BitVec.getLsbD_eq_getElem hi]
  cases h : mask[i] <;> simp [keepBits, h, hi]

theorem State.setEflags_transfer (v : Dword) (s : State) : Transfer s (s.setEflags v) := by
  refine ⟨Ran.of_kept (fun _ => rfl) rfl (fun h => ?_), rfl⟩
  show (if s.cfg.cpuidEnabled then v else keepBits idMask s.eflags v).getLsbD 21 = s.eflags.getLsbD 21
  rw [if_neg (by simp [h]), keepBits_getLsbD _ _ _ (by decide), if_pos (by decide)]

theorem State.loadCs_transfer (sel : Word) (eip : Dword) (s : State) : Transfer s (s.loadCs sel eip) :=
  Transfer.of_registers s s.gprs { s.segs with cs := sel } _ s.ldtSel eip s.cr3 s.tr _ s.dbg s.debugDue s.runState
    s.powerState s.lastEvent s.draws (fun _ => rfl) rfl

theorem State.busWrites_transfer {ws : List (Dword × List Byte)} {s t : State} (h : s.busWrites ws = .next t) :
    Transfer s t :=
  (State.busWrites_busStep ws h).transfer

theorem State.cpuReads_transfer (rs : List (Dword × Nat)) (s : State) : Transfer s (s.cpuReads rs) :=
  (State.cpuReads_cycleStep rs s).toBusStep.transfer

theorem State.enterAt_transfer (sel : Word) (eip : Dword) (stack : Word × Dword) (depth : Nat) (s : State) :
    Transfer s (s.enterAt sel eip stack depth) :=
  (Transfer.of_registers s _ _ s.csBase s.ldtSel s.eip s.cr3 s.tr s.cpl s.dbg s.debugDue s.runState s.powerState
    s.lastEvent _ (fun _ => rfl) rfl).trans (State.loadCs_transfer sel eip _)

/-! What an entry leaves in CS, EIP, SS, ESP and CPL. -/

@[simp] theorem State.enterAt_cs (sel : Word) (eip : Dword) (stack : Word × Dword) (depth : Nat) (s : State) :
    (s.enterAt sel eip stack depth).segs.cs = sel := rfl

@[simp] theorem State.enterAt_ss (sel : Word) (eip : Dword) (stack : Word × Dword) (depth : Nat) (s : State) :
    (s.enterAt sel eip stack depth).segs.ss = stack.1 := rfl

@[simp] theorem State.enterAt_eip (sel : Word) (eip : Dword) (stack : Word × Dword) (depth : Nat) (s : State) :
    (s.enterAt sel eip stack depth).eip = eip := rfl

@[simp] theorem State.enterAt_gprs (sel : Word) (eip : Dword) (stack : Word × Dword) (depth : Nat) (s : State) :
    (s.enterAt sel eip stack depth).gprs = { s.gprs with esp := stack.2 - BitVec.ofNat 32 depth } := rfl

@[simp] theorem State.enterAt_eflags (sel : Word) (eip : Dword) (stack : Word × Dword) (depth : Nat) (s : State) :
    (s.enterAt sel eip stack depth).eflags = s.eflags := rfl

@[simp] theorem State.enterAt_tr (sel : Word) (eip : Dword) (stack : Word × Dword) (depth : Nat) (s : State) :
    (s.enterAt sel eip stack depth).tr = s.tr := rfl

@[simp] theorem State.enterAt_dbg (sel : Word) (eip : Dword) (stack : Word × Dword) (depth : Nat) (s : State) :
    (s.enterAt sel eip stack depth).dbg = s.dbg := rfl

@[simp] theorem State.enterAt_readByte (sel : Word) (eip : Dword) (stack : Word × Dword) (depth : Nat) (s : State)
    (a : Dword) : (s.enterAt sel eip stack depth).readByte a = s.readByte a := rfl

/-- The level entered at is that of the selector's code segment. -/
@[simp] theorem State.enterAt_cpl (sel : Word) (eip : Dword) (stack : Word × Dword) (depth : Nat) (s : State) :
    (s.enterAt sel eip stack depth).cpl = s.targetLevel sel := by
  unfold State.enterAt State.loadCs State.targetLevel
  dsimp only
  exact congrArg Config.codeLevel (State.readQword_congr (fun _ => rfl) _)

/-- The level of a transfer depends on the tables and the bytes of memory only. -/
theorem CycleStep.targetLevel {s u : State} (h : CycleStep s u) (sel : Word) :
    u.targetLevel sel = s.targetLevel sel := by
  unfold State.targetLevel State.locateDescriptor
  rw [State.readQword_congr h.readByte, h.cpu.gdt, h.cpu.ldt]

/-- The current TSS is not changed by a bus operation. -/
theorem SameCpu.currentTss {s u : State} (h : SameCpu s u) : u.currentTss = s.currentTss := by
  unfold State.currentTss
  rw [h.pmode, h.tr]

/-- Everything the entry of a handler is: the processor's reads, the new CS, EIP and stack, the writes of the frame
with the return address last, the flags. -/
theorem State.enterHandler_cases {g : Gate} {ret : Dword} {s t : State} (h : s.enterHandler g ret = .next t) :
    ∃ stack depth w z, s.entryStack (s.targetLevel g.selector) = some stack ∧
      depth = frameDepth s.draws (g.returnBytes ret).length ∧
      w = (s.cpuReads (s.transferReads g.selector)).enterAt g.selector g.entryOffset stack depth ∧
      w.busWrites (framePushes (Config.entryFrame s.draws) w.gprs.esp depth ++
        [(frameSlot w.gprs.esp depth (g.returnBytes ret).length (Config.entryFrame s.draws).retSlot,
          g.returnBytes ret)]) = .next z ∧
      t = { z.setEflags (Config.entryFrame s.draws).eflags with runState := .running, powerState := .normal } := by
  unfold State.enterHandler at h
  split at h
  · cases h
  · rename_i stack hs
    obtain ⟨z, hz, h⟩ := andThen_next h
    cases h
    exact ⟨stack, _, _, z, hs, rfl, rfl, hz, rfl⟩

/-- A handler is entered where there is a stack to enter on and no write of the frame can fault. -/
theorem State.enterHandler_goes_on {g : Gate} (ret : Dword) {s : State} {stack : Word × Dword}
    (hs : s.entryStack (s.targetLevel g.selector) = some stack) (hw : s.writesGoOn) :
    ∃ t, s.enterHandler g ret = .next t := by
  unfold State.enterHandler
  rw [hs]
  refine andThen_goes_on (State.busWrites_goes_on _ _ ?_) fun z => ⟨_, rfl⟩
  rw [(State.enterAt_transfer _ _ _ _ _).cfg, (State.cpuReads_transfer _ s).cfg]
  exact hw

/-- The stack a transfer enters on: the running one, or, where privilege rises, the current TSS's for the level. -/
theorem State.entryStack_cases {level : BitVec 2} {s : State} {stack : Word × Dword}
    (h : s.entryStack level = some stack) :
    (¬ level.toNat < s.cpl.toNat ∧ stack = (s.segs.ss, s.gprs.esp)) ∨
      level.toNat < s.cpl.toNat ∧ ∃ k tb, s.currentTss = some (k, tb) ∧ stack = s.tssStack k tb level.toNat := by
  unfold State.entryStack State.rises at h
  by_cases hl : level.toNat < s.cpl.toNat
  · rw [if_pos (by simpa using hl)] at h
    split at h
    · rename_i k tb hk
      exact .inr ⟨hl, k, tb, hk, (Option.some.inj h).symm⟩
    · cases h
  · rw [if_neg (by simpa using hl)] at h
    exact .inl ⟨hl, (Option.some.inj h).symm⟩

/-- There is a stack to enter on where there is a TSS, or where privilege does not rise. -/
theorem State.entryStack_isSome {level : BitVec 2} {s : State}
    (h : s.currentTss ≠ none ∨ ¬ level.toNat < s.cpl.toNat) : ∃ stack, s.entryStack level = some stack := by
  unfold State.entryStack State.rises
  by_cases hl : level.toNat < s.cpl.toNat
  · rw [if_pos (by simpa using hl)]
    cases ht : s.currentTss with
    | none => exact absurd ht (h.resolve_right (fun hn => hn hl))
    | some p => exact ⟨_, rfl⟩
  · rw [if_neg (by simpa using hl)]
    exact ⟨_, rfl⟩

theorem State.enterHandler_transfer {g : Gate} {ret : Dword} {s t : State} (h : s.enterHandler g ret = .next t) :
    Transfer s t := by
  unfold State.enterHandler at h
  split at h
  · cases h
  · obtain ⟨u, hu, h⟩ := andThen_next h
    cases h
    exact (((State.cpuReads_transfer _ s).trans (State.enterAt_transfer _ _ _ _ _)).trans
      (State.busWrites_transfer hu)).trans ((State.setEflags_transfer _ u).trans
      (Transfer.of_registers _ _ _ _ _ _ _ _ _ _ _ .running .normal _ _ (fun _ => rfl) rfl))

/-- Everything the entry of a procedure is: the processor's reads, the new CS, EIP and stack, the writes of the frame
with the parameters last where privilege rises. -/
theorem State.enterProcedure_cases {g : Gate} {s t : State} (h : s.enterProcedure g = .next t) :
    ∃ stack depth reads w, s.entryStack (s.targetLevel g.selector) = some stack ∧
      depth = frameDepth s.draws (if s.rises (s.targetLevel g.selector) then g.parameterBytes else 0) ∧
      w = (s.cpuReads reads).enterAt g.selector g.entryOffset stack depth ∧
      w.busWrites (framePushes (Config.entryFrame s.draws) w.gprs.esp depth ++
        if s.rises (s.targetLevel g.selector) then s.parameterWrites g w.gprs.esp depth else []) = .next t := by
  unfold State.enterProcedure at h
  split at h
  · cases h
  · exact ⟨_, _, _, _, ‹_›, rfl, rfl, h⟩

theorem State.enterProcedure_transfer {g : Gate} {s t : State} (h : s.enterProcedure g = .next t) :
    Transfer s t := by
  unfold State.enterProcedure at h
  split at h
  · cases h
  · exact ((State.cpuReads_transfer _ s).trans (State.enterAt_transfer _ _ _ _ _)).trans
      (State.busWrites_transfer h)

theorem State.saveTask_busStep {c : TaskChoice} {k : TssKind} {a ret : Dword} {s t : State}
    (h : s.saveTask c k a ret = .next t) : BusStep s t :=
  State.busWrites_busStep _ h

theorem State.loadTask_transfer (k : TssKind) (t : Dword) (s : State) : Transfer s (s.loadTask k t) := by
  cases k
  · exact (State.cpuReads_transfer _ s).trans
      (((Transfer.of_registers _ _ _ _ _ _ _ _ _ _ _ _ _ _ _ (fun _ => rfl) rfl).trans
      (State.setEflags_transfer _ _)).trans (State.loadCs_transfer _ _ _))
  · exact (State.cpuReads_transfer _ s).trans
      (((Transfer.of_registers _ _ _ _ _ _ _ _ _ _ _ _ _ _ _ (fun _ => rfl) rfl).trans
      (State.setEflags_transfer _ _)).trans (State.loadCs_transfer _ _ _))

theorem State.writeBackLink_busStep {now : Bool} {old : Word} {a : Dword} {s t : State}
    (h : s.writeBackLink now old a = .next t) : BusStep s t := by
  unfold State.writeBackLink at h
  split at h
  · exact State.busWrite_busStep h
  · cases h
    exact BusStep.refl s

/-- A check that passes, and what follows it; or one that fails, and the exception of it stands raised. -/
theorem State.checked_cases {f : TaskFunction} {phase : TaskPhase} {sel : Word} {ret : Dword} {s t : State}
    {go : State → Host.Outcome State Fault Refusal} (h : s.checked f phase sel ret go = .next t) :
    (∃ v, f.check phase sel s = some v ∧ t = { s.draw with runState := .raised (.taskFault v) ret }) ∨
      f.check phase sel s = none ∧ go s.draw = .next t := by
  unfold State.checked at h
  split at h
  · exact .inr ⟨‹_›, h⟩
  · cases h
    exact .inl ⟨_, ‹_›, rfl⟩

/-- A check goes on where what follows it does: where it fails, too. -/
theorem State.checked_goes_on {f : TaskFunction} {phase : TaskPhase} {sel : Word} {ret : Dword} {s : State}
    {go : State → Host.Outcome State Fault Refusal} (h : ∃ t, go s.draw = .next t) :
    ∃ t, s.checked f phase sel ret go = .next t := by
  unfold State.checked
  split
  · exact h
  · exact ⟨_, rfl⟩

/-- A change of the run state, a draw made, is a transfer. -/
theorem State.raised_transfer (s : State) (r : RunState) : Transfer s { s.draw with runState := r } :=
  ⟨Ran.of_kept (fun _ => rfl) rfl (fun _ => rfl), rfl⟩

/-- CR0 as a task switch leaves it: its NW bit as it was under CCR2.LOCK_NW. -/
theorem State.taskCr0_transfer (c : TaskChoice) (s : State) : Transfer s (s.taskCr0 c) := by
  unfold State.taskCr0
  split
  · exact Transfer.refl s
  · rename_i v _
    refine ⟨Ran.of_kept (fun _ => rfl) rfl (fun _ => rfl) (fun h => ?_), rfl⟩
    show (if s.cfg.lockNw then keepBits nwMask s.cr0 v else v).getLsbD 29 = s.cr0.getLsbD 29
    rw [if_pos h, keepBits_getLsbD _ _ _ (by decide), if_pos (by decide)]

/-- What a switch does to CR0 is nothing else. -/
theorem State.taskCr0_eq (c : TaskChoice) (s : State) : s.taskCr0 c = { s with cr0 := (s.taskCr0 c).cr0 } := by
  unfold State.taskCr0
  split <;> rfl

theorem State.markTask_transfer (c : TaskChoice) (desc : Desc) (s : State) : Transfer s (s.markTask c desc) :=
  (s.taskCr0_transfer c).trans ((State.setEflags_transfer _ _).trans
    (by
      refine ⟨Ran.of_kept (fun i => ?_) ?_ (fun _ => rfl), rfl⟩
      · show s.dbg.clearLocal.dr i = (s.taskCr0 c).dbg.dr i
        rw [s.taskCr0_eq c]
        exact DebugRegs.clearLocal_dr _ i
      · show s.dbg.clearLocal.codesUsed = (s.taskCr0 c).dbg.codesUsed
        rw [s.taskCr0_eq c]
        exact DebugRegs.clearLocal_codesUsed _))

@[simp] theorem State.markTask_eip (c : TaskChoice) (desc : Desc) (s : State) : (s.markTask c desc).eip = s.eip := by
  show (s.taskCr0 c).eip = s.eip
  rw [s.taskCr0_eq]

@[simp] theorem State.markTask_lastEvent (c : TaskChoice) (desc : Desc) (s : State) :
    (s.markTask c desc).lastEvent = s.lastEvent := by
  show (s.taskCr0 c).lastEvent = s.lastEvent
  rw [s.taskCr0_eq]

/-- What a task that is started is: its first check failed; or, TR loaded and the switch's writes made, its second one
failed; or the task is loaded, the back link perhaps written, and the marks are set, whether its last check fails or
not. -/
theorem State.startTask_cases {f : TaskFunction} {c : TaskChoice} {kept : List (Dword × Nat)} {old sel : Word}
    {desc : Desc} {ret : Dword} {s t : State} (h : s.startTask f c kept old sel desc ret = .next t) :
    (∃ why, f.check .saved sel s = some why ∧ t = { s.draw with runState := .raised (.taskFault why) ret }) ∨
      ∃ u, BusStep { s.draw with tr := ⟨sel, desc⟩ } u ∧
        ((∃ why, f.check .entered sel u = some why ∧
            t = { u.draw with runState := .raised (.taskFault why) ret }) ∨
          ∃ v, BusStep (u.draw.loadTask (tssKind desc) (tssBase desc)) v ∧
            ((∃ why, f.check .loaded sel (v.markTask c desc) = some why ∧
                t = { (v.markTask c desc).draw with runState := .raised (.taskFault why) v.eip }) ∨
              t = (v.markTask c desc).draw)) := by
  unfold State.startTask at h
  rcases State.checked_cases h with ⟨why, hc, rfl⟩ | ⟨-, h⟩
  · exact .inl ⟨why, hc, rfl⟩
  obtain ⟨u, hu, h⟩ := andThen_next h
  obtain ⟨w, hw, h⟩ := andThen_next h
  refine .inr ⟨w, (State.busWrites_busStep _ hu).trans (State.writeBackLink_busStep hw), ?_⟩
  rcases State.checked_cases h with ⟨why, hc, rfl⟩ | ⟨-, h⟩
  · exact .inl ⟨why, hc, rfl⟩
  obtain ⟨v, hv, h⟩ := andThen_next h
  refine .inr ⟨v, State.writeBackLink_busStep hv, ?_⟩
  rcases State.checked_cases h with ⟨why, hc, rfl⟩ | ⟨-, h⟩
  · exact .inl ⟨why, hc, rfl⟩
  · cases h
    exact .inr rfl

theorem State.startTask_transfer {f : TaskFunction} {c : TaskChoice} {kept : List (Dword × Nat)} {old sel : Word}
    {desc : Desc} {ret : Dword} {s t : State} (h : s.startTask f c kept old sel desc ret = .next t) : Transfer s t := by
  have h1 : Transfer s { s.draw with tr := ⟨sel, desc⟩ } :=
    ⟨Ran.of_kept (fun _ => rfl) rfl (fun _ => rfl), rfl⟩
  have hd : ∀ u : State, Transfer u u.draw := fun u => (u.draw_cycleStep _).toBusStep.transfer
  rcases State.startTask_cases h with ⟨v, -, rfl⟩ | ⟨u, hu, ⟨v, -, rfl⟩ | ⟨v, hv, hr⟩⟩
  · exact s.raised_transfer _
  · exact (h1.trans hu.transfer).trans (u.raised_transfer _)
  · have hm := ((((h1.trans hu.transfer).trans (hd u)).trans (State.loadTask_transfer _ _ _)).trans hv.transfer).trans
      (State.markTask_transfer c desc v)
    rcases hr with ⟨why, -, rfl⟩ | rfl
    · exact hm.trans (State.raised_transfer _ _)
    · exact hm.trans (hd _)

/-- What a task switch that passes its first check is: the bus operations of the reads, the save and perhaps the back
link, and the new task started. -/
theorem State.changeTask_cases {f : TaskFunction} {c : TaskChoice} {k : TssKind} {a : Dword} {sel : Word} {ret : Dword}
    {s t : State} (h : s.changeTask f c k a sel ret = .next t) :
    ∃ desc kept u, BusStep s u ∧ u.startTask f c kept s.tr.sel sel desc ret = .next t := by
  have reads : ∀ (u : State) (a : Dword), BusStep u (u.cpuRead a 8) := fun u a => (u.cpuRead_cycleStep a 8).toBusStep
  unfold State.changeTask at h
  simp only at h
  split at h
  · split at h
    · cases h
    · obtain ⟨u, hu, h⟩ := andThen_next h
      obtain ⟨v, hv, h⟩ := andThen_next h
      exact ⟨_, _, v, ((reads s _).trans (State.writeBackLink_busStep hu)).trans (State.saveTask_busStep hv), h⟩
  · obtain ⟨u, hu, h⟩ := andThen_next h
    split at h
    · cases h
    · exact ⟨_, _, _, (State.saveTask_busStep hu).trans (reads u _), h⟩

/-- What a task switch is: its first check failed and the exception of that stands raised, or the task is changed. -/
theorem State.taskSwitch_cases {f : TaskFunction} {sel : Word} {ret : Dword} {s t : State}
    (h : s.taskSwitch f sel ret = .next t) :
    (∃ why, f.check .begun sel s = some why ∧ t = { s.draw with runState := .raised (.taskFault why) ret }) ∨
      f.check .begun sel s = none ∧
        ∃ desc kept u, BusStep s u ∧ u.startTask f (f.choose sel s) kept s.tr.sel sel desc ret = .next t := by
  unfold State.taskSwitch at h
  split at h
  · cases h
  · rcases State.checked_cases h with ⟨why, hc, rfl⟩ | ⟨hc, h⟩
    · exact .inl ⟨why, hc, rfl⟩
    · obtain ⟨desc, kept, u, hu, h⟩ := State.changeTask_cases h
      exact .inr ⟨hc, desc, kept, u, (s.draw_cycleStep _).toBusStep.trans hu, h⟩

theorem State.taskSwitch_transfer {f : TaskFunction} {sel : Word} {ret : Dword} {s t : State}
    (h : s.taskSwitch f sel ret = .next t) : Transfer s t := by
  rcases State.taskSwitch_cases h with ⟨why, -, rfl⟩ | ⟨-, desc, kept, u, hu, h⟩
  · exact s.raised_transfer _
  · exact hu.transfer.trans (State.startTask_transfer h)

/-- The event delivered: through a trap or interrupt gate, or through a task gate, of the IDT. -/
theorem State.deliver_cases {ev : Event} {ret : Dword} {s t : State} (h : s.deliver ev ret = .next t) :
    ∃ v g u, ev.vector = some v ∧ g = s.decodeGate (s.idtEntry v) ∧ CycleStep s u ∧
      ((g.kind = .trap ∨ g.kind = .interrupt) ∧ u.enterHandler g ret = .next t ∨
        g.kind = .task ∧ u.taskSwitch Config.taskFunction g.selector ret = .next t) := by
  unfold State.deliver at h
  split at h
  · cases h
  · rename_i v hv
    split at h
    · have hn := State.cpuReads_cycleStep (gateReads (s.idtEntry v)) s
      simp only at h
      split at h
      · exact ⟨v, _, _, hv, rfl, hn, .inl ⟨.inl ‹_›, h⟩⟩
      · exact ⟨v, _, _, hv, rfl, hn, .inl ⟨.inr ‹_›, h⟩⟩
      · exact ⟨v, _, _, hv, rfl, hn, .inr ⟨‹_›, h⟩⟩
      · cases h
      · cases h
    · cases h

theorem State.deliver_transfer {ev : Event} {ret : Dword} {s t : State} (h : s.deliver ev ret = .next t) :
    Transfer s t := by
  obtain ⟨v, g, u, -, -, hu, ⟨-, h⟩ | ⟨-, h⟩⟩ := State.deliver_cases h
  · exact hu.toBusStep.transfer.trans (State.enterHandler_transfer h)
  · exact hu.toBusStep.transfer.trans (State.taskSwitch_transfer h)

/-- Recording an event is a transfer. -/
theorem State.lastEvent_transfer (ev : Option Event) (s : State) : Transfer s { s with lastEvent := ev } :=
  Transfer.of_registers s s.gprs s.segs s.csBase s.ldtSel s.eip s.cr3 s.tr s.cpl s.dbg s.debugDue s.runState
    s.powerState ev s.draws (fun _ => rfl) rfl

/-- Taking an exception: the event is delivered, or it stands raised with nothing else changed. -/
theorem State.raise_cases (ev : Event) (ret : Dword) (s : State) :
    State.deliver ev ret { s with lastEvent := some ev } = .next (s.raise ev ret) ∨
      s.raise ev ret = { s with lastEvent := some ev, runState := .raised ev ret } := by
  unfold State.raise
  simp only
  cases State.deliver ev ret { s with lastEvent := some ev } with
  | next t => exact .inl rfl
  | fault _ => exact .inr rfl
  | refused _ => exact .inr rfl

/-- Taking an exception: whatever its gate, only what a transfer may change changes. -/
theorem State.raise_transfer (ev : Event) (ret : Dword) (s : State) : Transfer s (s.raise ev ret) := by
  rcases State.raise_cases ev ret s with h | h
  · exact (s.lastEvent_transfer (some ev)).trans (State.deliver_transfer h)
  · rw [h]
    exact Transfer.of_registers _ _ _ _ _ _ _ _ _ _ _ (.raised ev ret) _ _ _ (fun _ => rfl) rfl

theorem State.raiseDebug_transfer (c : DebugCause) (ret : Dword) (s : State) : Transfer s (s.raiseDebug c ret) :=
  (Transfer.of_registers s s.gprs s.segs s.csBase s.ldtSel s.eip s.cr3 s.tr s.cpl (s.dbg.record (s.debugCause c))
    none s.runState s.powerState s.lastEvent s.draws (fun i => DebugRegs.record_dr _ _ i)
    (DebugRegs.record_codesUsed _ _)).trans (State.raise_transfer _ _ _)

/-- A transfer through a gate that a selector names changes only what a transfer may change. -/
theorem State.callGate_transfer {admits : BitVec 2 → Desc → Desc → Bool} {a : Dword} {s t : State}
    (h : s.callGate admits a = .next t) : Transfer s t := by
  unfold State.callGate at h
  simp only at h
  split at h
  · split at h
    · exact (State.cpuReads_transfer _ s).trans (State.enterProcedure_transfer h)
    · cases h
  · cases h

theorem State.gateTransfer_transfer {admits : BitVec 2 → Desc → Desc → Bool} {f : TaskFunction} {sel : Word}
    {ret : Dword} {s t : State} (h : s.gateTransfer admits f sel ret = .next t) : Transfer s t := by
  unfold State.gateTransfer at h
  simp only at h
  split at h
  · split at h
    · exact State.callGate_transfer h
    · exact (State.cpuReads_transfer _ s).trans (State.taskSwitch_transfer h)
    · cases h
    · cases h
    · cases h
  · cases h

/-! ## The event and the task a transfer leaves -/

theorem State.enterHandler_keeps {g : Gate} {ret : Dword} {s t : State} (h : s.enterHandler g ret = .next t) :
    t.lastEvent = s.lastEvent ∧ t.tr = s.tr ∧ t.debugDue = s.debugDue ∧ t.dbg = s.dbg := by
  unfold State.enterHandler at h
  split at h
  · cases h
  · obtain ⟨u, hu, h⟩ := andThen_next h
    cases h
    have hb := (State.busWrites_busStep _ hu).cpu
    have hr := (State.cpuReads_cycleStep (s.transferReads g.selector) s).cpu
    exact ⟨hb.lastEvent.trans hr.lastEvent, hb.tr.trans hr.tr, hb.debugDue.trans hr.debugDue, hb.dbg.trans hr.dbg⟩

theorem State.loadTask_lastEvent (k : TssKind) (t : Dword) (s : State) : (s.loadTask k t).lastEvent = s.lastEvent := by
  cases k <;> exact (State.cpuReads_cycleStep _ s).cpu.lastEvent

theorem State.taskSwitch_lastEvent {f : TaskFunction} {sel : Word} {ret : Dword} {s t : State}
    (h : s.taskSwitch f sel ret = .next t) : t.lastEvent = s.lastEvent := by
  rcases State.taskSwitch_cases h with ⟨why, -, rfl⟩ | ⟨-, desc, kept, w, hw, h⟩
  · rfl
  rcases State.startTask_cases h with ⟨why, -, rfl⟩ | ⟨u, hu, ⟨why, -, rfl⟩ | ⟨v, hv, hr⟩⟩
  · exact hw.cpu.lastEvent
  · exact hu.cpu.lastEvent.trans hw.cpu.lastEvent
  · have hm : (v.markTask (f.choose sel s) desc).lastEvent = s.lastEvent := by
      rw [State.markTask_lastEvent, hv.cpu.lastEvent, State.loadTask_lastEvent]
      exact hu.cpu.lastEvent.trans hw.cpu.lastEvent
    rcases hr with ⟨why, -, rfl⟩ | rfl
    · exact hm
    · exact hm

theorem State.deliver_lastEvent {ev : Event} {ret : Dword} {s t : State} (h : s.deliver ev ret = .next t) :
    t.lastEvent = s.lastEvent := by
  obtain ⟨v, g, u, -, -, hu, ⟨-, h⟩ | ⟨-, h⟩⟩ := State.deliver_cases h
  · exact (State.enterHandler_keeps h).1.trans hu.cpu.lastEvent
  · exact (State.taskSwitch_lastEvent h).trans hu.cpu.lastEvent

/-- An event that is raised is recorded as the step's event. -/
@[simp] theorem State.raise_lastEvent (ev : Event) (ret : Dword) (s : State) :
    (s.raise ev ret).lastEvent = some ev := by
  rcases State.raise_cases ev ret s with h | h
  · exact State.deliver_lastEvent h
  · rw [h]

@[simp] theorem State.raiseDebug_lastEvent (c : DebugCause) (ret : Dword) (s : State) :
    (s.raiseDebug c ret).lastEvent = some .debug :=
  State.raise_lastEvent _ _ _

/-- An event that changes TR came through a task gate of the IDT. -/
theorem State.raise_tr {ev : Event} {ret : Dword} {s : State} (h : (s.raise ev ret).tr ≠ s.tr) :
    ∃ v, ev.vector = some v ∧ (s.decodeGate (s.idtEntry v)).kind = .task := by
  rcases State.raise_cases ev ret s with hd | hd
  · obtain ⟨v, g, u, hv, rfl, hu, ⟨-, he⟩ | ⟨hk, -⟩⟩ := State.deliver_cases hd
    · exact absurd ((State.enterHandler_keeps he).2.1.trans hu.cpu.tr) h
    · exact ⟨v, hv, hk⟩
  · exact absurd (by rw [hd]) h

end Sys2Proof.Machine
end

