-- ==== Sys2Proof/Laws/Exec.lean ====
section
/-! SUPPORT. Everything an instruction can do to the state beyond its own result, said once: it either keeps all
that `Ran` lists, or it is an OUT to port 23h that writes one configuration register byte. -/

namespace Sys2Proof.Machine

/-- A change of the general registers, EIP and the draw counter. -/
theorem Ran.of_registers (s : State) (gprs : Gprs) (eip : Dword) (draws : Nat) :
    Ran s { s with gprs := gprs, eip := eip, draws := draws } :=
  Ran.of_kept (fun _ => rfl) rfl (fun _ => rfl)

theorem State.advance_ran (n : Nat) (s : State) : Ran s (s.advance n) := Ran.of_registers s s.gprs _ s.draws

theorem State.setReg_ran (r : GReg) (v : Dword) (s : State) : Ran s (State.setReg r v s) :=
  Ran.of_registers s _ s.eip s.draws

theorem State.setReg8_ran (r : Reg8) (v : Byte) (s : State) : Ran s (State.setReg8 r v s) :=
  Ran.of_registers s _ s.eip s.draws

theorem State.writeArithFlags_ran (s : State) : Ran s s.writeArithFlags := by
  refine Ran.of_kept (fun _ => rfl) rfl (fun _ => ?_)
  show (keepBits arithMask _ s.eflags).getLsbD 21 = s.eflags.getLsbD 21
  rw [keepBits_getLsbD _ _ _ (by decide), if_neg (by decide)]

/-! ## Ports -/

/-- A change of the pending selection and the draw counter. -/
theorem Ran.of_selection (s : State) (sel : Option Byte) (draws : Nat) :
    Ran s { s with cfgSel := sel, draws := draws } :=
  Ran.of_kept (fun _ => rfl) rfl (fun _ => rfl)

theorem State.emit_ran (e : BusEvent) (s : State) : Ran s (s.emit e) := (State.emit_cycleStep e s).toBusStep.transfer.toRan

theorem State.extIoRead_ran (port : Word) (s : State) : Ran s (s.extIoRead port).1 :=
  (Ran.of_selection s s.cfgSel _).trans (State.emit_ran _ _)

theorem State.ioRead_ran (port : Word) (s : State) : Ran s (s.ioRead port).1 := by
  unfold State.ioRead
  split
  · exact (Ran.of_selection s _ s.draws).trans (State.extIoRead_ran _ _)
  · split
    · unfold State.readData
      simp only
      split
      · exact (Ran.of_selection s none s.draws).trans (State.extIoRead_ran _ _)
      · exact Ran.of_selection s none _
      · exact Ran.of_selection s none _
    · exact State.extIoRead_ran _ _

/-- A configuration write that goes on, from `s` to `t`: the register byte the pending selection names takes the
value rule R168 stores, and the selection is consumed. -/
def ConfigWrite (v : Byte) (s t : State) : Prop :=
  ∃ r, s.cfg.dataTarget s.cfgSel = .register r ∧ writeRefusal s.smiLocked s.cfg r v = none ∧
    t = { s with cfgSel := none, cfg := s.cfg.assign r (writtenValue s.smiLocked s.cfg r v) }

theorem State.writeData_cases {v : Byte} {s t : State} (h : s.writeData v = .next t) :
    Ran s t ∨ ConfigWrite v s t := by
  unfold State.writeData at h
  simp only at h
  split at h
  · cases h
    exact .inl ((Ran.of_selection s none s.draws).trans (State.emit_ran _ _))
  · rename_i r hr
    unfold State.cfgWrite at h
    split at h
    · cases h
    · rename_i hw
      cases h
      exact .inr ⟨r, hr, hw, rfl⟩
  · cases h
    exact .inl (Ran.of_selection s none s.draws)

theorem State.ioWrite_cases {port : Word} {v : Byte} {s t : State} (h : s.ioWrite port v = .next t) :
    Ran s t ∨ port = dataPort ∧ ConfigWrite v s t := by
  unfold State.ioWrite at h
  split at h
  · cases h
    refine .inl ?_
    unfold State.writeIndex
    simp only
    split
    · exact Ran.of_selection s _ s.draws
    · exact (Ran.of_selection s _ s.draws).trans (State.emit_ran _ _)
  · split at h
    · rename_i hp
      exact (State.writeData_cases h).imp id fun hc => ⟨hp, hc⟩
    · cases h
      exact .inl (State.emit_ran _ _)

theorem State.outAl_cases {len : Nat} {port : Word} {s t : State} (h : s.outAl len port = .next t) :
    Ran s t ∨ port = dataPort ∧ ∃ u, ConfigWrite s.al s u ∧ t = u.advance len := by
  unfold State.outAl at h
  split at h
  · rename_i u hu
    cases h
    rcases State.ioWrite_cases hu with hr | ⟨hp, hc⟩
    · exact .inl (hr.trans (State.advance_ran _ _))
    · exact .inr ⟨hp, u, hc, rfl⟩
  · cases h
  · cases h

/-! ## Instructions -/

theorem State.store_ran {a : Dword} {bs : List Byte} {s t : State} (h : s.store a bs = .next t) : Ran s t :=
  (State.store_busStep h).transfer.toRan

theorem State.raise_ran (ev : Event) (ret : Dword) (s : State) : Ran s (s.raise ev ret) :=
  (State.raise_transfer ev ret s).toRan

theorem State.loadTr_ran {len : Nat} {sel : Word} {s t : State} (h : s.loadTr len sel = .next t) : Ran s t := by
  unfold State.loadTr at h
  split at h
  · cases h
    exact State.raise_ran _ _ _
  · split at h
    · rename_i a _ _
      have hn := (s.cpuRead_cycleStep a 8).toBusStep.transfer.toRan
      simp only at h
      split at h
      · cases h
        exact hn.trans ((Transfer.of_registers (s.cpuRead a 8) _ _ _ _ _ _ ⟨sel, _⟩ _ _ _ _ _ _ _ (fun _ => rfl)
          rfl).toRan.trans (State.advance_ran _ _))
      · cases h
        exact hn.trans (State.raise_ran _ _ _)
    · cases h

/-- What any instruction that goes on has done: it kept all that `Ran` lists, or it was an OUT to port 23h that
wrote a configuration register byte. -/
theorem exec_cases {i : Instr} {s t : State} (h : exec i s = .next t) :
    Ran s t ∨ ((∃ p, i = .outImm8Al p ∧ immPort p = dataPort) ∨ (i = .outDxAl ∧ s.dx = dataPort)) ∧
      ∃ u, ConfigWrite s.al s u ∧ t = u.advance i.length := by
  cases i with
  | ltrR16 rm =>
    refine .inl ?_
    simp only [exec, execLtrR16] at h
    split at h
    · cases h; exact State.raise_ran _ _ _
    · exact State.loadTr_ran h
  | ltrM16 disp =>
    refine .inl ?_
    simp only [exec, execLtrM16] at h
    split at h
    · cases h; exact State.raise_ran _ _ _
    · split at h
      · exact (s.readCycle_cycleStep disp 2).toBusStep.transfer.toRan.trans (State.loadTr_ran h)
      · cases h
  | strM16 disp =>
    refine .inl ?_
    simp only [exec, execStrM16] at h
    split at h
    · split at h
      · cases h; exact (State.store_ran ‹_›).trans (State.advance_ran _ _)
      · cases h
      · cases h
    · cases h; exact State.raise_ran _ _ _
  | strR rm =>
    refine .inl ?_
    simp only [exec, execStrR] at h
    split at h
    · cases h; exact Ran.of_registers s _ _ _
    · cases h; exact State.raise_ran _ _ _
  | inAlImm8 port =>
    cases h
    exact .inl ((State.ioRead_ran _ s).trans ((State.setReg8_ran _ _ _).trans (State.advance_ran _ _)))
  | inAlDx =>
    cases h
    exact .inl ((State.ioRead_ran _ s).trans ((State.setReg8_ran _ _ _).trans (State.advance_ran _ _)))
  | outImm8Al port =>
    exact (State.outAl_cases h).imp id fun ⟨hp, hu⟩ => ⟨.inl ⟨port, rfl, hp⟩, hu⟩
  | outDxAl =>
    exact (State.outAl_cases h).imp id fun ⟨hp, hu⟩ => ⟨.inr ⟨rfl, hp⟩, hu⟩
  | hlt =>
    refine .inl ?_
    simp only [exec, execHlt] at h
    split at h
    · cases h; exact State.raise_ran _ _ _
    · cases h; exact (Transfer.of_registers s _ _ _ _ _ _ _ _ _ _ .halted _ _ _ (fun _ => rfl) rfl).toRan
  | cpuid =>
    refine .inl ?_
    simp only [exec, execCpuid] at h
    split at h
    · cases h; exact Ran.of_registers s _ _ _
    · cases h; exact State.raise_ran _ _ _
  | int3 => cases h; exact .inl (State.raise_ran _ _ _)
  | loopRel8 cb => cases h; exact .inl (Ran.of_registers s _ _ s.draws)
  | movAlImm8 ib => cases h; exact .inl (Ran.of_registers s _ _ s.draws)
  | movRm8R8 rm reg => cases h; exact .inl (Ran.of_registers s _ _ s.draws)
  | movEaxImm32 id => cases h; exact .inl (Ran.of_registers s _ _ s.draws)
  | movEcxImm32 id => cases h; exact .inl (Ran.of_registers s _ _ s.draws)
  | andAlImm8 ib =>
    cases h
    exact .inl (s.writeArithFlags_ran.trans (Ran.of_registers s.writeArithFlags _ _ s.writeArithFlags.draws))
  | orAlImm8 ib =>
    cases h
    exact .inl (s.writeArithFlags_ran.trans (Ran.of_registers s.writeArithFlags _ _ s.writeArithFlags.draws))

/-- A configuration write keeps the state good. -/
theorem ConfigWrite.good {v : Byte} {s t : State} (h : ConfigWrite v s t) (hg : s.good = true) : t.good = true := by
  obtain ⟨r, -, hw, rfl⟩ := h
  simp only [State.good, Bool.and_eq_true] at hg ⊢
  obtain ⟨⟨⟨⟨h1, h2⟩, h3⟩, h4⟩, h5⟩ := hg
  exact ⟨⟨⟨⟨h1, h2⟩, CfgRegs.legal_write h3 hw⟩, h4⟩, h5⟩

/-- An instruction that goes on keeps the state good. -/
theorem exec_good {i : Instr} {s t : State} (h : exec i s = .next t) (hg : s.good = true) : t.good = true := by
  rcases exec_cases h with hr | ⟨-, u, hu, rfl⟩
  · exact hr.good hg
  · exact (State.advance_ran _ u).good (hu.good hg)

/-- What an instruction that raises no event keeps beside `Ran`: the event and the debug exception due, the debug
registers, and TR unless it is LTR. -/
structure RanQuietly (i : Instr) (s t : State) : Prop where
  lastEvent : t.lastEvent = s.lastEvent
  debugDue  : t.debugDue = s.debugDue
  dbg       : t.dbg = s.dbg
  tr        : t.tr = s.tr ∨ (∃ rm, i = .ltrR16 rm) ∨ ∃ disp, i = .ltrM16 disp

/-- What follows a bus operation and changes none of what `RanQuietly` names. -/
theorem SameCpu.ranQuietly {s u : State} (i : Instr) (h : SameCpu s u) : RanQuietly i s u :=
  ⟨h.lastEvent, h.debugDue, h.dbg, .inl h.tr⟩

theorem State.ioRead_ranQuietly (i : Instr) (port : Word) (s : State) : RanQuietly i s (s.ioRead port).1 := by
  unfold State.ioRead State.readData
  simp only
  split
  · exact ⟨rfl, rfl, rfl, .inl rfl⟩
  · split
    · split <;> exact ⟨rfl, rfl, rfl, .inl rfl⟩
    · exact ⟨rfl, rfl, rfl, .inl rfl⟩

theorem State.outAl_ranQuietly {i : Instr} {len : Nat} {port : Word} {s t : State}
    (h : s.outAl len port = .next t) : RanQuietly i s t := by
  unfold State.outAl at h
  split at h
  · rename_i u hu
    cases h
    suffices RanQuietly i s u from ⟨this.lastEvent, this.debugDue, this.dbg, this.tr⟩
    unfold State.ioWrite State.writeData State.writeIndex State.cfgWrite at hu
    simp only at hu
    repeat' split at hu
    all_goals first | (cases hu; exact ⟨rfl, rfl, rfl, .inl rfl⟩) | cases hu
  · cases h
  · cases h

theorem State.loadTr_event_cases {i : Instr} {len : Nat} {sel : Word} {s t : State} (h : s.loadTr len sel = .next t)
    (hi : (∃ rm, i = .ltrR16 rm) ∨ ∃ disp, i = .ltrM16 disp) :
    (∃ u ev ret, CycleStep s u ∧ t = u.raise ev ret) ∨ RanQuietly i s t := by
  unfold State.loadTr at h
  split at h
  · cases h
    exact .inl ⟨s, _, _, CycleStep.refl s, rfl⟩
  · split at h
    · rename_i a _ _
      have hc := s.cpuRead_cycleStep a 8
      simp only at h
      split at h
      · cases h
        exact .inr ⟨hc.cpu.lastEvent, hc.cpu.debugDue, hc.cpu.dbg, .inr hi⟩
      · cases h
        exact .inl ⟨_, _, _, hc, rfl⟩
    · cases h

/-- An instruction that goes on has raised an event at a state that differs from its own on the bus side only, or it
ran quietly. -/
theorem exec_event_cases {i : Instr} {s t : State} (h : exec i s = .next t) :
    (∃ u ev ret, CycleStep s u ∧ t = u.raise ev ret) ∨ RanQuietly i s t := by
  have raised : ∀ ev ret, t = s.raise ev ret → (∃ u ev ret, CycleStep s u ∧ t = u.raise ev ret) ∨ RanQuietly i s t :=
    fun ev ret e => .inl ⟨s, ev, ret, CycleStep.refl s, e⟩
  cases i with
  | ltrR16 rm =>
    simp only [exec, execLtrR16] at h
    split at h
    · cases h; exact raised _ _ rfl
    · exact State.loadTr_event_cases h (.inl ⟨rm, rfl⟩)
  | ltrM16 disp =>
    simp only [exec, execLtrM16] at h
    split at h
    · cases h; exact raised _ _ rfl
    · split at h
      · have hc := s.readCycle_cycleStep disp 2
        rcases State.loadTr_event_cases (i := .ltrM16 disp) h (.inr ⟨disp, rfl⟩) with ⟨u, ev, ret, hu, ht⟩ | hq
        · exact .inl ⟨u, ev, ret, hc.trans hu, ht⟩
        · exact .inr ⟨hq.lastEvent.trans hc.cpu.lastEvent, hq.debugDue.trans hc.cpu.debugDue,
            hq.dbg.trans hc.cpu.dbg, .inr (.inr ⟨disp, rfl⟩)⟩
      · cases h
  | strM16 disp =>
    simp only [exec, execStrM16] at h
    split at h
    · split at h
      · rename_i u hu
        cases h
        have hs := (State.store_busStep hu).cpu
        exact .inr ⟨hs.lastEvent, hs.debugDue, hs.dbg, .inl hs.tr⟩
      · cases h
      · cases h
    · cases h; exact raised _ _ rfl
  | strR rm =>
    simp only [exec, execStrR] at h
    split at h
    · cases h; exact .inr ⟨rfl, rfl, rfl, .inl rfl⟩
    · cases h; exact raised _ _ rfl
  | inAlImm8 port =>
    cases h
    have hq := s.ioRead_ranQuietly (.inAlImm8 port) (immPort port)
    exact .inr ⟨hq.lastEvent, hq.debugDue, hq.dbg, hq.tr⟩
  | inAlDx =>
    cases h
    have hq := s.ioRead_ranQuietly .inAlDx s.dx
    exact .inr ⟨hq.lastEvent, hq.debugDue, hq.dbg, hq.tr⟩
  | outImm8Al port => exact .inr (State.outAl_ranQuietly h)
  | outDxAl => exact .inr (State.outAl_ranQuietly h)
  | hlt =>
    simp only [exec, execHlt] at h
    split at h
    · cases h; exact raised _ _ rfl
    · cases h; exact .inr ⟨rfl, rfl, rfl, .inl rfl⟩
  | cpuid =>
    simp only [exec, execCpuid] at h
    split at h
    · cases h; exact .inr ⟨rfl, rfl, rfl, .inl rfl⟩
    · cases h; exact raised _ _ rfl
  | int3 => cases h; exact raised _ _ rfl
  | loopRel8 cb => cases h; exact .inr ⟨rfl, rfl, rfl, .inl rfl⟩
  | movAlImm8 ib => cases h; exact .inr ⟨rfl, rfl, rfl, .inl rfl⟩
  | movRm8R8 rm reg => cases h; exact .inr ⟨rfl, rfl, rfl, .inl rfl⟩
  | movEaxImm32 id => cases h; exact .inr ⟨rfl, rfl, rfl, .inl rfl⟩
  | movEcxImm32 id => cases h; exact .inr ⟨rfl, rfl, rfl, .inl rfl⟩
  | andAlImm8 ib => cases h; exact .inr ⟨rfl, rfl, rfl, .inl rfl⟩
  | orAlImm8 ib => cases h; exact .inr ⟨rfl, rfl, rfl, .inl rfl⟩

/-- An instruction that leaves no event recorded ran quietly. -/
theorem exec_quiet {i : Instr} {s t : State} (h : exec i s = .next t) (ht : t.lastEvent = none) :
    RanQuietly i s t := by
  rcases exec_event_cases h with ⟨u, ev, ret, -, rfl⟩ | hq
  · simp at ht
  · exact hq

end Sys2Proof.Machine
end

