-- ==== Sys2Proof/Laws/Gather.lean ====
section
/-! SUPPORT. Write gathering, said once: what sequential bytes inside one aligned 8-byte window do to the
write-gather buffer, and what a write is read back as. -/

namespace Sys2Proof.Machine

/-- The k-th byte after the first is the (k+1)-th. -/
theorem add_ofNat_succ (a : Dword) (k : Nat) : a + BitVec.ofNat 32 (k + 1) = a + 1 + BitVec.ofNat 32 k := by
  apply BitVec.eq_of_toNat_eq
  have h1 : (1 : Dword).toNat = 1 := rfl
  simp only [BitVec.toNat_add, BitVec.toNat_ofNat, h1]
  omega

@[simp] theorem State.readBytes_length (s : State) (a : Dword) (n : Nat) : (s.readBytes a n).length = n := by
  induction n generalizing a with
  | zero => rfl
  | succ n ih => simp [State.readBytes, ih]

/-- The k-th of several bytes read is the byte k addresses up. -/
theorem State.readBytes_getElem (s : State) (n : Nat) : ∀ (a : Dword) (k : Nat) (h : k < (s.readBytes a n).length),
    (s.readBytes a n)[k] = s.readByte (a + BitVec.ofNat 32 k) := by
  induction n with
  | zero => intro a k h; exact absurd h (by simp)
  | succ n ih =>
    intro a k h
    cases k with
    | zero => simp [State.readBytes]
    | succ k => simp only [State.readBytes, List.getElem_cons_succ, ih, add_ofNat_succ]

/-- The byte after a buffer that is not at its window's end continues it. -/
theorem GatherBuffer.continuedBy_next {g : GatherBuffer} (h : g.start.toNat % 8 + g.bytes.length < 8) :
    g.continuedBy g.next = true := by
  have hw : g.next.toNat = g.start.toNat + g.bytes.length := by
    have := g.start.isLt
    rw [next, BitVec.toNat_add, BitVec.toNat_ofNat]
    omega
  rw [continuedBy, Bool.and_eq_true, decide_eq_true_eq, decide_eq_true_eq]
  refine ⟨rfl, ?_⟩
  rw [← BitVec.toNat_inj, BitVec.toNat_ushiftRight, BitVec.toNat_ushiftRight, hw]
  omega

/-- Nothing leaves early where the free choice does not have it. -/
theorem State.emitEarly_of_kept {s : State} {g : GatherBuffer} (hg : s.gather = some g)
    (hk : Config.flushEarly s.draws = false) : s.emitEarly = s.draw := by
  unfold State.emitEarly
  rw [hg]
  simp [hk]

/-- Bytes that continue the buffer and do not fill it are added to it, where nothing leaves early. -/
theorem State.gatherBytes_within (at' : Attributes) (bs : List Byte) : ∀ (s : State) (g : GatherBuffer),
    s.gather = some g → g.start.toNat % 8 + g.bytes.length + bs.length ≤ 8 → g.bytes.length + bs.length < 8 →
    (∀ j, s.draws ≤ j → j < s.draws + bs.length → Config.flushEarly j = false) →
    s.gatherBytes at' g.next bs =
      { s with gather := some { g with bytes := g.bytes ++ bs }, draws := s.draws + bs.length } := by
  induction bs with
  | nil => intro s g hg _ _ _; simp only [List.append_nil, ← hg]; rfl
  | cons b bs ih =>
    intro s g hg hw hn hf
    simp only [List.length_cons] at hw hn hf
    have hstep : s.emitEarly.gatherByte at' g.next b =
        { s with gather := some { g with bytes := g.bytes ++ [b] }, draws := s.draws + 1 } := by
      rw [State.emitEarly_of_kept hg (hf _ (Nat.le_refl _) (by omega))]
      unfold State.gatherByte
      rw [State.draw_gather, hg]
      dsimp only
      rw [if_pos (GatherBuffer.continuedBy_next (by omega))]
      unfold State.flushIfFull
      dsimp only
      rw [if_neg (by simp; omega)]
      rfl
    have hnext : g.next + 1 = GatherBuffer.next { g with bytes := g.bytes ++ [b] } := by
      simp only [GatherBuffer.next, List.length_append, List.length_singleton]
      rw [BitVec.add_assoc, BitVec.ofNat_add]
      rfl
    unfold State.gatherBytes
    rw [hstep, hnext, ih _ _ rfl (by simp; omega) (by simp; omega) fun j h1 h2 => hf j (by simp at h1; omega)
      (by simp at h2; omega)]
    simp [Nat.add_assoc, Nat.add_comm 1]

/-- The byte that completes a full window emits the buffer as one write cycle. -/
theorem State.gatherByte_full (at' : Attributes) (b : Byte) {s : State} {g : GatherBuffer} (hg : s.gather = some g)
    (hs : g.start.toNat % 8 = 0) (hn : g.bytes.length = 7) :
    s.gatherByte at' g.next b = { s with
      gather := none
      events := s.events ++ [memCycle .memWrite g.start (g.bytes ++ [b]) g.attrs] } := by
  unfold State.gatherByte
  rw [hg]
  dsimp only
  rw [if_pos (GatherBuffer.continuedBy_next (by omega))]
  unfold State.flushIfFull
  dsimp only
  rw [if_pos (by simp; omega)]
  rfl

/-! ## No byte of a gathered write is lost -/

theorem cells_append (bs bs' : List Byte) : ∀ a : Dword,
    cells a (bs ++ bs') = cells a bs ++ cells (a + BitVec.ofNat 32 bs.length) bs' := by
  induction bs with
  | nil => intro a; simp [cells]
  | cons b bs ih => intro a; simp only [List.cons_append, cells, ih, List.length_cons, add_ofNat_succ]

/-- From `s` to `t` the bytes of `new` are taken up, and the cycles made carry, in order, what waited and they but for
what still waits, each inside one aligned 8-byte window. -/
def Drains (new : List (Dword × Byte)) (s t : State) : Prop :=
  ∃ es, t.events = s.events ++ es
    ∧ es.flatMap BusEvent.cells ++ t.waitingCells = s.waitingCells ++ new
    ∧ ∀ e ∈ es, e.carries .memWrite e.address e.bytes ∧ e.bytes ≠ [] ∧ e.address.toNat % 8 + e.bytes.length ≤ 8

theorem Drains.trans {new new' : List (Dword × Byte)} {s t u : State} (h : Drains new s t) (h' : Drains new' t u) :
    Drains (new ++ new') s u := by
  obtain ⟨es, he, hc, hw⟩ := h
  obtain ⟨es', he', hc', hw'⟩ := h'
  refine ⟨es ++ es', by rw [he', he, List.append_assoc], ?_, fun e h => ?_⟩
  · rw [List.flatMap_append, List.append_assoc, hc', ← List.append_assoc, hc, List.append_assoc]
  · exact (List.mem_append.mp h).elim (hw e) (hw' e)

theorem Drains.refl (s : State) : Drains [] s s := ⟨[], by simp, by simp, by simp⟩

theorem State.flushGather_drains {s : State} (hl : s.gather.all GatherBuffer.legal = true) :
    Drains [] s s.flushGather := by
  cases hg : s.gather with
  | none =>
    have : s.flushGather = s := by unfold State.flushGather; rw [hg]
    rw [this]; exact Drains.refl s
  | some g =>
    rw [hg] at hl
    simp only [Option.all_some, GatherBuffer.legal, Bool.and_eq_true, decide_eq_true_eq] at hl
    refine ⟨[memCycle .memWrite g.start g.bytes g.attrs], ?_, ?_, ?_⟩
    · unfold State.flushGather; rw [hg]
    · simp [State.waitingCells, hg, BusEvent.cells, memCycle]
    · intro e he
      obtain rfl := List.mem_singleton.mp he
      refine ⟨⟨rfl, rfl, rfl, rfl, rfl⟩, fun h => ?_, hl.1.2⟩
      have : g.bytes = [] := h
      simp [this] at hl

theorem State.emitEarly_drains {s : State} (hl : s.gather.all GatherBuffer.legal = true) : Drains [] s s.emitEarly := by
  unfold State.emitEarly
  split
  · exact Drains.refl s
  · split
    · exact State.flushGather_drains hl
    · exact Drains.refl s

theorem State.gatherByte_drains (at' : Attributes) (a : Dword) (b : Byte) {s : State}
    (hl : s.gather.all GatherBuffer.legal = true) : Drains [(a, b)] s (s.gatherByte at' a b) := by
  unfold State.gatherByte
  split
  · rename_i hg
    exact ⟨[], by simp, by simp [State.waitingCells, hg, cells], by simp⟩
  · rename_i g hg
    split
    · rename_i hc
      have hs := GatherBuffer.legal_continued b (by simpa [hg] using hl) hc
      have ha : a = g.next := by
        simp only [GatherBuffer.continuedBy, Bool.and_eq_true, decide_eq_true_eq] at hc
        exact hc.1
      have hj : cells g.start (g.bytes ++ [b]) = s.waitingCells ++ [(a, b)] := by
        rw [cells_append, State.waitingCells, hg, ha]
        rfl
      unfold State.flushIfFull
      dsimp only
      split
      · refine ⟨[memCycle .memWrite g.start (g.bytes ++ [b]) g.attrs], rfl, ?_, ?_⟩
        · simpa [State.waitingCells, BusEvent.cells, memCycle, State.flushGather] using hj
        · intro e he
          obtain rfl := List.mem_singleton.mp he
          exact ⟨⟨rfl, rfl, rfl, rfl, rfl⟩, by simp [memCycle], hs⟩
      · exact ⟨[], by simp, by simpa [State.waitingCells] using hj, by simp⟩
    · obtain ⟨es, he, hc, hw⟩ := State.flushGather_drains hl
      refine ⟨es, he, ?_, hw⟩
      have hn : s.flushGather.waitingCells = [] := by simp [State.waitingCells]
      rw [hn] at hc
      simp only [List.append_nil] at hc
      rw [hc]
      rfl

/-- A gathered write loses no byte and reorders none, whatever leaves early. -/
theorem State.gatherBytes_drains (at' : Attributes) (bs : List Byte) : ∀ (a : Dword) (s : State),
    s.gather.all GatherBuffer.legal = true → Drains (cells a bs) s (s.gatherBytes at' a bs) := by
  induction bs with
  | nil => exact fun _ s _ => Drains.refl s
  | cons b bs ih =>
    intro a s hl
    have h1 := s.emitEarly_cycleStep.gather hl
    exact ((State.emitEarly_drains hl).trans (State.gatherByte_drains at' a b h1)).trans
      (ih (a + 1) _ ((State.gatherByte_cycleStep at' a b _).gather h1))

/-! ## Reading back what was written -/

/-- Bytes written are read back, each at its own address. -/
theorem State.readByte_writeBytes_within (bs : List Byte) : ∀ (a : Dword) (s : State) (k : Nat) (h : k < bs.length),
    bs.length ≤ 0x100000000 → (s.writeBytes a bs).readByte (a + BitVec.ofNat 32 k) = bs[k] := by
  induction bs with
  | nil => intro _ _ k h; exact absurd h (by simp)
  | cons b bs ih =>
    intro a s k h hl
    simp only [List.length_cons] at h hl
    unfold State.writeBytes
    cases k with
    | zero =>
      rw [State.readByte_writeBytes_other bs (a + 1) _ (a + BitVec.ofNat 32 0)]
      · simp
      · intro j hj e
        have := congrArg BitVec.toNat e
        have := a.isLt
        have h1 : (1 : Dword).toNat = 1 := rfl
        simp only [BitVec.toNat_add, BitVec.toNat_ofNat] at *
        omega
    | succ k =>
      rw [add_ofNat_succ, ih (a + 1) _ k (by omega) (by omega)]
      rfl

/-! ## What the processor's writes are read back as -/

/-- A protected write that goes on changes no byte outside it, whatever its effect. -/
theorem State.readByte_protectedStore_other {a x : Dword} {bs : List Byte} {s t : State}
    (h : s.protectedStore a bs = .next t) (hx : ∀ k < bs.length, x ≠ a + BitVec.ofNat 32 k) :
    t.readByte x = s.readByte x := by
  unfold State.protectedStore at h
  split at h
  · cases h
    exact ((s.draw_cycleStep _).trans (State.noteAccess_cycleStep a _)).readByte x
  · cases h
    rw [(State.writeCycle_cycleStep a bs _).readByte x]
    split
    · exact State.readByte_writeBytes_other bs a s x hx
    · rfl
  · cases h

/-- A write by the CPU that goes on changes no byte outside it. -/
theorem State.readByte_busWrite_other {a x : Dword} {bs : List Byte} {s t : State} (h : s.busWrite a bs = .next t)
    (hx : ∀ k < bs.length, x ≠ a + BitVec.ofNat 32 k) : t.readByte x = s.readByte x := by
  unfold State.busWrite at h
  split at h
  · exact State.readByte_protectedStore_other h hx
  · cases h
    rw [State.readByte_plainWrite, State.readByte_writeBytes_other bs a s x hx]

/-- Several writes that go on change no byte outside them. -/
theorem State.readByte_busWrites_other {x : Dword} : ∀ (ws : List (Dword × List Byte)) {s t : State},
    s.busWrites ws = .next t → (∀ w ∈ ws, ∀ k < w.2.length, x ≠ w.1 + BitVec.ofNat 32 k) →
    t.readByte x = s.readByte x
  | [], s, t, h, _ => by cases h; rfl
  | w :: ws, s, t, h, hx => by
    obtain ⟨u, hu, h⟩ := andThen_next h
    rw [State.readByte_busWrites_other ws h fun w' hw => hx w' (by simp [hw]),
      State.readByte_busWrite_other hu (hx w (by simp))]

/-- Places that share a byte meet. -/
theorem placesMeet_of_shared {a b : Dword} {m n i j : Nat} (hi : i < m) (hj : j < n)
    (h : a + BitVec.ofNat 32 i = b + BitVec.ofNat 32 j) : placesMeet a m b n = true := by
  have h := congrArg BitVec.toNat h
  have ha := a.isLt
  have hb := b.isLt
  simp only [BitVec.toNat_add, BitVec.toNat_ofNat] at h
  simp only [placesMeet, Bool.or_eq_true, decide_eq_true_eq, BitVec.toNat_sub]
  omega

/-- The other writes of a task switch that go on change no byte of a kept place (rule R147 (a)). -/
theorem State.readByte_otherWrites {c : TaskChoice} {kept : List (Dword × Nat)} {p : Dword × Nat} {s t : State}
    (h : s.busWrites (c.otherWrites kept) = .next t) (hp : p ∈ kept) {n : Nat} (hn : n < p.2) :
    t.readByte (p.1 + BitVec.ofNat 32 n) = s.readByte (p.1 + BitVec.ofNat 32 n) := by
  refine State.readByte_busWrites_other _ h fun w hw k hk e => ?_
  have := List.all_eq_true.mp (List.mem_filter.mp hw).2 p hp
  rw [placesMeet_of_shared hk hn e.symm] at this
  exact absurd this (by decide)

/-- Writes one after another: the first ones, then the others. -/
theorem State.busWrites_append (ws ws' : List (Dword × List Byte)) {s t : State} :
    s.busWrites (ws ++ ws') = .next t → ∃ u, s.busWrites ws = .next u ∧ u.busWrites ws' = .next t := by
  induction ws generalizing s with
  | nil => exact fun h => ⟨s, rfl, h⟩
  | cons w ws ih =>
    intro h
    obtain ⟨v, hv, h⟩ := andThen_next (o := s.busWrite w.1 w.2) h
    obtain ⟨u, hu, h⟩ := ih h
    exact ⟨u, by rw [State.busWrites, hv]; exact hu, h⟩

/-- With CCR2.WPR1 = 0 a byte written among several writes and by none after it reads as written. -/
theorem State.readByte_busWrites_last {ws ws' : List (Dword × List Byte)} {a : Dword} {bs : List Byte} {s t : State}
    (hp : s.cfg.wpr1 = false) (h : s.busWrites (ws ++ (a, bs) :: ws') = .next t) {k : Nat} (hk : k < bs.length)
    (hl : bs.length ≤ 0x100000000)
    (hx : ∀ w ∈ ws', ∀ j < w.2.length, a + BitVec.ofNat 32 k ≠ w.1 + BitVec.ofNat 32 j) :
    t.readByte (a + BitVec.ofNat 32 k) = bs[k] := by
  obtain ⟨u, hu, h⟩ := State.busWrites_append _ _ h
  obtain ⟨v, hv, h⟩ := andThen_next h
  have hc : u.cfg.wpr1 = false := by rw [(State.busWrites_busStep _ hu).cpu.cfg]; exact hp
  rw [State.busWrite_of_unprotected (State.storeProtected_of_wpr1 hc _ _)] at hv
  cases hv
  rw [State.readByte_busWrites_other _ h hx, State.readByte_plainWrite,
    State.readByte_writeBytes_within bs a u k hk hl]

/-- With CCR2.WPR1 = 0, a byte that some of several writes cover and on which all that cover it agree reads as
written. -/
theorem State.readByte_busWrites_agree {x : Dword} {b : Byte} : ∀ (ws : List (Dword × List Byte)) {s t : State},
    s.cfg.wpr1 = false → s.busWrites ws = .next t → (∀ w ∈ ws, w.2.length ≤ 0x100000000) →
    (∀ w ∈ ws, ∀ k (h : k < w.2.length), x = w.1 + BitVec.ofNat 32 k → w.2[k] = b) →
    (∃ w ∈ ws, ∃ k < w.2.length, x = w.1 + BitVec.ofNat 32 k) → t.readByte x = b
  | [], _, _, _, _, _, _, he => absurd he (by simp)
  | w :: ws, s, t, hp, h, hl, ha, he => by
    obtain ⟨u, hu, hn⟩ := andThen_next h
    have hc : u.cfg.wpr1 = false := by rw [(State.busWrite_busStep hu).cpu.cfg]; exact hp
    by_cases hs : ∃ w' ∈ ws, ∃ k < w'.2.length, x = w'.1 + BitVec.ofNat 32 k
    · exact State.readByte_busWrites_agree ws hc hn (fun w' hw => hl w' (by simp [hw]))
        (fun w' hw => ha w' (by simp [hw])) hs
    · obtain ⟨w', hw, k, hk, rfl⟩ := he
      rcases List.mem_cons.mp hw with rfl | hw
      · rw [State.readByte_busWrites_other ws hn fun v hv j hj e => hs ⟨v, hv, j, hj, e⟩]
        rw [State.busWrite_of_unprotected (State.storeProtected_of_wpr1 hp _ _)] at hu
        cases hu
        rw [State.readByte_plainWrite, State.readByte_writeBytes_within w'.2 w'.1 s k hk (hl w' (by simp))]
        exact ha w' (by simp) k hk rfl
      · exact absurd ⟨w', hw, k, hk, rfl⟩ hs

/-- A piece of a frame lies in the frame. -/
theorem frameSlot_within (esp : Dword) {depth n : Nat} (o : Dword) (hn : n ≤ depth) (hd : depth < 0x100000000) :
    (frameSlot esp depth n o - esp).toNat + n ≤ depth := by
  unfold frameSlot
  have hm : o.toNat % (depth - n + 1) < depth - n + 1 := Nat.mod_lt _ (by omega)
  have := esp.isLt
  simp only [BitVec.toNat_sub, BitVec.toNat_add, BitVec.toNat_ofNat]
  generalize o.toNat % (depth - n + 1) = m at hm
  omega

/-! ## Where the parameters of a call gate land -/

/-- `unit` bytes at `x` and at `y` do not overlap. -/
theorem placesApart_pairwise {unit : Nat} {xs : List Dword} (h : placesApart unit xs = true) :
    xs.Pairwise (fun x y => unit ≤ (y - x).toNat ∧ unit ≤ (x - y).toNat) := by
  induction xs with
  | nil => exact List.Pairwise.nil
  | cons x xs ih =>
    simp only [placesApart, Bool.and_eq_true, List.all_eq_true, decide_eq_true_eq] at h
    exact List.Pairwise.cons h.1 (ih h.2)

@[simp] theorem Gate.parameterPlaces_length (g : Gate) (draw : Nat) (esp : Dword) (depth : Nat) :
    (g.parameterPlaces draw esp depth).length = g.parameters.toNat := by
  unfold Gate.parameterPlaces
  simp only
  split <;> simp

/-- No two parameters overlap on the new stack. -/
theorem Gate.parameterPlaces_apart (g : Gate) (draw : Nat) (esp : Dword) (depth : Nat) :
    (g.parameterPlaces draw esp depth).Pairwise
      (fun x y => g.parameterUnit ≤ (y - x).toNat ∧ g.parameterUnit ≤ (x - y).toNat) := by
  unfold Gate.parameterPlaces
  simp only
  split
  · exact placesApart_pairwise ‹_›
  · rw [List.pairwise_map]
    refine List.Pairwise.imp_of_mem ?_ List.pairwise_lt_range
    intro j k hj hk hlt
    have hu : g.parameterUnit = 2 ∨ g.parameterUnit = 4 := by unfold Gate.parameterUnit; split <;> simp
    have hn := g.parameters.isLt
    have hk := List.mem_range.mp hk
    have := esp.isLt
    simp only [BitVec.toNat_sub, BitVec.toNat_add, BitVec.toNat_ofNat]
    rcases hu with hu | hu <;> rw [hu] <;> omega

/-- Every parameter lands inside the frame. -/
theorem Gate.parameterPlaces_within {g : Gate} {draw : Nat} {esp : Dword} {depth : Nat}
    (hb : g.parameterBytes ≤ depth) (hd : depth < 0x100000000) :
    ∀ x ∈ g.parameterPlaces draw esp depth, (x - esp).toNat + g.parameterUnit ≤ depth := by
  intro x hx
  unfold Gate.parameterBytes at hb
  have hu : g.parameterUnit = 2 ∨ g.parameterUnit = 4 := by unfold Gate.parameterUnit; split <;> simp
  have step : ∀ k, k < g.parameters.toNat → g.parameterUnit * k + g.parameterUnit ≤ depth := fun k hk =>
    Nat.le_trans (by rw [← Nat.mul_succ]; exact Nat.mul_le_mul_left _ hk) hb
  unfold Gate.parameterPlaces at hx
  simp only at hx
  split at hx
  · obtain ⟨k, hk, rfl⟩ := List.mem_map.mp hx
    exact frameSlot_within esp _ (by have := step k (List.mem_range.mp hk); omega) hd
  · obtain ⟨k, hk, rfl⟩ := List.mem_map.mp hx
    have := step k (List.mem_range.mp hk)
    have := esp.isLt
    simp only [BitVec.toNat_sub, BitVec.toNat_add, BitVec.toNat_ofNat]
    generalize g.parameterUnit * k = m at *
    omega

end Sys2Proof.Machine
end

