-- ==== Sys2Proof/Laws/PerInstr.lean ====
section
/-! SUPPORT. Statements for all instructions, one lemma per constructor: an encoding is as long as the table
says its instruction is. -/

namespace Sys2Proof.Laws.EncodeLength

/-- The encoding of an instruction has the table's length. -/
def Statement (i : Instr) : Prop := (encode i).length = i.length

theorem ltrR16 (rm : GReg) : Statement (.ltrR16 rm) := rfl
theorem ltrM16 (disp : Dword) : Statement (.ltrM16 disp) := rfl
theorem strM16 (disp : Dword) : Statement (.strM16 disp) := rfl
theorem strR (rm : GReg) : Statement (.strR rm) := rfl
theorem inAlImm8 (port : Nat) : Statement (.inAlImm8 port) := rfl
theorem inAlDx : Statement .inAlDx := rfl
theorem outImm8Al (port : Nat) : Statement (.outImm8Al port) := rfl
theorem outDxAl : Statement .outDxAl := rfl
theorem hlt : Statement .hlt := rfl
theorem cpuid : Statement .cpuid := rfl
theorem int3 : Statement .int3 := rfl
theorem loopRel8 (cb : Byte) : Statement (.loopRel8 cb) := rfl
theorem movAlImm8 (ib : Byte) : Statement (.movAlImm8 ib) := rfl
theorem movRm8R8 (rm reg : Reg8) : Statement (.movRm8R8 rm reg) := rfl
theorem movEaxImm32 (id : Dword) : Statement (.movEaxImm32 id) := rfl
theorem movEcxImm32 (id : Dword) : Statement (.movEcxImm32 id) := rfl
theorem andAlImm8 (ib : Byte) : Statement (.andAlImm8 ib) := rfl
theorem orAlImm8 (ib : Byte) : Statement (.orAlImm8 ib) := rfl

end Sys2Proof.Laws.EncodeLength
end

