-- ==== Sys2Proof/Laws/Regions.lean ====
section
/-! SUPPORT. What the region operations of Machine/Regions.lean say, once: the regions that contain an address,
the attribute every one of them must grant, and the block arithmetic as natural numbers. -/

namespace Sys2Proof.Machine.CfgRegs

/-- The regions that contain an address are those it lies in. -/
@[simp] theorem mem_regionsOf (c : CfgRegs) (a : Dword) (i : Fin 8) : i ∈ c.regionsOf a ↔ c.inRegion i a = true := by
  have h : i ∈ regions := by revert i; decide
  simp [regionsOf, h]

/-- Outside every region the list is empty. -/
theorem regionsOf_eq_nil {c : CfgRegs} {a : Dword} (h : ∀ i, c.inRegion i a = false) : c.regionsOf a = [] := by
  rw [List.eq_nil_iff_forall_not_mem]
  intro i hi
  rw [mem_regionsOf, h] at hi
  exact absurd hi (by decide)

/-- A permissive attribute holds where some region contains the address and every one that does grants it. -/
theorem grantedByAll_eq_true (c : CfgRegs) (bit : Nat) (a : Dword) :
    c.grantedByAll bit a = true ↔
      (∃ i, c.inRegion i a = true) ∧ ∀ i, c.inRegion i a = true → (c.rcr i).getLsbD bit = true := by
  have he : (!(c.regionsOf a).isEmpty) = true ↔ ∃ i, c.inRegion i a = true := by
    cases h : c.regionsOf a with
    | nil =>
      refine ⟨fun h' => absurd h' (by decide), fun ⟨i, hi⟩ => ?_⟩
      rw [← mem_regionsOf, h] at hi
      exact absurd hi List.not_mem_nil
    | cons i l => exact ⟨fun _ => ⟨i, by rw [← mem_regionsOf, h]; exact List.mem_cons_self⟩, fun _ => rfl⟩
  simp only [grantedByAll, Bool.and_eq_true, he, List.all_eq_true, mem_regionsOf]

/-- The start address as a number: ARR bytes 0 and 1 and the high nibble of byte 2. -/
theorem start_toNat (c : CfgRegs) (i : Fin 8) : (c.start i).toNat =
    (c.arr i).b0.toNat * 0x1000000 + (c.arr i).b1.toNat * 0x10000 + (c.arr i).b2.toNat / 0x10 * 0x1000 := by
  have h := (c.arr i).b2.isLt
  simp only [start, BitVec.toNat_append, BitVec.extractLsb'_toNat, Nat.shiftLeft_eq, Nat.shiftRight_eq_div_pow]
  rw [← Nat.shiftLeft_eq, ← Nat.shiftLeft_eq, ← Nat.shiftLeft_eq, ← Nat.shiftLeft_add_eq_or_of_lt (by omega),
    ← Nat.shiftLeft_add_eq_or_of_lt (by omega), ← Nat.shiftLeft_add_eq_or_of_lt (by omega)]
  simp only [Nat.shiftLeft_eq, BitVec.toNat_ofNat]
  omega

/-- No block is larger than the address space. -/
theorem log2block_le : ∀ (i : Fin 8) (sz : BitVec 4), log2block i sz ≤ 32 := by decide

/-- The bits of an address inside a block of 2^n bytes. -/
theorem toNat_and_offset {n : Nat} (h : n ≤ 32) (a : Dword) :
    (a &&& BitVec.ofNat 32 (2 ^ n - 1)).toNat = a.toNat % 2 ^ n := by
  have hle : 2 ^ n ≤ 2 ^ 32 := Nat.pow_le_pow_right (by omega) h
  have hpos : 0 < 2 ^ n := Nat.two_pow_pos n
  rw [BitVec.toNat_and, BitVec.toNat_ofNat, Nat.mod_eq_of_lt (by omega), Nat.and_two_pow_sub_one_eq_mod]

/-- The bits of an address above a block of 2^n bytes. -/
theorem toNat_and_not_offset {n : Nat} (h : n ≤ 32) (a : Dword) :
    (a &&& ~~~ BitVec.ofNat 32 (2 ^ n - 1)).toNat = a.toNat - a.toNat % 2 ^ n := by
  have h1 := toNat_and_offset h a
  generalize BitVec.ofNat 32 (2 ^ n - 1) = m at *
  have hsum : (a &&& ~~~ m).toNat + (a &&& m).toNat = a.toNat := by
    have hor : (a &&& ~~~ m) ||| (a &&& m) = a := by ext k; simp; grind
    have hand : (a &&& ~~~ m) &&& (a &&& m) = 0#32 := by ext k; simp; grind
    have := BitVec.toNat_add_of_and_eq_zero hand
    rw [BitVec.add_eq_or_of_and_eq_zero _ _ hand, hor] at this
    exact this.symm
  omega

/-- A region is aligned when its start is a multiple of its block size. -/
theorem aligned_iff (c : CfgRegs) (i : Fin 8) :
    c.aligned i = true ↔ (c.start i).toNat % c.blockBytes i = 0 := by
  simp only [aligned, offsetMask, blockBytes, beq_iff_eq]
  rw [← BitVec.toNat_inj, toNat_and_offset (log2block_le i (c.size i))]
  rfl

end Sys2Proof.Machine.CfgRegs
end

