-- ==== Sys2Proof/Laws/Step.lean ====
section
/-! SUPPORT. Everything a step can do, said once (`step_cases`): RESET, an SMI service routine entered, an event
delivered or nothing at all, or one instruction run with the debug exception that may follow it. -/

namespace Sys2Proof.Machine

/-- `u` is `s` but for the waiting inputs, the write-gather buffer, the record of cycles, the draw counter and the
event of the step. -/
structure Held (s u : State) : Prop where
  cpu       : u = { s with
    inputs := u.inputs, gather := u.gather, events := u.events, draws := u.draws, lastEvent := u.lastEvent }
  gather    : s.gather.all GatherBuffer.legal = true → u.gather.all GatherBuffer.legal = true
  events    : s.events <+: u.events
  lastEvent : u.lastEvent = none

namespace Held

variable {s u : State}

theorem cfg (h : Held s u) : u.cfg = s.cfg := (congrArg State.cfg h.cpu).trans rfl
theorem eflags (h : Held s u) : u.eflags = s.eflags := (congrArg State.eflags h.cpu).trans rfl
theorem cr0 (h : Held s u) : u.cr0 = s.cr0 := (congrArg State.cr0 h.cpu).trans rfl
theorem tr (h : Held s u) : u.tr = s.tr := (congrArg State.tr h.cpu).trans rfl
theorem gdt (h : Held s u) : u.gdt = s.gdt := (congrArg State.gdt h.cpu).trans rfl
theorem ldt (h : Held s u) : u.ldt = s.ldt := (congrArg State.ldt h.cpu).trans rfl
theorem idt (h : Held s u) : u.idt = s.idt := (congrArg State.idt h.cpu).trans rfl
theorem test (h : Held s u) : u.test = s.test := (congrArg State.test h.cpu).trans rfl
theorem dbg (h : Held s u) : u.dbg = s.dbg := (congrArg State.dbg h.cpu).trans rfl
theorem inSmi (h : Held s u) : u.inSmi = s.inSmi := (congrArg State.inSmi h.cpu).trans rfl
theorem pmode (h : Held s u) : u.pmode = s.pmode := (congrArg State.pmode h.cpu).trans rfl
theorem mem (h : Held s u) : u.mem = s.mem := (congrArg State.mem h.cpu).trans rfl
theorem smm (h : Held s u) : u.smm = s.smm := (congrArg State.smm h.cpu).trans rfl
theorem runState (h : Held s u) : u.runState = s.runState := (congrArg State.runState h.cpu).trans rfl
theorem powerState (h : Held s u) : u.powerState = s.powerState := (congrArg State.powerState h.cpu).trans rfl
theorem eip (h : Held s u) : u.eip = s.eip := (congrArg State.eip h.cpu).trans rfl
theorem csBase (h : Held s u) : u.csBase = s.csBase := (congrArg State.csBase h.cpu).trans rfl
theorem debugDue (h : Held s u) : u.debugDue = s.debugDue := (congrArg State.debugDue h.cpu).trans rfl
theorem gprs (h : Held s u) : u.gprs = s.gprs := (congrArg State.gprs h.cpu).trans rfl

/-- Every byte reads as before. -/
theorem readByte (h : Held s u) (a : Dword) : u.readByte a = s.readByte a :=
  State.readByte_congr h.mem h.smm (fun b => by simp [State.smmRouted, h.cfg, h.inSmi]) a

/-- The bytes at the program counter are the same. -/
theorem fetchBytes (h : Held s u) : u.fetchBytes = s.fetchBytes := by
  unfold State.fetchBytes State.fetchAddress
  rw [h.csBase, h.eip]
  exact State.readBytes_congr h.readByte _ _

/-- A bus operation that leaves memory alone follows. -/
theorem cycle {v : State} (h : Held s u) (h' : CycleStep u v) : Held s v := by
  refine ⟨?_, h'.gather ∘ h.gather, h.events.trans h'.events, h'.cpu.lastEvent.trans h.lastEvent⟩
  have hv := h'.cpu.eqn
  rw [h'.sameMem, h'.sameSmm, h.cpu] at hv
  rw [hv]

/-- Another choice of the waiting inputs and the draw counter. -/
theorem with_inputs (h : Held s u) (inputs : List Input) (draws : Nat) :
    Held s { u with inputs := inputs, draws := draws } :=
  ⟨(congrArg (fun x : State => { x with inputs := inputs, draws := draws }) h.cpu).trans rfl,
    h.gather, h.events, h.lastEvent⟩

theorem good (h : Held s u) (hg : s.good = true) : u.good = true := by
  simp only [State.good, Bool.and_eq_true] at hg ⊢
  obtain ⟨⟨⟨⟨h1, h2⟩, h3⟩, h4⟩, h5⟩ := hg
  exact ⟨⟨⟨⟨h.mem ▸ h1, h.smm ▸ h2⟩, h.cfg ▸ h3⟩, h.dbg ▸ h4⟩, h.gather h5⟩

end Held

/-- The start of a step is a bus operation that leaves memory alone, the event forgotten. -/
theorem State.begin_cycleStep (s : State) : CycleStep { s with lastEvent := none } s.begin := by
  exact State.emitEarly_cycleStep _

theorem State.begin_held (s : State) : Held s s.begin :=
  (⟨rfl, id, List.prefix_refl _, rfl⟩ : Held s { s with lastEvent := none }).cycle s.begin_cycleStep

theorem State.fetchCycle_cycleStep (len : Nat) (s : State) : CycleStep s (s.fetchCycle len) := by
  unfold State.fetchCycle
  split
  · exact (s.readCycle_cycleStep _ _).trans (State.emitEarly_cycleStep _)
  · exact CycleStep.refl s

/-- The IDT of a state holds a task gate for the event. -/
def TaskGate (ev : Event) (s : State) : Prop := ∃ v, ev.vector = some v ∧ (s.decodeGate (s.idtEntry v)).kind = .task

theorem TaskGate.congr {ev : Event} {s t : State} (hi : t.idt = s.idt) (hb : ∀ a, t.readByte a = s.readByte a)
    (h : TaskGate ev t) : TaskGate ev s := by
  obtain ⟨v, hv, hk⟩ := h
  refine ⟨v, hv, ?_⟩
  simpa [State.decodeGate, State.idtEntry, hi, State.readDword_congr hb] using hk

theorem Held.taskGate {ev : Event} {s u : State} (h : Held s u) (hg : TaskGate ev u) : TaskGate ev s :=
  hg.congr h.idt h.readByte

theorem CycleStep.taskGate {ev : Event} {s u : State} (h : CycleStep s u) (hg : TaskGate ev u) : TaskGate ev s :=
  hg.congr h.cpu.idt h.readByte

theorem State.raise_taskGate {ev : Event} {ret : Dword} {s : State} (h : (s.raise ev ret).tr ≠ s.tr) :
    TaskGate ev s :=
  State.raise_tr h

theorem State.raiseDebug_taskGate {c : DebugCause} {ret : Dword} {s : State} (h : (s.raiseDebug c ret).tr ≠ s.tr) :
    TaskGate .debug s :=
  (State.raise_taskGate (s := { s with dbg := s.dbg.record (s.debugCause c), debugDue := none }) h).congr rfl
    (fun _ => rfl)

/-- What a step that runs no instruction leads to. -/
inductive Settles (s t : State) : Prop where
  | reset (u : State) (rest : List Input) (held : Held s u) (hi : s.inputs = .reset :: rest)
      (hu : u.inputs = rest) (ht : t = u.resetPin)
  | smi (u : State) (held : Held s u) (hr : s.cfg.smiRecognized = true) (ht : t = u.enterSmm)
  | transfer (u : State) (held : Held s u) (ht : Transfer u t) 
      (htr : t.tr ≠ u.tr → ∃ ev, t.lastEvent = some ev ∧ TaskGate ev s)

/-- What everything before an instruction can come to. -/
def Prepared.From (s : State) : Prepared → Prop
  | .settled (.next t) => Settles s t
  | .settled (.fault _) => True
  | .settled (.refused _) => True
  | .execute i len u =>
    Held s u ∧ decode u.fetchBytes = .ok (i, len) ∧ s.runState = .running ∧ s.powerState = .normal ∧
      u.dbg.hit [u.executeAccess] = false

theorem Settles.of_raise {s u : State} (h : Held s u) (ev : Event) (ret : Dword) : Settles s (u.raise ev ret) :=
  Settles.transfer u h (State.raise_transfer _ _ _)
    (fun hn => ⟨ev, by simp, h.taskGate (State.raise_taskGate hn)⟩)

theorem Settles.of_raiseDebug {s u : State} (h : Held s u) (c : DebugCause) (ret : Dword) :
    Settles s (u.raiseDebug c ret) :=
  Settles.transfer u h (State.raiseDebug_transfer _ _ _)
    (fun hn => ⟨.debug, by simp, h.taskGate (State.raiseDebug_taskGate hn)⟩)

theorem State.fetch_from {s u : State} (h : Held s u) (hr : s.runState = .running) (hp : s.powerState = .normal) :
    Prepared.From s u.fetch := by
  unfold State.fetch
  split
  · split
    · split
      · exact Settles.of_raiseDebug h _ _
      · split
        · trivial
        · rename_i i len hd
          have hf := h.cycle (u.fetchCycle_cycleStep len)
          simp only
          split
          · exact Settles.of_raiseDebug hf _ _
          · rename_i hh
            have he : (u.fetchCycle len).executeAccess = u.executeAccess := by
              simp [State.executeAccess, State.fetchAddress, hf.csBase, hf.eip, h.csBase, h.eip]
            refine ⟨hf, ?_, hr, hp, ?_⟩
            · rw [hf.fetchBytes, ← h.fetchBytes]; exact hd
            · rw [he, hf.dbg, ← h.dbg]; simpa using hh
    · trivial
  · trivial

theorem State.redeliver_from {s u : State} (h : Held s u) (ev : Event) (ret : Dword) :
    Prepared.From s (.settled (u.redeliver ev ret)) := by
  cases hd : u.redeliver ev ret with
  | next t =>
    have hd : State.deliver ev ret { u with lastEvent := some ev } = .next t := hd
    refine Settles.transfer u h ((u.lastEvent_transfer (some ev)).trans (State.deliver_transfer hd)) fun hn => ?_
    have hr : State.raise ev ret u = t := by unfold State.raise; simp only [hd]
    exact ⟨ev, by rw [← hr]; simp, h.taskGate (State.raise_taskGate (hr ▸ hn))⟩
  | fault _ => trivial
  | refused _ => trivial

theorem State.proceed_from {s u : State} (h : Held s u) : Prepared.From s u.proceed := by
  unfold State.proceed
  split
  · exact State.redeliver_from h _ _
  · exact Settles.transfer u h (Transfer.refl u) (fun hn => absurd rfl hn)
  · rename_i hr
    split
    · exact State.fetch_from h (h.runState ▸ hr) (h.powerState ▸ ‹_›)
    · exact Settles.transfer u h (Transfer.refl u) (fun hn => absurd rfl hn)

theorem State.request_from {s u : State} (h : Held s u) (i : Input) (certain : Bool)
    (ha : ∀ n, Settles s (State.accept i { u with draws := n })) : Prepared.From s (u.request i certain) := by
  unfold State.request
  simp only
  generalize hc : (if certain && u.isRunning then InterruptOutcome.recognized else Config.interruptOutcome u.draws)
    = o
  cases o
  · exact ha _
  · exact State.proceed_from (h.with_inputs _ _)
  · exact State.proceed_from (h.with_inputs u.inputs _)

theorem State.answer_from {s u : State} (h : Held s u) (i : Input) (rest : List Input) (hi : s.inputs = i :: rest)
    (hu : u.inputs = rest) : Prepared.From s (u.answer i) := by
  cases i with
  | reset => exact Settles.reset u rest h hi hu rfl
  | smi =>
    simp only [State.answer]
    split
    · rename_i hr
      exact State.request_from h .smi true fun n =>
        Settles.smi _ (h.with_inputs u.inputs n) (h.cfg ▸ hr) rfl
    · exact State.proceed_from h
  | nmi =>
    have ha : ∀ n, Settles s (State.accept .nmi { u with draws := n }) := fun n =>
      Settles.of_raise (h.with_inputs u.inputs n) _ _
    simp only [State.answer]
    split
    · split
      · exact State.request_from h .nmi true ha
      · split
        · exact State.proceed_from (h.with_inputs _ _)
        · exact State.proceed_from (h.with_inputs u.inputs _)
    · exact State.request_from h .nmi false ha
  | interrupt v =>
    simp only [State.answer]
    exact State.request_from h (.interrupt v) false fun n =>
      Settles.of_raise ((h.with_inputs u.inputs n).cycle (State.emit_cycleStep _ _)) _ _
  | susp =>
    simp only [State.answer]
    split
    · exact Settles.transfer u h (Transfer.of_registers u _ _ _ _ _ _ _ _ _ _ _ .suspend _ _ (fun _ => rfl) rfl)
        (fun hn => absurd rfl hn)
    · exact State.proceed_from h

theorem State.prepare_from (s : State) : Prepared.From s s.prepare := by
  have h := s.begin_held
  have hb : s.begin.inputs = s.inputs := s.begin_cycleStep.cpu.inputs
  unfold State.prepare
  simp only
  split
  · exact State.proceed_from h
  · rename_i i rest hi
    have hs : s.inputs = i :: rest := hb ▸ hi
    have hw := h.with_inputs rest s.begin.draws
    split
    · exact State.answer_from hw .reset rest hs rfl
    · exact State.proceed_from h
    · exact State.answer_from hw _ rest hs rfl

/-- What a step does after an instruction: nothing, the causes of a debug exception noted, or a debug exception. -/
theorem State.finish_cases (i : Instr) (s t : State) :
    State.finish i s t = t ∨ (∃ due, State.finish i s t = { t with debugDue := some due }) ∨
      State.finish i s t = t.raiseDebug (State.instructionCause i s t) t.eip := by
  unfold State.finish
  simp only
  split <;> (try split) <;> first | exact .inl rfl | exact .inr (.inl ⟨_, rfl⟩) | exact .inr (.inr rfl)

/-- What a step does after an instruction is a transfer. -/
theorem State.finish_transfer (i : Instr) (s t : State) : Transfer t (State.finish i s t) := by
  rcases State.finish_cases i s t with h | ⟨due, h⟩ | h <;> rw [h]
  · exact Transfer.refl t
  · exact Transfer.of_registers t _ _ _ _ _ _ _ _ _ (some due) _ _ _ _ (fun _ => rfl) rfl
  · exact State.raiseDebug_transfer _ _ _

/-- What a step ends with, where it goes on: what waits may leave. -/
theorem closeStep_next {o : Host.Outcome State Fault Refusal} {t : State} (h : closeStep o = .next t) :
    ∃ w, o = .next w ∧ t = w.emitEarly := by
  obtain ⟨w, hw, h⟩ := andThen_next h
  cases h
  exact ⟨w, hw, rfl⟩

/-- Everything a step that goes on can do, before what waits in the write-gather buffer may leave at its end. -/
theorem step_cases {s t : State} (h : step s = .next t) :
    ∃ w, t = w.emitEarly ∧ (Settles s w ∨ ∃ u i len v, Held s u ∧ decode u.fetchBytes = .ok (i, len) ∧
      s.runState = .running ∧ exec i u = .next v ∧ w = State.finish i u v) := by
  have hf := s.prepare_from
  unfold step at h
  split at h
  · rename_i o ho
    obtain ⟨w, rfl, rfl⟩ := closeStep_next h
    rw [ho] at hf
    exact ⟨w, rfl, .inl hf⟩
  · rename_i i len u hu
    rw [hu] at hf
    obtain ⟨hh, hd, hr, -, -⟩ := hf
    obtain ⟨w, hw, rfl⟩ := closeStep_next h
    obtain ⟨v, hv, hw⟩ := andThen_next hw
    cases hw
    exact ⟨_, rfl, .inr ⟨u, i, len, v, hh, hd, hr, hv, rfl⟩⟩

/-! ## The step of a CPU that runs instructions -/

/-- With no input waiting a running CPU prepares by fetching. -/
theorem State.prepare_of_running {s : State} (hi : s.inputs = []) (hr : s.isRunning = true) :
    s.prepare = s.begin.fetch := by
  have h := s.begin_held
  have hb : s.begin.inputs = [] := s.begin_cycleStep.cpu.inputs.trans hi
  simp only [State.isRunning, Bool.and_eq_true, decide_eq_true_eq] at hr
  have h1 : s.begin.runState = .running := h.runState.trans hr.1
  have h2 : s.begin.powerState = .normal := h.powerState.trans hr.2
  unfold State.prepare
  simp only [hb]
  unfold State.proceed
  simp only [h1, h2, if_true]

/-- The step that runs the instruction at the program counter: the instruction at the state after its fetch, what
`finish` adds, and what may leave the write-gather buffer. -/
theorem step_of_decoded {s : State} {i : Instr} {len : Nat} (hi : s.inputs = []) (hr : s.isRunning = true)
    (hc : s.dbg.codesUsed = true) (ha : s.cfg.regionsAligned = true) (ht : s.trapNow = false)
    (hd : decode s.fetchBytes = .ok (i, len)) (hb : s.dbg.hit [s.executeAccess] = false) :
    step s = match exec i (s.begin.fetchCycle len) with
      | .next t => .next (State.finish i (s.begin.fetchCycle len) t).emitEarly
      | .fault why => .fault why
      | .refused why => .refused why := by
  have h := s.begin_held
  have hx : s.begin.executeAccess = s.executeAccess := by
    simp [State.executeAccess, State.fetchAddress, h.csBase, h.eip]
  have hf : s.begin.fetch = .execute i len (s.begin.fetchCycle len) := by
    unfold State.fetch
    rw [h.dbg, h.cfg, if_pos hc, if_pos ha, if_neg (by simpa [State.trapNow, h.debugDue] using ht), h.fetchBytes, hd,
      hx, hb]
    rfl
  have hp := (State.prepare_of_running hi hr).trans hf
  unfold step
  generalize s.prepare = p at hp
  subst hp
  dsimp only
  cases exec i (s.begin.fetchCycle len) <;> rfl

end Sys2Proof.Machine
end

