-- ==== Sys2Proof/Tests/Slice0.lean ====
section
/-! SUPPORT. The model's own tests: the ill-formed terms, one written-out word for each constructor, and small
tests of one instruction each. Expected results are the spec's: the vector a test names stands in
spec/95_test_vectors.md, and the words follow spec/30_encoding.md rules R132, R133 and R138. The witnesses that
the statements' hypotheses can be met stand in Tests/Witnesses.lean. -/

namespace Sys2Proof.Tests

open Sys2Proof.Machine

/-! ## Helpers -/

/-- Whether an outcome is a next state with a property. -/
def nextIs (o : Host.Outcome State Fault Refusal) (p : State → Bool) : Bool :=
  match o with
  | .next t => p t
  | .fault _ => false
  | .refused _ => false

/-- Whether an outcome is a given refusal. -/
def refusedBy (o : Host.Outcome State Fault Refusal) (why : Refusal) : Bool :=
  match o with
  | .next _ => false
  | .fault _ => false
  | .refused w => decide (w = why)

/-- The start of the spec's programs: reset, at 0000_1000h in a code segment of base 0. -/
def start : State := { State.reset with eip := 0x1000, csBase := 0 }

/-- AL at a value. -/
def withAl (v : Byte) (s : State) : State := s.setReg8 .al v

/-- An OUT of `v` to a port. -/
def outTo (port : Nat) (v : Byte) (s : State) : Host.Outcome State Fault Refusal :=
  exec (.outImm8Al port) (withAl v s)

/-- `start` with configuration registers given by a change. -/
def startWith (f : CfgRegs → CfgRegs) : State := { start with cfg := f start.cfg }

/-- The state of the LTR and STR vectors: protected mode, the GDT at 8000h, the descriptor of T1 at 8028h and a
call gate at 8030h. -/
def trStart : State :=
  State.writeBytes 0x8028
    [0x67, 0, 0, 0, 0x01, 0x89, 0, 0, 0x67, 0, 0, 0, 0x01, 0x8C, 0, 0]
    { start with pmode := true, gdt := ⟨0x8000, 0xFFFF⟩ }

/-- `trStart` with a selector in AX. -/
def withAx (v : Dword) : State := trStart.setReg .eax v

/-- `trStart` after T1. -/
def trLoaded : State := { trStart with tr := ⟨0x0028, 0x0000890100000067⟩ }

/-! ## Ill-formed terms -/

theorem test_ill_formed_in_port : (Instr.inAlImm8 256).WellFormed = false := by decide
theorem test_ill_formed_out_port : (Instr.outImm8Al 300).WellFormed = false := by decide

/-! ## Words written out from the encodings -/

theorem test_decode_ltr_ax : decodeTableWord 24 0xD8000F = some (.ltrR16 .eax) := by decide
theorem test_decode_ltr_di : decode [0x0F, 0x00, 0xDF] = .ok (.ltrR16 .edi, 3) := rfl
theorem test_decode_ltr_m16 : decode [0x0F, 0x00, 0x1D, 0x78, 0x56, 0x34, 0x12] = .ok (.ltrM16 0x12345678, 7) := rfl
theorem test_decode_str_m16 : decode [0x0F, 0x00, 0x0D, 0x00, 0x20, 0x00, 0x00] = .ok (.strM16 0x2000, 7) := rfl
theorem test_decode_str_ecx : decode [0x0F, 0x00, 0xC9] = .ok (.strR .ecx, 3) := rfl
theorem test_decode_in_imm8 : decode [0xE4, 0x23] = .ok (.inAlImm8 0x23, 2) := rfl
theorem test_decode_in_dx : decode [0xEC] = .ok (.inAlDx, 1) := rfl
theorem test_decode_out_imm8 : decode [0xE6, 0x22] = .ok (.outImm8Al 0x22, 2) := rfl
theorem test_decode_out_dx : decode [0xEE] = .ok (.outDxAl, 1) := rfl
theorem test_decode_hlt : decode [0xF4] = .ok (.hlt, 1) := rfl
theorem test_decode_cpuid : decodeTableWord 16 0xA20F = some .cpuid := by decide
theorem test_decode_int3 : decode [0xCC] = .ok (.int3, 1) := rfl
theorem test_decode_loop : decode [0xE2, 0xFE] = .ok (.loopRel8 0xFE, 2) := rfl
theorem test_decode_mov_al : decode [0xB0, 0xC3] = .ok (.movAlImm8 0xC3, 2) := rfl
theorem test_decode_mov_ah_al : decode [0x88, 0xC4] = .ok (.movRm8R8 .ah .al, 2) := rfl
theorem test_decode_mov_bh_dl : decode [0x88, 0xD7] = .ok (.movRm8R8 .bh .dl, 2) := rfl
theorem test_decode_mov_eax : decode [0xB8, 0x28, 0x00, 0x00, 0x00] = .ok (.movEaxImm32 0x28, 5) := rfl
theorem test_decode_mov_ecx : decode [0xB9, 0x03, 0x02, 0x01, 0x80] = .ok (.movEcxImm32 0x80010203, 5) := rfl
theorem test_decode_and_al : decode [0x24, 0x07] = .ok (.andAlImm8 0x07, 2) := rfl
theorem test_decode_or_al : decode [0x0C, 0x10] = .ok (.orAlImm8 0x10, 2) := rfl

/-- A memory form of MOV r/m8, r8 is no row (mod must be 11b). -/
theorem test_decode_mov_memory_refused : decode [0x88, 0x04, 0x00] = .error .unknownOpcode := rfl
/-- A memory operand of LTR other than disp32 is no row. -/
theorem test_decode_ltr_other_modrm_refused : decode [0x0F, 0x00, 0x1C, 0, 0, 0, 0] = .error .unknownOpcode := rfl
theorem test_decode_wide_in_refused : decode [0xE5, 0x22] = .error (.wideIo (some 0x22)) := rfl

/-! ## LTR and STR: vectors T1 to T8 -/

theorem test_ltr_t1 : nextIs (exec (.ltrR16 .eax) (withAx 0x0028)) (fun t =>
    t.tr == ⟨0x0028, 0x0000890100000067⟩ && t.eip == 0x1003) = true := by decide +kernel

theorem test_tss_fields_t1 : tssKind 0x0000890100000067 = .tss32 ∧ tssBase 0x0000890100000067 = 0x00010000 := by
  decide

theorem test_ltr_t4_not_in_gdt : nextIs (exec (.ltrR16 .eax) (withAx 0x002C)) (fun t =>
    t.lastEvent == some (.trFault .notInGdt) && t.tr == trStart.tr) = true := by decide +kernel

theorem test_ltr_m16_t5_not_a_tss :
    nextIs (exec (.ltrM16 0x2000) (trStart.writeBytes 0x2000 [0x30, 0x00])) (fun t =>
      t.lastEvent == some (.trFault .notATss) && t.tr == trStart.tr) = true := by decide +kernel

theorem test_ltr_m16_t2_privilege : nextIs (exec (.ltrM16 0x2000) { trStart with cpl := 3 }) (fun t =>
    t.lastEvent == some (.trFault .privilege) && t.tr == trStart.tr) = true := by decide +kernel

theorem test_str_m16_t6 : nextIs (exec (.strM16 0x2000) { trLoaded with cpl := 3 }) (fun t =>
    t.readByte 0x2000 == 0x28 && t.readByte 0x2001 == 0x00 && t.eip == 0x1007) = true := by decide +kernel

theorem test_str_m16_t3 : nextIs (exec (.strM16 0x2000) start) (fun t =>
    t.lastEvent == some (.trFault .notProtectedMode)) = true := by decide +kernel

theorem test_str_r_keeps_descriptor : nextIs (exec (.strR .ecx) trLoaded) (fun t =>
    t.tr.desc == 0x0000890100000067 && t.gprs.eax == trLoaded.gprs.eax && t.eip == 0x1003) = true := by decide +kernel

theorem test_str_r_t3 : nextIs (exec (.strR .eax) start) (fun t =>
    t.lastEvent == some (.trFault .notProtectedMode)) = true := by decide +kernel

/-! ## Ports: vectors P1 to P11, S1 to S8 -/

/-- P4: MAPEN = 1h, CCR5 selected, 22h written. -/
theorem test_out_p4 : nextIs (outTo 0x23 0x22 { startWith (fun c => { c with ccr3 := 0x10 }) with cfgSel := some 0xE9 })
    (fun t => t.cfg.ccr5 == 0x22 && t.events == [] && t.cfgSel == none) = true := by decide +kernel

theorem test_out_p5_reserved :
    refusedBy (outTo 0x23 0x04 { startWith (fun c => { c with ccr3 := 0x10 }) with cfgSel := some 0xE9 })
      .reservedBitSet = true := by decide

/-- OUT DX, AL reaches the ports by DX: P11. -/
theorem test_out_dx_p11 : nextIs (exec .outDxAl (State.setReg .edx 0xFFFF0023 (withAl 0x82 { start with cfgSel := some 0xC1 })))
    (fun t => t.cfg.ccr1 == 0x82 && t.eip == 0x1001) = true := by decide

theorem test_out_dx_p10_refused :
    refusedBy (exec .outDxAl (State.setReg .edx 0x23 (withAl 0x02 { start with cfgSel := some 0xC1 })))
      .useSmiWithoutSm3 = true := by decide

/-- P2 and program F: E8h is not accessible, so port 22h goes outside as well. -/
theorem test_in_p2_external : nextIs (exec (.inAlImm8 0x23) { start with cfgSel := some 0xE8 }) (fun t =>
    t.cfg.ccr4 == 0x05 && t.cfgSel == none && t.events.map (fun e => (e.kind, e.address)) == [(.ioRead, 0x23)])
    = true := by decide

theorem test_in_dx_p1 : nextIs (exec .inAlDx (State.setReg .edx 0x23
    { startWith (fun c => { c with arr0 := ⟨0x12, 0, 0⟩ }) with cfgSel := some 0xC4 }))
    (fun t => t.cfgSel == none && t.events == [] && t.eip == 0x1001) = true := by decide

/-- S1 to S3: the write of CCR3 under SMI_LOCK. -/
theorem test_ccr3_s1_s2_s3 : ccr3Written false 0x00 0x03 = 0x03 ∧ ccr3Written true 0x03 0x10 = 0x13
    ∧ ccr3Written false 0x13 0x10 = 0x11 := by decide

/-- S4 and S7: the write of CCR1 under SMI_LOCK. -/
theorem test_ccr1_s4_s7 : ccr1Written true 0x82 0x10 = 0x92 ∧ ccr1Written true 0x00 0x02 = 0x00
    ∧ writeRefusal true { CfgRegs.reset with ccr3 := 0x01 } .ccr1 0x02 = none := by decide

/-! ## HLT, CPUID, INT 3, LOOP: vectors I1 to I9 -/

theorem test_hlt_i1 : nextIs (exec .hlt start) (fun t =>
    t.runState == .halted && t.powerState == .normal && t.eip == 0x1001) = true := by decide

theorem test_hlt_i2 : nextIs (exec .hlt (startWith (fun c => { c with ccr2 := 0x08 }))) (fun t =>
    t.runState == .halted && t.powerState == .suspend) = true := by decide

/-- HLT is privileged (rule R180). -/
theorem test_hlt_privileged : nextIs (exec .hlt { trStart with cpl := 3 }) (fun t =>
    t.runState != .halted && t.lastEvent == some .generalProtection && t.eip == 0x1000) = true := by decide +kernel

theorem test_cpuid_i3 : nextIs (exec .cpuid start) (fun t =>
    t.lastEvent == some .invalidOpcode && t.eip == 0x1000 && t.gprs == start.gprs) = true := by decide

theorem test_cpuid_i4_runs : nextIs (exec .cpuid (startWith (fun c => { c with ccr4 := 0x85 }))) (fun t =>
    t.lastEvent == none && t.eip == 0x1002) = true := by decide

/-- Without a handler in the IDT the event stands raised, with the address of the next byte; DR6 is not written. -/
theorem test_int3_i5 : nextIs (exec .int3 start) (fun t =>
    t.runState == .raised .breakpoint 0x1001 && t.dbg == start.dbg) = true := by decide

theorem test_loop_i8 : nextIs (exec (.loopRel8 0xFE) start) (fun t =>
    t.gprs.ecx == 0xFFFFFFFF && t.eip == 0x1000) = true := by decide

theorem test_loop_i6_i9 : nextIs (exec (.loopRel8 0x10) (start.setReg .ecx 1)) (fun t =>
      t.gprs.ecx == 0 && t.eip == 0x1002) = true
    ∧ nextIs (exec (.loopRel8 0x80) (start.setReg .ecx 5)) (fun t =>
      t.gprs.ecx == 4 && t.eip == 0x0F82) = true := by decide

/-! ## MOV, AND, OR: rule R138 -/

theorem test_mov_al : nextIs (exec (.movAlImm8 0xC3) (start.setReg .eax 0x11223344)) (fun t =>
    t.gprs.eax == 0x112233C3 && t.eip == 0x1002) = true := by decide

theorem test_mov_ah_al : nextIs (exec (.movRm8R8 .ah .al) (start.setReg .eax 0x11220010)) (fun t =>
    t.gprs.eax == 0x11221010) = true := by decide

theorem test_mov_bl_dh : nextIs (exec (.movRm8R8 .bl .dh) (start.setReg .edx 0x0000AB00)) (fun t =>
    t.gprs.ebx == 0x000000AB && t.gprs.edx == 0x0000AB00) = true := by decide

theorem test_mov_eax : nextIs (exec (.movEaxImm32 0x28) start) (fun t =>
    t.gprs.eax == 0x28 && t.eip == 0x1005) = true := by decide

theorem test_mov_ecx : nextIs (exec (.movEcxImm32 3) start) (fun t =>
    t.gprs.ecx == 3 && t.gprs.eax == start.gprs.eax) = true := by decide

theorem test_and_al : nextIs (exec (.andAlImm8 0x07) (start.setReg .eax 0x1122330D)) (fun t =>
    t.gprs.eax == 0x11223305) = true := by decide

theorem test_or_al : nextIs (exec (.orAlImm8 0x10) (start.setReg .eax 0x11223300)) (fun t =>
    t.gprs.eax == 0x11223310) = true := by decide

/-! ## Steps -/

/-- Vector I11: single step after a completed instruction. -/
theorem test_single_step_i11 :
    nextIs (step ({ start with eflags := 0x102 }.storeFetchBytes [0xB0, 0xC3])) (fun t =>
      t.dbg.dr6.getLsbD 14 && !t.dbg.gd && t.runState == .raised .debug 0x1002 && t.gprs.eax == 0xC3) = true := by
  decide

/-- Section 2.8: a write of 2 bytes at 1003h meets four bytes at 1000h; a read, and a byte at 1004h, do not. -/
theorem test_breakpoint_conditions :
    let d : DebugRegs := ⟨0x1000, 0, 0, 0, 0, 0x000D0001⟩
    d.cond 0 ⟨.write, 0x1003, 2⟩ = true ∧ d.cond 0 ⟨.read, 0x1000, 4⟩ = false
      ∧ d.cond 0 ⟨.write, 0x1004, 1⟩ = false := by decide

/-- Rule R211: the low bits of DRi are ignored; an execution breakpoint requires LENi = 00b. -/
theorem test_breakpoint_alignment :
    (⟨0x1003, 0, 0, 0, 0, 0x000D0001⟩ : DebugRegs).cond 0 ⟨.write, 0x1000, 1⟩ = true
      ∧ (⟨0x1000, 0, 0, 0, 0, 0x00040001⟩ : DebugRegs).cond 0 ⟨.execute, 0x1000, 1⟩ = false
      ∧ (⟨0x1000, 0, 0, 0, 0, 0x00000001⟩ : DebugRegs).cond 0 ⟨.execute, 0x1000, 1⟩ = true := by decide

theorem test_reset_runs_placed_instruction :
    nextIs (step (State.reset.withFetchWord 16 0xC3B0)) (fun t => t.gprs.eax == 0xC3 && t.eip == 0xFFF2) = true := by
  decide

/-! ## Gates, regions, attributes -/

/-- V1 and V8 of section 2.1. -/
theorem test_gate_v1_v8 :
    Gate.ofDwords 0x00081234 0x0040EC03 = ⟨.call, some 32, 0x0008, 0x00401234, true, 3, 3, false, 0⟩
    ∧ Gate.ofDwords 0x00080000 0x00008405 = ⟨.call, some 16, 0x0008, 0x00000000, true, 0, 5, false, 0⟩ := by decide

/-- V4 and V6 of section 2.1. -/
theorem test_gate_v4_v6 :
    (Gate.ofDwords 0x00180200 0x00008700).entryOffset = 0x0200 ∧ (Gate.ofDwords 0x00180200 0x00008700).kind = .trap
    ∧ Gate.ofDwords 0x00080000 0xFFFF6F1F = ⟨.trap, some 32, 0x0008, 0xFFFF0000, false, 3, 31, false, 0⟩ := by decide

/-- A1, A2, A5 to A8 of section 2.3. -/
def regionsOf23 : CfgRegs := { CfgRegs.reset with
  ccr5 := 0x20, arr0 := ⟨0x00, 0x0C, 0x05⟩, arr3 := ⟨0x12, 0x34, 0x5F⟩, arr5 := ⟨0xFF, 0xFF, 0xF1⟩,
  arr7 := ⟨0x00, 0x04, 0x01⟩ }

theorem test_regions_a1_a5_a7_a8 :
    regionsOf23.inRegion 0 0x000CFFFF = true ∧ regionsOf23.inRegion 0 0x000D0000 = false
    ∧ regionsOf23.aligned 3 = false ∧ regionsOf23.inRegion 5 0xFFFFF000 = true
    ∧ regionsOf23.inRegion 7 0x0007FFFF = true ∧ regionsOf23.inRegion 7 0x0003FFFF = false := by decide

/-- Configuration X of section 2.4. -/
def configX : CfgRegs := { CfgRegs.reset with
  ccr5 := 0x20, arr0 := ⟨0x00, 0x0C, 0x05⟩, rcr0 := 0x09, arr1 := ⟨0x00, 0x0C, 0x84⟩, rcr1 := 0x28 }

theorem test_attributes_x :
    configX.attributes true true 0x000CC000 = ⟨false, false, true, false, false, true, false⟩
    ∧ configX.attributes true true 0x000D0000 = ⟨true, true, false, false, false, true, false⟩
    ∧ ({ configX with rcr0 := 0x28 } : CfgRegs).lba 0x000CC000 = false := by decide

/-- Configuration Y of section 2.4. -/
theorem test_attributes_y :
    let y : CfgRegs := { CfgRegs.reset with ccr5 := 0x20, arr7 := ⟨0x00, 0x00, 0x07⟩, rcr7 := 0x03 }
    y.attributes true true 0x00800000 = ⟨true, true, false, false, true, true, false⟩
    ∧ y.cacheable true 0x01000000 = false := by decide

end Sys2Proof.Tests
end

