-- ==== Sys2Proof/Tests/Witnesses.lean ====
section
/-! SUPPORT. Witnesses: for each statement of Certificates/Slice0/Obligations.lean that has hypotheses, concrete
states and operands that meet them together, one for each clause, at the ends of the ranges the clauses name.
`witness_<Name>` belongs to `Obligations.<Name>`. -/

namespace Sys2Proof.Tests

open Sys2Proof.Machine

/-! ## Helpers -/

/-- A state with instruction bytes at its program counter. -/
def coded (bs : List Byte) (s : State) : State := s.storeFetchBytes bs

/-- The premises of the statements about one step: no input, running, DR7 and the regions in order, no debug
exception to take first. -/
def ready (s : State) : Bool :=
  decide (s.inputs = []) && s.isRunning && s.dbg.codesUsed && s.cfg.regionsAligned && !s.trapNow

/-- A state with a pending index, AL, and CCR1 and CCR3 as given. -/
def portAt (idx al ccr1 ccr3 : Byte) : State :=
  withAl al { startWith (fun c => { c with ccr1 := ccr1, ccr3 := ccr3 }) with cfgSel := some idx }

/-- Whether an outcome is some next state. -/
def goesOn (o : Host.Outcome State Fault Refusal) : Bool := nextIs o (fun _ => true)

/-- Breakpoint registers with DR0 and DR7. -/
def breakAt (dr0 dr7 : Dword) (s : State) : State := { s with dbg := { s.dbg with dr0 := dr0, dr7 := dr7 } }

/-- `trLoaded` with an IDT at 6000h: vector 3 a 32-bit interrupt gate to 0008h:0040_1234h, vector 13 a 16-bit trap
gate, vector 6 a call gate. -/
def idtStart : State :=
  State.writeBytes 0x6018 [0x34, 0x12, 0x08, 0x00, 0x00, 0x8E, 0x40, 0x00]
    (State.writeBytes 0x6068 [0x00, 0x02, 0x18, 0x00, 0x00, 0x87, 0x00, 0x00]
      (State.writeBytes 0x6030 [0x34, 0x12, 0x08, 0x00, 0x03, 0xEC, 0x40, 0x00]
        { trLoaded with idt := ⟨0x6000, 0x03FF⟩ }))

/-- `idtStart` with a task gate to the TSS at 8038h as vector 3, and that TSS's descriptor, a 16-bit one. -/
def taskGateStart : State :=
  State.writeBytes 0x6018 [0, 0, 0x38, 0x00, 0x00, 0x85, 0, 0]
    (State.writeBytes 0x8038 [0x2B, 0, 0, 0, 0x02, 0x81, 0, 0] idtStart)

/-- Region 3 over 000B_0000h to 000B_FFFFh as SMM space, main program access enabled (SMAC). -/
def smmStart : State := { trLoaded with cfg := { trLoaded.cfg with ccr1 := 0x84, arr3 := ⟨0x00, 0x0B, 0x05⟩ } }

/-- Region 0 over 000C_0000h to 000C_FFFFh with write gathering. -/
def gatherStart : State :=
  { start with cfg := { start.cfg with ccr5 := 0x20, arr0 := ⟨0x00, 0x0C, 0x05⟩, rcr0 := 0x08 } }

/-! ## Encoding -/

theorem witness_DecodeInvertsEncode :
    (Instr.inAlImm8 0).WellFormed = true ∧ (Instr.outImm8Al 255).WellFormed = true := by decide

theorem witness_EncodeInvertsDecode : decode [0xE6, 0xFF, 0xF4] = .ok (.outImm8Al 0xFF, 2) := rfl

theorem witness_UnlistedBytesRefused :
    (ready start = true ∧ ∀ r ∈ opcodeTable, r.selects start.fetchBytes = false)
    ∧ (ready (coded [0xE5, 0x1F] start) = true
        ∧ (coded [0xE5, 0x1F] start).readByte 0x1000 = 0xE5 ∧ (coded [0xE5, 0x1F] start).readByte 0x1001 = 0x1F)
    ∧ (ready (coded [0xE7, 0x23] start) = true
        ∧ (coded [0xE7, 0x23] start).readByte 0x1000 = 0xE7 ∧ (coded [0xE7, 0x23] start).readByte 0x1001 = 0x23)
    ∧ (ready (coded [0xED] (start.setReg .edx 0x1F)) = true
        ∧ (coded [0xED] (start.setReg .edx 0x1F)).readByte 0x1000 = 0xED)
    ∧ (ready (coded [0xEF] (start.setReg .edx 0xFFFF0023)) = true
        ∧ (coded [0xEF] (start.setReg .edx 0xFFFF0023)).readByte 0x1000 = 0xEF
        ∧ (coded [0xEF] (start.setReg .edx 0xFFFF0023)).gprs.edx.toNat % 0x10000 = 0x23) := by decide +kernel

/-! ## The step -/

/-- A fetch that a cache can hold, and one that none can: code in the fixed region with NC1 set. -/
theorem witness_StepRunsDecodedInstruction :
    (let s := coded [0xB0, 0xC3] start;
      ready s = true ∧ decode s.fetchBytes = .ok (.movAlImm8 0xC3, 2) ∧ s.dbg.hit [s.executeAccess] = false
        ∧ s.gather = none ∧ s.cfg.cacheable true s.fetchAddress = true)
    ∧ (let s := coded [0xB0, 0xC3] { startWith (fun c => { c with ccr0 := 0x02 }) with eip := 0xA0000 };
      ready s = true ∧ decode s.fetchBytes = .ok (.movAlImm8 0xC3, 2) ∧ s.dbg.hit [s.executeAccess] = false
        ∧ s.gather = none ∧ s.cfg.cacheable true s.fetchAddress = false) := by decide +kernel

/-- Single step; a data breakpoint on the word STR stores (section 2.8); neither; and a debug exception of a task switch
that is due after the first instruction. -/
theorem witness_DebugAfterInstruction :
    (let s := coded [0xB0, 0xC3] { start with eflags := 0x102 };
      ready s = true ∧ decode s.fetchBytes = .ok (.movAlImm8 0xC3, 2) ∧ s.dbg.hit [s.executeAccess] = false
        ∧ s.tf = true
        ∧ nextIs (exec (.movAlImm8 0xC3) (s.begin.fetchCycle 2)) (fun t => t.lastEvent == none) = true)
    ∧ (let s := coded [0x0F, 0x00, 0x0D, 0x03, 0x10, 0x00, 0x00]
          (breakAt 0x1000 0x000D0001 { trLoaded with eip := 0x3000 });
      ready s = true ∧ decode s.fetchBytes = .ok (.strM16 0x1003, 7) ∧ s.dbg.hit [s.executeAccess] = false
        ∧ nextIs (exec (.strM16 0x1003) (s.begin.fetchCycle 7)) (fun t => t.lastEvent == none
            && t.dbg.hit (s.dataAccesses (.strM16 0x1003)) && t.dbg.occurred (s.dataAccesses (.strM16 0x1003)) 0) = true)
    ∧ (let s := coded [0xB0, 0xC3] start;
      s.tf = false ∧ s.debugDue = none
        ∧ nextIs (exec (.movAlImm8 0xC3) (s.begin.fetchCycle 2)) (fun t => t.lastEvent == none
          && !t.dbg.hit (s.dataAccesses (.movAlImm8 0xC3))) = true)
    ∧ (let s := coded [0xB0, 0xC3] { start with debugDue := some ⟨⟨[⟨.execute, 0x1000, 1⟩], true, true⟩, true⟩ };
      ready s = true
        ∧ nextIs (exec (.movAlImm8 0xC3) (s.begin.fetchCycle 2)) (fun t => t.lastEvent == none) = true) := by
  decide +kernel

/-- An execution breakpoint; and a debug exception that is due before the instruction. -/
theorem witness_DebugBeforeInstruction :
    (let s := coded [0xB0, 0xC3] (breakAt 0x1000 0x00000402 start);
      ready s = true ∧ decode s.fetchBytes = .ok (.movAlImm8 0xC3, 2) ∧ s.dbg.hit [s.executeAccess] = true)
    ∧ (let s := { start with debugDue := some ⟨⟨[], false, true⟩, false⟩ };
      s.inputs = [] ∧ s.isRunning = true ∧ s.dbg.codesUsed = true ∧ s.cfg.regionsAligned = true
        ∧ s.debugDue = some ⟨⟨[], false, true⟩, false⟩) := by
  decide +kernel

theorem witness_Dr7NotUsedCodeRefused :
    (0x00020001 : Dword).extractLsb' (16 + 4 * (0 : Fin 4).val) 2 = 2
    ∧ (0x20000000 : Dword).extractLsb' (16 + 4 * (3 : Fin 4).val) 2 = 2
    ∧ (0x00080000 : Dword).extractLsb' (18 + 4 * (0 : Fin 4).val) 2 = 2
    ∧ (breakAt 0 0x80000000 start).dbg.dr7.extractLsb' (18 + 4 * (3 : Fin 4).val) 2 = 2
    ∧ (breakAt 0 0x80000000 start).inputs = [] ∧ (breakAt 0 0x80000000 start).isRunning = true := by decide

/-- Vector A4; and A5, region 3 in force through SM3 alone; and a region on its boundary. -/
theorem witness_MisalignedRegionRefused :
    (let s := startWith (fun c => { c with ccr5 := 0x20, arr2 := ⟨0x00, 0x01, 0x06⟩ });
      s.inputs = [] ∧ s.isRunning = true ∧ s.dbg.codesUsed = true ∧ s.cfg.arrEnabled 2 = true ∧ s.cfg.size 2 ≠ 0
        ∧ (s.cfg.start 2).toNat % s.cfg.blockBytes 2 ≠ 0)
    ∧ (let s := startWith (fun c => { c with ccr1 := 0x80, arr3 := ⟨0x12, 0x34, 0x5F⟩ });
      s.cfg.arrEnabled 3 = true ∧ s.cfg.size 3 ≠ 0 ∧ (s.cfg.start 3).toNat % s.cfg.blockBytes 3 ≠ 0)
    ∧ ∀ i, gatherStart.cfg.arrEnabled i = true → gatherStart.cfg.size i ≠ 0 →
      (gatherStart.cfg.start i).toNat % gatherStart.cfg.blockBytes i = 0 := by
  decide +kernel

/-! ## Reset and invariants -/

theorem witness_ResetConfigurationRegisters : CfgReg.ccr4 ≠ .dir0 ∧ CfgReg.ccr4 ≠ .dir1 := by decide

theorem witness_ResetPinClearsSmiLock :
    let s := { startWith (fun c => { c with ccr3 := 0x01 }) with inputs := [.reset, .nmi] }
    s.inputs = .reset :: [.nmi] ∧ s.cfg.smiLock = true := by decide

theorem witness_StepKeepsGood :
    (coded [0xF4] start).good = true ∧ goesOn (step (coded [0xF4] start)) = true := by decide +kernel

/-- SMI_LOCK set, outside and inside an SMI service routine, at an OUT that writes CCR3. -/
theorem witness_SmiLockHoldsUntilReset :
    (let s := coded [0xE6, 0x23] (portAt 0xC3 0x10 0x00 0x01);
      goesOn (step s) = true ∧ s.inputs.head? ≠ some .reset ∧ s.cfg.smiLock = true ∧ s.inSmi = false)
    ∧ (let s := { coded [0xE6, 0x23] (portAt 0xC3 0x10 0x00 0x01) with inSmi := true };
      goesOn (step s) = true ∧ s.cfg.smiLock = true) := by decide +kernel

theorem witness_ConfigurationChangesThroughPortOnly :
    let s := coded [0xE6, 0x23] (portAt 0xC3 0x10 0x00 0x00)
    s.inputs.head? ≠ some .reset ∧ nextIs (step s) (fun t => decide (t.cfg ≠ s.cfg)) = true := by decide +kernel

theorem witness_TrChangesByLtrOrTaskSwitchOnly :
    let s := coded [0x0F, 0x00, 0xD8] (withAx 0x0028)
    s.inputs.head? ≠ some .reset
      ∧ nextIs (step s) (fun t => decide (t.lastEvent = none) && decide (t.tr ≠ s.tr)) = true := by decide +kernel

theorem witness_LockedFlagsKept :
    let s := coded [0xF4] (startWith (fun c => { c with ccr2 := 0x04 }))
    s.inputs.head? ≠ some .reset ∧ s.cfg.lockNw = true ∧ s.cfg.cpuidEnabled = false
      ∧ nextIs (step s) (fun t => t.cfg.lockNw && !t.cfg.cpuidEnabled) = true := by decide +kernel

theorem witness_BusCyclesOnlyAppended : goesOn (step (coded [0xEE] start)) = true := by decide +kernel

theorem witness_HaltedStays :
    (let s := { start with runState := .halted };
      s.inputs = [] ∧ s.runState = .halted ∧ goesOn (step s) = true)
    ∧ (let s := { start with powerState := .suspend };
      s.inputs = [] ∧ s.runState = .running ∧ s.powerState = .suspend ∧ goesOn (step s) = true) := by decide +kernel

/-! ## LTR and STR -/

/-- Both forms; vectors T1 (in the low half of EAX), T2, T3, T4, T5; the ends of the CPL range. -/
theorem witness_LtrRule :
    ((withAx 0xFFFF0028).gprs.get .eax).extractLsb' 0 16 = 0x0028
    ∧ (let s := trStart.writeBytes 0xFFFFFFFF [0x30, 0x00];
      s.readByte 0 ++ s.readByte 0xFFFFFFFF = (0x0030 : Word))
    ∧ start.pmode = false ∧ start.cfg.regionsAligned = true
    ∧ (trStart.pmode = true ∧ trStart.cpl = 0 ∧ trStart.cfg.regionsAligned = true)
    ∧ ({ trStart with cpl := 1 }.cpl ≠ 0 ∧ { trStart with cpl := 3 }.cpl ≠ 0)
    ∧ (0x002C : Word).getLsbD 2 = true ∧ (0x0028 : Word).getLsbD 2 = false
    ∧ (let desc := trStart.readQword (trStart.gdt.base + 8 * BitVec.ofNat 32 ((0x0028 : Word).toNat / 8));
      desc.getLsbD 44 = false ∧ desc.extractLsb' 40 4 ∈ [0x1#4, 0x3#4, 0x9#4, 0xB#4])
    ∧ (let desc := trStart.readQword (trStart.gdt.base + 8 * BitVec.ofNat 32 ((0x0030 : Word).toNat / 8));
      ¬ (desc.getLsbD 44 = false ∧ desc.extractLsb' 40 4 ∈ [0x1#4, 0x3#4, 0x9#4, 0xB#4])) := by decide +kernel

/-- Not protected mode; no write protection; write protection on, but the word just below A0000h; the word at the top
of the address space, which wraps. -/
theorem witness_StrToMemory :
    start.pmode = false
    ∧ (trLoaded.pmode = true ∧ trLoaded.cfg.regionsAligned = true ∧ trLoaded.storeProtected 0xFFFFFFFF 2 = false)
    ∧ { trLoaded with cfg := { trLoaded.cfg with ccr2 := 0x10 } }.storeProtected 0x9FFFE 2 = false := by decide +kernel

/-- Whether a store is protected depends on the KEN# pin, a free value: with it asserted the word at FFFFFh, and the
word whose second byte is at A0000h, are protected; without WPR1 none is. A buffer may wait, and the word at A0000h may
be in a gathered region. -/
theorem witness_StrToProtectedMemory :
    let s := { trLoaded with cfg := { trLoaded.cfg with ccr2 := 0x10 } }
    s.pmode = true ∧ s.cfg.regionsAligned = true ∧ trLoaded.storeProtected 0xA0000 2 = false
      ∧ s.gather = none ∧ s.cfg.regWg 0xA0000 = false ∧ (0xA0000 : Dword).toNat % 8 ≠ 7
      ∧ { s.cfg with ccr5 := 0x20, arr0 := ⟨0x00, 0x0A, 0x05⟩, rcr0 := 0x08 }.regWg 0xA0000 = true
      ∧ (Config.ken s.draws 0xFFFFF = true → s.storeProtected 0xFFFFF 2 = true)
      ∧ (Config.ken s.draws 0x9FFFF = true → s.storeProtected 0x9FFFF 2 = true) := by
  intro s
  have fixed : s.pmode = true ∧ s.cfg.regionsAligned = true ∧ trLoaded.storeProtected 0xA0000 2 = false
      ∧ s.gather = none ∧ s.cfg.regWg 0xA0000 = false ∧ (0xA0000 : Dword).toNat % 8 ≠ 7
      ∧ { s.cfg with ccr5 := 0x20, arr0 := ⟨0x00, 0x0A, 0x05⟩, rcr0 := 0x08 }.regWg 0xA0000 = true := by
    decide +kernel
  obtain ⟨h1, h2, h3, h4, h5, h6, h7⟩ := fixed
  refine ⟨h1, h2, h3, h4, h5, h6, h7, fun h => ?_, fun h => ?_⟩ <;>
    (unfold State.storeProtected; rw [h]; decide +kernel)

theorem witness_StrToRegister : start.pmode = false ∧ { trLoaded with cpl := 3 }.pmode = true := by decide +kernel

/-! ## Ports -/

/-- The forms of OUT and IN for a port, in a state with DX at it. -/
theorem witness_forms (s : State) (port : Word) (hp : port.toNat < 256) (hd : s.gprs.edx.extractLsb' 0 16 = port) :
    s.outsTo (.outImm8Al port.toNat) port ∧ s.outsTo .outDxAl port
      ∧ s.insFrom (.inAlImm8 port.toNat) port ∧ s.insFrom .inAlDx port :=
  ⟨.inl ⟨_, rfl, hp, rfl⟩, .inr ⟨rfl, hd⟩, .inl ⟨_, rfl, hp, rfl⟩, .inr ⟨rfl, hd⟩⟩

/-- `start` with DX at a port. -/
def dxAt (port : Word) : State := start.setReg .edx (0xFFFF#16 ++ port)

/-- Indexes at the ends of the ranges, with MAPEN = 0h and, for D0h, with MAPEN = 1h. -/
theorem witness_OutSelectsIndex :
    (dxAt 0x22).outsTo (.outImm8Al 0x22) 0x22 ∧ (dxAt 0x22).outsTo .outDxAl 0x22
    ∧ start.indexAccessible 0xC0 ∧ start.indexAccessible 0xCF ∧ start.indexAccessible 0xFF
    ∧ ¬ start.indexAccessible 0xBF ∧ ¬ start.indexAccessible 0xD0 ∧ (portAt 0xD0 0 0 0x10).indexAccessible 0xD0 :=
  ⟨(witness_forms _ 0x22 (by decide) (by decide)).1, (witness_forms _ 0x22 (by decide) (by decide)).2.1,
    by unfold State.indexAccessible; decide +kernel⟩

/-- A plain register (CCR0, all its writable bits); CCR1 unlocked (P11) and locked (S4, S7); CCR3 (S2) at both MAPEN
values; ARR3 locked and unlocked; RCR7 and CCR5 with MAPEN = 1h; DIR1. -/
theorem witness_OutWritesConfigurationRegister :
    (dxAt 0x23).outsTo (.outImm8Al 0x23) 0x23 ∧ (dxAt 0x23).outsTo .outDxAl 0x23
    ∧ (cfgRegOf 0xC0 = some .ccr0 ∧ start.indexAccessible 0xC0 ∧ (0x02 : Byte) &&& CfgReg.ccr0.resmask = 0)
    ∧ (cfgRegOf 0xC1 = some .ccr1 ∧ (0x82 : Byte) &&& CfgReg.ccr1.resmask = 0
        ∧ (0x82 : Byte).getLsbD 1 = true ∧ (0x82 : Byte).getLsbD 7 = true)
    ∧ (let s := portAt 0xC1 0x10 0x82 0x01;
      s.cfg.smiLock = true ∧ s.inSmi = false ∧ s.cfg.useSmi = true ∧ s.cfg.sm3 = true
        ∧ s.gprs.eax.extractLsb' 0 8 = 0x10)
    ∧ (cfgRegOf 0xC3 = some .ccr3 ∧ (0x17 : Byte) &&& CfgReg.ccr3.resmask = 0
        ∧ ((0x17 : Byte).extractLsb' 4 4).toNat ≤ 1 ∧ ((0x00 : Byte).extractLsb' 4 4).toNat ≤ 1)
    ∧ (cfgRegOf 0xCF = some (.arr 3 2) ∧ (0xFF : Byte) &&& (CfgReg.arr 3 2).resmask = 0)
    ∧ (cfgRegOf 0xE3 = some (.rcr 7) ∧ (portAt 0xE3 0x3F 0 0x10).indexAccessible 0xE3
        ∧ (0x3F : Byte) &&& (CfgReg.rcr 7).resmask = 0)
    ∧ (cfgRegOf 0xFF = some .dir1 ∧ start.indexAccessible 0xFF ∧ (0x55 : Byte) &&& CfgReg.dir1.resmask = 0) :=
  ⟨(witness_forms _ 0x23 (by decide) (by decide)).1, (witness_forms _ 0x23 (by decide) (by decide)).2.1,
    by unfold State.indexAccessible; decide +kernel⟩

/-- (a) P5's bit; (b) MAPEN 2h and Fh; (c) P10. -/
theorem witness_UndefinedConfigurationWritesRefused :
    (portAt 0xC1 0x02 0 0).outsTo (.outImm8Al 0x23) 0x23
    ∧ (0x04 : Byte) &&& CfgReg.ccr5.resmask ≠ 0
    ∧ ((0x20 : Byte) &&& CfgReg.ccr3.resmask = 0 ∧ 2 ≤ ((0x20 : Byte).extractLsb' 4 4).toNat
        ∧ (0xF0 : Byte) &&& CfgReg.ccr3.resmask = 0 ∧ 2 ≤ ((0xF0 : Byte).extractLsb' 4 4).toNat)
    ∧ (let s := portAt 0xC1 0x02 0 0;
      s.cfgSel = some 0xC1 ∧ s.gprs.eax.extractLsb' 0 8 = 0x02 ∧ s.indexAccessible 0xC1
        ∧ (0x02 : Byte) &&& CfgReg.ccr1.resmask = 0 ∧ ¬ (s.cfg.smiLock = true ∧ s.inSmi = false)
        ∧ (0x02 : Byte).getLsbD 1 = true ∧ (0x02 : Byte).getLsbD 7 = false) :=
  ⟨.inl ⟨_, rfl, by decide, rfl⟩, by unfold State.indexAccessible; decide +kernel⟩

/-- No selection, and D0h selected with MAPEN = 0h. -/
theorem witness_DataPortWithoutSelectionIsExternal :
    (∀ idx, start.cfgSel = some idx → ¬ start.indexAccessible idx)
    ∧ (∀ idx, (portAt 0xD0 0 0 0).cfgSel = some idx → ¬ (portAt 0xD0 0 0 0).indexAccessible idx)
    ∧ start.outsTo (.outImm8Al 0x23) 0x23 ∧ start.insFrom (.inAlImm8 0x23) 0x23 := by
  refine ⟨nofun, fun idx h => ?_, .inl ⟨_, rfl, by decide, rfl⟩, .inl ⟨_, rfl, by decide, rfl⟩⟩
  cases h
  unfold State.indexAccessible
  decide +kernel

theorem witness_SecondDataAccessIsExternal :
    (portAt 0xC0 0x02 0 0).outsTo (.outImm8Al 0x23) 0x23
    ∧ ∃ t, exec (.outImm8Al 0x23) (portAt 0xC0 0x02 0 0) = .next t ∧ t.insFrom (.inAlImm8 0x23) 0x23 :=
  ⟨.inl ⟨_, rfl, by decide, rfl⟩, _, rfl, .inl ⟨_, rfl, by decide, rfl⟩⟩

/-- The ends of the three ranges of unassigned indexes. -/
theorem witness_UnassignedIndexHasNoRegister :
    (portAt 0x00 0 0 0x10).cfgSel = some 0x00 ∧ (portAt 0x00 0 0 0x10).cfg.ccr3.extractLsb' 4 4 = 1
    ∧ (0xBF : Byte).toNat ≤ 0xBF ∧ (0xE4 ≤ (0xE4 : Byte).toNat ∧ (0xE7 : Byte).toNat ≤ 0xE7)
    ∧ (0xEA ≤ (0xEA : Byte).toNat ∧ (0xFD : Byte).toNat ≤ 0xFD)
    ∧ (portAt 0x00 0 0 0x10).outsTo (.outImm8Al 0x23) 0x23
    ∧ (portAt 0x00 0 0 0x10).insFrom (.inAlImm8 0x23) 0x23 :=
  ⟨rfl, by decide, by decide, by decide, by decide, .inl ⟨_, rfl, by decide, rfl⟩, .inl ⟨_, rfl, by decide, rfl⟩⟩

theorem witness_InReadsConfigurationRegister :
    let s := portAt 0xC3 0 0 0x10
    s.insFrom (.inAlImm8 0x23) 0x23 ∧ s.cfgSel = some 0xC3 ∧ s.indexAccessible 0xC3 ∧ cfgRegOf 0xC3 = some .ccr3
      ∧ CfgReg.ccr3.resmask.getLsbD 7 = false :=
  ⟨.inl ⟨_, rfl, by decide, rfl⟩, rfl, by unfold State.indexAccessible; decide +kernel, rfl, rfl⟩

theorem witness_InFromIndexPortIsExternal :
    (dxAt 0x22).insFrom (.inAlImm8 0x22) 0x22 ∧ (dxAt 0x22).insFrom .inAlDx 0x22 :=
  ⟨(witness_forms _ 0x22 (by decide) (by decide)).2.2.1, (witness_forms _ 0x22 (by decide) (by decide)).2.2.2⟩

/-- The ports beside 22h and 23h, and the highest port. -/
theorem witness_OtherPortsAreExternal :
    (0x21 : Word) ≠ 0x22 ∧ (0x24 : Word) ≠ 0x23
    ∧ (dxAt 0x24).outsTo (.outImm8Al 0x24) 0x24 ∧ (dxAt 0x21).insFrom (.inAlImm8 0x21) 0x21
    ∧ (dxAt 0xFFFF).outsTo .outDxAl 0xFFFF ∧ (dxAt 0xFFFF).insFrom .inAlDx 0xFFFF :=
  ⟨by decide, by decide, (witness_forms _ 0x24 (by decide) (by decide)).1,
    (witness_forms _ 0x21 (by decide) (by decide)).2.2.1, .inr ⟨rfl, by decide⟩, .inr ⟨rfl, by decide⟩⟩

/-! ## HLT, CPUID, INT 3, LOOP, AND, OR -/

theorem witness_HltHalts :
    start.pmode = false ∧ (trStart.pmode = true ∧ trStart.cpl = 0 ∧ { trStart with cpl := 1 }.cpl ≠ 0)
    ∧ start.cfg.ccr2.getLsbD 3 = false ∧ (startWith (fun c => { c with ccr2 := 0x08 })).cfg.ccr2.getLsbD 3 = true := by
  decide +kernel

theorem witness_CpuidRule :
    start.cfg.ccr4.getLsbD 7 = false ∧ (startWith (fun c => { c with ccr4 := 0x85 })).cfg.ccr4.getLsbD 7 = true := by
  decide

/-- A 32-bit interrupt gate at vector 3, and a 16-bit trap gate; with a current TSS of each kind, and outside protected
mode. That privilege rises is `witness_ExceptionEntry_rises`. -/
theorem witness_Int3EntersHandler :
    idtStart.cfg.regionsAligned = true ∧ idtStart.currentTss ≠ none
    ∧ ({ idtStart with pmode := false }.currentTss = none ∧ { idtStart with pmode := false }.cpl = 0)
    ∧ idtStart.cfg.ccr2.getLsbD 4 = false
    ∧ (idtStart.decodeGate (idtStart.idt.base + 24)).kind = .interrupt
    ∧ (idtStart.decodeGate (idtStart.idt.base + 24)).size = some 32
    ∧ { idtStart with cpl := 3 }.currentTss = some (.tss32, 0x00010000)
    ∧ { taskGateStart with tr := ⟨0x0038, taskGateStart.readQword 0x8038⟩ }.currentTss = some (.tss16, 0x00020000)
    ∧ (let s := { idtStart with idt := ⟨0x6050, 0x03FF⟩ };
      (s.decodeGate (s.idt.base + 24)).kind = .trap ∧ (s.decodeGate (s.idt.base + 24)).size = some 16) := by
  decide +kernel

theorem witness_LoopRule : (start.setReg .ecx 1).gprs.ecx = 1 ∧ start.gprs.ecx ≠ 1 := by decide

theorem witness_AndOrRule : start.gprs.eax.extractLsb' 0 8 &&& 0x07 = (0x00 : Byte)
    ∧ start.gprs.eax.extractLsb' 0 8 ||| 0x10 = (0x10 : Byte) ∧ (1 : Nat) ∉ [0, 2, 4, 6, 7, 11] := by decide

theorem witness_MovRule : Reg8.ah ≠ Reg8.al := by decide

/-! ## Memory and regions -/

theorem witness_MemoryLittleEndian :
    ∀ k, k < [0x12#8, 0x34].length → (0x00000001 : Dword) ≠ 0xFFFFFFFF + BitVec.ofNat 32 k := by decide

/-- The last byte of region 3: the word's first byte is in system management memory, its second in main memory. -/
theorem witness_SmmAddressSpace :
    smmStart.pmode = true ∧ smmStart.cfg.regionsAligned = true ∧ smmStart.storeProtected 0x000BFFFF 2 = false
    ∧ (smmStart.cfg.sm3 = true ∧ smmStart.cfg.inRegion 3 0x000BFFFF = true
        ∧ (smmStart.cfg.smac = true ∨ smmStart.inSmi = true))
    ∧ smmStart.cfg.inRegion 3 0x000C0000 = false := by decide +kernel

/-- The largest and the smallest block, the last byte of region 5 (vector A7). -/
theorem witness_RegionMembership :
    regionsOf23.inRegion 5 0xFFFFFFFF = true
    ∧ { CfgRegs.reset with ccr5 := 0x20, arr7 := ⟨0, 0, 0x0F⟩ }.inRegion 7 0xFFFFFFFF = true := by decide +kernel

/-- An address in exactly one region: region 0 of configuration X, and region 7 of configuration Y; one outside region 7
while RCE is in use, one in the fixed region under NC1, one in two regions. -/
theorem witness_RegionLevelAttributes :
    (configX.inRegion 0 0x000C0000 = true ∧ ∀ j, configX.inRegion j 0x000C0000 = true → j = 0)
    ∧ (configX.inRegion 0 0x000CC000 = true ∧ configX.inRegion 1 0x000CC000 = true)
    ∧ (let y : CfgRegs := { CfgRegs.reset with ccr0 := 0x02, ccr5 := 0x20, arr7 := ⟨0x00, 0x00, 0x07⟩, rcr7 := 0x03 };
      (y.inRegion 7 0x00800000 = true ∧ ∀ j, y.inRegion j 0x00800000 = true → j = 7)
      ∧ (y.ccr5.getLsbD 5 = true ∧ (y.arr 7).b2.extractLsb' 0 4 ≠ 0 ∧ (y.rcr 7).getLsbD 0 = true
        ∧ y.inRegion 7 0x01000000 = false)
      ∧ (y.ccr0.getLsbD 1 = true ∧ 0xA0000 ≤ (0x000A0000 : Dword).toNat ∧ (0x000A0000 : Dword).toNat ≤ 0xFFFFF)) := by
  decide +kernel

theorem witness_OutsideEveryRegion :
    (∀ i, configX.inRegion i 0x000D0000 = false)
    ∧ ¬ (configX.ccr5.getLsbD 5 = true ∧ (configX.arr 7).b2.extractLsb' 0 4 ≠ 0 ∧ (configX.rcr 7).getLsbD 0 = true)
    ∧ ¬ (configX.ccr0.getLsbD 1 = true ∧ 0xA0000 ≤ (0x000D0000 : Dword).toNat) := by decide +kernel

theorem witness_OverlapPrecedence :
    (0 : Fin 8) ≠ 1 ∧ configX.inRegion 0 0x000CC000 = true ∧ configX.inRegion 1 0x000CC000 = true
    ∧ (configX.rcr 0).getLsbD 5 = false ∧ (configX.rcr 0).getLsbD 0 = true
    ∧ (let c := { configX with arr7 := ⟨0, 0, 0x01⟩, arr0 := ⟨0, 0, 0x01⟩, rcr0 := 0x10 };
      c.inRegion 0 0 = true ∧ c.inRegion 7 0 = true ∧ (c.rcr 7).getLsbD 0 = false
        ∧ (c.rcr 0).getLsbD 4 = true ∧ (c.rcr 0).getLsbD 3 = false ∧ (c.rcr 0).getLsbD 2 = false
        ∧ c.ccr1.getLsbD 4 = false ∧ (c.rcr 0).getLsbD 1 = false) := by decide +kernel

/-- Both ends of the fixed region; NC1, LBR1, NO_LOCK set; region 7 with RCE (configuration Y). -/
theorem witness_FixedRegionControls :
    (0xA0000 ≤ (0x000A0000 : Dword).toNat ∧ (0x000FFFFF : Dword).toNat ≤ 0xFFFFF)
    ∧ (let c := { CfgRegs.reset with ccr0 := 0x02, ccr5 := 0x10, ccr1 := 0x10 };
      c.ccr0.getLsbD 1 = true ∧ c.ccr5.getLsbD 4 = true ∧ c.ccr1.getLsbD 4 = true)
    ∧ (let c := { CfgRegs.reset with ccr5 := 0x20, arr7 := ⟨0, 0, 0x07⟩, rcr7 := 0x03 };
      c.ccr5.getLsbD 5 = true ∧ (c.arr 7).b2.extractLsb' 0 4 ≠ 0 ∧ (c.rcr 7).getLsbD 0 = true
        ∧ c.inRegion 7 0x01000000 = false)
    ∧ ({ CfgRegs.reset with ccr2 := 0x10 }.attributes true true 0x000B8000).writeProtected = true := by
  decide +kernel

/-- A buffer of bytes from C0000h. -/
def buffered (bs : List Byte) (s : State) : State :=
  { s with gather := some ⟨0x000C0000, bs, s.cfg.attributes false false 0x000C0000⟩ }

/-- No buffer: seven bytes that begin a window, one byte that ends one, and eight. A buffer: a word sequential to one
byte, two bytes sequential to six, which fill it, a byte already buffered and one in the next window, which are
elsewhere; a word across a window's end, that continues seven bytes or begins with the last of the window. An
ungathered write. A read at the nearest non-sequential address on each side of a buffer of one byte. -/
theorem witness_WriteGathering :
    (gatherStart.gather = none ∧ gatherStart.cfg.regWg 0x000C0000 = true ∧ gatherStart.cfg.regWg 0x000CFFFF = true
      ∧ gatherStart.storeProtected 0x000C0000 8 = false
      ∧ (0x000C0000 : Dword).toNat % 8 + 7 ≤ 8 ∧ (0x000C0000 : Dword).toNat % 8 + 8 ≤ 8
      ∧ (0x000CFFFF : Dword).toNat % 8 + 1 ≤ 8)
    ∧ ((buffered [1] gatherStart).gather.all GatherBuffer.legal = true
      ∧ (buffered [1, 2, 3, 4, 5, 6] gatherStart).gather.all GatherBuffer.legal = true
      ∧ (buffered [1] gatherStart).storeProtected 0x000C0001 2 = false)
    ∧ ((0x000C0001 : Dword) = 0x000C0000 + BitVec.ofNat 32 [1#8].length
      ∧ (0x000C0000 : Dword).toNat / 8 = (0x000C0001 : Dword).toNat / 8 ∧ [1#8].length + 2 < 8)
    ∧ ((0x000C0006 : Dword) = 0x000C0000 + BitVec.ofNat 32 [1#8, 2, 3, 4, 5, 6].length
      ∧ (0x000C0000 : Dword).toNat / 8 = (0x000C0006 : Dword).toNat / 8 ∧ [1#8, 2, 3, 4, 5, 6].length + 2 = 8)
    ∧ (0x000C0000 : Dword) ≠ 0x000C0000 + BitVec.ofNat 32 [1#8].length
    ∧ (0x000C0000 : Dword).toNat / 8 ≠ (0x000C0008 : Dword).toNat / 8
    ∧ ((buffered [1, 2, 3, 4, 5, 6, 7] gatherStart).gather.all GatherBuffer.legal = true
      ∧ (0x000C0007 : Dword) = 0x000C0000 + BitVec.ofNat 32 [1#8, 2, 3, 4, 5, 6, 7].length
      ∧ 8 - (0x000C0007 : Dword).toNat % 8 < 2 ∧ 8 - (0x000C0001 : Dword).toNat % 8 < 8
      ∧ (buffered [1, 2, 3, 4, 5, 6, 7] gatherStart).storeProtected 0x000C0007 2 = false)
    ∧ gatherStart.cfg.regWg 0x000D0000 = false
    ∧ 1 < ((0x000C0002 : Dword) - 0x000C0000).toNat ∧ 1 < ((0x000BFFFF : Dword) - 0x000C0000).toNat := by decide +kernel

/-- Vectors T6 and T1, the latter from memory; and a GDT where no cache can hold it, for the selector in memory and in
EAX. -/
theorem witness_DataAccessCycles :
    (trLoaded.gather = none ∧ trLoaded.pmode = true ∧ trLoaded.cfg.regionsAligned = true
      ∧ trLoaded.cfg.regWg 0x2000 = false ∧ trLoaded.storeProtected 0x2000 2 = false)
    ∧ (let s := trStart.writeBytes 0x2000 [0x28, 0x00];
      s.gather = none ∧ s.pmode = true ∧ s.cfg.regionsAligned = true ∧ s.cpl = 0 ∧ s.readByte 0x2000 &&& 0x04 = 0
        ∧ s.gdt.base + 8 * BitVec.ofNat 32 ((s.readWord 0x2000).toNat / 8) = 0x8028
        ∧ isTssDescriptor (s.readQword 0x8028) = true ∧ s.cfg.cacheable true 0x8028 = true)
    ∧ (let s := State.writeBytes 0xA8028 [0x67, 0, 0, 0, 0x01, 0x89, 0, 0]
        { trStart.writeBytes 0x2000 [0x28, 0x00] with
          cfg := { trStart.cfg with ccr0 := 0x02 }, gdt := ⟨0xA8000, 0xFFFF⟩ };
      s.pmode = true ∧ s.cfg.regionsAligned = true ∧ s.cpl = 0 ∧ s.readByte 0x2000 &&& 0x04 = 0
        ∧ isTssDescriptor (s.readQword 0xA8028) = true ∧ s.cfg.cacheable true 0xA8028 = false
        ∧ (State.setReg .eax 0xFFFF0028 s).gprs.get .eax = 0xFFFF0028
        ∧ (0xFFFF0028 : Dword).extractLsb' 0 16 = (0x0028 : Word) ∧ (0x0028 : Word).getLsbD 2 = false
        ∧ s.gdt.base + 8 * BitVec.ofNat 32 ((0x0028 : Word).toNat / 8) = 0xA8028) := by decide +kernel

/-! ## Gates, tasks, exceptions -/

/-- From the least privileged level the call gate at 6030h goes through, whatever the target segment's level is. -/
theorem witness_CallGateTransfer :
    ∃ t, { idtStart with cpl := 3 }.callGate (fun _ _ _ => true) 0x6030 = .next t := by
  have h : ∀ l : BitVec 2, l.toNat ≤ (3 : BitVec 2).toNat := by decide
  have hTss : (State.cpuReads (gateReads 0x6030) { idtStart with cpl := 3 }).currentTss
      = some (.tss32, 0x00010000) := by decide +kernel
  have hw : (State.cpuReads (gateReads 0x6030) { idtStart with cpl := 3 }).cfg.wpr1 = false := by decide +kernel
  unfold State.callGate
  dsimp only
  rw [if_pos (by decide +kernel), if_pos ⟨by decide +kernel, h _, rfl⟩]
  generalize State.cpuReads (gateReads 0x6030) { idtStart with cpl := 3 } = s at hTss hw
  have hs : ∀ level, ∃ stack, s.entryStack level = some stack := fun level => by
    unfold State.entryStack
    rw [hTss]
    split
    · exact ⟨_, rfl⟩
    · exact ⟨_, rfl⟩
  unfold State.enterProcedure
  obtain ⟨stack, hs⟩ := hs (s.targetLevel (State.decodeGate { idtStart with cpl := 3 } 0x6030).selector)
  rw [hs]
  refine State.busWrites_goes_on _ _ (.inl ?_)
  rw [(State.enterAt_transfer _ _ _ _ _).cfg, (State.cpuReads_transfer _ s).cfg, hw]

/-- The premises of the other parts: a call gate, a task gate and a trap gate, each in the GDT; three parameters, for
two of which there are two different places; a 16-bit TSS as the current one. -/
theorem witness_CallGateTransfer_selectors :
    (let s := { idtStart with cpl := 3, gdt := ⟨0x6000, 0xFFFF⟩ };
      s.cfg.regionsAligned = true ∧ s.cfg.ccr2.getLsbD 4 = false ∧ s.currentTss ≠ none
        ∧ s.gdt.base + 8 * BitVec.ofNat 32 ((0x0030 : Word).toNat / 8) = 0x6030
        ∧ (s.decodeGate 0x6030).kind = .call ∧ (s.decodeGate 0x6068).kind = .trap
        ∧ (s.decodeGate 0x6030).parameters = 3)
    ∧ { taskGateStart with tr := ⟨0x0038, taskGateStart.readQword 0x8038⟩ }.currentTss = some (.tss16, 0x00020000)
    ∧ ({ taskGateStart with gdt := ⟨0x6000, 0xFFFF⟩ }.decodeGate 0x6018).kind = .task := by decide +kernel

/-- Choices of a task switch at two ends: everything saved, the descriptor and the back link first, the new descriptor
marked busy, CR0.TS and EFLAGS.NT set, the debug exception before. -/
def choiceFull : TaskChoice where
  saves := [.ip, .flags, .gpr .eax, .gpr .esp, .seg .es, .seg .gs, .cr3, .ldt]
  descriptorFirst := true
  backLink := .beforeSave
  writes := [(0x802D, [0x8B])]
  cr0 := some 0x80000019
  setsFlags := 0x00004000
  trapAfterFirst := false

/-- The other end: the address to resume at alone, the back link last, nothing else, the debug exception after. -/
def choiceSpare : TaskChoice := ⟨[], false, .afterLoad, [], none, 0, true⟩

/-- A task-switch function whose checks at one point fail. -/
def failingAt (c : TaskChoice) (phase : Option TaskPhase) : TaskFunction where
  choose := fun _ _ => c
  check := fun p _ _ => if some p = phase then some 11 else none

/-- The current TSS is a 32-bit one; the new one a 32-bit one, and, at 8038h, a 16-bit one; the new descriptor read
before the save and after it. The last part is what `TaskSwitchLoadsTask` asks of the descriptor after the save, of the
place of the back link, of a loaded field and of a reserved one apart from the old TSS, and of a reserved field of the
old TSS apart from the back link. -/
theorem witness_TaskSwitchLoadsTask :
    (taskGateStart.currentTss = some (.tss32, 0x00010000) ∧ taskGateStart.cfg.ccr2.getLsbD 4 = false
      ∧ (0x0028 : Word).getLsbD 2 = false ∧ (0x0038 : Word).getLsbD 2 = false
      ∧ isTssDescriptor (taskGateStart.readQword 0x8028) = true
      ∧ tssKind (taskGateStart.readQword 0x8028) = .tss32
      ∧ isTssDescriptor (taskGateStart.readQword 0x8038) = true
      ∧ tssKind (taskGateStart.readQword 0x8038) = .tss16)
    ∧ { taskGateStart with pmode := false }.currentTss = none
    ∧ (choiceFull.readsFirst = true ∧ choiceSpare.readsFirst = false)
    ∧ goesOn (taskGateStart.taskSwitch (failingAt choiceFull none) 0x0028 0x1000) = true
    ∧ goesOn (taskGateStart.taskSwitch (failingAt choiceSpare none) 0x0038 0x1000) = true
    ∧ nextIs (taskGateStart.saveTask choiceSpare .tss32 0x00010000 0x1000) (fun u =>
      isTssDescriptor (u.readQword 0x8028) && isTssDescriptor (u.readQword 0x8038)) = true
    ∧ 0x62 ≤ (tssBase (taskGateStart.readQword 0x8038) - 0x00010000).toNat
    ∧ (tssBase (taskGateStart.readQword 0x8028) - 0x00010000).toNat < 0x0D
    ∧ ((0x0002000E : Dword), 2) ∈ taskReads .tss16 (tssBase (taskGateStart.readQword 0x8038))
    ∧ 0x62 ≤ ((0x0002000E : Dword) + BitVec.ofNat 32 1 - 0x00010000).toNat
    ∧ (tssBase (taskGateStart.readQword 0x8028) + BitVec.ofNat 32 0x02 - 0x00010000).toNat < 0x0E
    ∧ 0x62 ≤ (tssBase (taskGateStart.readQword 0x8028) + BitVec.ofNat 32 0x65 - 0x00010000).toNat
    ∧ 2 ≤ ((0x00010000 : Dword) + BitVec.ofNat 32 0x02 - tssBase (taskGateStart.readQword 0x8038)).toNat := by
  decide +kernel

/-- A function's writes over the saved EIP, over a saved field from below, over the new TSS's back link and IP and over
reserved fields of the old TSS are none of the switch's; a busy mark in a descriptor is. -/
theorem witness_TaskSwitchLoadsTask_writes :
    (let c : TaskChoice := { choiceFull with
        writes := [(0x00010020, [0xAA]), (0x0001001F, [0xAA, 0xAA]), (0x00020000, [0xAA]), (0x0002000F, [0xAA]),
          (0x0001004A, [0xAA]), (0x00010064, [0xAA]), (0x802D, [0x8B])] };
      nextIs (taskGateStart.taskSwitch (failingAt c none) 0x0038 0x1000) (fun t =>
        t.readDword 0x00010020 == 0x1000 && t.readByte 0x802D == 0x8B && t.readWord 0x00020000 == taskGateStart.tr.sel
          && t.readByte 0x0002000F == taskGateStart.readByte 0x0002000F
          && t.readByte 0x0001004A == taskGateStart.readByte 0x0001004A
          && t.readByte 0x00010064 == taskGateStart.readByte 0x00010064)) = true := by decide +kernel

/-- The four points a check can fail at: the task stands as it was, with its state saved, with TR changed alone, or is
the new one; and where none fails the new task runs. -/
theorem witness_TaskSwitchLoadsTask_checks :
    (let ran := fun c p sel => taskGateStart.taskSwitch (failingAt c p) sel 0x1000;
      nextIs (ran choiceSpare (some .begun) 0x0038) (fun t =>
        t.runState == .raised (.taskFault 11) 0x1000 && t.tr == taskGateStart.tr && t.mem == taskGateStart.mem) = true
      ∧ nextIs (ran choiceSpare (some .saved) 0x0038) (fun t =>
        t.runState == .raised (.taskFault 11) 0x1000 && t.tr == taskGateStart.tr
          && t.readDword 0x00010020 == 0x1000) = true
      ∧ nextIs (ran choiceSpare (some .entered) 0x0038) (fun t =>
        t.runState == .raised (.taskFault 11) 0x1000 && t.tr.sel == 0x0038 && t.cr0 == taskGateStart.cr0) = true
      ∧ nextIs (ran choiceFull (some .loaded) 0x0038) (fun t =>
        t.runState == .raised (.taskFault 11) t.eip && t.tr.sel == 0x0038 && t.cr0 == 0x80000019) = true
      ∧ nextIs (ran choiceFull none 0x0028) (fun t => t.runState == .running && t.eflags.getLsbD 14
        && t.readByte 0x802D == 0x8B) = true) := by decide +kernel

theorem witness_TaskSwitchSavesTask : taskGateStart.cfg.ccr2.getLsbD 4 = false
    ∧ TaskField.cr3 ∈ choiceFull.saves ∧ TaskField.cr3 ∉ choiceSpare.saves := by decide +kernel

/-- A trap gate (vector 13), an interrupt gate (vector 3), a call gate (vector 6), no gate (vector 2) and a task gate;
a current TSS of each kind and none. -/
theorem witness_ExceptionEntry :
    idtStart.cfg.regionsAligned = true ∧ idtStart.cfg.ccr2.getLsbD 4 = false ∧ idtStart.cpl = 0
    ∧ (Event.trFault .privilege).vector = some 13
    ∧ [13, 3, 6, 2].map (fun v : Byte => idtStart.idtKind v) = [.trap, .interrupt, .call, .notAGate]
    ∧ taskGateStart.idtKind 3 = .task
    ∧ idtStart.currentTss = some (.tss32, 0x00010000)
    ∧ { taskGateStart with tr := ⟨0x0038, taskGateStart.readQword 0x8038⟩ }.currentTss = some (.tss16, 0x00020000)
    ∧ { idtStart with cpl := 3, pmode := false }.currentTss = none := by decide +kernel

/-- At CPL 3 privilege rises where the target segment's level, a free function of its descriptor, is 0. -/
theorem witness_ExceptionEntry_rises (h : Config.codeLevel 0 = 0) :
    (State.targetLevel { idtStart with cpl := 3 } 0x0008).toNat < (3 : BitVec 2).toNat := by
  have hd : State.readQword { idtStart with cpl := 3 } (State.locateDescriptor { idtStart with cpl := 3 } 0x0008).2
      = 0 := by decide +kernel
  unfold State.targetLevel
  rw [hd, h]
  decide

/-- No debug exception due; and one due, all of whose causes are reported; no task gate for vector 1. -/
theorem witness_DebugExceptionRecords :
    start.debugDue = none
    ∧ { start with debugDue := some ⟨⟨[], true, true⟩, false⟩ }.debugDue = some ⟨⟨[], true, true⟩, false⟩
    ∧ start.idtKind 1 ≠ .task := by
  decide +kernel

/-- The four bytes at the top of the address space, met by a word that wraps, and not by the byte below them. -/
theorem witness_BreakpointCondition :
    let d := (breakAt 0xFFFFFFFE 0x000D0001 start).dbg
    d.codesUsed = true ∧ d.dr7.extractLsb' (18 + 4 * (0 : Fin 4).val) 2 = 3
      ∧ d.dr7.extractLsb' (16 + 4 * (0 : Fin 4).val) 2 = 1
      ∧ (0xFFFFFFFC : Dword).toNat = (d.dr 0).toNat - (d.dr 0).toNat % 4
      ∧ d.hit [⟨.write, 0xFFFFFFFF, 2⟩] = true ∧ d.hit [⟨.write, 0xFFFFFFFB, 1⟩, ⟨.read, 0xFFFFFFFC, 1⟩] = false := by
  decide

/-! ## Inputs -/

theorem witness_SmiRecognition :
    (let s := { startWith (fun c => { c with ccr1 := 0x82 }) with inputs := [.smi] };
      s.isRunning = true ∧ s.inputs = .smi :: [] ∧ s.cfg.ccr1.getLsbD 1 = true ∧ s.cfg.ccr1.getLsbD 2 = false)
    ∧ (let s := { startWith (fun c => { c with ccr1 := 0x86 }) with inputs := [.smi] };
      s.isRunning = true ∧ ¬ (s.cfg.ccr1.getLsbD 1 = true ∧ s.cfg.ccr1.getLsbD 2 = false)) := by decide

/-- During SMI service with NMI_EN = 0 a waiting NMI is held or dropped, and the CPU proceeds. -/
theorem State.answer_masked_nmi {s : State} (hs : s.inSmi = true) (hn : s.cfg.nmiEn = false) :
    ∃ inputs, s.answer .nmi = State.proceed { s with inputs := inputs, draws := s.draws + 1 }
      ∧ (inputs = s.inputs ∨ inputs = s.inputs ++ [.nmi]) := by
  simp only [State.answer, hs, hn, if_true]
  split
  · exact absurd ‹_› (by decide)
  · split
    · exact ⟨_, rfl, .inr rfl⟩
    · exact ⟨_, rfl, .inl rfl⟩

/-- `start` at a HLT, in SMI service with NMI_EN = 0, an NMI waiting. -/
def maskedNmi : State := { coded [0xF4] start with inSmi := true, inputs := [.nmi] }

/-- NMI_EN set; and clear, where the step goes on with the instruction whatever becomes of the request. -/
theorem witness_NmiDuringSmiService :
    (let s := { startWith (fun c => { c with ccr3 := 0x02 }) with inSmi := true, inputs := [.nmi] };
      s.isRunning = true ∧ s.inSmi = true ∧ s.cfg.ccr3.getLsbD 1 = true)
    ∧ maskedNmi.cfg.ccr3.getLsbD 1 = false ∧ goesOn (step maskedNmi) = true := by
  refine ⟨by decide, by decide +kernel, ?_⟩
  obtain ⟨inputs, hp, hi⟩ := State.answer_masked_nmi (s := { maskedNmi with lastEvent := none, inputs := [] })
    rfl (by decide +kernel)
  have hprep : maskedNmi.prepare = State.answer .nmi { maskedNmi with lastEvent := none, inputs := [] } := rfl
  unfold step
  rw [hprep, hp]
  rcases hi with rfl | rfl <;> decide +kernel

theorem witness_SuspendPin :
    (let s := { startWith (fun c => { c with ccr2 := 0x80 }) with inputs := [.susp] };
      s.isRunning = true ∧ s.inputs = [.susp] ∧ s.cfg.ccr2.getLsbD 7 = true)
    ∧ (let s := { start with inputs := [.susp] };
      s.isRunning = true ∧ s.cfg.ccr2.getLsbD 7 = false) := by decide

/-- A running and a halted CPU. -/
theorem witness_HardwareInterrupt :
    (let s := { start with inputs := [.interrupt 0x20] };
      s.inputs = [.interrupt 0x20] ∧ s.runState = .running ∧ s.cfg.ccr1.getLsbD 4 = false
        ∧ ∀ i, s.cfg.inRegion i intAckAddress = false)
    ∧ (let s := { startWith (fun c => { c with ccr1 := 0x10 }) with runState := .halted, inputs := [.interrupt 0xFF] };
      s.runState = .halted ∧ s.cfg.ccr1.getLsbD 4 = true) := by decide +kernel

end Sys2Proof.Tests
end

section
/-! The invariants of a step: what `step_cases` gives for the configuration registers, TR and the locked flags. -/

namespace Sys2Proof.Machine

/-! ## The SMI service routine entered -/

@[simp] theorem State.enterSmm_cfg (s : State) : s.enterSmm.cfg = s.cfg := rfl
@[simp] theorem State.enterSmm_tr (s : State) : s.enterSmm.tr = s.tr := rfl
@[simp] theorem State.enterSmm_smm (s : State) :
    s.enterSmm.smm = saveSmm s.smm (Config.smmSaved s.draws) := rfl

theorem saveSmm_wf (ws : List (Dword × Byte)) : ∀ m : Memory, m.wf = true → (saveSmm m ws).wf = true := by
  induction ws with
  | nil => exact fun _ h => h
  | cons w ws ih => exact fun m h => ih _ (Memory.wf_write h w.1.isLt w.2)

theorem keepBits_same {mask : Dword} {n : Nat} (hn : n < 32) (hm : mask.getLsbD n = true) (old new : Dword) :
    (keepBits mask old new).getLsbD n = old.getLsbD n := by
  rw [keepBits_getLsbD _ _ _ hn, if_pos hm]

/-- CR0.NW goes through the rule of every write of CR0 (rule R22). -/
theorem State.enterSmm_nw {s : State} (h : s.cfg.lockNw = true) : s.enterSmm.nw = s.nw := by
  have e : s.enterSmm.cr0 = if s.cfg.lockNw then keepBits nwMask s.cr0 (Config.freeDword (s.draws + 17))
      else Config.freeDword (s.draws + 17) := rfl
  rw [State.nw, e, if_pos h, keepBits_same (by decide) (by decide)]
  rfl

/-- EFLAGS.ID goes through the rule of every write of EFLAGS (rule R63). -/
theorem State.enterSmm_idFlag {s : State} (h : s.cfg.cpuidEnabled = false) : s.enterSmm.idFlag = s.idFlag := by
  have e : s.enterSmm.eflags = if s.cfg.cpuidEnabled then Config.freeDword (s.draws + 16)
      else keepBits idMask s.eflags (Config.freeDword (s.draws + 16)) := rfl
  rw [State.idFlag, e, if_neg (by simp [h]), keepBits_same (by decide) (by decide)]
  rfl

/-! ## Good states -/

theorem State.good_iff (s : State) : s.good = true ↔ s.mem.wf = true ∧ s.smm.wf = true ∧ s.cfg.legal = true ∧
    s.dbg.codesUsed = true ∧ s.gather.all GatherBuffer.legal = true := by
  simp only [State.good, Bool.and_eq_true, and_assoc]

theorem State.resetPin_good {s : State} (h : s.good = true) : s.resetPin.good = true := by
  obtain ⟨hmem, hsmm, -⟩ := s.good_iff.mp h
  have hfixed : CfgRegs.reset.legal = true ∧ State.reset.dbg.codesUsed = true := by decide
  exact s.resetPin.good_iff.mpr ⟨hmem, hsmm, hfixed.1, hfixed.2, rfl⟩

theorem State.enterSmm_good {s : State} (h : s.good = true) : s.enterSmm.good = true := by
  obtain ⟨hmem, hsmm, hcfg, hdbg, hgather⟩ := s.good_iff.mp h
  exact s.enterSmm.good_iff.mpr ⟨hmem, saveSmm_wf _ _ hsmm, hcfg, hdbg, hgather⟩

theorem Settles.good {s t : State} (h : Settles s t) (hg : s.good = true) : t.good = true := by
  cases h with
  | reset u _ held _ _ ht => exact ht ▸ State.resetPin_good (held.good hg)
  | smi u held _ ht => exact ht ▸ State.enterSmm_good (held.good hg)
  | transfer u held ht _ => exact ht.good (held.good hg)

/-- What may leave at the end of a step is a transfer. -/
theorem State.emitEarly_transfer (s : State) : Transfer s s.emitEarly :=
  s.emitEarly_cycleStep.toBusStep.transfer

/-- Settles O14: `step_cases`, each case by the lemma that says what it keeps. -/
theorem stepKeepsGood : Obligations.StepKeepsGood := by
  intro s t hg h
  obtain ⟨w, rfl, hs | ⟨u, i, len, v, held, -, -, hv, rfl⟩⟩ := step_cases h
  · exact w.emitEarly_transfer.good (hs.good hg)
  · exact (State.emitEarly_transfer _).good ((State.finish_transfer i u v).good (exec_good hv (held.good hg)))

/-! ## A step other than RESET -/

theorem Held.cfgSel {s u : State} (h : Held s u) : u.cfgSel = s.cfgSel := (congrArg State.cfgSel h.cpu).trans rfl

theorem Held.smiLocked {s u : State} (h : Held s u) : u.smiLocked = s.smiLocked := by
  rw [State.smiLocked, h.cfg, h.inSmi, State.smiLocked]

theorem Held.al {s u : State} (h : Held s u) : u.al = s.al := by
  rw [State.al, h.gprs, State.al]

theorem Held.dx {s u : State} (h : Held s u) : u.dx = s.dx := by
  rw [State.dx, h.gprs, State.dx]

/-- An instruction that is an OUT to port 23h in `s` (rule R173). -/
def OutsToData (i : Instr) (s : State) : Prop := i = .outImm8Al 0x23 ∨ i = .outDxAl ∧ s.dx = 0x23

/-- The immediate port of a decoded OUT fits its byte (rule R134). -/
theorem decode_outImm8Al_lt {bs : List Byte} {p len : Nat} (h : decode bs = .ok (.outImm8Al p, len)) : p < 256 := by
  obtain ⟨r, hr, -, -, hb, -⟩ := row_of_decode h
  simp only [opcodeTable, List.mem_cons, List.not_mem_nil, or_false] at hr
  rcases hr with rfl | rfl | rfl | rfl | rfl | rfl | rfl | rfl | rfl | rfl | rfl | rfl | rfl | rfl | rfl | rfl | rfl
    | rfl <;> cases hb
  exact (byteAt bs 1).isLt

theorem eq_dataPort_of_immPort {p : Nat} (hp : p < 256) (h : immPort p = dataPort) : p = 0x23 := by
  have h : p % 65536 = 35 := congrArg BitVec.toNat h
  omega

/-- What a step other than RESET leaves in the configuration registers: they are as they were, or its instruction is
an OUT to port 23h and one of them takes the value rule R168 stores. -/
theorem step_cfg_cases {s t : State} (h : step s = .next t) (hr : s.inputs.head? ≠ some .reset) :
    t.cfg = s.cfg ∨ (s.runState = .running ∧ (∃ i len, decode s.fetchBytes = .ok (i, len) ∧ OutsToData i s)) ∧
      ∃ r, s.cfg.dataTarget s.cfgSel = .register r ∧
        t.cfg = s.cfg.assign r (writtenValue s.smiLocked s.cfg r s.al) := by
  obtain ⟨w, rfl, hs | ⟨u, i, len, v, held, hd, hrun, hv, rfl⟩⟩ := step_cases h
  · left
    rw [w.emitEarly_transfer.cfg]
    cases hs with
    | reset u rest _ hi _ _ => exact absurd (by rw [hi]; rfl) hr
    | smi u held _ ht => rw [ht, State.enterSmm_cfg, held.cfg]
    | transfer u held ht _ => rw [ht.cfg, held.cfg]
  · rw [(State.emitEarly_transfer _).cfg, (State.finish_transfer i u v).cfg]
    rcases exec_cases hv with hk | ⟨hi, x, ⟨r, hsel, -, rfl⟩, rfl⟩
    · exact .inl (hk.cfg.trans held.cfg)
    · rw [held.fetchBytes] at hd
      rw [held.cfg, held.cfgSel] at hsel
      refine .inr ⟨⟨hrun, i, len, hd, ?_⟩, r, hsel, ?_⟩
      · rcases hi with ⟨p, rfl, hp⟩ | ⟨rfl, hp⟩
        · exact .inl (by rw [eq_dataPort_of_immPort (decode_outImm8Al_lt hd) hp])
        · exact .inr ⟨rfl, by rw [← held.dx]; exact hp⟩
      · rw [State.advance_cfg, held.cfg, held.smiLocked, held.al]

/-- Settles O15: a step that writes a configuration register writes it by rule R168. -/
theorem smiLockHoldsUntilReset : Obligations.SmiLockHoldsUntilReset := by
  intro s t h hr hlock
  rcases step_cfg_cases h hr with e | ⟨-, r, -, e⟩
  · rw [e]
    exact ⟨hlock, fun _ => ⟨rfl, rfl, rfl, rfl, rfl⟩⟩
  · rw [e]
    refine ⟨CfgRegs.smiLock_write r s.al hlock, fun hsmi => ?_⟩
    have hl : s.smiLocked = true := by
      rw [State.smiLocked, hsmi]
      exact (Bool.and_true _).trans hlock
    rw [hl]
    obtain ⟨h1, h2, h3, h4, h5⟩ := CfgRegs.locked_write s.cfg r s.al
    exact ⟨h1, h2, h3, h4, h5⟩

/-- Settles O16: the other case of `step_cfg_cases`. -/
theorem configurationChangesThroughPortOnly : Obligations.ConfigurationChangesThroughPortOnly := by
  intro s t h hr hne
  rcases step_cfg_cases h hr with e | ⟨⟨hrun, i, len, hd, hi⟩, r, hsel, -⟩
  · exact absurd e hne
  · refine ⟨hrun, fun hn => ?_, i, ⟨len, hd⟩, hi⟩
    rw [hn] at hsel
    cases hsel

/-! ## TR -/

theorem State.idtKind_eq (s : State) (v : Byte) : s.idtKind v = (s.decodeGate (s.idtEntry v)).kind := by
  have h : (8 * BitVec.ofNat 32 v.toNat : Dword) = v.zeroExtend 32 <<< 3 := by
    have := v.isLt
    bv_omega
  rw [State.idtKind, h, State.idtEntry]

theorem taskGate_iff (ev : Event) (s : State) : TaskGate ev s ↔ ∃ v, ev.vector = some v ∧ s.idtKind v = .task := by
  simp only [TaskGate, State.idtKind_eq]

theorem Held.sameButBus {s u : State} (h : Held s u) :
    State.sameButBus { s with inputs := u.inputs, lastEvent := none } u := by
  unfold State.sameButBus
  conv_lhs => rw [h.cpu, h.lastEvent]

theorem Settles.taskGate_of_tr {s t : State} (h : Settles s t) (hr : s.inputs.head? ≠ some .reset)
    (htr : t.tr ≠ s.tr) : ∃ ev, t.lastEvent = some ev ∧ TaskGate ev s := by
  cases h with
  | reset u rest _ hi _ _ => exact absurd (by rw [hi]; rfl) hr
  | smi u held _ ht => exact absurd (by rw [ht, State.enterSmm_tr, held.tr]) htr
  | transfer u held _ hgate => exact hgate (by rw [held.tr]; exact htr)

/-- TR changed after an instruction: by the debug exception that followed it, through a task gate. -/
theorem State.finish_taskGate {i : Instr} {u v : State} (h : (State.finish i u v).tr ≠ v.tr) :
    (State.finish i u v).lastEvent = some .debug ∧ TaskGate .debug v := by
  rcases State.finish_cases i u v with e | ⟨due, e⟩ | e
  · exact absurd (by rw [e]) h
  · exact absurd (by rw [e]) h
  · rw [e] at h ⊢
    exact ⟨State.raiseDebug_lastEvent _ _ _, State.raiseDebug_taskGate h⟩

theorem State.lastEvent_of_finish_none {i : Instr} {u v : State} (h : (State.finish i u v).lastEvent = none) :
    v.lastEvent = none := by
  rcases State.finish_cases i u v with e | ⟨due, e⟩ | e <;> rw [e] at h
  · exact h
  · exact h
  · exact absurd h (by simp)

/-- TR changed by an instruction: it is LTR, or its event came through a task gate. -/
theorem exec_tr_cases {i : Instr} {u v : State} (h : exec i u = .next v) (htr : v.tr ≠ u.tr) :
    (RanQuietly i u v ∧ ((∃ rm, i = .ltrR16 rm) ∨ ∃ disp, i = .ltrM16 disp)) ∨
      ∃ ev, v.lastEvent = some ev ∧ TaskGate ev u := by
  rcases exec_event_cases h with ⟨x, ev, ret, hx, rfl⟩ | hq
  · exact .inr ⟨ev, by simp, hx.taskGate (State.raise_taskGate (by rw [hx.cpu.tr]; exact htr))⟩
  · exact .inl ⟨hq, hq.tr.resolve_left htr⟩

/-- Settles O17: TR changes in what settles the step, in the instruction, or in what follows it. -/
theorem trChangesByLtrOrTaskSwitchOnly : Obligations.TrChangesByLtrOrTaskSwitchOnly := by
  intro s t h hr htr ranLtr hltr
  obtain ⟨w, rfl, hs | ⟨u, i, len, v, held, hd, -, hv, rfl⟩⟩ := step_cases h
  · rw [w.emitEarly_cycleStep.cpu.tr] at htr
    rw [w.emitEarly_cycleStep.cpu.lastEvent]
    obtain ⟨ev, hev, hg⟩ := hs.taskGate_of_tr hr htr
    obtain ⟨n, hn, hk⟩ := (taskGate_iff ev s).mp hg
    exact ⟨fun hnone => absurd (hev.symm.trans hnone) (by simp), .inr (.inl ⟨ev, n, hev, hn, hk⟩)⟩
  · have he := (State.emitEarly_cycleStep (State.finish i u v)).cpu
    rw [he.tr] at htr
    rw [held.fetchBytes] at hd
    rw [he.lastEvent]
    by_cases hvu : v.tr = u.tr
    · obtain ⟨hev, hg⟩ := State.finish_taskGate (by rw [hvu, held.tr]; exact htr)
      obtain ⟨n, hn, hk⟩ := (taskGate_iff .debug v).mp hg
      obtain rfl : 1 = n := Option.some.inj hn
      exact ⟨fun hnone => absurd (hev.symm.trans hnone) (by simp),
        .inr (.inr ⟨u, i, len, v, held.sameButBus, hd, hv, .inr ⟨hev, hk⟩⟩)⟩
    · rcases exec_tr_cases hv hvu with ⟨hq, hi⟩ | ⟨ev, hev, hg⟩
      · exact ⟨fun _ => hltr.mpr ⟨i, len, hd, hi⟩, .inl (hltr.mpr ⟨i, len, hd, hi⟩)⟩
      · obtain ⟨n, hn, hk⟩ := (taskGate_iff ev s).mp (held.taskGate hg)
        refine ⟨fun hnone => ?_, .inr (.inr ⟨u, i, len, v, held.sameButBus, hd, hv, .inl ⟨ev, n, hev, hn, hk⟩⟩)⟩
        exact absurd (hev.symm.trans (State.lastEvent_of_finish_none hnone)) (by simp)

/-! ## CR0.NW and EFLAGS.ID -/

/-- What the two rules of rule R22 and rule R63 keep from `s` to `t`, under the configuration registers of both. -/
def LockedFlagsSame (s t : State) : Prop :=
  (s.cfg.lockNw = true → t.cfg.lockNw = true → t.nw = s.nw) ∧
    (s.cfg.cpuidEnabled = false → t.cfg.cpuidEnabled = false → t.idFlag = s.idFlag)

theorem Ran.lockedFlagsSame {s t : State} (h : Ran s t) : LockedFlagsSame s t :=
  ⟨fun hs _ => h.nw hs, fun hs _ => h.id hs⟩

/-- A transfer keeps the registers the flags are locked by, so it may follow. -/
theorem LockedFlagsSame.transfer {s t u : State} (h : LockedFlagsSame s t) (h' : Transfer t u) :
    LockedFlagsSame s u := by
  refine ⟨fun hs hu => ?_, fun hs hu => ?_⟩ <;> rw [h'.cfg] at hu
  · exact (h'.nw hu).trans (h.1 hs hu)
  · exact (h'.id hu).trans (h.2 hs hu)

theorem LockedFlagsSame.of_held {s u t : State} (held : Held s u) (h : LockedFlagsSame u t) : LockedFlagsSame s t := by
  unfold LockedFlagsSame State.nw State.idFlag at h ⊢
  rwa [held.cfg, held.cr0, held.eflags] at h

theorem exec_lockedFlagsSame {i : Instr} {u v : State} (h : exec i u = .next v) : LockedFlagsSame u v := by
  rcases exec_cases h with hk | ⟨-, x, ⟨r, -, -, rfl⟩, rfl⟩
  · exact hk.lockedFlagsSame
  · exact ⟨fun _ _ => rfl, fun _ _ => rfl⟩

theorem Settles.lockedFlagsSame {s t : State} (h : Settles s t) (hr : s.inputs.head? ≠ some .reset) :
    LockedFlagsSame s t := by
  cases h with
  | reset u rest _ hi _ _ => exact absurd (by rw [hi]; rfl) hr
  | smi u held _ ht =>
    exact ht ▸ .of_held held ⟨fun hu _ => State.enterSmm_nw hu, fun hu _ => State.enterSmm_idFlag hu⟩
  | transfer u held ht _ => exact .of_held held ht.lockedFlagsSame

/-- Settles O18: each part of a step keeps the locked flags, and a configuration write touches neither. -/
theorem lockedFlagsKept : Obligations.LockedFlagsKept := by
  intro s t h hr
  suffices LockedFlagsSame s t from this
  obtain ⟨w, rfl, hs | ⟨u, i, len, v, held, -, -, hv, rfl⟩⟩ := step_cases h
  · exact (hs.lockedFlagsSame hr).transfer w.emitEarly_transfer
  · exact ((LockedFlagsSame.of_held held (exec_lockedFlagsSame hv)).transfer (State.finish_transfer i u v)).transfer
      (State.emitEarly_transfer _)

end Sys2Proof.Machine
end

section
/-! The inputs a step answers: which request is ignored, which is taken, and which event a step that takes none can
raise. -/

namespace Sys2Proof.Machine

/-! ## The step, from what it prepares -/

/-- What a step makes of what it has come to before an instruction. -/
def Prepared.outcome : Prepared → Host.Outcome State Fault Refusal
  | .settled o => closeStep o
  | .execute i _ s => closeStep (andThen (exec i s) fun t => .next (State.finish i s t))

theorem step_eq_outcome (s : State) : step s = s.prepare.outcome := by
  unfold step Prepared.outcome
  rfl

theorem State.prepare_of_no_input {s : State} (hi : s.inputs = []) : s.prepare = s.begin.proceed := by
  have hb : s.begin.inputs = [] := s.begin_cycleStep.cpu.inputs.trans hi
  simp only [State.prepare, hb]

/-- Only a raised event comes before an input. -/
theorem State.prepare_of_input {s : State} {i : Input} {rest : List Input} (hi : s.inputs = i :: rest)
    (hr : ∀ ev ret, s.runState ≠ .raised ev ret) : s.prepare = State.answer i { s.begin with inputs := rest } := by
  have hb : s.begin.inputs = i :: rest := s.begin_cycleStep.cpu.inputs.trans hi
  have hn : ∀ ev ret, s.begin.runState ≠ .raised ev ret := by rw [s.begin_held.runState]; exact hr
  simp only [State.prepare, hb]
  split
  · rfl
  · exact absurd ‹_› (hn _ _)
  · rfl

/-- The start of a step does not look at the inputs. -/
theorem State.begin_with_inputs (s : State) (l : List Input) :
    State.begin { s with inputs := l } = { s.begin with inputs := l } := by
  unfold State.begin State.emitEarly
  dsimp only
  split
  · rfl
  · split
    · simp only [State.flushGather, *]
      rfl
    · rfl

theorem not_raised_of_running {s : State} (h : s.runState = .running) (ev : Event) (ret : Dword) :
    s.runState ≠ .raised ev ret := by
  rw [h]
  exact fun e => by cases e

/-- A step whose one input is answered by going on is the step without it. -/
theorem step_of_ignored {s : State} {i : Input} (hi : s.inputs = [i]) (hr : ∀ ev ret, s.runState ≠ .raised ev ret)
    (ha : State.answer i { s.begin with inputs := [] } = State.proceed { s.begin with inputs := [] }) :
    step s = step { s with inputs := [] } := by
  rw [step_eq_outcome, State.prepare_of_input hi hr, ha, step_eq_outcome,
    State.prepare_of_no_input (s := { s with inputs := [] }) rfl, State.begin_with_inputs s []]

/-! What becomes of each input. -/

/-- A request recognized for certain is taken by a CPU that runs instructions. -/
theorem State.request_of_running {s : State} (hr : s.isRunning = true) (i : Input) :
    s.request i true = .settled (.next (State.accept i { s with draws := s.draws + 1 })) := by
  simp only [State.request, hr, Bool.and_true, if_true]

theorem State.answer_smi {s : State} (hr : s.isRunning = true) (h : s.cfg.smiRecognized = true) :
    s.answer .smi = .settled (.next (State.enterSmm { s with draws := s.draws + 1 })) := by
  simp only [State.answer, h, if_true]
  exact State.request_of_running hr .smi

theorem State.answer_smi_ignored {s : State} (h : s.cfg.smiRecognized = false) : s.answer .smi = s.proceed := by
  simp [State.answer, h]

theorem State.answer_susp {s : State} (h : s.cfg.useSusp = true) :
    s.answer .susp = .settled (.next { s with powerState := .suspend }) := by
  simp only [State.answer, h, if_true]
  rfl

theorem State.answer_susp_ignored {s : State} (h : s.cfg.useSusp = false) : s.answer .susp = s.proceed := by
  simp [State.answer, h]

/-- An NMI during SMI service with NMI_EN = 1 (rule R195). -/
theorem State.answer_nmi_enabled {s : State} (hr : s.isRunning = true) (hs : s.inSmi = true)
    (h : s.cfg.nmiEn = true) :
    s.answer .nmi = .settled (.next (State.raise .nmi s.eip { s with draws := s.draws + 1 })) := by
  unfold State.answer
  dsimp only
  rw [if_pos hs, if_pos h]
  exact State.request_of_running hr .nmi

/-- With NMI_EN = 0 it is held or dropped, and the CPU goes on. -/
theorem State.answer_nmi_masked {s : State} (hs : s.inSmi = true) (h : s.cfg.nmiEn = false) :
    ∃ l, s.answer .nmi = State.proceed { s with inputs := l, draws := s.draws + 1 } := by
  unfold State.answer
  dsimp only
  rw [if_pos hs, if_neg (by simp [h])]
  split
  · exact ⟨_, rfl⟩
  · exact ⟨_, rfl⟩

/-- A hardware interrupt request is what the free choice makes of it (rule R197). -/
theorem State.answer_interrupt (s : State) (v : Byte) :
    s.answer (.interrupt v) = match Config.interruptOutcome s.draws with
      | .recognized => .settled (.next (State.accept (.interrupt v) { s with draws := s.draws + 1 }))
      | .held => State.proceed { s with inputs := s.inputs ++ [.interrupt v], draws := s.draws + 1 }
      | .dropped => State.proceed { s with draws := s.draws + 1 } :=
  rfl

theorem State.begin_isRunning {s : State} (hr : s.runState = .running) (hp : s.powerState = .normal)
    (l : List Input) : State.isRunning { s.begin with inputs := l } = true := by
  have h := s.begin_held
  simp only [State.isRunning, h.runState, h.powerState, hr, hp]
  rfl

/-! ## DR7 codes -/

theorem mem_breakpoints : ∀ i : Fin 4, i ∈ breakpoints := by decide

/-- A code "Not used" anywhere in DR7 (rule R59). -/
theorem DebugRegs.codesUsed_false {d : DebugRegs} (i : Fin 4) (h : d.rw i = 2 ∨ d.len i = 2) :
    d.codesUsed = false := by
  have hi : i ∈ breakpoints := mem_breakpoints i
  rw [DebugRegs.codesUsed, List.all_eq_false]
  exact ⟨i, hi, by rcases h with h | h <;> simp [h]⟩

/-- Settles O8: a running CPU fetches, and the fetch asks for the codes first. -/
theorem dr7NotUsedCodeRefused : Obligations.Dr7NotUsedCodeRefused := by
  intro s i hi hr hp hcode
  have hc : s.begin.dbg.codesUsed = false := by
    rw [s.begin_held.dbg]
    exact DebugRegs.codesUsed_false i hcode
  have hf : s.begin.fetch = .settled (.refused .dr7CodeNotUsed) := by
    simp [State.fetch, hc]
  rw [step_eq_outcome, State.prepare_of_running hi (by simp [State.isRunning, hr, hp]), hf]
  rfl

/-! ## SMI# and SUSP# -/

theorem CfgRegs.smiRecognized_iff (c : CfgRegs) :
    c.smiRecognized = true ↔ c.ccr1.getLsbD 1 = true ∧ c.ccr1.getLsbD 2 = false := by
  simp only [CfgRegs.smiRecognized, CfgRegs.useSmi, CfgRegs.smac, Bool.and_eq_true, Bool.not_eq_true']

/-- Settles O57: the request is answered by `enterSmm`, or as if it were not there. -/
theorem smiRecognition : Obligations.SmiRecognition := by
  intro s hr hp
  have hb := s.begin_held
  have hn := not_raised_of_running hr
  refine ⟨fun rest hi huse hsmac => ?_, fun hi hnot => ?_⟩
  · have hrec : s.begin.cfg.smiRecognized = true := by
      rw [hb.cfg]
      exact (CfgRegs.smiRecognized_iff _).mpr ⟨huse, hsmac⟩
    have hc := State.emitEarly_cycleStep
      (State.enterSmm { s.begin with inputs := rest, draws := s.begin.draws + 1 })
    refine ⟨_, ?_, hc.cpu.inSmi, hc.cpu.lastEvent, hc.cpu.cfg.trans hb.cfg, hc.cpu.inputs, hc.cpu.tr.trans hb.tr,
      hc.sameMem.trans hb.mem⟩
    rw [step_eq_outcome, State.prepare_of_input hi hn,
      State.answer_smi (s := { s.begin with inputs := rest }) (State.begin_isRunning hr hp rest) hrec]
    rfl
  · have hrec : s.begin.cfg.smiRecognized = false := by
      rw [hb.cfg, Bool.eq_false_iff]
      exact fun h => hnot ((CfgRegs.smiRecognized_iff _).mp h)
    exact step_of_ignored hi hn (State.answer_smi_ignored hrec)

theorem State.sameButBus_trans {s t u : State} (h : s.sameButBus t) (h' : t.sameButBus u) : s.sameButBus u := by
  unfold State.sameButBus at *
  rw [h', h]

theorem CycleStep.sameButBus {s t : State} (h : CycleStep s t) : s.sameButBus t := by
  have ht := h.cpu.eqn
  rwa [h.sameMem, h.sameSmm] at ht

/-- Settles O59: with USE_SUSP the power state is all that changes beside the bus; without it the pin is ignored. -/
theorem suspendPin : Obligations.SuspendPin := by
  intro s hr hp hi
  have hb := s.begin_held
  have hn := not_raised_of_running hr
  have hcfg : s.begin.cfg.useSusp = s.cfg.ccr2.getLsbD 7 := by
    rw [hb.cfg]
    rfl
  refine ⟨fun huse => ?_, fun huse => ⟨?_, ?_⟩⟩
  · have hu := hcfg.trans huse
    have hc := State.emitEarly_cycleStep { s.begin with inputs := [], powerState := .suspend }
    have hs : State.sameButBus { s with inputs := [], powerState := .suspend, lastEvent := none }
        { s.begin with inputs := [], powerState := .suspend } := by
      have h := congrArg (fun x : State => { x with inputs := [], powerState := .suspend }) hb.sameButBus
      exact h
    refine ⟨_, ?_, hc.cpu.powerState, ?_, State.sameButBus_trans hs hc.sameButBus⟩
    · rw [step_eq_outcome, State.prepare_of_input hi hn,
        State.answer_susp (s := { s.begin with inputs := [] }) hu]
      rfl
    · rw [State.suspa, hc.cpu.cfg, hc.cpu.powerState]
      exact if_pos hu
  · exact if_neg (by rw [CfgRegs.useSusp, huse]; decide)
  · exact step_of_ignored hi hn (State.answer_susp_ignored (hcfg.trans huse))

/-! ## Which events a step that answers no request can raise -/

/-- An event an input asks for (rules R195 to R197), and no instruction raises. -/
def Event.isRequest : Event → Bool
  | .nmi => true
  | .smi => true
  | .hardwareInterrupt _ => true
  | _ => false

/-- The event recorded from `s` to `t` is the one before, or no request's. -/
def NoRequest (s t : State) : Prop := t.lastEvent = s.lastEvent ∨ ∃ ev, t.lastEvent = some ev ∧ ev.isRequest = false

theorem NoRequest.of_raise {s : State} {ev : Event} (h : ev.isRequest = false) (u : State) (ret : Dword) :
    NoRequest s (u.raise ev ret) :=
  .inr ⟨ev, State.raise_lastEvent ev ret u, h⟩

/-- The event of a step that begins with none recorded. -/
theorem NoRequest.ne {s t : State} (h : NoRequest s t) (hs : s.lastEvent = none) {ev : Event}
    (hev : ev.isRequest = true) : t.lastEvent ≠ some ev := by
  rcases h with h | ⟨ev', h, hev'⟩ <;> rw [h]
  · simp [hs]
  · rintro ⟨⟩
    simp [hev] at hev'

theorem State.loadTr_noRequest {len : Nat} {sel : Word} {s t : State} (h : s.loadTr len sel = .next t) :
    NoRequest s t := by
  unfold State.loadTr at h
  split at h
  · cases h
    exact .of_raise rfl _ _
  · split at h
    · rename_i a _ _
      simp only at h
      split at h
      · cases h
        exact .inl (s.cpuRead_cycleStep a 8).cpu.lastEvent
      · cases h
        exact .of_raise rfl _ _
    · cases h

theorem exec_noRequest {i : Instr} {s t : State} (h : exec i s = .next t) : NoRequest s t := by
  cases i with
  | ltrR16 rm =>
    simp only [exec, execLtrR16] at h
    split at h
    · cases h; exact .of_raise rfl _ _
    · exact State.loadTr_noRequest h
  | ltrM16 disp =>
    simp only [exec, execLtrM16] at h
    split at h
    · cases h; exact .of_raise rfl _ _
    · split at h
      · have hc := (s.readCycle_cycleStep disp 2).cpu.lastEvent
        exact (State.loadTr_noRequest h).imp (·.trans hc) id
      · cases h
  | strM16 disp =>
    simp only [exec, execStrM16] at h
    split at h
    · split at h
      · rename_i u hu
        cases h; exact .inl (State.store_busStep hu).cpu.lastEvent
      · cases h
      · cases h
    · cases h; exact .of_raise rfl _ _
  | strR rm =>
    simp only [exec, execStrR] at h
    split at h
    · cases h; exact .inl rfl
    · cases h; exact .of_raise rfl _ _
  | inAlImm8 port => cases h; exact .inl (s.ioRead_ranQuietly (.inAlImm8 port) (immPort port)).lastEvent
  | inAlDx => cases h; exact .inl (s.ioRead_ranQuietly .inAlDx s.dx).lastEvent
  | outImm8Al port => exact .inl (State.outAl_ranQuietly (i := .outImm8Al port) h).lastEvent
  | outDxAl => exact .inl (State.outAl_ranQuietly (i := .outDxAl) h).lastEvent
  | hlt =>
    simp only [exec, execHlt] at h
    split at h
    · cases h; exact .of_raise rfl _ _
    · cases h; exact .inl rfl
  | cpuid =>
    simp only [exec, execCpuid] at h
    split at h
    · cases h; exact .inl rfl
    · cases h; exact .of_raise rfl _ _
  | int3 => cases h; exact .of_raise rfl _ _
  | loopRel8 cb => cases h; exact .inl rfl
  | movAlImm8 ib => cases h; exact .inl rfl
  | movRm8R8 rm reg => cases h; exact .inl rfl
  | movEaxImm32 id => cases h; exact .inl rfl
  | movEcxImm32 id => cases h; exact .inl rfl
  | andAlImm8 ib => cases h; exact .inl rfl
  | orAlImm8 ib => cases h; exact .inl rfl

theorem State.finish_noRequest {i : Instr} {s u v : State} (h : NoRequest s v) : NoRequest s (State.finish i u v) := by
  rcases State.finish_cases i u v with e | ⟨due, e⟩ | e <;> rw [e]
  · exact h
  · exact h
  · exact .of_raise rfl _ _

/-- What is prepared at `s` raises, before an instruction, no request's event; an instruction begins with the event
of `s` recorded. -/
def Prepared.NoRequest (s : State) : Prepared → Prop
  | .settled (.next t) => Machine.NoRequest s t
  | .settled (.fault _) => True
  | .settled (.refused _) => True
  | .execute _ _ u => u.lastEvent = s.lastEvent

theorem State.fetch_noRequest (s : State) : s.fetch.NoRequest s := by
  unfold State.fetch
  split
  · split
    · split
      · exact Machine.NoRequest.of_raise rfl _ _
      · split
        · trivial
        · rename_i i len _
          dsimp only
          split
          · exact Machine.NoRequest.of_raise rfl _ _
          · exact (s.fetchCycle_cycleStep len).cpu.lastEvent
    · trivial
  · trivial

theorem State.proceed_noRequest {s : State} (hr : ∀ ev ret, s.runState ≠ .raised ev ret) :
    s.proceed.NoRequest s := by
  unfold State.proceed
  split
  · exact absurd ‹_› (hr _ _)
  · exact .inl rfl
  · split
    · exact s.fetch_noRequest
    · exact .inl rfl

theorem Prepared.outcome_noRequest {s t : State} {p : Prepared} (h : p.NoRequest s) (ht : p.outcome = .next t) :
    Machine.NoRequest s t := by
  cases p with
  | settled o =>
    obtain ⟨w, rfl, rfl⟩ := closeStep_next ht
    exact h.imp w.emitEarly_cycleStep.cpu.lastEvent.trans fun ⟨ev, he, hn⟩ =>
      ⟨ev, w.emitEarly_cycleStep.cpu.lastEvent.trans he, hn⟩
  | execute i len u =>
    obtain ⟨w, hw, rfl⟩ := closeStep_next ht
    obtain ⟨v, hv, hw⟩ := andThen_next hw
    cases hw
    have hf : Machine.NoRequest s (State.finish i u v) :=
      State.finish_noRequest ((exec_noRequest hv).imp (·.trans h) id)
    have he := (State.emitEarly_cycleStep (State.finish i u v)).cpu.lastEvent
    exact hf.imp he.trans fun ⟨ev, hev, hn⟩ => ⟨ev, he.trans hev, hn⟩

/-- A step that goes on with the program, whatever becomes of its inputs, raises no request's event. -/
theorem step_not_request {s t : State} {inputs : List Input} {draws : Nat} {ev : Event}
    (hr : ∀ ev ret, s.runState ≠ .raised ev ret)
    (hp : s.prepare = State.proceed { s.begin with inputs := inputs, draws := draws })
    (ht : step s = .next t) (hev : ev.isRequest = true) : t.lastEvent ≠ some ev := by
  rw [step_eq_outcome, hp] at ht
  have hb := s.begin_held.with_inputs inputs draws
  exact (Prepared.outcome_noRequest (State.proceed_noRequest (by rw [hb.runState]; exact hr)) ht).ne
    hb.lastEvent hev

/-! ## NMI and hardware interrupts -/

/-- Settles O58: NMI_EN decides whether the request is taken or the program goes on. -/
theorem nmiDuringSmiService : Obligations.NmiDuringSmiService := by
  intro s hr hp hsmi hi
  have hb := s.begin_held
  have hn := not_raised_of_running hr
  have hprep := State.prepare_of_input hi hn
  have hin : s.begin.inSmi = true := hb.inSmi.trans hsmi
  have hcfg : s.begin.cfg.nmiEn = s.cfg.ccr3.getLsbD 1 := by
    rw [hb.cfg]
    rfl
  refine ⟨fun hen => ?_, fun hen t ht => ?_⟩
  · rw [step_eq_outcome, hprep, State.answer_nmi_enabled (s := { s.begin with inputs := [] })
      (State.begin_isRunning hr hp []) hin (hcfg.trans hen), ← hb.eip]
    rfl
  · obtain ⟨l, ha⟩ := State.answer_nmi_masked (s := { s.begin with inputs := [] }) hin (hcfg.trans hen)
    exact step_not_request hn (hprep.trans ha) ht rfl

/-- The LOCK# pin of an interrupt acknowledge cycle (rules R18 and R119). -/
theorem State.intAckCycle_lock (s : State) (v : Byte) :
    (s.intAckCycle v).lock = !(s.cfg.noLock || s.cfg.regWl intAckAddress) := by
  simp [State.intAckCycle, lockAsserted, CfgRegs.weakLock]

/-- Outside every region no permissive attribute holds (rule R110). -/
theorem CfgRegs.regWl_outside {c : CfgRegs} {a : Dword} (h : ∀ i, c.inRegion i a = false) : c.regWl a = false := by
  simp [CfgRegs.regWl, CfgRegs.grantedByAll, CfgRegs.regionsOf_eq_nil h]

/-- Settles O60: the free choice has the request taken, held or dropped. -/
theorem hardwareInterrupt : Obligations.HardwareInterrupt := by
  intro s v hi hn
  have hb := s.begin_held
  have hprep := (State.prepare_of_input hi hn).trans (State.answer_interrupt { s.begin with inputs := [] } v)
  dsimp only at hprep
  cases hc : Config.interruptOutcome s.begin.draws with
  | recognized =>
    rw [hc] at hprep
    refine ⟨State.intAckCycle { s.begin with inputs := [], draws := s.begin.draws + 1 } v, ?_, rfl, rfl, rfl,
      fun hl => ?_, fun hl hout => ?_⟩
    · rw [step_eq_outcome, hprep, ← hb.eip]
      rfl
    · rw [State.intAckCycle_lock]
      simp only [hb.cfg, CfgRegs.noLock, hl, Bool.true_or, Bool.not_true]
    · rw [State.intAckCycle_lock]
      simp only [hb.cfg, CfgRegs.noLock, hl, CfgRegs.regWl_outside hout, Bool.or_false, Bool.not_false]
  | held =>
    rw [hc] at hprep
    exact fun t ht => step_not_request hn hprep ht rfl
  | dropped =>
    rw [hc] at hprep
    exact fun t ht => step_not_request hn hprep ht rfl

end Sys2Proof.Machine
end

section
/-! The configuration registers: their indexes, what reading one gives, and what their ARRs say of an address. -/

namespace Sys2Proof.Machine

/-- Settles O32: the index map by its arithmetic, every index and every region in turn. -/
theorem indexMapAndReservedBits : Obligations.IndexMapAndReservedBits := by
  refine ⟨by decide, by decide, by decide, rfl, rfl, rfl, rfl, rfl, rfl, rfl, rfl, rfl, rfl, rfl, rfl, rfl, rfl,
    fun _ _ => rfl, fun _ => rfl, rfl, rfl⟩

/-- Settles O36: CCR4.CPUID picks the branch. -/
theorem cpuidRule : Obligations.CpuidRule := by
  intro s
  refine ⟨fun h => if_neg ?_, fun h => ⟨_, if_pos h, rfl, rfl, fun _ => rfl⟩⟩
  rw [CfgRegs.cpuidEnabled, h]
  decide

/-! ## IN from port 23h -/

theorem State.indexAccessible_iff (s : State) (idx : Byte) :
    s.indexAccessible idx ↔ s.cfg.accessible idx = true := by
  simp only [State.indexAccessible, CfgRegs.accessible, alwaysAccessible, CfgRegs.mapen, Bool.or_eq_true,
    Bool.and_eq_true, decide_eq_true_eq, beq_iff_eq, or_assoc]

/-- The register a port 23h access goes to (rule R165). -/
theorem CfgRegs.dataTarget_register {c : CfgRegs} {idx : Byte} {r : CfgReg} (ha : c.accessible idx = true)
    (hr : cfgRegOf idx = some r) : c.dataTarget (some idx) = .register r := by
  simp only [CfgRegs.dataTarget, ha, if_true, hr]

/-- An IN is an IN from the port it addresses (rules R134 and R173). -/
theorem exec_of_insFrom {s : State} {i : Instr} {port : Word} (h : s.insFrom i port) :
    exec i s = .next (s.inAl i.length port) := by
  rcases h with ⟨p, rfl, -, rfl⟩ | ⟨rfl, hp⟩
  · have hp : immPort port.toNat = port := BitVec.ofNat_toNat _ port
    show Host.Outcome.next (s.inAl 2 (immPort port.toNat)) = _
    rw [hp]
    rfl
  · show Host.Outcome.next (s.inAl 1 s.dx) = _
    rw [show s.dx = port from hp]
    rfl

/-- A port 23h read that goes to a register (rules R165 and R167). -/
theorem State.ioRead_register {s : State} {r : CfgReg} (h : s.cfg.dataTarget s.cfgSel = .register r) :
    s.ioRead 0x23 = State.cfgRead r { s with cfgSel := none } := by
  show s.readData = _
  simp only [State.readData, h]

/-- Outside the reserved positions the byte read is the register's (rule R167). -/
theorem State.cfgRead_getLsbD (r : CfgReg) (s : State) {n : Nat} (hn : n < 8) (hr : r.resmask.getLsbD n = false) :
    (State.cfgRead r s).2.getLsbD n = (s.cfg.read r).getLsbD n := by
  simp only [State.cfgRead, BitVec.getLsbD_or, BitVec.getLsbD_and, BitVec.getLsbD_not, hr, hn, decide_true,
    Bool.not_false, Bool.and_true, Bool.and_false, Bool.or_false]

theorem setLowByte_above (d : Dword) (b : Byte) : (setLowByte d b).extractLsb' 8 24 = d.extractLsb' 8 24 := by
  apply BitVec.eq_of_getLsbD_eq
  intro i hi
  have h8 : ¬ 8 + i < 8 := by omega
  rw [BitVec.getLsbD_extractLsb', setLowByte_getLsbD, if_neg h8, Nat.add_sub_cancel_left, decide_eq_true hi,
    Bool.true_and]

/-- Settles O31: the selection picks the register, and AL takes the byte read. -/
theorem inReadsConfigurationRegister : Obligations.InReadsConfigurationRegister := by
  intro s i idx r hi hsel hacc hreg
  have ht : s.cfg.dataTarget s.cfgSel = .register r := by
    rw [hsel]
    exact CfgRegs.dataTarget_register ((s.indexAccessible_iff idx).mp hacc) hreg
  have he := exec_of_insFrom hi
  rw [State.inAl, State.ioRead_register ht] at he
  refine ⟨_, he, fun n hn hres => ?_, setLowByte_above _ _, rfl⟩
  exact (congrArg (BitVec.getLsbD · n) (setLowByte_low _ _)).trans (State.cfgRead_getLsbD r _ hn hres)

/-! ## Address regions -/

/-- The block size of the SIZE table in KBytes: region 7's, and the other regions' (rule R42). -/
def blockKBytes (i : Fin 8) (size : Nat) : Nat :=
  if i = 7 then
    [0, 256, 512, 1024, 2048, 4096, 8192, 16384, 32768, 65536, 131072, 262144, 524288, 1048576, 2097152,
      4194304].getD size 0
  else
    [0, 4, 8, 16, 32, 64, 128, 256, 512, 1024, 2048, 4096, 8192, 16384, 32768, 4194304].getD size 0

/-- `log2block` is the SIZE table (rules R42 and R43). -/
theorem two_pow_log2block : ∀ (i : Fin 8) (sz : BitVec 4), sz ≠ 0 →
    2 ^ CfgRegs.log2block i sz = 1024 * blockKBytes i sz.toNat := by
  decide

theorem CfgRegs.size_toNat (c : CfgRegs) (i : Fin 8) : (c.size i).toNat = (c.arr i).b2.toNat % 0x10 := by
  rw [CfgRegs.size, toNat_extract_div, Nat.pow_zero, Nat.div_one]
  rfl

/-- A number is in the block of `n` that begins at a multiple `m` of `n` when `m` is what it is rounded down to. -/
theorem sub_mod_eq_iff {a m n : Nat} (hn : 0 < n) (hm : m % n = 0) : a - a % n = m ↔ m ≤ a ∧ a < m + n := by
  have ha := Nat.mod_lt a hn
  have hle := Nat.mod_le a n
  constructor
  · intro h
    omega
  · rintro ⟨h1, h2⟩
    obtain ⟨k, rfl⟩ := Nat.exists_eq_add_of_le h1
    rw [Nat.add_mod, hm, Nat.zero_add, Nat.mod_mod, Nat.mod_eq_of_lt (by omega)]
    omega

/-- An aligned region holds an address when the address is among the block's bytes (rule R105). -/
theorem CfgRegs.block_holds_iff {c : CfgRegs} {i : Fin 8} (ha : c.aligned i = true) (a : Dword) :
    (a &&& ~~~ (c.offsetMask i) == c.start i) = true ↔
      (c.start i).toNat ≤ a.toNat ∧ a.toNat < (c.start i).toNat + c.blockBytes i := by
  rw [beq_iff_eq, ← BitVec.toNat_inj, CfgRegs.offsetMask, CfgRegs.blockBytes,
    CfgRegs.toNat_and_not_offset (CfgRegs.log2block_le i _)]
  exact sub_mod_eq_iff (Nat.two_pow_pos _) ((CfgRegs.aligned_iff c i).mp ha)

theorem CfgRegs.arrEnabled_iff (c : CfgRegs) (i : Fin 8) :
    c.arrEnabled i = true ↔ c.ccr5.getLsbD 5 = true ∨ i = 3 ∧ c.ccr1.getLsbD 7 = true := by
  simp only [CfgRegs.arrEnabled, CfgRegs.arren, CfgRegs.sm3, Bool.or_eq_true, Bool.and_eq_true, decide_eq_true_eq]

/-- `in_region(i, a)` in numbers (rules R39, R42, R104 and R105). -/
theorem CfgRegs.inRegion_iff (c : CfgRegs) (i : Fin 8) (a : Dword) :
    c.inRegion i a = true ↔
      (c.ccr5.getLsbD 5 = true ∨ i = 3 ∧ c.ccr1.getLsbD 7 = true) ∧ c.size i ≠ 0 ∧
        (c.start i).toNat % c.blockBytes i = 0 ∧
        (c.start i).toNat ≤ a.toNat ∧ a.toNat < (c.start i).toNat + c.blockBytes i := by
  simp only [CfgRegs.inRegion, CfgRegs.inForce, Bool.and_eq_true, CfgRegs.arrEnabled_iff, bne_iff_ne, and_assoc,
    ← CfgRegs.aligned_iff]
  exact and_congr_right fun _ => and_congr_right fun _ => and_congr_right fun ha => CfgRegs.block_holds_iff ha a

/-- Settles O43: the start address and the block size are the fields of the ARR bytes. -/
theorem regionMembership : Obligations.RegionMembership := by
  intro c i a start block size hstart hsize hblock
  rw [CfgRegs.inRegion_iff, CfgRegs.start_toNat, ← hstart]
  have hz : c.size i ≠ 0 ↔ size ≠ 0 := by
    rw [hsize, ← CfgRegs.size_toNat, Ne, ← BitVec.toNat_inj]
    rfl
  refine and_congr_right fun _ => (and_congr_left' hz).trans (and_congr_right fun hne => ?_)
  have hb : c.blockBytes i = block := by
    rw [CfgRegs.blockBytes, two_pow_log2block i _ (hz.mpr hne), CfgRegs.size_toNat, ← hsize, hblock]
    rfl
  rw [hb]

end Sys2Proof.Machine
end

section
/-! The debug registers: what a debug exception records of its causes, what a task switch clears, and when the condition
of a breakpoint holds. -/

namespace Sys2Proof.Machine

/-! ## DR6 and DR7, bit by bit -/

theorem setBitIf_getLsbD (b : Bool) {k : Nat} (hk : k < 32) (v : Dword) (n : Nat) :
    (setBitIf b k v).getLsbD n = (v.getLsbD n || b && decide (n = k)) := by
  cases b with
  | false => simp [setBitIf]
  | true =>
    by_cases hn : n = k
    · subst hn
      simp [setBitIf, hk]
    · have : (1#32 <<< k).getLsbD n = false := by
        simp [BitVec.getLsbD_shiftLeft, BitVec.getLsbD_one]
        omega
      simp [setBitIf, BitVec.getLsbD_or, this, hn]

/-- Every bit of DR6 after a debug exception (rules R58 and R191). -/
theorem DebugRegs.dr6After_getLsbD (d : DebugRegs) (c : DebugCause) (n : Nat) :
    (d.dr6After c).getLsbD n = (d.dr6.getLsbD n || (d.occurred c.accesses 0 && decide (n = 0))
      || (d.occurred c.accesses 1 && decide (n = 1)) || (d.occurred c.accesses 2 && decide (n = 2))
      || (d.occurred c.accesses 3 && decide (n = 3)) || (c.singleStep && decide (n = 14))
      || (c.taskSwitch && decide (n = 15))) := by
  unfold DebugRegs.dr6After
  rw [setBitIf_getLsbD _ (by decide), setBitIf_getLsbD _ (by decide), setBitIf_getLsbD _ (by decide),
    setBitIf_getLsbD _ (by decide), setBitIf_getLsbD _ (by decide), setBitIf_getLsbD _ (by decide)]

theorem getLsbD_and_not (v m : Dword) (n : Nat) :
    (v &&& ~~~ m).getLsbD n = (v.getLsbD n && !m.getLsbD n) := by
  by_cases hn : n < 32
  · simp [hn]
  · simp [BitVec.getLsbD_of_ge v n (by omega)]

theorem gdMask_getLsbD (n : Nat) : gdMask.getLsbD n = decide (n = 13) := by
  have h : gdMask.getLsbD n = _ := setBitIf_getLsbD true (k := 13) (by decide) 0 n
  rw [h]
  simp

/-- Every bit of DR7 after a debug exception: GD is cleared (rule R191). -/
theorem DebugRegs.record_dr7_getLsbD (d : DebugRegs) (c : DebugCause) (n : Nat) :
    (d.record c).dr7.getLsbD n = (d.dr7.getLsbD n && !decide (n = 13)) := by
  rw [← gdMask_getLsbD]
  exact getLsbD_and_not _ _ _

/-! ## What a transfer does to the debug registers -/

theorem State.loadTask_dbg (k : TssKind) (t : Dword) (s : State) : (s.loadTask k t).dbg = s.dbg := by
  cases k <;> exact (State.cpuReads_cycleStep _ s).cpu.dbg

/-- A task switch clears every Li or does nothing to the debug registers. -/
theorem State.taskSwitch_dbg {f : TaskFunction} {sel : Word} {ret : Dword} {s t : State}
    (h : s.taskSwitch f sel ret = .next t) : t.dbg = s.dbg ∨ t.dbg = s.dbg.clearLocal := by
  rcases State.taskSwitch_cases h with ⟨why, -, rfl⟩ | ⟨-, desc, kept, w, hw, h⟩
  · exact .inl rfl
  rcases State.startTask_cases h with ⟨why, -, rfl⟩ | ⟨u, hu, ⟨why, -, rfl⟩ | ⟨v, hv, hr⟩⟩
  · exact .inl hw.cpu.dbg
  · exact .inl (hu.cpu.dbg.trans hw.cpu.dbg)
  · have hdbg : v.dbg = s.dbg := by
      rw [hv.cpu.dbg, State.loadTask_dbg]
      exact hu.cpu.dbg.trans hw.cpu.dbg
    rcases hr with ⟨why, -, rfl⟩ | rfl <;> exact .inr (congrArg DebugRegs.clearLocal hdbg)

/-- Taking an exception leaves the debug registers, or a task gate has led to a task switch. -/
theorem State.raise_dbg (ev : Event) (ret : Dword) (s : State) :
    (s.raise ev ret).dbg = s.dbg ∨ TaskGate ev s ∧ (s.raise ev ret).dbg = s.dbg.clearLocal := by
  rcases State.raise_cases ev ret s with h | h
  · obtain ⟨v, g, u, hv, rfl, hu, ⟨-, he⟩ | ⟨hk, ht⟩⟩ := State.deliver_cases h
    · exact .inl ((State.enterHandler_keeps he).2.2.2.trans hu.cpu.dbg)
    · refine (State.taskSwitch_dbg ht).imp (·.trans hu.cpu.dbg) fun hd => ⟨⟨v, hv, hk⟩, ?_⟩
      rw [hd, hu.cpu.dbg]
  · exact .inl (by rw [h])

/-- A debug exception records its causes, and a task gate may clear every Li after that. -/
theorem State.raiseDebug_dbg (c : DebugCause) (ret : Dword) (s : State) :
    (s.raiseDebug c ret).dbg = s.dbg.record (s.debugCause c) ∨
      TaskGate .debug s ∧ (s.raiseDebug c ret).dbg = (s.dbg.record (s.debugCause c)).clearLocal :=
  (State.raise_dbg .debug ret { s with dbg := s.dbg.record (s.debugCause c), debugDue := none }).imp id
    fun ⟨hg, hd⟩ => ⟨hg.congr rfl fun _ => rfl, hd⟩

theorem State.raiseDebug_dr6 (c : DebugCause) (ret : Dword) (s : State) :
    (s.raiseDebug c ret).dbg.dr6 = s.dbg.dr6After (s.debugCause c) := by
  rcases s.raiseDebug_dbg c ret with h | ⟨-, h⟩ <;> rw [h] <;> rfl

/-- Settles O55: every bit of DR6 and DR7 by the lemma that says what it becomes. -/
theorem debugExceptionRecords : Obligations.DebugExceptionRecords := by
  intro s c d ret hnone hdue
  have hd : s.debugCause c = d := by
    unfold State.debugCause
    split
    · exact (hnone ‹_›).symm
    · exact (hdue _ ‹_›).symm
  have hdr6 := s.raiseDebug_dr6 c ret
  rw [hd] at hdr6
  have hbit := fun n => (congrArg (BitVec.getLsbD · n) hdr6).trans (DebugRegs.dr6After_getLsbD s.dbg d n)
  refine ⟨State.raiseDebug_lastEvent c ret s, fun i => ?_, ?_, ?_, fun n hn => ?_, ?_, fun hg n hn => ?_,
    (State.raiseDebug_transfer c ret s).dr⟩
  · have h := hbit i.val
    fin_cases i <;> simpa [DebugRegs.occurred] using h
  · simpa using hbit 14
  · simpa using hbit 15
  · simp only [List.mem_cons, List.not_mem_nil, or_false, not_or] at hn
    obtain ⟨h0, h1, h2, h3, h14, h15⟩ := hn
    simpa [h0, h1, h2, h3, h14, h15] using hbit n
  · rcases s.raiseDebug_dbg c ret with h | ⟨-, h⟩ <;> rw [h]
    · rw [DebugRegs.record_dr7_getLsbD]
      simp
    · refine (getLsbD_and_not _ _ _).trans ?_
      rw [DebugRegs.record_dr7_getLsbD]
      simp
  · rcases s.raiseDebug_dbg c ret with h | ⟨hgate, -⟩
    · rw [h, DebugRegs.record_dr7_getLsbD]
      simp [hn]
    · obtain ⟨v, hv, hk⟩ := (taskGate_iff .debug s).mp hgate
      obtain rfl : 1 = v := Option.some.inj hv
      exact absurd hk hg

/-! ## The condition of a breakpoint -/

/-- Two ranges of addresses, modulo 2^32, share one when one of them begins in the other. -/
theorem ranges_meet_iff {a b : Dword} {m n : Nat} (hm : 0 < m) (hn : 0 < n) :
    ((a - b).toNat < n ∨ (b - a).toNat < m) ↔ ∃ x : Dword, (x - a).toNat < m ∧ (x - b).toNat < n := by
  constructor
  · rintro (h | h)
    · exact ⟨a, by simpa using hm, h⟩
    · exact ⟨b, h, by simpa using hn⟩
  · rintro ⟨x, h1, h2⟩
    by_cases hle : (x - a).toNat ≤ (x - b).toNat
    · left
      bv_omega
    · right
      bv_omega

/-- The length a LENi code selects (rule R59). -/
theorem DebugRegs.lenBytes_eq (d : DebugRegs) (i : Fin 4) :
    d.lenBytes i = if d.len i = 0 then 1 else if d.len i = 1 then 2 else 4 := by
  have h : ∀ c : BitVec 2, (match c.toNat with | 0 => 1 | 1 => 2 | _ => 4) =
      if c = 0 then 1 else if c = 1 then 2 else 4 := by decide
  exact h (d.len i)

theorem DebugRegs.lenBytes_two_pow (d : DebugRegs) (i : Fin 4) : ∃ n, n ≤ 32 ∧ d.lenBytes i = 2 ^ n := by
  rw [d.lenBytes_eq i]
  split
  · exact ⟨0, by decide, rfl⟩
  · split
    · exact ⟨1, by decide, rfl⟩
    · exact ⟨2, by decide, rfl⟩

/-- A breakpoint begins at DRi, its low bits ignored (rule R211). -/
theorem DebugRegs.base_toNat (d : DebugRegs) (i : Fin 4) :
    (d.base i).toNat = (d.dr i).toNat - (d.dr i).toNat % d.lenBytes i := by
  obtain ⟨n, hn, e⟩ := d.lenBytes_two_pow i
  rw [DebugRegs.base, e]
  exact CfgRegs.toNat_and_not_offset hn _

/-- The kinds of access an R/Wi code that is used selects (rules R59 and R211). -/
theorem DebugRegs.typeOk_iff {d : DebugRegs} (i : Fin 4) (k : AccessKind) :
    d.typeOk i k = true ↔ d.rw i = 0 ∧ d.len i = 0 ∧ k = .execute ∨ d.rw i = 1 ∧ k = .write
      ∨ d.rw i = 3 ∧ (k = .read ∨ k = .write) := by
  have h : ∀ (c l : BitVec 2), (match c.toNat, k with
        | 0, .execute => l == 0
        | 1, .write => true
        | 3, .read => true
        | 3, .write => true
        | _, _ => false) = true ↔
      c = 0 ∧ l = 0 ∧ k = .execute ∨ c = 1 ∧ k = .write ∨ c = 3 ∧ (k = .read ∨ k = .write) := by
    cases k <;> decide
  exact h (d.rw i) (d.len i)

theorem DebugRegs.occurred_iff (d : DebugRegs) (accs : List Access) (i : Fin 4) :
    d.occurred accs i = true ↔ ∃ acc ∈ accs, d.cond i acc = true := by
  rw [DebugRegs.occurred, List.any_eq_true]

theorem State.ltrAccessFault_eq_none (s : State) : s.ltrAccessFault = none ↔ s.pmode = true ∧ s.cpl = 0 := by
  unfold State.ltrAccessFault
  by_cases hp : s.pmode <;> by_cases hc : s.cpl = 0 <;> simp [hp, hc]

/-- Settles O56: the condition, a list of accesses, and the accesses an instruction makes. -/
theorem breakpointCondition : Obligations.BreakpointCondition := by
  refine ⟨fun d i acc rw lenCode len base _ hbytes hrw hcode hlen hbase => ?_, fun d accs => ?_, fun s => ?_⟩
  · have hl : d.lenBytes i = len := by
      rw [hlen, hcode]
      exact d.lenBytes_eq i
    have hb : d.base i = base := BitVec.eq_of_toNat_eq (by rw [d.base_toNat i, hl, hbase])
    have hpos : 0 < len := by
      rw [hlen]
      split
      · decide
      · split <;> decide
    rw [DebugRegs.cond, hl, hb, Bool.and_eq_true, Bool.or_eq_true, decide_eq_true_eq, decide_eq_true_eq,
      ranges_meet_iff hbytes hpos, DebugRegs.typeOk_iff, hrw, hcode]
    rfl
  · refine ⟨d.occurred_iff accs, ?_⟩
    simp only [DebugRegs.hit, List.any_eq_true, mem_breakpoints, true_and, Bool.and_eq_true, DebugRegs.occurred_iff,
      DebugRegs.enabled, DebugRegs.global, DebugRegs.local', Bool.or_eq_true, or_comm]
  · refine ⟨rfl, rfl, rfl, fun disp => ?_, fun disp => rfl, fun i hi => ?_⟩
    · simp only [State.dataAccesses, State.ltrAccessFault_eq_none]
    · cases i with
      | ltrM16 disp => exact absurd rfl (hi disp).1
      | strM16 disp => exact absurd rfl (hi disp).2
      | _ => rfl

end Sys2Proof.Machine
end

section
/-! A store to write-protected memory: what each of the three effects leaves of memory and of the record of cycles. -/

namespace Sys2Proof.Machine

/-! ## Cycles of the write-gather buffer -/

/-- What waits leaves as one write cycle. -/
theorem State.flushGather_events {s : State} {g : GatherBuffer} (hg : s.gather = some g) :
    ∃ e, s.flushGather.events = s.events ++ [e] ∧ e.carries .memWrite g.start g.bytes := by
  refine ⟨memCycle .memWrite g.start g.bytes g.attrs, ?_, rfl, rfl, rfl, rfl, rfl⟩
  unfold State.flushGather
  rw [hg]

theorem State.flushGather_of_none {s : State} (hg : s.gather = none) : s.flushGather = s := by
  unfold State.flushGather
  rw [hg]

theorem State.noteAccess_of_none {s : State} (hg : s.gather = none) (a : Dword) : s.noteAccess a = s := by
  unfold State.noteAccess
  rw [hg]

/-- What waits stays, or leaves early as one write cycle (rule R122). -/
theorem State.emitEarly_cases {s : State} {g : GatherBuffer} (hg : s.gather = some g) :
    s.emitEarly = s.draw ∨ s.emitEarly = s.flushGather.draw := by
  unfold State.emitEarly
  rw [hg]
  dsimp only
  split
  · exact .inr rfl
  · exact .inl rfl

/-- An access that is no write makes no cycle, or has what waits leave as one. -/
theorem State.noteAccess_events {s : State} {g : GatherBuffer} (hg : s.gather = some g) (a : Dword) :
    (s.noteAccess a).events = s.events ∨
      ∃ e, (s.noteAccess a).events = s.events ++ [e] ∧ e.carries .memWrite g.start g.bytes := by
  have hf := State.flushGather_events hg
  unfold State.noteAccess
  rw [hg]
  dsimp only
  split
  · exact .inr hf
  · rcases State.emitEarly_cases hg with h | h <;> rw [h]
    · exact .inl rfl
    · exact .inr hf

/-- A write outside a gathered region is a cycle of its own, after what waited (rules R121 and R122). -/
theorem State.writeCycle_ungathered {s : State} {a : Dword} (h : s.cfg.regWg a = false) (bs : List Byte) :
    ∃ before e, (s.writeCycle a bs).events = s.events ++ before ++ [e] ∧ e.carries .memWrite a bs
      ∧ (s.gather = none → before = [])
      ∧ ∀ g, s.gather = some g → ∃ e', before = [e'] ∧ e'.carries .memWrite g.start g.bytes := by
  have hw : (s.writeCycle a bs).events =
      s.draw.flushGather.events ++ [memCycle .memWrite a bs (s.attributesAt a)] := by
    simp only [State.writeCycle, State.attributesAt, CfgRegs.attributes, h, Bool.false_eq_true, if_false]
    rfl
  rw [hw]
  cases hg : s.gather with
  | none =>
    rw [State.flushGather_of_none (s := s.draw) hg]
    exact ⟨[], _, by rw [List.append_nil]; rfl, ⟨rfl, rfl, rfl, rfl, rfl⟩, fun _ => rfl, fun g h => by cases h⟩
  | some g =>
    obtain ⟨e, he, hc⟩ := State.flushGather_events (s := s.draw) hg
    rw [he]
    exact ⟨[e], _, rfl, ⟨rfl, rfl, rfl, rfl, rfl⟩, fun h => (by cases h), fun g' h => ⟨e, rfl, by cases h; exact hc⟩⟩

/-- A byte begins the empty buffer (rule R122). -/
theorem State.gatherByte_of_none {s : State} (hg : s.gather = none) (at' : Attributes) (a : Dword) (b : Byte) :
    s.gatherByte at' a b = { s with gather := some ⟨a, [b], at'⟩ } := by
  unfold State.gatherByte
  rw [hg]

/-- A word gathered into the empty buffer waits whole, or its first byte leaves alone. -/
theorem State.gatherBytes_pair {s : State} (hg : s.gather = none) (at' : Attributes) (a : Dword) (b0 b1 : Byte) :
    (a.toNat % 8 ≠ 7 ∧ (s.gatherBytes at' a [b0, b1]).events = s.events
      ∧ (s.gatherBytes at' a [b0, b1]).gather = some ⟨a, [b0, b1], at'⟩)
    ∨ ∃ e, (s.gatherBytes at' a [b0, b1]).events = s.events ++ [e] ∧ e.carries .memWrite a [b0]
      ∧ (s.gatherBytes at' a [b0, b1]).gather = some ⟨a + 1, [b1], at'⟩ := by
  have hfirst : s.gatherBytes at' a [b0, b1] =
      State.gatherByte at' (a + 1) b1 (State.emitEarly { s with gather := some ⟨a, [b0], at'⟩ }) := by
    unfold State.gatherBytes State.gatherBytes State.gatherBytes
    rw [State.emitEarly_of_none hg, State.gatherByte_of_none hg]
  rw [hfirst]
  have hcycle : (memCycle .memWrite a [b0] at').carries .memWrite a [b0] := ⟨rfl, rfl, rfl, rfl, rfl⟩
  rcases State.emitEarly_cases (s := { s with gather := some ⟨a, [b0], at'⟩ }) rfl with h | h <;> rw [h]
  · unfold State.gatherByte State.draw
    dsimp only
    split
    · left
      have hw := GatherBuffer.legal_continued b1 (GatherBuffer.legal_single a b0 at') ‹_›
      refine ⟨?_, rfl, rfl⟩
      simp only [List.length_append, List.length_singleton] at hw
      omega
    · exact .inr ⟨_, rfl, hcycle, rfl⟩
  · exact .inr ⟨_, rfl, hcycle, rfl⟩

theorem State.writeCycle_gathered {s : State} {a : Dword} (h : s.cfg.regWg a = true) (bs : List Byte) :
    s.writeCycle a bs = s.draw.gatherBytes (s.attributesAt a) a bs := by
  simp only [State.writeCycle, State.attributesAt, CfgRegs.attributes, h, if_true]

/-! ## Bytes written to the byte maps alone -/

theorem State.writeBytes_bus (bs : List Byte) : ∀ (a : Dword) (s : State),
    (s.writeBytes a bs).gather = s.gather ∧ (s.writeBytes a bs).events = s.events := by
  induction bs with
  | nil => exact fun _ _ => ⟨rfl, rfl⟩
  | cons b bs ih =>
    intro a s
    have hb : (s.writeByte a b).gather = s.gather ∧ (s.writeByte a b).events = s.events := by
      unfold State.writeByte
      split <;> exact ⟨rfl, rfl⟩
    exact ⟨(ih (a + 1) _).1.trans hb.1, (ih (a + 1) _).2.trans hb.2⟩

/-- A word written is read back, and every other byte stays (rules R84 and R85). -/
theorem State.readByte_writeBytes_word (s : State) (a : Dword) (w : Word) :
    (s.writeBytes a (wordBytes w)).readByte a = w.extractLsb' 0 8
    ∧ (s.writeBytes a (wordBytes w)).readByte (a + 1) = w.extractLsb' 8 8
    ∧ ∀ x, x ≠ a → x ≠ a + 1 → (s.writeBytes a (wordBytes w)).readByte x = s.readByte x := by
  have hwithin := fun k (hk : k < 2) => State.readByte_writeBytes_within (wordBytes w) a s k hk (by simp [wordBytes])
  have h0 := hwithin 0 (by decide)
  rw [BitVec.add_zero] at h0
  refine ⟨h0, hwithin 1 (by decide), fun x hx hx1 => ?_⟩
  refine State.readByte_writeBytes_other _ a s x fun k hk => ?_
  have hk : k = 0 ∨ k = 1 := by
    have : k < 2 := hk
    omega
  rcases hk with rfl | rfl
  · rw [BitVec.add_zero]
    exact hx
  · exact hx1

/-! ## STR -/

/-- After a bus operation and the advance of EIP: no register but EIP differs. -/
theorem SameCpu.sameButBus_advance {s t : State} (h : SameCpu s t) (n : Nat) :
    State.sameButBus { s with eip := (t.advance n).eip, mem := t.mem, smm := t.smm } (t.advance n) := by
  have ht := congrArg (State.advance n) h.eqn
  rw [State.sameButBus, State.advance_eip, h.eip]
  exact ht

/-- STR in protected mode is the CPU's write of the selector, and EIP moved on (rule R151). -/
theorem exec_strM16 {s : State} (hp : s.pmode = true) (ha : s.cfg.regionsAligned = true) (disp : Dword) :
    exec (.strM16 disp) s = andThen (s.busWrite disp (wordBytes s.tr.sel)) fun t => .next (t.advance 7) := by
  show execStrM16 disp s = _
  unfold execStrM16 State.store
  rw [if_pos hp, if_pos ha]
  cases s.busWrite disp (wordBytes s.tr.sel) <;> rfl

theorem exec_strM16_protected {s : State} (hp : s.pmode = true) (ha : s.cfg.regionsAligned = true) {disp : Dword}
    (hs : s.storeProtected disp 2 = true) :
    exec (.strM16 disp) s = andThen (s.protectedStore disp (wordBytes s.tr.sel)) fun t => .next (t.advance 7) := by
  rw [exec_strM16 hp ha, State.busWrite]
  exact congrArg (andThen · _) (if_pos hs)

/-- What the program sees of a store that only the bus receives: the stored bytes, or none of them. -/
def State.busOnlyView (a : Dword) (bs : List Byte) (s : State) : State :=
  if Config.wpr1BusVisible s.draws then s.writeBytes a bs else s

theorem State.busOnlyView_bus (s : State) (a : Dword) (bs : List Byte) :
    SameCpu s (s.busOnlyView a bs) ∧ (s.busOnlyView a bs).gather = s.gather
      ∧ (s.busOnlyView a bs).events = s.events := by
  unfold State.busOnlyView
  split
  · exact ⟨(State.writeBytes_busStep bs a s).cpu, State.writeBytes_bus bs a s⟩
  · exact ⟨SameCpu.refl s, rfl, rfl⟩

theorem State.readByte_busOnlyView (s : State) (a : Dword) (w : Word) :
    (∀ x, (s.busOnlyView a (wordBytes w)).readByte x = s.readByte x)
    ∨ (s.busOnlyView a (wordBytes w)).readByte a = w.extractLsb' 0 8
      ∧ (s.busOnlyView a (wordBytes w)).readByte (a + 1) = w.extractLsb' 8 8
      ∧ ∀ x, x ≠ a → x ≠ a + 1 → (s.busOnlyView a (wordBytes w)).readByte x = s.readByte x := by
  unfold State.busOnlyView
  split
  · exact .inr (s.readByte_writeBytes_word a w)
  · exact .inl fun _ => rfl

/-- Which store of a word is protected (rules R24 and R116). -/
theorem State.storeProtected_word_iff (s : State) (a : Dword) :
    s.storeProtected a 2 = true ↔ s.cfg.ccr2.getLsbD 4 = true
      ∧ ∃ x, (x = a ∨ x = a + 1) ∧ 0xA0000 ≤ x.toNat ∧ x.toNat ≤ 0xFFFFF
        ∧ (s.cfg.attributes (Config.ken s.draws a) (Config.wbwt s.draws a) x).cacheable = true := by
  have hb : ∀ x, s.cfg.writeProtected (Config.ken s.draws a) x = true ↔ s.cfg.ccr2.getLsbD 4 = true ∧
      0xA0000 ≤ x.toNat ∧ x.toNat ≤ 0xFFFFF
        ∧ (s.cfg.attributes (Config.ken s.draws a) (Config.wbwt s.draws a) x).cacheable = true := by
    intro x
    simp only [CfgRegs.writeProtected, CfgRegs.wpr1, CfgRegs.inFixed, CfgRegs.attributes, Bool.and_eq_true,
      decide_eq_true_eq, and_assoc]
  have hr : List.range 2 = [0, 1] := rfl
  rw [State.storeProtected, hr]
  simp only [List.any_cons, List.any_nil, Bool.or_false, Bool.and_eq_true, Bool.or_eq_true, hb, CfgRegs.wpr1,
    BitVec.ofNat_eq_ofNat, BitVec.add_zero]
  constructor
  · rintro ⟨h4, h | h⟩
    · exact ⟨h4, a, .inl rfl, h.2⟩
    · exact ⟨h4, a + 1, .inr rfl, h.2⟩
  · rintro ⟨h4, x, rfl | rfl, h⟩
    · exact ⟨h4, .inl ⟨h4, h⟩⟩
    · exact ⟨h4, .inr ⟨h4, h⟩⟩

/-- Settles O23: the three effects one by one, and when a store is protected. -/
theorem strToProtectedMemory : Obligations.StrToProtectedMemory := by
  intro s disp hp ha
  refine ⟨?_, s.storeProtected_word_iff disp⟩
  split
  · rename_i hs
    have hexec := exec_strM16_protected hp ha hs
    unfold State.protectedStore at hexec
    cases he : Config.wpr1WriteEffect with
    | dropped =>
      rw [he] at hexec
      have hc := (s.draw_cycleStep _).trans (State.noteAccess_cycleStep disp s.draw)
      refine ⟨_, hexec, by rw [State.advance_eip, hc.cpu.eip]; rfl, ?_, hc.readByte, fun hg => ?_, fun g hg => ?_⟩
      · have hb := hc.cpu.sameButBus_advance 7
        rwa [hc.sameMem, hc.sameSmm] at hb
      · rw [State.advance_events, State.noteAccess_of_none (s := s.draw) hg disp]
        rfl
      · exact State.noteAccess_events (s := s.draw) hg disp
    | busOnly =>
      rw [he] at hexec
      change exec _ s = .next (State.advance 7 ((s.busOnlyView disp _).writeCycle disp _)) at hexec
      obtain ⟨hv, hgather, hevents⟩ := s.busOnlyView_bus disp (wordBytes s.tr.sel)
      have hread := s.readByte_busOnlyView disp s.tr.sel
      generalize s.busOnlyView disp (wordBytes s.tr.sel) = u at hexec hv hgather hevents hread
      have hw := State.writeCycle_cycleStep disp (wordBytes s.tr.sel) u
      have hc := hv.trans hw.cpu
      simp only [← hw.readByte] at hread
      refine ⟨_, hexec, by rw [State.advance_eip, hc.eip]; rfl, hc.sameButBus_advance 7, hread, fun hwg => ?_,
        fun hwg hnone => ?_⟩
      · rw [← hv.cfg] at hwg
        rw [← hgather, ← hevents]
        exact State.writeCycle_ungathered hwg (wordBytes s.tr.sel)
      · rw [← hv.cfg] at hwg
        rw [← hevents]
        rw [State.advance_events, State.advance_gather, State.writeCycle_gathered hwg]
        exact (State.gatherBytes_pair (s := u.draw) (hgather.trans hnone) _ _ _ _).imp
          (fun ⟨h8, he, hg⟩ => ⟨h8, he, _, hg⟩) fun ⟨e, he, hc, hg⟩ => ⟨e, _, he, hc, hg⟩
    | fault =>
      rw [he] at hexec
      exact hexec
  · rename_i hs
    exact andThen_goes_on (o := s.busWrite disp (wordBytes s.tr.sel)) (f := fun t => .next (t.advance 7))
      ⟨_, State.busWrite_of_unprotected (Bool.eq_false_iff.mpr hs)⟩ (fun u => ⟨_, rfl⟩)
      |>.imp fun t ht => (exec_strM16 hp ha disp).trans ht

end Sys2Proof.Machine
end

section
/-! The places of a Task State Segment: the fields a switch saves and loads and the reserved bytes, as offsets, and
what the save and the back link of a task switch do to the bytes there. -/

namespace Sys2Proof.Machine

/-! ## Offsets in a TSS -/

theorem tssField_add (t : Dword) (o j : Nat) : tssField t o + BitVec.ofNat 32 j = tssField t (o + j) := by
  rw [tssField, tssField, BitVec.add_assoc, BitVec.ofNat_add]

theorem tssField_sub (t : Dword) {o : Nat} (ho : o < 0x100000000) : (tssField t o - t).toNat = o := by
  rw [tssField, BitVec.add_comm, BitVec.add_sub_cancel, BitVec.toNat_ofNat]
  exact Nat.mod_eq_of_lt ho

/-- Different offsets are different places. -/
theorem tssField_inj {t : Dword} {o p : Nat} (ho : o < 0x100000000) (hp : p < 0x100000000)
    (h : tssField t o = tssField t p) : o = p := by
  rw [← tssField_sub t ho, h, tssField_sub t hp]

/-- Every field a switch can save. -/
def taskFields : List TaskField :=
  [.ip, .flags, .cr3, .ldt]
    ++ [GReg.eax, .ecx, .edx, .ebx, .esp, .ebp, .esi, .edi].map .gpr
    ++ [SegName.es, .cs, .ss, .ds, .fs, .gs].map .seg

theorem mem_taskFields (f : TaskField) : f ∈ taskFields := by
  cases f with
  | gpr r => cases r <;> decide
  | seg r => cases r <;> decide
  | _ => decide

/-- How many bytes a field takes. -/
def fieldLength : TssKind → TaskField → Nat
  | _, .seg _ => 2
  | _, .ldt => 2
  | .tss16, _ => 2
  | .tss32, _ => 4

theorem State.taskFieldBytes_length (s : State) (k : TssKind) (ret : Dword) (f : TaskField) :
    (s.taskFieldBytes k ret f).length = fieldLength k f := by
  cases k <;> cases f <;> rfl

/-- The fields of a layout lie apart, and none reaches the back link or the places behind the selectors. -/
theorem taskFields_apart (k : TssKind) {f g : TaskField} {o p : Nat} (hf : taskFieldOffset k f = some o)
    (hg : taskFieldOffset k g = some p) : f = g ∨ o + fieldLength k f ≤ p ∨ p + fieldLength k g ≤ o := by
  have h : ∀ f ∈ taskFields, ∀ g ∈ taskFields, ∀ o ∈ taskFieldOffset k f, ∀ p ∈ taskFieldOffset k g,
      f = g ∨ o + fieldLength k f ≤ p ∨ p + fieldLength k g ≤ o := by
    cases k <;> decide +kernel
  exact h f (mem_taskFields f) g (mem_taskFields g) o hf p hg

theorem taskField_within (k : TssKind) {f : TaskField} {o : Nat} (hf : taskFieldOffset k f = some o) :
    0x0E ≤ o ∧ o + fieldLength k f ≤ 0x62 := by
  have h : ∀ f ∈ taskFields, ∀ o ∈ taskFieldOffset k f, 0x0E ≤ o ∧ o + fieldLength k f ≤ 0x62 := by
    cases k <;> decide +kernel
  exact h f (mem_taskFields f) o hf

/-- The offsets of the reserved words of a 32-bit TSS (rules R95 and R96). -/
def reservedOffsets : List Nat := [0x02, 0x0A, 0x12, 0x1A, 0x4A, 0x4E, 0x52, 0x56, 0x5A, 0x5E, 0x62, 0x64]

theorem reservedOffsets_apart {f : TaskField} {o p : Nat} (hf : taskFieldOffset .tss32 f = some o)
    (hp : p ∈ reservedOffsets) : o + fieldLength .tss32 f ≤ p ∨ p + 2 ≤ o := by
  have h : ∀ f ∈ taskFields, ∀ o ∈ taskFieldOffset .tss32 f, ∀ p ∈ reservedOffsets,
      o + fieldLength .tss32 f ≤ p ∨ p + 2 ≤ o := by
    decide +kernel
  exact h f (mem_taskFields f) o hf p hp

/-- The places a new task is loaded from, as offsets with their lengths. -/
def loadOffsets : TssKind → List (Nat × Nat)
  | .tss32 => [(0x1C, 4), (0x20, 4), (0x24, 4)] ++ (List.range 8).map (fun k => (tssGprOffset .tss32 k, 4))
      ++ (List.range 6).map (fun k => (tssSegOffset .tss32 k, 2)) ++ [(0x60, 2), (0x64, 1)]
  | .tss16 => [(0x0E, 2), (0x10, 2)] ++ (List.range 8).map (fun k => (tssGprOffset .tss16 k, 2))
      ++ (List.range 4).map (fun k => (tssSegOffset .tss16 k, 2)) ++ [(0x2A, 2)]

theorem taskReads_eq (k : TssKind) (t : Dword) :
    taskReads k t = (loadOffsets k).map fun q => (tssField t q.1, q.2) := by
  cases k <;> rfl

theorem loadOffsets_within (k : TssKind) : ∀ q ∈ loadOffsets k, 0x0E ≤ q.1 ∧ q.1 + q.2 ≤ 0x66 := by
  cases k <;> decide

/-- A byte of a place a new task is loaded from is no byte of the back link. -/
theorem taskReads_not_link {k : TssKind} {t : Dword} {p : Dword × Nat} (hp : p ∈ taskReads k t) {n : Nat}
    (hn : n < p.2) : 2 ≤ (p.1 + BitVec.ofNat 32 n - t).toNat := by
  rw [taskReads_eq] at hp
  obtain ⟨q, hq, rfl⟩ := List.mem_map.mp hp
  have hw := loadOffsets_within k q hq
  dsimp only at hn ⊢
  rw [tssField_add, tssField_sub t (by omega)]
  omega

/-! ## The save -/

/-- `x` is no byte of the places written. -/
def Unwritten (ws : List (Dword × List Byte)) (x : Dword) : Prop :=
  ∀ w ∈ ws, ∀ j < w.2.length, x ≠ w.1 + BitVec.ofNat 32 j

theorem TaskChoice.ip_mem_savedFields (c : TaskChoice) : TaskField.ip ∈ c.savedFields := by
  unfold TaskChoice.savedFields
  split
  · assumption
  · exact List.mem_cons_self

theorem State.mem_saveWrites {s : State} {c : TaskChoice} {k : TssKind} {t ret : Dword} {w : Dword × List Byte} :
    w ∈ s.saveWrites c k t ret ↔ ∃ f ∈ c.savedFields, ∃ o, taskFieldOffset k f = some o
      ∧ w = (tssField t o, s.taskFieldBytes k ret f) := by
  simp only [State.saveWrites, List.mem_filterMap, Option.map_eq_some_iff, eq_comm (a := w)]

/-- What is saved depends on the registers only. -/
theorem SameCpu.saveWrites {s u : State} (h : SameCpu s u) (c : TaskChoice) (k : TssKind) (t ret : Dword) :
    u.saveWrites c k t ret = s.saveWrites c k t ret := by
  have hf : ∀ f, u.taskFieldBytes k ret f = s.taskFieldBytes k ret f := by
    intro f
    cases f <;> simp only [State.taskFieldBytes, h.eflags, h.gprs, h.segs, h.cr3, h.ldtSel]
  simp only [State.saveWrites, hf]

/-- A saved byte stands at an offset of the fields. -/
theorem State.saveWrites_offset {s : State} {c : TaskChoice} {k : TssKind} {t ret : Dword} {w : Dword × List Byte}
    (hw : w ∈ s.saveWrites c k t ret) {j : Nat} (hj : j < w.2.length) :
    ∃ m, 0x0E ≤ m ∧ m < 0x62 ∧ w.1 + BitVec.ofNat 32 j = tssField t m := by
  obtain ⟨f, -, o, ho, rfl⟩ := State.mem_saveWrites.mp hw
  rw [State.taskFieldBytes_length] at hj
  have hb := taskField_within k ho
  exact ⟨o + j, by omega, by omega, tssField_add t o j⟩

/-- Bytes outside the fields are not saved. -/
theorem State.saveWrites_unwritten {s : State} {c : TaskChoice} {k : TssKind} {t ret x : Dword}
    (hx : (x - t).toNat < 0x0E ∨ 0x62 ≤ (x - t).toNat) : Unwritten (s.saveWrites c k t ret) x := by
  rintro w hw j hj rfl
  obtain ⟨m, h1, h2, e⟩ := State.saveWrites_offset hw hj
  rw [e, tssField_sub t (by omega)] at hx
  omega

theorem State.saveWrites_unwritten_reserved {s : State} {c : TaskChoice} {t ret : Dword} {p n : Nat}
    (hp : p ∈ reservedOffsets) (hn : n < 2) :
    Unwritten (s.saveWrites c .tss32 t ret) (tssField t (p + n)) := by
  rintro w hw j hj e
  obtain ⟨f, -, o, ho, rfl⟩ := State.mem_saveWrites.mp hw
  have hlt : ∀ p ∈ reservedOffsets, p ≤ 0x64 := by decide
  have hp64 := hlt p hp
  rw [State.taskFieldBytes_length] at hj
  have hb := taskField_within .tss32 ho
  have ha := reservedOffsets_apart ho hp
  dsimp only at e
  rw [tssField_add] at e
  have := tssField_inj (by omega) (by omega) e
  omega

/-- Two saved bytes at one address are the same byte of the same field. -/
theorem State.saveWrites_agree {s : State} {c : TaskChoice} {k : TssKind} {t ret : Dword}
    {w w' : Dword × List Byte} (hw : w ∈ s.saveWrites c k t ret) (hw' : w' ∈ s.saveWrites c k t ret) {j j' : Nat}
    (hj : j < w.2.length) (hj' : j' < w'.2.length)
    (e : w.1 + BitVec.ofNat 32 j = w'.1 + BitVec.ofNat 32 j') : w'.2[j'] = w.2[j] := by
  obtain ⟨f, -, o, ho, rfl⟩ := State.mem_saveWrites.mp hw
  obtain ⟨g, -, p, hp, rfl⟩ := State.mem_saveWrites.mp hw'
  dsimp only at e
  rw [tssField_add, tssField_add] at e
  have hf := State.taskFieldBytes_length s k ret f
  have hg := State.taskFieldBytes_length s k ret g
  have hbf := taskField_within k ho
  have hbg := taskField_within k hp
  dsimp only at hj hj'
  have e := tssField_inj (by omega) (by omega) e
  rcases taskFields_apart k ho hp with rfl | h
  · obtain rfl : o = p := Option.some.inj (ho.symm.trans hp)
    obtain rfl : j = j' := by omega
    rfl
  · omega

/-- With CCR2.WPR1 = 0 every saved byte reads as saved. -/
theorem State.saveTask_saved {s u : State} {c : TaskChoice} {k : TssKind} {t ret : Dword}
    (h : s.saveTask c k t ret = .next u) (hp : s.cfg.wpr1 = false) {w : Dword × List Byte}
    (hw : w ∈ s.saveWrites c k t ret) {j : Nat} (hj : j < w.2.length) :
    u.readByte (w.1 + BitVec.ofNat 32 j) = w.2[j] := by
  refine State.readByte_busWrites_agree _ hp h (fun v hv => ?_)
    (fun v hv i hi e => State.saveWrites_agree hw hv hj hi e) ⟨w, hw, j, hj, rfl⟩
  obtain ⟨f, -, o, ho, rfl⟩ := State.mem_saveWrites.mp hv
  have := taskField_within k ho
  rw [State.taskFieldBytes_length]
  omega

/-! ## The back link -/

theorem word_of_bytes (w : Word) : (w.extractLsb' 8 8 ++ w.extractLsb' 0 8 : BitVec 16) = w := by
  apply BitVec.eq_of_toNat_eq
  have := w.isLt
  simp only [toNat_append_add, toNat_extract_div]
  omega

/-- Bytes beside the back link keep their values. -/
theorem State.writeBackLink_other {now : Bool} {old : Word} {a x : Dword} {s t : State}
    (h : s.writeBackLink now old a = .next t) (hx : now = true → 2 ≤ (x - a).toNat) :
    t.readByte x = s.readByte x := by
  unfold State.writeBackLink at h
  split at h
  · have hx := hx ‹_›
    refine State.readByte_busWrite_other h fun j hj e => ?_
    have hj : j < 2 := hj
    subst e
    rw [BitVec.add_comm, BitVec.add_sub_cancel, BitVec.toNat_ofNat] at hx
    omega
  · cases h
    rfl

/-- With CCR2.WPR1 = 0 the back link reads as the selector written. -/
theorem State.writeBackLink_readWord {old : Word} {a : Dword} {s t : State}
    (h : s.writeBackLink true old a = .next t) (hp : s.cfg.wpr1 = false) : t.readWord a = old := by
  change s.busWrite a (wordBytes old) = .next t at h
  rw [State.busWrite_of_unprotected (State.storeProtected_of_wpr1 hp _ _)] at h
  cases h
  obtain ⟨h0, h1, -⟩ := s.readByte_writeBytes_word a old
  rw [State.readWord, State.readByte_plainWrite, State.readByte_plainWrite, h0, h1]
  exact word_of_bytes old

end Sys2Proof.Machine
end

section
/-! The stages of a task switch: the old state saved, TR and the other writes in place, the new state loaded. Each says
what has become of the bytes of memory. -/

namespace Sys2Proof.Machine

/-! ## Reads of a few bytes -/

/-- A word reads the same where its two bytes do. -/
theorem State.readWord_congr_at {s t : State} {a : Dword}
    (h : ∀ j < 2, t.readByte (a + BitVec.ofNat 32 j) = s.readByte (a + BitVec.ofNat 32 j)) :
    t.readWord a = s.readWord a := by
  have h0 := h 0 (by decide)
  have h1 := h 1 (by decide)
  rw [BitVec.add_zero] at h0
  exact congrArg₂ (· ++ ·) h1 h0

/-- A doubleword reads the same where its four bytes do. -/
theorem State.readDword_congr_at {s t : State} {a : Dword}
    (h : ∀ j < 4, t.readByte (a + BitVec.ofNat 32 j) = s.readByte (a + BitVec.ofNat 32 j)) :
    t.readDword a = s.readDword a := by
  have hw : t.readWord (a + 2) = s.readWord (a + 2) := State.readWord_congr_at fun j hj => by
    have h2 := h (2 + j) (by omega)
    rwa [BitVec.ofNat_add, ← BitVec.add_assoc] at h2
  exact congrArg₂ (· ++ ·) hw (State.readWord_congr_at fun j hj => h j (by omega))

/-! ## The stages -/

/-- From the state `s` a switch begins at to the state `u` its new task is started from: the back link perhaps written,
the old state saved in the TSS of kind `k` at `old`, and the new descriptor read. -/
structure TaskSaved (c : TaskChoice) (k : TssKind) (old : Dword) (sel : Word) (ret : Dword) (desc : Desc)
    (s u : State) : Prop where
  cpu    : SameCpu s u
  tss    : isTssDescriptor desc = true
  first  : c.readsFirst = true → desc = s.readQword (s.locateDescriptor sel).2
  second : c.readsFirst = false →
    ∃ w, s.saveTask c k old ret = .next w ∧ desc = w.readQword (s.locateDescriptor sel).2
  other  : ∀ x, Unwritten (s.saveWrites c k old ret) x → (c.backLink = .beforeSave → 2 ≤ (x - tssBase desc).toNat) →
    u.readByte x = s.readByte x
  saved  : s.cfg.wpr1 = false → ∀ w ∈ s.saveWrites c k old ret, ∀ j (h : j < w.2.length),
    u.readByte (w.1 + BitVec.ofNat 32 j) = w.2[j]
  link   : c.backLink = .beforeSave → s.cfg.wpr1 = false →
    (∀ j < 2, Unwritten (s.saveWrites c k old ret) (tssBase desc + BitVec.ofNat 32 j)) →
    u.readWord (tssBase desc) = s.tr.sel

/-- From there to the state `u` the load is to come from: TR loaded, the other writes made, the back link perhaps
written. -/
structure TaskEntered (c : TaskChoice) (kept : List (Dword × Nat)) (old sel : Word) (desc : Desc)
    (s u : State) : Prop where
  cpu  : SameCpu { s with tr := ⟨sel, desc⟩ } u
  kept : ∀ p ∈ kept, ∀ n < p.2, (c.backLink = .beforeLoad → 2 ≤ (p.1 + BitVec.ofNat 32 n - tssBase desc).toNat) →
    u.readByte (p.1 + BitVec.ofNat 32 n) = s.readByte (p.1 + BitVec.ofNat 32 n)
  link : c.backLink = .beforeLoad → s.cfg.wpr1 = false → u.readWord (tssBase desc) = old

/-- The state of the new task loaded, by its layout. -/
def State.loadTss (k : TssKind) (t : Dword) (s : State) : State :=
  match k with
  | .tss32 => s.loadTask32 t
  | .tss16 => s.loadTask16 t

/-- From there to the state `v` the marks are set at: the new state loaded at a state `y` that differs by the reads of
it, the back link perhaps written. -/
structure TaskLoaded (c : TaskChoice) (old : Word) (desc : Desc) (u v : State) : Prop where
  load  : ∃ y, CycleStep u y ∧ SameCpu (y.loadTss (tssKind desc) (tssBase desc)) v
  other : ∀ x, (c.backLink = .afterLoad → 2 ≤ (x - tssBase desc).toNat) → v.readByte x = u.readByte x
  link  : c.backLink = .afterLoad → u.cfg.wpr1 = false → v.readWord (tssBase desc) = old

theorem State.tssDescriptor_eq_some {s : State} {sel : Word} {desc : Desc} (h : s.tssDescriptor sel = some desc) :
    isTssDescriptor desc = true ∧ desc = s.readQword (s.locateDescriptor sel).2 := by
  unfold State.tssDescriptor at h
  split at h
  · rename_i a ha
    split at h
    · cases h
      rw [ha]
      exact ⟨‹_›, rfl⟩
    · cases h
  · cases h

/-- Loading from a TSS is the reads of it, which change no byte, and the load by its layout. -/
theorem State.loadTask_eq (k : TssKind) (t : Dword) (s : State) :
    ∃ y, CycleStep s y ∧ s.loadTask k t = y.loadTss k t := by
  cases k <;> exact ⟨_, State.cpuReads_cycleStep _ s, rfl⟩

theorem State.readByte_loadTss (k : TssKind) (t x : Dword) (s : State) :
    (s.loadTss k t).readByte x = s.readByte x := by
  cases k <;> rfl

theorem State.cfg_loadTss (k : TssKind) (t : Dword) (s : State) : (s.loadTss k t).cfg = s.cfg := by
  cases k <;> rfl

/-- The stages up to the new task's start. -/
theorem State.changeTask_saved {f : TaskFunction} {c : TaskChoice} {k : TssKind} {old : Dword} {sel : Word}
    {ret : Dword} {s t : State} (h : s.changeTask f c k old sel ret = .next t) :
    ∃ desc u, TaskSaved c k old sel ret desc s u ∧
      u.startTask f c (s.keptPlaces c k old ret desc) s.tr.sel sel desc ret = .next t := by
  have reads : ∀ (u : State), CycleStep u (u.cpuRead (s.locateDescriptor sel).2 8) := fun u => u.cpuRead_cycleStep _ 8
  unfold State.changeTask at h
  dsimp only at h
  split at h
  · rename_i hfirst
    split at h
    · cases h
    · rename_i desc hdesc
      obtain ⟨x, hx, h⟩ := andThen_next h
      obtain ⟨u, hu, h⟩ := andThen_next h
      obtain ⟨htss, hd⟩ := State.tssDescriptor_eq_some hdesc
      have hcx := (reads s).cpu.trans (State.writeBackLink_busStep hx).cpu
      have hws := hcx.saveWrites c k old ret
      have hother : ∀ y, Unwritten (s.saveWrites c k old ret) y → u.readByte y = x.readByte y := fun y hy =>
        State.readByte_busWrites_other _ hu (by rw [hws]; exact hy)
      refine ⟨desc, u, ⟨hcx.trans (State.saveTask_busStep hu).cpu, htss, fun _ => hd,
        fun hn => absurd (hfirst.symm.trans hn) (by decide), fun y hy hl => ?_, fun hp w hw j hj => ?_,
        fun hl hp hn => ?_⟩, h⟩
      · rw [hother y hy, State.writeBackLink_other hx (fun hb => hl (of_decide_eq_true hb)), (reads s).readByte]
      · exact State.saveTask_saved hu (hcx.cfg ▸ hp) (hws ▸ hw) hj
      · rw [decide_eq_true hl] at hx
        rw [← State.writeBackLink_readWord hx ((reads s).cpu.cfg ▸ hp)]
        exact State.readWord_congr_at fun j hj => hother _ (hn j hj)
  · rename_i hfirst
    have hlink : c.backLink ≠ .beforeSave := fun e => hfirst (by simp [TaskChoice.readsFirst, e])
    obtain ⟨x, hx, h⟩ := andThen_next h
    split at h
    · cases h
    · rename_i desc hdesc
      obtain ⟨htss, hd⟩ := State.tssDescriptor_eq_some hdesc
      have hcx := (State.saveTask_busStep hx).cpu
      have hloc : x.locateDescriptor sel = s.locateDescriptor sel := by
        rw [State.locateDescriptor, hcx.gdt, hcx.ldt, State.locateDescriptor]
      refine ⟨desc, _, ⟨hcx.trans (reads x).cpu, htss, fun hf => absurd hf hfirst, fun _ => ⟨x, hx, hloc ▸ hd⟩,
        fun y hy _ => ?_, fun hp w hw j hj => ?_, fun hl => absurd hl hlink⟩, h⟩
      · rw [(reads x).readByte, State.readByte_busWrites_other _ hx hy]
      · rw [(reads x).readByte]
        exact State.saveTask_saved hx hp hw hj

/-- What the marks of a new task are. -/
theorem State.markTask_eq (c : TaskChoice) (desc : Desc) (s : State) :
    s.markTask c desc = { s with
      cr0 := (s.taskCr0 c).cr0
      eflags := (s.setEflags (s.eflags ||| c.setsFlags)).eflags
      dbg := s.dbg.clearLocal
      debugDue := s.dueForTask c (s.trapsTask desc)
      runState := .running
      powerState := .normal } := by
  unfold State.markTask
  rw [s.taskCr0_eq c]
  rfl

/-- The state a switch ends in, the marks of the new task set: running, or a failed check's exception raised. -/
def State.newTask (c : TaskChoice) (desc : Desc) (r : RunState) (s : State) : State :=
  { (s.markTask c desc).draw with runState := r }

theorem State.newTask_eq (c : TaskChoice) (desc : Desc) (r : RunState) (s : State) :
    s.newTask c desc r = { s with
      cr0 := (s.taskCr0 c).cr0
      eflags := (s.setEflags (s.eflags ||| c.setsFlags)).eflags
      dbg := s.dbg.clearLocal
      debugDue := s.dueForTask c (s.trapsTask desc)
      runState := r
      powerState := .normal
      draws := s.draws + 1 } := by
  rw [State.newTask, State.markTask_eq]
  rfl

section
variable (c : TaskChoice) (desc : Desc) (r : RunState) (s : State)

@[simp] theorem State.newTask_gprs : (s.newTask c desc r).gprs = s.gprs := by rw [State.newTask_eq]
@[simp] theorem State.newTask_segs : (s.newTask c desc r).segs = s.segs := by rw [State.newTask_eq]
@[simp] theorem State.newTask_eip : (s.newTask c desc r).eip = s.eip := by rw [State.newTask_eq]
@[simp] theorem State.newTask_cr3 : (s.newTask c desc r).cr3 = s.cr3 := by rw [State.newTask_eq]
@[simp] theorem State.newTask_ldtSel : (s.newTask c desc r).ldtSel = s.ldtSel := by rw [State.newTask_eq]
@[simp] theorem State.newTask_tr : (s.newTask c desc r).tr = s.tr := by rw [State.newTask_eq]
@[simp] theorem State.newTask_cfg : (s.newTask c desc r).cfg = s.cfg := by rw [State.newTask_eq]
@[simp] theorem State.newTask_lastEvent : (s.newTask c desc r).lastEvent = s.lastEvent := by rw [State.newTask_eq]
@[simp] theorem State.newTask_cr0 : (s.newTask c desc r).cr0 = (s.taskCr0 c).cr0 := by rw [State.newTask_eq]
@[simp] theorem State.newTask_eflags :
    (s.newTask c desc r).eflags = (s.setEflags (s.eflags ||| c.setsFlags)).eflags := by rw [State.newTask_eq]
@[simp] theorem State.newTask_dbg : (s.newTask c desc r).dbg = s.dbg.clearLocal := by rw [State.newTask_eq]
@[simp] theorem State.newTask_debugDue :
    (s.newTask c desc r).debugDue = s.dueForTask c (s.trapsTask desc) := by rw [State.newTask_eq]
@[simp] theorem State.newTask_readByte (x : Dword) : (s.newTask c desc r).readByte x = s.readByte x := by
  rw [State.newTask_eq]
  rfl
@[simp] theorem State.newTask_readWord (x : Dword) : (s.newTask c desc r).readWord x = s.readWord x :=
  State.readWord_congr (s.newTask_readByte c desc r) x
@[simp] theorem State.newTask_readDword (x : Dword) : (s.newTask c desc r).readDword x = s.readDword x :=
  State.readDword_congr (s.newTask_readByte c desc r) x

end

/-- The stages of the new task's start, and where each check fails. -/
theorem State.startTask_stages {f : TaskFunction} {c : TaskChoice} {kept : List (Dword × Nat)} {old sel : Word}
    {desc : Desc} {ret : Dword} {s t : State} (h : s.startTask f c kept old sel desc ret = .next t) :
    (∃ why, f.check .saved sel s = some why ∧ t = { s.draw with runState := .raised (.taskFault why) ret }) ∨
      ∃ u, TaskEntered c kept old sel desc s u ∧
        ((∃ why, f.check .entered sel u = some why ∧
            t = { u.draw with runState := .raised (.taskFault why) ret }) ∨
          ∃ v r, TaskLoaded c old desc u v ∧ t = v.newTask c desc r ∧
            (r = .running ∨
              ∃ why, f.check .loaded sel (v.markTask c desc) = some why ∧ r = .raised (.taskFault why) v.eip)) := by
  unfold State.startTask at h
  rcases State.checked_cases h with ⟨why, hc, rfl⟩ | ⟨-, h⟩
  · exact .inl ⟨why, hc, rfl⟩
  obtain ⟨x, hx, h⟩ := andThen_next h
  obtain ⟨u, hu, h⟩ := andThen_next h
  have hcx := (State.busWrites_busStep _ hx).cpu
  have hd : CycleStep { s with tr := ⟨sel, desc⟩ } { s.draw with tr := ⟨sel, desc⟩ } := State.draw_cycleStep _ _
  have hent : TaskEntered c kept old sel desc s u := by
    refine ⟨(hd.cpu.trans hcx).trans (State.writeBackLink_busStep hu).cpu, fun p hp n hn hl => ?_, fun hl hp => ?_⟩
    · rw [State.writeBackLink_other hu (fun hb => hl (of_decide_eq_true hb)), State.readByte_otherWrites hx hp hn]
      rfl
    · rw [decide_eq_true hl] at hu
      exact State.writeBackLink_readWord hu (by rw [hcx.cfg]; exact hp)
  refine .inr ⟨u, hent, ?_⟩
  rcases State.checked_cases h with ⟨why, hc, rfl⟩ | ⟨-, h⟩
  · exact .inl ⟨why, hc, rfl⟩
  obtain ⟨v, hv, h⟩ := andThen_next h
  obtain ⟨y, hy, hl⟩ := u.draw.loadTask_eq (tssKind desc) (tssBase desc)
  rw [hl] at hv
  have huy : CycleStep u y := (u.draw_cycleStep _).trans hy
  have hload : TaskLoaded c old desc u v := by
    refine ⟨⟨y, huy, (State.writeBackLink_busStep hv).cpu⟩, fun x hx => ?_, fun hl hp => ?_⟩
    · rw [State.writeBackLink_other hv (fun hb => hx (of_decide_eq_true hb)), State.readByte_loadTss, huy.readByte]
    · rw [decide_eq_true hl] at hv
      exact State.writeBackLink_readWord hv (by rw [State.cfg_loadTss, huy.cpu.cfg]; exact hp)
  rcases State.checked_cases h with ⟨why, hc, rfl⟩ | ⟨-, h⟩
  · exact .inr ⟨v, _, hload, rfl, .inr ⟨why, hc, rfl⟩⟩
  · cases h
    exact .inr ⟨v, .running, hload, rfl, .inl rfl⟩

end Sys2Proof.Machine
end

section
/-! What a task switch leaves: the bytes it keeps, the registers it loads, and that it goes on. -/

namespace Sys2Proof.Machine

/-! ## Descriptors -/

theorem State.locateDescriptor_snd (s : State) (sel : Word) : (s.locateDescriptor sel).2 =
    (if sel.getLsbD 2 then s.ldt.base else s.gdt.base) + 8 * BitVec.ofNat 32 (sel.toNat / 8) := by
  have h : (sel.extractLsb' 3 13).zeroExtend 32 <<< 3 = (8 * BitVec.ofNat 32 (sel.toNat / 8) : Dword) := by
    have := sel.isLt
    apply BitVec.eq_of_toNat_eq
    simp [Nat.shiftLeft_eq]
    omega
  rw [State.locateDescriptor, h]
  split <;> rfl

/-- The current TSS by the bits of the descriptor in TR (rules R153 and R155). -/
theorem State.currentTss_eq_some_iff (s : State) (k : TssKind) (tb : Dword) :
    s.currentTss = some (k, tb) ↔ s.pmode = true ∧ s.tr.desc.getLsbD 44 = false
      ∧ (k = .tss16 ∧ s.tr.desc.extractLsb' 40 4 ∈ [0x1#4, 0x3#4] ∨ k = .tss32
        ∧ s.tr.desc.extractLsb' 40 4 ∈ [0x9#4, 0xB#4])
      ∧ tb = s.tr.desc.extractLsb' 56 8 ++ s.tr.desc.extractLsb' 16 24 := by
  generalize hd : s.tr.desc = d
  have h44 : (descD1 d).getLsbD 12 = d.getLsbD 44 := by
    simp [descD1]
  have htype : descType d = d.extractLsb' 40 4 := by
    apply BitVec.eq_of_toNat_eq
    simp only [descType, descD1, toNat_extract_div]
    omega
  have hbase : tssBase d = d.extractLsb' 56 8 ++ d.extractLsb' 16 24 := by
    apply BitVec.eq_of_toNat_eq
    simp only [tssBase, descD1, descD0, toNat_append_add, toNat_extract_div]
    omega
  have hkinds : ∀ (b : Bool) (t : BitVec 4), (!b && (t == 0x1 || t == 0x3 || t == 0x9 || t == 0xB)) = true ∧
      (if t.getLsbD 3 then TssKind.tss32 else .tss16) = k ↔
        b = false ∧ (k = .tss16 ∧ t ∈ [0x1#4, 0x3#4] ∨ k = .tss32 ∧ t ∈ [0x9#4, 0xB#4]) := by
    cases k <;> decide
  have hk := hkinds (d.getLsbD 44) (d.extractLsb' 40 4)
  rw [← h44, ← htype] at hk
  have hk : isTssDescriptor d = true ∧ tssKind d = k ↔ _ := hk
  rw [← htype, ← h44, ← hbase, ← and_assoc (a := _ = false), ← hk, State.currentTss, hd]
  by_cases hp : s.pmode = true ∧ isTssDescriptor d = true
  · rw [if_pos hp, Option.some.injEq, Prod.mk.injEq]
    simp only [hp.1, hp.2, true_and, eq_comm (a := tb)]
  · rw [if_neg hp]
    exact ⟨fun h => (by cases h), fun ⟨h1, ⟨h2, _⟩, _⟩ => absurd ⟨h1, h2⟩ hp⟩

/-! ## A switch that goes on -/

theorem SameCpu.writesGoOn {s u : State} (h : SameCpu s u) (hw : s.writesGoOn) : u.writesGoOn := by
  unfold State.writesGoOn at *
  rwa [h.cfg]

/-- A sequence goes on where its second part does at the state the first part has led to. -/
theorem andThen_goes_on_at {o : Host.Outcome State Fault Refusal} {f : State → Host.Outcome State Fault Refusal}
    (ho : ∃ u, o = .next u) (hf : ∀ u, o = .next u → ∃ t, f u = .next t) : ∃ t, andThen o f = .next t := by
  obtain ⟨u, rfl⟩ := ho
  exact hf u rfl

theorem State.writeBackLink_goes_on {s : State} (hw : s.writesGoOn) (now : Bool) (old : Word) (a : Dword) :
    ∃ t, s.writeBackLink now old a = .next t := by
  unfold State.writeBackLink
  split
  · obtain ⟨t, ht⟩ := State.busWrites_goes_on [(a, wordBytes old)] s hw
    obtain ⟨u, hu, -⟩ := andThen_next ht
    exact ⟨u, hu⟩
  · exact ⟨s, rfl⟩

theorem State.startTask_goes_on {f : TaskFunction} {c : TaskChoice} {kept : List (Dword × Nat)} {old sel : Word}
    {desc : Desc} {ret : Dword} {s : State} (hw : s.writesGoOn) :
    ∃ t, s.startTask f c kept old sel desc ret = .next t := by
  unfold State.startTask
  refine State.checked_goes_on (andThen_goes_on_at (State.busWrites_goes_on _ _ hw) fun x hx => ?_)
  have hx : State.writesGoOn x := (State.busWrites_busStep _ hx).cpu.writesGoOn hw
  refine andThen_goes_on_at (x.writeBackLink_goes_on hx _ _ _) fun u hu => ?_
  have hu : State.writesGoOn u := (State.writeBackLink_busStep hu).cpu.writesGoOn hx
  refine State.checked_goes_on (andThen_goes_on_at (State.writeBackLink_goes_on ?_ _ _ _) fun v _ =>
    State.checked_goes_on ⟨_, rfl⟩)
  unfold State.writesGoOn
  rw [(State.loadTask_transfer _ _ u.draw).cfg]
  exact hu

theorem State.tssDescriptor_of_gdt {s : State} {sel : Word} (h : sel.getLsbD 2 = false)
    (ht : isTssDescriptor (s.readQword (s.locateDescriptor sel).2) = true) :
    s.tssDescriptor sel = some (s.readQword (s.locateDescriptor sel).2) := by
  unfold State.tssDescriptor State.locateDescriptor at *
  rw [if_neg (by rw [h]; decide)] at *
  exact if_pos ht

/-- A switch goes on where the new TSS is found, before or after the save, and no write can fault. -/
theorem State.changeTask_goes_on {f : TaskFunction} {c : TaskChoice} {k : TssKind} {old : Dword} {sel : Word}
    {ret : Dword} {s : State} (hw : s.writesGoOn) (hsel : sel.getLsbD 2 = false)
    (hfirst : c.readsFirst = true → isTssDescriptor (s.readQword (s.locateDescriptor sel).2) = true)
    (hsecond : ∀ u, c.readsFirst = false → s.saveTask c k old ret = .next u →
      isTssDescriptor (u.readQword (s.locateDescriptor sel).2) = true) :
    ∃ t, s.changeTask f c k old sel ret = .next t := by
  have reads : ∀ (u : State) (a : Dword), u.writesGoOn → (u.cpuRead a 8).writesGoOn := fun u a =>
    (u.cpuRead_cycleStep a 8).cpu.writesGoOn
  unfold State.changeTask
  dsimp only
  cases hf : c.readsFirst with
  | true =>
    rw [if_pos rfl, State.tssDescriptor_of_gdt hsel (hfirst hf)]
    refine andThen_goes_on_at (State.writeBackLink_goes_on (reads s _ hw) _ _ _) fun x hx => ?_
    have hx := (State.writeBackLink_busStep hx).cpu.writesGoOn (reads s _ hw)
    exact andThen_goes_on_at (State.busWrites_goes_on _ _ hx) fun u hu =>
      State.startTask_goes_on ((State.saveTask_busStep hu).cpu.writesGoOn hx)
  | false =>
    rw [if_neg Bool.false_ne_true]
    refine andThen_goes_on_at (State.busWrites_goes_on _ _ hw) fun x hx => ?_
    have hc := (State.saveTask_busStep hx).cpu
    have hloc : x.locateDescriptor sel = s.locateDescriptor sel := by
      rw [State.locateDescriptor, hc.gdt, hc.ldt, State.locateDescriptor]
    rw [State.tssDescriptor_of_gdt hsel (by rw [hloc]; exact hsecond x hf hx)]
    exact State.startTask_goes_on (reads x _ (hc.writesGoOn hw))

/-! ## The bytes a switch keeps -/

theorem State.loadTss_keeps (k : TssKind) (t : Dword) (s : State) :
    (s.loadTss k t).tr = s.tr ∧ (s.loadTss k t).dbg = s.dbg ∧ (s.loadTss k t).debugDue = s.debugDue
      ∧ (s.loadTss k t).lastEvent = s.lastEvent ∧ (s.loadTss k t).cr0 = s.cr0 := by
  cases k <;> exact ⟨rfl, rfl, rfl, rfl, rfl⟩

/-- What the load of a new task leaves alone. -/
theorem TaskLoaded.keeps {c : TaskChoice} {old : Word} {desc : Desc} {u v : State} (h : TaskLoaded c old desc u v) :
    v.tr = u.tr ∧ v.dbg = u.dbg ∧ v.debugDue = u.debugDue ∧ v.lastEvent = u.lastEvent ∧ v.cr0 = u.cr0
      ∧ v.cfg = u.cfg := by
  obtain ⟨y, hy, hv⟩ := h.load
  obtain ⟨h1, h2, h3, h4, h5⟩ := y.loadTss_keeps (tssKind desc) (tssBase desc)
  have hy := hy.cpu
  exact ⟨hv.tr.trans (h1.trans hy.tr), hv.dbg.trans (h2.trans hy.dbg), hv.debugDue.trans (h3.trans hy.debugDue),
    hv.lastEvent.trans (h4.trans hy.lastEvent), hv.cr0.trans (h5.trans hy.cr0),
    hv.cfg.trans ((State.cfg_loadTss _ _ _).trans hy.cfg)⟩

/-- The new descriptor stands in TR once the load is to come. -/
theorem TaskEntered.tr {c : TaskChoice} {kept : List (Dword × Nat)} {old sel : Word} {desc : Desc} {s u : State}
    (h : TaskEntered c kept old sel desc s u) : u.tr = ⟨sel, desc⟩ := h.cpu.tr

/-- The new task's start keeps the kept places, but where a back link written by it lies over one. -/
theorem State.startTask_kept {f : TaskFunction} {c : TaskChoice} {kept : List (Dword × Nat)} {old sel : Word}
    {desc : Desc} {ret : Dword} {s t : State} (h : s.startTask f c kept old sel desc ret = .next t)
    {p : Dword × Nat} (hp : p ∈ kept) {n : Nat} (hn : n < p.2)
    (hl : c.backLink = .beforeLoad ∨ c.backLink = .afterLoad →
      2 ≤ (p.1 + BitVec.ofNat 32 n - tssBase t.tr.desc).toNat) :
    t.readByte (p.1 + BitVec.ofNat 32 n) = s.readByte (p.1 + BitVec.ofNat 32 n) := by
  rcases State.startTask_stages h with ⟨why, -, rfl⟩ | ⟨u, hu, ⟨why, -, rfl⟩ | ⟨v, r, hv, rfl, -⟩⟩
  · rfl
  · have htr : u.tr = ⟨sel, desc⟩ := hu.tr
    refine hu.kept p hp n hn fun e => ?_
    have := hl (.inl e)
    change 2 ≤ (_ - tssBase u.tr.desc).toNat at this
    rwa [htr] at this
  · have htr : v.tr = ⟨sel, desc⟩ := hv.keeps.1.trans hu.tr
    rw [State.newTask_tr, htr] at hl
    rw [State.newTask_readByte]
    exact (hv.other _ fun e => hl (.inr e)).trans (hu.kept p hp n hn fun e => hl (.inl e))

/-! The kept places. -/

section
variable {c : TaskChoice} {k : TssKind} {t ret : Dword} {desc : Desc} {s : State}

theorem State.saved_mem_keptPlaces {w : Dword × List Byte} (h : w ∈ s.saveWrites c k t ret) :
    (w.1, w.2.length) ∈ s.keptPlaces c k t ret desc := by
  have := List.mem_map_of_mem (f := fun w : Dword × List Byte => (w.1, w.2.length)) h
  simp only [State.keptPlaces, List.mem_append]
  exact .inl (.inl (.inl this))

theorem State.link_mem_keptPlaces : (tssBase desc, 2) ∈ s.keptPlaces c k t ret desc := by
  simp [State.keptPlaces]

theorem State.loaded_mem_keptPlaces {p : Dword × Nat} (h : p ∈ taskReads (tssKind desc) (tssBase desc)) :
    p ∈ s.keptPlaces c k t ret desc := by
  simp [State.keptPlaces, h]

theorem State.oldReserved_mem_keptPlaces {p : Dword × Nat} (h : p ∈ tssReserved k t) :
    p ∈ s.keptPlaces c k t ret desc := by
  simp [State.keptPlaces, h]

theorem State.newReserved_mem_keptPlaces {p : Dword × Nat} (h : p ∈ tssReserved (tssKind desc) (tssBase desc)) :
    p ∈ s.keptPlaces c k t ret desc := by
  simp [State.keptPlaces, h]

end

/-! ## The registers a switch loads -/

/-- A write of EFLAGS takes every bit but ID. -/
theorem State.setEflags_getLsbD (v : Dword) (s : State) {n : Nat} (hn : n < 32) (h21 : n ≠ 21) :
    (s.setEflags v).eflags.getLsbD n = v.getLsbD n := by
  have hm : ∀ n < 32, n ≠ 21 → idMask.getLsbD n = false := by decide
  rw [State.setEflags_eflags]
  split
  · rfl
  · rw [keepBits_getLsbD _ _ _ hn, hm n hn h21, if_neg Bool.false_ne_true]

/-- A write of CR0 takes every bit but NW under LOCK_NW (rule R22). -/
theorem State.setCr0_getLsbD (v : Dword) (s : State) (n : Nat) : (s.setCr0 v).cr0.getLsbD n =
    if n = 29 ∧ s.cfg.lockNw = true then s.cr0.getLsbD n else v.getLsbD n := by
  have hm : ∀ n < 32, nwMask.getLsbD n = decide (n = 29) := by decide
  rw [State.setCr0_cr0]
  by_cases hl : s.cfg.lockNw = true
  · rw [if_pos hl]
    by_cases hn : n < 32
    · simp only [keepBits_getLsbD _ _ _ hn, hm n hn, decide_eq_true_eq, hl, and_true]
    · simp only [BitVec.getLsbD_of_ge _ n (Nat.le_of_not_lt hn), ite_self]
  · rw [if_neg hl, if_neg fun h => hl h.2]

theorem freeHigh_getLsbD (k : Nat) (w : Word) {n : Nat} (hn : n < 16) :
    (freeHigh k w).getLsbD n = w.getLsbD n := by
  have h := congrArg (BitVec.getLsbD · n) (lowWord_freeHigh k w)
  simpa [lowWord, hn] using h

theorem State.loadTask32_gprs (t : Dword) (s : State) : (s.loadTask32 t).gprs =
    let d := fun o => s.readDword (tssField t o)
    ⟨d 0x28, d 0x2C, d 0x30, d 0x34, d 0x38, d 0x3C, d 0x40, d 0x44⟩ := rfl

theorem State.loadTask32_segs (t : Dword) (s : State) : (s.loadTask32 t).segs =
    let w := fun o => s.readWord (tssField t o)
    ⟨w 0x48, w 0x4C, w 0x50, w 0x54, w 0x58, w 0x5C⟩ := rfl

section
variable {c : TaskChoice} {old : Word} {desc : Desc} {u v : State}

/-- Behind the back link the bytes of the new TSS are those the load has read. -/
theorem TaskLoaded.readByte {y : State} (h : TaskLoaded c old desc u v) (hy : CycleStep u y) {o : Nat}
    (ho : 2 ≤ o ∧ o ≤ 0x80) : v.readByte (tssField (tssBase desc) o) = y.readByte (tssField (tssBase desc) o) := by
  rw [hy.readByte]
  refine h.other _ fun _ => ?_
  rw [tssField_sub _ (by omega)]
  exact ho.1

theorem TaskLoaded.readWord {y : State} (h : TaskLoaded c old desc u v) (hy : CycleStep u y) {o : Nat}
    (ho : 2 ≤ o ∧ o ≤ 0x70) : y.readWord (tssField (tssBase desc) o) = v.readWord (tssField (tssBase desc) o) :=
  (State.readWord_congr_at fun j hj => by
    rw [tssField_add]
    exact h.readByte hy (by omega)).symm

theorem TaskLoaded.readDword {y : State} (h : TaskLoaded c old desc u v) (hy : CycleStep u y) {o : Nat}
    (ho : 2 ≤ o ∧ o ≤ 0x70) : y.readDword (tssField (tssBase desc) o) = v.readDword (tssField (tssBase desc) o) :=
  (State.readDword_congr_at fun j hj => by
    rw [tssField_add]
    exact h.readByte hy (by omega)).symm

/-- The registers a 32-bit TSS gives are those it still holds (rule R95). -/
theorem TaskLoaded.registers32 (h : TaskLoaded c old desc u v) (hk : tssKind desc = .tss32) :
    let d := fun o => v.readDword (tssField (tssBase desc) o)
    let w := fun o => v.readWord (tssField (tssBase desc) o)
    v.gprs = ⟨d 0x28, d 0x2C, d 0x30, d 0x34, d 0x38, d 0x3C, d 0x40, d 0x44⟩
      ∧ v.segs = ⟨w 0x48, w 0x4C, w 0x50, w 0x54, w 0x58, w 0x5C⟩
      ∧ v.eip = d 0x20 ∧ v.cr3 = d 0x1C ∧ v.ldtSel = w 0x60
      ∧ ∀ n, n < 32 → n ≠ 21 → v.eflags.getLsbD n = (d 0x24).getLsbD n := by
  intro d w
  obtain ⟨y, hy, hv⟩ := h.load
  rw [hk] at hv
  have hv : SameCpu (y.loadTask32 (tssBase desc)) v := hv
  have hd : ∀ o, 2 ≤ o ∧ o ≤ 0x70 → y.readDword (tssField (tssBase desc) o) = d o := fun o ho => h.readDword hy ho
  have hw : ∀ o, 2 ≤ o ∧ o ≤ 0x70 → y.readWord (tssField (tssBase desc) o) = w o := fun o ho => h.readWord hy ho
  refine ⟨?_, ?_, hv.eip.trans (hd 0x20 (by decide)), hv.cr3.trans (hd 0x1C (by decide)),
    hv.ldtSel.trans (hw 0x60 (by decide)), fun n hn h21 => ?_⟩
  · rw [hv.gprs, State.loadTask32_gprs]
    simp (disch := decide) only [hd]
  · rw [hv.segs, State.loadTask32_segs]
    simp (disch := decide) only [hw]
  · rw [hv.eflags, ← hd 0x24 (by decide)]
    exact State.setEflags_getLsbD _ _ hn h21

/-- The registers a 16-bit TSS gives are those it still holds, in their low halves (rule R98). -/
theorem TaskLoaded.registers16 (h : TaskLoaded c old desc u v) (hk : tssKind desc = .tss16) :
    let w := fun o => v.readWord (tssField (tssBase desc) o)
    (∀ r, lowWord (v.gprs.get r) = w (tssGprOffset .tss16 r.num.toNat))
      ∧ (v.segs.es = w 0x22 ∧ v.segs.cs = w 0x24 ∧ v.segs.ss = w 0x26 ∧ v.segs.ds = w 0x28)
      ∧ v.eip = (w 0x0E).zeroExtend 32 ∧ v.ldtSel = w 0x2A
      ∧ ∀ n, n < 16 → v.eflags.getLsbD n = (w 0x10).getLsbD n := by
  intro w
  obtain ⟨y, hy, hv⟩ := h.load
  rw [hk] at hv
  have hv : SameCpu (y.loadTask16 (tssBase desc)) v := hv
  have hw : ∀ o, 2 ≤ o ∧ o ≤ 0x70 → y.readWord (tssField (tssBase desc) o) = w o := fun o ho => h.readWord hy ho
  refine ⟨fun r => ?_, ?_, hv.eip.trans ?_, hv.ldtSel.trans (hw 0x2A (by decide)), fun n hn => ?_⟩
  · rw [hv.gprs]
    cases r <;> exact (lowWord_freeHigh _ _).trans (hw _ (by decide))
  · rw [hv.segs]
    exact ⟨hw 0x22 (by decide), hw 0x24 (by decide), hw 0x26 (by decide), hw 0x28 (by decide)⟩
  · exact congrArg (BitVec.zeroExtend 32) (hw 0x0E (by decide))
  · rw [hv.eflags, ← hw 0x10 (by decide)]
    exact (State.setEflags_getLsbD _ _ (by omega) (by omega)).trans (freeHigh_getLsbD _ _ hn)

end

end Sys2Proof.Machine
end

section
/-! The task switch as a whole: its clauses, each for the stages it speaks of, and the statement assembled from them. -/

namespace Sys2Proof.Machine

/-- A task switch that passes its first check, by its stages. -/
theorem State.taskSwitch_stages {f : TaskFunction} {sel : Word} {ret : Dword} {s t : State}
    (hb : f.check .begun sel s = none) (h : s.taskSwitch f sel ret = .next t) :
    ∃ k old desc u, s.currentTss = some (k, old) ∧ TaskSaved (f.choose sel s) k old sel ret desc s.draw u ∧
      u.startTask f (f.choose sel s) (s.draw.keptPlaces (f.choose sel s) k old ret desc) s.tr.sel sel desc ret
        = .next t := by
  unfold State.taskSwitch at h
  split at h
  · cases h
  · rename_i k old hk
    rcases State.checked_cases h with ⟨why, hc, -⟩ | ⟨-, h⟩
    · rw [hb] at hc
      cases hc
    · obtain ⟨desc, u, hs, h⟩ := State.changeTask_saved h
      exact ⟨k, old, desc, u, hk, hs, h⟩

/-- The reserved bytes of a 32-bit TSS are the two bytes at each reserved offset (rules R95 and R96). -/
theorem reservedOffset_of_byte {n : Nat} (h : n % 4 ≥ 2 ∧ (n < 0x04 ∨ 0x08 ≤ n ∧ n < 0x0C ∨ 0x10 ≤ n ∧ n < 0x14
      ∨ 0x18 ≤ n ∧ n < 0x1C ∨ 0x48 ≤ n ∧ n < 0x64) ∨ n = 0x64 ∨ n = 0x65) :
    ∃ p ∈ reservedOffsets, ∃ i < 2, n = p + i := by
  have hall : ∀ n < 0x66, (n % 4 ≥ 2 ∧ (n < 0x04 ∨ 0x08 ≤ n ∧ n < 0x0C ∨ 0x10 ≤ n ∧ n < 0x14
      ∨ 0x18 ≤ n ∧ n < 0x1C ∨ 0x48 ≤ n ∧ n < 0x64) ∨ n = 0x64 ∨ n = 0x65) →
      ∃ p ∈ reservedOffsets, ∃ i < 2, n = p + i := by decide +kernel
  exact hall n (by omega) h

/-- A doubleword whose four bytes are those of `d` reads as `d`. -/
theorem State.readDword_of_bytes {s : State} {a d : Dword}
    (h : ∀ j (h : j < (dwordBytes d).length), s.readByte (a + BitVec.ofNat 32 j) = (dwordBytes d)[j]) :
    s.readDword a = d := by
  have h0 : s.readByte (a + 0#32) = _ := h 0 (by simp [dwordBytes])
  have h1 : s.readByte (a + 1) = _ := h 1 (by simp [dwordBytes])
  have h2 : s.readByte (a + 2) = _ := h 2 (by simp [dwordBytes])
  have h3 : s.readByte (a + 3) = _ := h 3 (by simp [dwordBytes])
  have e3 : a + 2 + 1 = a + 3 := by rw [BitVec.add_assoc]; rfl
  rw [BitVec.add_zero] at h0
  rw [State.readDword, State.readWord, State.readWord, e3, h0, h1, h2, h3]
  simp only [dwordBytes, List.getElem_cons_zero, List.getElem_cons_succ]
  apply BitVec.eq_of_toNat_eq
  have := d.isLt
  simp only [toNat_append_add, toNat_extract_div]
  omega

theorem State.readWord_of_bytes {s : State} {a : Dword} {w : Word}
    (h : ∀ j (h : j < (wordBytes w).length), s.readByte (a + BitVec.ofNat 32 j) = (wordBytes w)[j]) :
    s.readWord a = w := by
  have h0 : s.readByte (a + 0#32) = _ := h 0 (by simp [wordBytes])
  have h1 : s.readByte (a + 1) = _ := h 1 (by simp [wordBytes])
  rw [BitVec.add_zero] at h0
  rw [State.readWord, h0, h1]
  exact word_of_bytes w

/-! ## What stays of memory -/

section
variable {f : TaskFunction} {c : TaskChoice} {k : TssKind} {old : Dword} {sel link : Word} {ret : Dword} {desc : Desc}
  {s u t : State}

/-- The saved state stays saved, unless the back link written after the save lies over it (rule R147 (a)). -/
theorem TaskSaved.saved_stays (hs : TaskSaved c k old sel ret desc s u)
    (h : u.startTask f c (s.keptPlaces c k old ret desc) link sel desc ret = .next t) (hp : s.cfg.wpr1 = false)
    (hl : c.backLink = .never ∨ c.backLink = .beforeSave
      ∨ (tssBase t.tr.desc - old).toNat < 0x0D ∨ 0x62 ≤ (tssBase t.tr.desc - old).toNat)
    {w : Dword × List Byte} (hw : w ∈ s.saveWrites c k old ret) {j : Nat} (hj : j < w.2.length) :
    t.readByte (w.1 + BitVec.ofNat 32 j) = w.2[j] := by
  rw [← hs.saved hp w hw j hj]
  refine State.startTask_kept h (State.saved_mem_keptPlaces hw) hj fun hb => ?_
  obtain ⟨m, h1, h2, e⟩ := State.saveWrites_offset hw hj
  have hm := tssField_sub old (o := m) (by omega)
  rw [e]
  generalize tssField old m = x at hm
  rcases hl with hl | hl | hl
  · simp [hl] at hb
  · simp [hl] at hb
  · bv_omega

/-- EIP is among the saved fields under every choice. -/
theorem State.ip_mem_saveWrites (s : State) (c : TaskChoice) (k : TssKind) (old ret : Dword) :
    (tssField old (tssIpOffset k), k.registerBytes ret) ∈ s.saveWrites c k old ret :=
  State.mem_saveWrites.mpr ⟨.ip, c.ip_mem_savedFields, tssIpOffset k, by cases k <;> rfl, rfl⟩

/-- A kept place that the save does not write and no back link lies over keeps its bytes. -/
theorem TaskSaved.place_stays (hs : TaskSaved c k old sel ret desc s u)
    (h : u.startTask f c (s.keptPlaces c k old ret desc) link sel desc ret = .next t) {p : Dword × Nat}
    (hp : p ∈ s.keptPlaces c k old ret desc) {n : Nat} (hn : n < p.2)
    (hun : Unwritten (s.saveWrites c k old ret) (p.1 + BitVec.ofNat 32 n))
    (hbefore : c.backLink = .beforeSave → 2 ≤ (p.1 + BitVec.ofNat 32 n - tssBase desc).toNat)
    (hafter : c.backLink = .beforeLoad ∨ c.backLink = .afterLoad →
      2 ≤ (p.1 + BitVec.ofNat 32 n - tssBase t.tr.desc).toNat) :
    t.readByte (p.1 + BitVec.ofNat 32 n) = s.readByte (p.1 + BitVec.ofNat 32 n) :=
  (State.startTask_kept h hp hn hafter).trans (hs.other _ hun hbefore)

/-- The reserved bytes of the old TSS stay, but where a back link lies over them (rule R96, decision D24). -/
theorem TaskSaved.oldReserved_stays (hs : TaskSaved c .tss32 old sel ret desc s u)
    (h : u.startTask f c (s.keptPlaces c .tss32 old ret desc) link sel desc ret = .next t) {p n : Nat}
    (hp : p ∈ reservedOffsets) (hn : n < 2)
    (hl : c.backLink ≠ .never → 2 ≤ (tssField old (p + n)
      - tssBase (if c.backLink = .beforeSave then desc else t.tr.desc)).toNat) :
    t.readByte (tssField old (p + n)) = s.readByte (tssField old (p + n)) := by
  have hmem : (tssField old p, 2) ∈ tssReserved .tss32 old :=
    List.mem_map_of_mem (f := fun o => (tssField old o, 2)) hp
  rw [← tssField_add] at hl ⊢
  refine hs.place_stays h (p := (tssField old p, 2)) (State.oldReserved_mem_keptPlaces hmem) hn ?_ (fun hb => ?_)
    fun hb => ?_
  · rw [tssField_add]
    exact State.saveWrites_unwritten_reserved hp hn
  · have h2 := hl (by simp [hb])
    rwa [if_pos hb] at h2
  · have h2 := hl (by rcases hb with hb | hb <;> simp [hb])
    rwa [if_neg (by rcases hb with hb | hb <;> simp [hb])] at h2

/-- A place the new task is loaded from keeps its bytes, but where the save lies over it (rule R147 (d)). -/
theorem TaskSaved.loadedPlace_stays (hs : TaskSaved c k old sel ret desc s u)
    (h : u.startTask f c (s.keptPlaces c k old ret desc) link sel desc ret = .next t) (htr : t.tr.desc = desc)
    {p : Dword × Nat} (hp : p ∈ taskReads (tssKind desc) (tssBase desc)) {n : Nat} (hn : n < p.2)
    (hun : (p.1 + BitVec.ofNat 32 n - old).toNat < 0x0E ∨ 0x62 ≤ (p.1 + BitVec.ofNat 32 n - old).toNat) :
    t.readByte (p.1 + BitVec.ofNat 32 n) = s.readByte (p.1 + BitVec.ofNat 32 n) :=
  hs.place_stays h (State.loaded_mem_keptPlaces hp) hn (State.saveWrites_unwritten hun)
    (fun _ => taskReads_not_link hp hn) fun _ => htr ▸ taskReads_not_link hp hn

/-- The reserved bytes of the new TSS stay, but where the save lies over them (rule R96, decision D24). -/
theorem TaskSaved.newReserved_stays (hs : TaskSaved c k old sel ret desc s u)
    (h : u.startTask f c (s.keptPlaces c k old ret desc) link sel desc ret = .next t) (htr : t.tr.desc = desc)
    (hk : tssKind desc = .tss32) {p n : Nat} (hp : p ∈ reservedOffsets) (hn : n < 2)
    (hun : (tssField (tssBase desc) (p + n) - old).toNat < 0x0E
      ∨ 0x62 ≤ (tssField (tssBase desc) (p + n) - old).toNat) :
    t.readByte (tssField (tssBase desc) (p + n)) = s.readByte (tssField (tssBase desc) (p + n)) := by
  have hmem : (tssField (tssBase desc) p, 2) ∈ tssReserved (tssKind desc) (tssBase desc) := by
    rw [hk]
    exact List.mem_map_of_mem (f := fun o => (tssField (tssBase desc) o, 2)) hp
  have hrange : ∀ p ∈ reservedOffsets, 2 ≤ p ∧ p ≤ 0x64 := by decide
  have hpr := hrange p hp
  have hlink : 2 ≤ (tssField (tssBase desc) p + BitVec.ofNat 32 n - tssBase desc).toNat := by
    rw [tssField_add, tssField_sub _ (by omega)]
    omega
  rw [← tssField_add] at hun ⊢
  exact hs.place_stays h (p := (tssField (tssBase desc) p, 2)) (State.newReserved_mem_keptPlaces hmem) hn
    (State.saveWrites_unwritten hun) (fun _ => hlink) fun _ => by rwa [htr]

/-- A back link written before the save stands in the new TSS, unless a saved field lies over it (rule R147 (c)). -/
theorem TaskSaved.link_stays (hs : TaskSaved c k old sel ret desc s u)
    (h : u.startTask f c (s.keptPlaces c k old ret desc) link sel desc ret = .next t)
    (hl : c.backLink = .beforeSave) (hp : s.cfg.wpr1 = false)
    (hun : (tssBase desc - old).toNat < 0x0D ∨ 0x62 ≤ (tssBase desc - old).toNat) :
    t.readWord (tssBase desc) = s.tr.sel := by
  have hfree : ∀ j < 2, Unwritten (s.saveWrites c k old ret) (tssBase desc + BitVec.ofNat 32 j) := by
    refine fun j hj => State.saveWrites_unwritten ?_
    have hj : j = 0 ∨ j = 1 := by omega
    rcases hj with rfl | rfl <;> bv_omega
  rw [← hs.link hl hp hfree]
  exact State.readWord_congr_at fun j hj => State.startTask_kept h State.link_mem_keptPlaces hj fun hb => by
    simp [hl] at hb

end

/-! ## The new task in place -/

section
variable {f : TaskFunction} {c : TaskChoice} {k : TssKind} {old : Dword} {sel link : Word} {ret : Dword} {desc : Desc}
  {s u x v : State}

/-- DR7 after a task switch: every Li cleared, every Gi kept (rules R59 and R147 (d)). -/
theorem DebugRegs.clearLocal_dr7_bits (d : DebugRegs) (i : Fin 4) :
    d.clearLocal.dr7.getLsbD (2 * i.val) = false
      ∧ d.clearLocal.dr7.getLsbD (2 * i.val + 1) = d.dr7.getLsbD (2 * i.val + 1) := by
  have hm : ∀ i : Fin 4, localMask.getLsbD (2 * i.val) = true ∧ localMask.getLsbD (2 * i.val + 1) = false := by
    decide
  obtain ⟨h1, h2⟩ := hm i
  exact ⟨(getLsbD_and_not _ _ _).trans (by rw [h1]; simp), (getLsbD_and_not _ _ _).trans (by rw [h2]; simp)⟩

/-- The debug exception a new task's T bit leaves due adds its cause to one that was (rule R147 (e)). -/
theorem State.dueForTask_trap (c : TaskChoice) (s : State) : ∃ due, s.dueForTask c true = some due
    ∧ due.cause.taskSwitch = true ∧ due.afterFirst = c.trapAfterFirst
    ∧ ∀ before, s.debugDue = some before → due.cause = { before.cause with taskSwitch := true } := by
  refine ⟨_, rfl, ?_, rfl, fun before hb => ?_⟩
  · unfold State.debugCause
    split
    · rfl
    · exact Bool.or_true _
  · simp [State.debugCause, hb, DebugCause.merge]

/-- CR0 where the switch writes none, and where it does (rule R22). -/
theorem State.taskCr0_cr0 (c : TaskChoice) (s : State) : (c.cr0 = none → (s.taskCr0 c).cr0 = s.cr0)
    ∧ ∀ v n, c.cr0 = some v → (s.taskCr0 c).cr0.getLsbD n =
      if n = 29 ∧ s.cfg.lockNw = true then s.cr0.getLsbD n else v.getLsbD n := by
  unfold State.taskCr0
  refine ⟨fun h => by rw [h], fun v n h => ?_⟩
  rw [h]
  exact State.setCr0_getLsbD v s n

/-- The old selector in the back link of the new TSS (rule R147 (c)). -/
theorem TaskEntered.link_written (hx : TaskEntered c (s.keptPlaces c k old ret desc) link sel desc u x)
    (hv : TaskLoaded c link desc x v) (hp : u.cfg.wpr1 = false)
    (hl : c.backLink = .beforeLoad ∨ c.backLink = .afterLoad) : v.readWord (tssBase desc) = link := by
  rcases hl with hl | hl
  · rw [← hx.link hl hp]
    exact State.readWord_congr_at fun j _ => hv.other _ fun e => by rw [hl] at e; cases e
  · exact hv.link hl (by rw [hx.cpu.cfg]; exact hp)

/-- The T bit as the switch has seen it. -/
theorem State.trapsTask_tss32 (s : State) {desc : Desc} (h : tssKind desc = .tss32) :
    s.trapsTask desc = (s.readByte (tssBase desc + 0x64)).getLsbD 0 := by
  rw [State.trapsTask, h]
  rfl

theorem State.trapsTask_tss16 (s : State) {desc : Desc} (h : tssKind desc = .tss16) : s.trapsTask desc = false := by
  rw [State.trapsTask, h]
  rfl

theorem State.newTask_eflags_getLsbD (c : TaskChoice) (desc : Desc) (r : RunState) (s : State) {n : Nat} (hn : n < 32)
    (h21 : n ≠ 21) : (s.newTask c desc r).eflags.getLsbD n = (s.eflags.getLsbD n || c.setsFlags.getLsbD n) := by
  rw [State.newTask_eflags, State.setEflags_getLsbD _ _ hn h21, BitVec.getLsbD_or]

/-- What a 32-bit TSS gives the new task, with the flags the switch adds (rules R95 and R147 (d), (e)). -/
theorem TaskLoaded.newTask32 (hv : TaskLoaded c link desc x v) (hk : tssKind desc = .tss32) (r : RunState) {t : State}
    (ht : t = v.newTask c desc r) {tb : Dword} (htb : tb = tssBase desc) :
    t.gprs.eax = t.readDword (tb + 0x28) ∧ t.gprs.ecx = t.readDword (tb + 0x2C)
      ∧ t.gprs.edx = t.readDword (tb + 0x30) ∧ t.gprs.ebx = t.readDword (tb + 0x34)
      ∧ t.gprs.esp = t.readDword (tb + 0x38) ∧ t.gprs.ebp = t.readDword (tb + 0x3C)
      ∧ t.gprs.esi = t.readDword (tb + 0x40) ∧ t.gprs.edi = t.readDword (tb + 0x44)
      ∧ t.segs.es = t.readWord (tb + 0x48) ∧ t.segs.cs = t.readWord (tb + 0x4C)
      ∧ t.segs.ss = t.readWord (tb + 0x50) ∧ t.segs.ds = t.readWord (tb + 0x54)
      ∧ t.segs.fs = t.readWord (tb + 0x58) ∧ t.segs.gs = t.readWord (tb + 0x5C)
      ∧ t.eip = t.readDword (tb + 0x20) ∧ t.cr3 = t.readDword (tb + 0x1C) ∧ t.ldtSel = t.readWord (tb + 0x60)
      ∧ (∀ n, n < 32 → n ≠ 21 →
          t.eflags.getLsbD n = ((t.readDword (tb + 0x24)).getLsbD n || c.setsFlags.getLsbD n))
      ∧ ((t.readByte (tb + 0x64)).getLsbD 0 = true →
          ∃ due, t.debugDue = some due ∧ due.cause.taskSwitch = true ∧ due.afterFirst = c.trapAfterFirst
            ∧ ∀ before, v.debugDue = some before → due.cause = { before.cause with taskSwitch := true })
      ∧ ((t.readByte (tb + 0x64)).getLsbD 0 = false → t.debugDue = v.debugDue) := by
  subst ht htb
  obtain ⟨hg, hs, heip, hcr3, hldt, hfl⟩ := hv.registers32 hk
  simp only [State.newTask_readByte, State.newTask_readWord, State.newTask_readDword, State.newTask_gprs,
    State.newTask_segs, State.newTask_eip, State.newTask_cr3, State.newTask_ldtSel, State.newTask_debugDue,
    v.trapsTask_tss32 hk]
  refine ⟨congrArg Gprs.eax hg, congrArg Gprs.ecx hg, congrArg Gprs.edx hg, congrArg Gprs.ebx hg, congrArg Gprs.esp hg,
    congrArg Gprs.ebp hg, congrArg Gprs.esi hg, congrArg Gprs.edi hg, congrArg Segs.es hs, congrArg Segs.cs hs,
    congrArg Segs.ss hs, congrArg Segs.ds hs, congrArg Segs.fs hs, congrArg Segs.gs hs, heip, hcr3, hldt,
    fun n hn h21 => ?_, fun htrap => ?_, fun htrap => ?_⟩
  · rw [State.newTask_eflags_getLsbD _ _ _ _ hn h21, hfl n hn h21]
    rfl
  · rw [htrap]
    exact v.dueForTask_trap c
  · rw [htrap]
    rfl

/-- What a 16-bit TSS gives the new task, with the flags the switch adds (rules R98 and R147 (d)). -/
theorem TaskLoaded.newTask16 (hv : TaskLoaded c link desc x v) (hk : tssKind desc = .tss16) (r : RunState) {t : State}
    (ht : t = v.newTask c desc r) {tb : Dword} (htb : tb = tssBase desc) :
    (∀ r, (t.gprs.get r).extractLsb' 0 16 = t.readWord (tb + 0x12 + 2 * r.num.zeroExtend 32))
      ∧ t.segs.es = t.readWord (tb + 0x22) ∧ t.segs.cs = t.readWord (tb + 0x24)
      ∧ t.segs.ss = t.readWord (tb + 0x26) ∧ t.segs.ds = t.readWord (tb + 0x28)
      ∧ t.eip = (t.readWord (tb + 0x0E)).zeroExtend 32 ∧ t.ldtSel = t.readWord (tb + 0x2A)
      ∧ (∀ n, n < 16 → t.eflags.getLsbD n = ((t.readWord (tb + 0x10)).getLsbD n || c.setsFlags.getLsbD n))
      ∧ t.debugDue = v.debugDue := by
  subst ht htb
  obtain ⟨hg, ⟨hes, hcs, hss, hds⟩, heip, hldt, hfl⟩ := hv.registers16 hk
  simp only [State.newTask_readWord, State.newTask_gprs, State.newTask_segs, State.newTask_eip, State.newTask_ldtSel,
    State.newTask_debugDue, v.trapsTask_tss16 hk]
  refine ⟨fun r => ?_, hes, hcs, hss, hds, heip, hldt, fun n hn => ?_, rfl⟩
  · have hplace : tssBase desc + 0x12 + 2 * r.num.zeroExtend 32
        = tssField (tssBase desc) (tssGprOffset .tss16 r.num.toNat) := by
      rw [BitVec.add_assoc]
      cases r <;> rfl
    rw [hplace]
    exact hg r
  · rw [State.newTask_eflags_getLsbD _ _ _ _ (by omega) (by omega), hfl n hn]
    rfl

/-- Another TR on both sides. -/
theorem SameCpu.with_tr {s u : State} (h : SameCpu s u) (tr : TaskRegister) :
    SameCpu { s with tr := tr } { u with tr := tr } := by
  have h := congrArg (fun x : State => { x with tr := tr }) h.eqn
  exact h

end

/-- Settles O52: the switch by its stages, each clause by the lemma that says it. -/
theorem taskSwitchLoadsTask : Obligations.TaskSwitchLoadsTask := by
  intro reserved hres f c s sel ret a ha hc
  subst hc
  have hloc : (s.locateDescriptor sel).2 = a := (s.locateDescriptor_snd sel).trans ha.symm
  refine ⟨s.currentTss_eq_some_iff, fun hn => ?_, fun v hk hv => ?_, fun k tb hk hb hsel hw h1 h2 => ?_,
    fun t hb h => ?_⟩
  · rw [State.taskSwitch, hn]
  · obtain ⟨⟨k, tb⟩, hk⟩ := Option.ne_none_iff_exists'.mp hk
    rw [State.taskSwitch, hk]
    dsimp only
    rw [State.checked, hv]
    rfl
  · rw [State.taskSwitch, hk]
    dsimp only
    rw [State.checked, hb]
    subst hloc
    exact State.changeTask_goes_on (s := s.draw) hw hsel h1 h2
  obtain ⟨k, old, desc, u, hk, hs, hstart⟩ := State.taskSwitch_stages hb h
  have hkey : ∀ k' old', s.currentTss = some (k', old') → k' = k ∧ old' = old := by
    intro k' old' h'
    rw [hk] at h'
    cases h'
    exact ⟨rfl, rfl⟩
  have hfirst : (f.choose sel s).readsFirst = true → desc = s.readQword a := fun hf => by
    rw [hs.first hf, ← hloc]
    rfl
  have hcpu : SameCpu s u := (s.draw_cycleStep _).cpu.trans hs.cpu
  refine ⟨fun k' old' h' hp hl => ?_, fun old' h' n hn hl => ?_, ?_⟩
  · obtain ⟨rfl, rfl⟩ := hkey k' old' h'
    have hstays := fun w hw j (hj : j < w.2.length) => hs.saved_stays hstart hp hl (w := w) hw hj
    have hip := hstays _ (s.draw.ip_mem_saveWrites _ _ _ _)
    refine ⟨fun e => ?_, fun e => ?_, hstays⟩
    · subst e
      exact State.readDword_of_bytes hip
    · subst e
      exact State.readWord_of_bytes hip
  · obtain ⟨rfl, rfl⟩ := hkey _ old' h'
    obtain ⟨p, hp, i, hi, rfl⟩ := reservedOffset_of_byte ((hres n).mp hn)
    refine hs.oldReserved_stays hstart hp hi fun hne => ?_
    have h2 := hl hne
    by_cases hb : (f.choose sel s).backLink = .beforeSave
    · rw [if_pos hb] at h2 ⊢
      rwa [hfirst (by simp [TaskChoice.readsFirst, hb])]
    · rwa [if_neg hb] at h2 ⊢
  rcases State.startTask_stages hstart with ⟨why, hc, rfl⟩ | ⟨x, hx, ⟨why, hc, rfl⟩ | ⟨v, r, hv, rfl, hr⟩⟩
  · exact .inl ⟨u, why, hc, rfl, hcpu.eqn⟩
  · have hxtr := hx.tr
    refine .inr (.inl ⟨x, why, hc, rfl, by rw [hxtr], by rw [hxtr]; exact hs.tss, ?_⟩)
    rw [State.sameButBus, hxtr]
    exact ((hcpu.with_tr ⟨sel, desc⟩).trans hx.cpu).eqn
  obtain ⟨hvtr, hvdbg, hvdue, hvev, hvcr0, hvcfg⟩ := hv.keeps
  have hxs := (hcpu.with_tr ⟨sel, desc⟩).trans hx.cpu
  have htr : (v.newTask (f.choose sel s) desc r).tr = ⟨sel, desc⟩ := (State.newTask_tr _ _ _ v).trans (hvtr.trans hx.tr)
  have hcfg : v.cfg = s.cfg := hvcfg.trans hxs.cfg
  have hcr0 := v.taskCr0_cr0 (f.choose sel s)
  rw [hvcr0, hxs.cr0, hcfg] at hcr0
  have hdbg : v.dbg = s.dbg := hvdbg.trans hxs.dbg
  have hdue : v.debugDue = s.debugDue := hvdue.trans hxs.debugDue
  refine .inr (.inr ⟨?_, by rw [htr], by rw [htr]; exact hs.tss, fun hf => by rw [htr]; exact hfirst hf, fun hf => ?_,
    fun i => ?_, ?_, ?_, ?_, ?_, fun w n hw => ?_, fun tb htb => ?_⟩)
  · rcases hr with rfl | ⟨why, hc, rfl⟩
    · exact .inl rfl
    · exact .inr ⟨v.markTask _ desc, why, hc, by rw [← State.markTask_eip _ desc v]; rfl⟩
  · obtain ⟨w, hw, hd⟩ := hs.second hf
    exact ⟨k, old, w, hk, hw, by rw [htr, ← hloc]; exact hd⟩
  · rw [State.newTask_dbg, hdbg]
    exact s.dbg.clearLocal_dr7_bits i
  · rw [State.newTask_dbg, hdbg]
    rfl
  · exact (State.newTask_lastEvent _ _ _ v).trans (hvev.trans hxs.lastEvent)
  · exact (State.newTask_cfg _ _ _ v).trans hcfg
  · rw [State.newTask_cr0]
    exact hcr0.1
  · rw [State.newTask_cr0]
    exact hcr0.2 w n hw
  have hwpr1 : s.cfg.wpr1 = false → u.cfg.wpr1 = false := fun hp => by rw [hcpu.cfg, hp]
  have htrdesc := congrArg TaskRegister.desc htr
  rw [htrdesc] at htb ⊢
  subst htb
  have h32 := fun hk => hv.newTask32 hk r rfl rfl
  have h16 := fun hk => hv.newTask16 hk r rfl rfl
  rw [hdue] at h32 h16
  refine ⟨fun hl hp => ?_, fun hl hp hun => hs.link_stays hstart hl hp (hun k old hk),
    fun p hp n hn hun => hs.loadedPlace_stays hstart htrdesc hp hn (hun k old hk), fun hk32 n hn hun => ?_, h32, h16⟩
  · exact (State.newTask_readWord _ _ _ _ _).trans (hx.link_written hv (hwpr1 hp) hl)
  · obtain ⟨p, hp, i, hi, rfl⟩ := reservedOffset_of_byte ((hres n).mp hn)
    exact hs.newReserved_stays hstart htrdesc hk32 hp hi (hun k old hk)

end Sys2Proof.Machine
end

section
/-! Reads and writes of several bytes: which byte of a word, doubleword or descriptor stands at which address, and which
of the two byte maps a byte written goes to. -/

namespace Sys2Proof.Machine

/-! ## The bytes of a wide read -/

theorem State.readWord_byte (s : State) (a : Dword) {k : Nat} (hk : k < 2) :
    (s.readWord a).extractLsb' (8 * k) 8 = s.readByte (a + BitVec.ofNat 32 k) := by
  have hk : k = 0 ∨ k = 1 := by omega
  rcases hk with rfl | rfl
  · rw [BitVec.add_zero]
    exact (BitVec.extractLsb'_append_eq_of_add_le (by decide)).trans BitVec.extractLsb'_eq_self
  · exact (BitVec.extractLsb'_append_eq_of_le (by decide)).trans BitVec.extractLsb'_eq_self

/-- Two words make a doubleword, the one at the lower address below. -/
theorem State.readDword_byte (s : State) (a : Dword) {k : Nat} (hk : k < 4) :
    (s.readDword a).extractLsb' (8 * k) 8 = s.readByte (a + BitVec.ofNat 32 k) := by
  by_cases h : k < 2
  · rw [← s.readWord_byte a h]
    exact BitVec.extractLsb'_append_eq_of_add_le (by omega)
  · obtain ⟨j, rfl⟩ := Nat.exists_eq_add_of_le (Nat.le_of_not_lt h)
    rw [BitVec.ofNat_add, ← BitVec.add_assoc]
    refine Eq.trans ?_ (s.readWord_byte (a + 2) (k := j) (by omega))
    rw [State.readDword, BitVec.extractLsb'_append_eq_of_le (by omega)]
    congr 1
    omega

/-- Two doublewords make a descriptor, the one at the lower address below. -/
theorem State.readQword_byte (s : State) (a : Dword) {k : Nat} (hk : k < 8) :
    (s.readQword a).extractLsb' (8 * k) 8 = s.readByte (a + BitVec.ofNat 32 k) := by
  by_cases h : k < 4
  · rw [← s.readDword_byte a h]
    exact BitVec.extractLsb'_append_eq_of_add_le (by omega)
  · obtain ⟨j, rfl⟩ := Nat.exists_eq_add_of_le (Nat.le_of_not_lt h)
    rw [BitVec.ofNat_add, ← BitVec.add_assoc]
    refine Eq.trans ?_ (s.readDword_byte (a + 4) (k := j) (by omega))
    rw [State.readQword, BitVec.extractLsb'_append_eq_of_le (by omega)]
    congr 1
    omega

/-- Settles O41: the bytes of the wide reads, and each byte written read back or left alone. -/
theorem memoryLittleEndian : Obligations.MemoryLittleEndian := by
  intro s a
  have hlen : ∀ {n : Nat}, n ≤ 4 → n ≤ 0x100000000 := fun h => by omega
  refine ⟨fun k => s.readWord_byte a, fun k => s.readDword_byte a, fun k => s.readQword_byte a, fun v => ?_, fun v => ?_,
    fun bs x h => State.readByte_writeBytes_other bs a s x h⟩
  · exact State.readWord_of_bytes fun j hj => State.readByte_writeBytes_within _ a s j hj (hlen (by simp [wordBytes]))
  · exact State.readDword_of_bytes fun j hj =>
      State.readByte_writeBytes_within _ a s j hj (hlen (by simp [dwordBytes]))

/-! ## Gate descriptors -/

/-- A field cut out of a field. -/
theorem extract_extract {w : Nat} (v : BitVec w) (p : Nat) {m i n : Nat} (h : i + n ≤ m) :
    (v.extractLsb' p m).extractLsb' i n = v.extractLsb' (p + i) n := by
  apply BitVec.eq_of_getLsbD_eq
  intro j hj
  have hm : i + j < m := by omega
  simp only [BitVec.getLsbD_extractLsb', hj, hm, decide_true, Bool.true_and, Nat.add_assoc]

/-- What the TYPE codes say (rule R90). -/
theorem gateKind_iff : ∀ type : BitVec 4,
    (gateKind type = .call ↔ type = 0x4 ∨ type = 0xC) ∧ (gateKind type = .task ↔ type = 0x5)
      ∧ (gateKind type = .interrupt ↔ type = 0x6 ∨ type = 0xE) ∧ (gateKind type = .trap ↔ type = 0x7 ∨ type = 0xF) := by
  decide

theorem gateSize_iff : ∀ type : BitVec 4,
    (gateSize type = some 16 ↔ type = 0x4 ∨ type = 0x6 ∨ type = 0x7)
      ∧ (gateSize type = some 32 ↔ type = 0xC ∨ type = 0xE ∨ type = 0xF)
      ∧ (gateSize type = none ∨ gateSize type = some 16 ∨ gateSize type = some 32) := by
  decide

/-- Settles O50: each field is bits of the two doublewords, and so is each byte. -/
theorem gateDescriptorDecode : Obligations.GateDescriptorDecode := by
  intro s g type htype
  have hlow : ∀ k < 4, s.readByte (g + BitVec.ofNat 32 k) = (s.readDword g).extractLsb' (8 * k) 8 := fun k hk =>
    (s.readDword_byte g hk).symm
  have hhigh : ∀ k < 4, s.readByte (g + BitVec.ofNat 32 (4 + k)) = (s.readDword (g + 4)).extractLsb' (8 * k) 8 :=
    fun k hk => by
      rw [s.readDword_byte _ hk, BitVec.ofNat_add, ← BitVec.add_assoc]
      rfl
  have h0 := hlow 0 (by decide)
  rw [BitVec.add_zero] at h0
  have h5 := hhigh 1 (by decide)
  obtain rfl : type = (s.readDword (g + 4)).extractLsb' 8 4 := by
    rw [htype]
    exact (congrArg (BitVec.extractLsb' 0 4) h5).trans (extract_extract _ _ (by decide))
  obtain ⟨hcall, htask, hint, htrap⟩ := gateKind_iff ((s.readDword (g + 4)).extractLsb' 8 4)
  obtain ⟨h16, h32, hsize⟩ := gateSize_iff ((s.readDword (g + 4)).extractLsb' 8 4)
  have hoff : ∀ j, j + 8 ≤ 16 → (s.decodeGate g).offset.extractLsb' j 8 = (s.readDword g).extractLsb' j 8 := fun j hj => by
    rw [State.decodeGate, Gate.ofDwords, BitVec.extractLsb'_append_eq_of_add_le hj, extract_extract _ _ hj, Nat.zero_add]
  have hoff' : ∀ j, j + 8 ≤ 16 → (s.decodeGate g).offset.extractLsb' (16 + j) 8
      = (s.readDword (g + 4)).extractLsb' (16 + j) 8 := fun j hj => by
    rw [State.decodeGate, Gate.ofDwords, BitVec.extractLsb'_append_eq_of_le (Nat.le_add_right _ _),
      Nat.add_sub_cancel_left, extract_extract _ _ hj]
  have hsel : ∀ j, j + 8 ≤ 16 → (s.decodeGate g).selector.extractLsb' j 8
      = (s.readDword g).extractLsb' (16 + j) 8 := fun j hj => extract_extract _ _ hj
  have hparams : (s.decodeGate g).undoc75 ++ (s.decodeGate g).parameters = (s.readDword (g + 4)).extractLsb' 0 8 :=
    BitVec.extractLsb'_append_extractLsb'_eq_extractLsb' rfl
  refine ⟨h0.trans (hoff 0 (by decide)).symm, (hlow 1 (by decide)).trans (hoff 8 (by decide)).symm,
    (hlow 2 (by decide)).trans (hsel 0 (by decide)).symm,
    (hlow 3 (by decide)).trans (hsel 8 (by decide)).symm,
    (hhigh 0 (by decide)).trans hparams.symm, ?_,
    (congrArg (BitVec.extractLsb' 5 2) h5).trans (extract_extract (m := 8) (i := 5) (n := 2) _ _ (by decide)), ?_,
    (hhigh 2 (by decide)).trans (hoff' 0 (by decide)).symm, (hhigh 3 (by decide)).trans (hoff' 8 (by decide)).symm,
    hcall, htask, hint, htrap, h16, h32, hsize⟩
  · exact (congrArg (BitVec.getLsbD · 7) h5).trans (BitVec.getLsbD_extractLsb' _ _ _ _)
  · exact (congrArg (BitVec.getLsbD · 4) h5).trans (BitVec.getLsbD_extractLsb' _ _ _ _)

/-! ## System management memory -/

/-- A byte written to one byte map changes no byte of the other, nor another byte of its own (rule R83). -/
theorem State.mem_writeByte_routed {s : State} {x : Dword} (h : s.smmRouted x = true) (a : Dword) (b : Byte) :
    (s.writeByte a b).mem.read x.toNat = s.mem.read x.toNat := by
  unfold State.writeByte
  split
  · rfl
  · rename_i ha
    refine Memory.read_write_other _ _ fun e => ha ?_
    rwa [← BitVec.eq_of_toNat_eq e]

theorem State.smm_writeByte_unrouted {s : State} {x : Dword} (h : s.smmRouted x = false) (a : Dword) (b : Byte) :
    (s.writeByte a b).smm.read x.toNat = s.smm.read x.toNat := by
  unfold State.writeByte
  split
  · rename_i ha
    refine Memory.read_write_other _ _ fun e => ?_
    rw [BitVec.eq_of_toNat_eq e, ha] at h
    cases h
  · rfl

theorem State.mem_writeBytes_routed {x : Dword} (bs : List Byte) : ∀ (a : Dword) {s : State}, s.smmRouted x = true →
    (s.writeBytes a bs).mem.read x.toNat = s.mem.read x.toNat := by
  induction bs with
  | nil => exact fun _ _ _ => rfl
  | cons b bs ih =>
    intro a s h
    have h' := ((s.writeByte_busStep a b).cpu.smmRouted x).trans h
    exact (ih (a + 1) h').trans (State.mem_writeByte_routed h a b)

theorem State.smm_writeBytes_unrouted {x : Dword} (bs : List Byte) : ∀ (a : Dword) {s : State},
    s.smmRouted x = false → (s.writeBytes a bs).smm.read x.toNat = s.smm.read x.toNat := by
  induction bs with
  | nil => exact fun _ _ _ => rfl
  | cons b bs ih =>
    intro a s h
    have h' := ((s.writeByte_busStep a b).cpu.smmRouted x).trans h
    exact (ih (a + 1) h').trans (State.smm_writeByte_unrouted h a b)

/-- STR to bytes that are not write-protected stores the selector and goes on. -/
theorem exec_strM16_unprotected {s : State} (hp : s.pmode = true) (ha : s.cfg.regionsAligned = true) {disp : Dword}
    (hs : s.storeProtected disp 2 = false) :
    exec (.strM16 disp) s = .next ((s.plainWrite disp (wordBytes s.tr.sel)).advance 7) := by
  rw [exec_strM16 hp ha, State.busWrite_of_unprotected hs]
  rfl

/-- Settles O42: each of the two bytes by its own address. -/
theorem smmAddressSpace : Obligations.SmmAddressSpace := by
  intro s disp hp ha hs inSmmSpace hspace
  have hrouted : ∀ a, inSmmSpace a ↔ s.smmRouted a = true := fun a => by
    simp only [hspace, State.smmRouted, CfgRegs.sm3, CfgRegs.smac, Bool.and_eq_true, Bool.or_eq_true, and_assoc]
  have hunrouted : ∀ a, ¬ inSmmSpace a → s.smmRouted a = false := fun a h => by
    rwa [hrouted, Bool.not_eq_true] at h
  have hw := State.writeBytes_busStep (wordBytes s.tr.sel) disp s
  have hc := State.writeCycle_cycleStep disp (wordBytes s.tr.sel) (s.writeBytes disp (wordBytes s.tr.sel))
  have hroute := (hw.cpu.trans hc.cpu).smmRouted
  obtain ⟨h0, h1, -⟩ := s.readByte_writeBytes_word disp s.tr.sel
  rw [← hc.readByte] at h0 h1
  have hin : ∀ a, inSmmSpace a → (s.plainWrite disp (wordBytes s.tr.sel)).readByte a
      = (s.plainWrite disp (wordBytes s.tr.sel)).smm.read a.toNat := fun a h =>
    if_pos ((hroute a).trans ((hrouted a).mp h))
  have hout : ∀ a, ¬ inSmmSpace a → (s.plainWrite disp (wordBytes s.tr.sel)).readByte a
      = (s.plainWrite disp (wordBytes s.tr.sel)).mem.read a.toNat := fun a h =>
    if_neg (Bool.eq_false_iff.mp ((hroute a).trans (hunrouted a h)))
  refine ⟨_, exec_strM16_unprotected hp ha hs, fun a h => ?_, fun a h => ?_, fun h => (hin _ h).symm.trans h0,
    fun h => (hout _ h).symm.trans h0, fun h => (hin _ h).symm.trans h1, fun h => (hout _ h).symm.trans h1⟩
  · exact (congrArg (Memory.read · a.toNat) hc.sameMem).trans
      (State.mem_writeBytes_routed _ disp ((hrouted a).mp h))
  · exact (congrArg (Memory.read · a.toNat) hc.sameSmm).trans
      (State.smm_writeBytes_unrouted _ disp (hunrouted a h))

end Sys2Proof.Machine
end

section
/-! The attributes of a memory access: what the regions that contain an address ask for and grant, and what the fixed
region's controls, RCE in use and the pins make of it. -/

namespace Sys2Proof.Machine

namespace CfgRegs

/-! ## Regions off their boundary -/

theorem mem_regions : ∀ i : Fin 8, i ∈ regions := by decide

/-- The regions are aligned exactly where each one in force starts at a multiple of its block size (rule R104). -/
theorem regionsAligned_iff (c : CfgRegs) : c.regionsAligned = true ↔
    ∀ i, c.arrEnabled i = true → c.size i ≠ 0 → (c.start i).toNat % c.blockBytes i = 0 := by
  simp only [regionsAligned, List.all_eq_true, mem_regions, true_implies, Bool.or_eq_true, Bool.not_eq_true',
    aligned_iff, inForce, Bool.and_eq_false_imp, bne_eq_false_iff_eq, or_iff_not_imp_left, Classical.not_imp, and_imp, ne_eq]

end CfgRegs

/-- A running CPU stops at the fetch while a region is off its boundary (decision D11). -/
theorem step_of_misaligned {s : State} (hi : s.inputs = []) (hr : s.isRunning = true) (hc : s.dbg.codesUsed = true)
    (ha : s.cfg.regionsAligned = false) : step s = .refused .arrMisaligned := by
  have hf : s.begin.fetch = .settled (.refused .arrMisaligned) := by
    simp [State.fetch, s.begin_held.dbg, s.begin_held.cfg, hc, ha]
  rw [step_eq_outcome, State.prepare_of_running hi hr, hf]
  rfl

/-- Settles O9: one region off its boundary is enough for the refusal, and nothing else is. -/
theorem misalignedRegionRefused : Obligations.MisalignedRegionRefused := by
  refine ⟨fun s i hi hr hp hc hen hsize hoff => ?_, fun c h => c.regionsAligned_iff.mpr h⟩
  refine step_of_misaligned hi (by simp [State.isRunning, hr, hp]) hc ?_
  rw [Bool.eq_false_iff]
  exact fun ha => hoff (s.cfg.regionsAligned_iff.mp ha i hen hsize)

namespace CfgRegs

/-! ## Region-level attributes -/

theorem rcrNoncache_iff (c : CfgRegs) (i : Fin 8) : c.rcrNoncache i = true ↔
    (i ≠ 7 ∧ (c.rcr i).getLsbD 0 = true) ∨ (i = 7 ∧ (c.rcr i).getLsbD 0 = false) := by
  by_cases h : i = 7 <;> simp [rcrNoncache, h]

/-- Restrictive attributes hold where some containing region asks for them (rule R110). -/
theorem regNoncache_iff (c : CfgRegs) (a : Dword) :
    c.regNoncache a = true ↔ ∃ i, c.inRegion i a = true ∧ c.rcrNoncache i = true := by
  simp only [regNoncache, List.any_eq_true, mem_regionsOf]

theorem regWt_iff (c : CfgRegs) (a : Dword) :
    c.regWt a = true ↔ ∃ i, c.inRegion i a = true ∧ (c.rcr i).getLsbD 4 = true := by
  simp only [regWt, List.any_eq_true, mem_regionsOf]

/-- Outside every region none of the region-level attributes holds (rule R110). -/
theorem grantedByAll_outside {c : CfgRegs} {a : Dword} (h : ∀ i, c.inRegion i a = false) (bit : Nat) :
    c.grantedByAll bit a = false := by
  simp [grantedByAll, regionsOf_eq_nil h]

theorem regNoncache_outside {c : CfgRegs} {a : Dword} (h : ∀ i, c.inRegion i a = false) :
    c.regNoncache a = false := by
  simp [regNoncache, regionsOf_eq_nil h]

theorem regWt_outside {c : CfgRegs} {a : Dword} (h : ∀ i, c.inRegion i a = false) : c.regWt a = false := by
  simp [regWt, regionsOf_eq_nil h]

/-- One containing region that does not grant one of the permissive attributes is enough to deny it (rule R109). -/
theorem grantedByAll_eq_false {c : CfgRegs} {a : Dword} {i : Fin 8} (hi : c.inRegion i a = true) {bit : Nat}
    (h : (c.rcr i).getLsbD bit = false) : c.grantedByAll bit a = false := by
  rw [Bool.eq_false_iff, Ne, grantedByAll_eq_true]
  rintro ⟨-, hall⟩
  rw [hall i hi] at h
  cases h

/-- `i` is the one region that contains the address. -/
def OnlyIn (c : CfgRegs) (i : Fin 8) (a : Dword) : Prop :=
  c.inRegion i a = true ∧ ∀ j, c.inRegion j a = true → j = i

namespace OnlyIn

variable {c : CfgRegs} {i : Fin 8} {a : Dword}

/-- In one region alone its own RCR is asked (rule R108). -/
theorem grantedByAll (h : c.OnlyIn i a) (bit : Nat) : c.grantedByAll bit a = (c.rcr i).getLsbD bit := by
  rw [Bool.eq_iff_iff, grantedByAll_eq_true]
  exact ⟨fun ⟨_, hall⟩ => hall i h.1, fun hb => ⟨⟨i, h.1⟩, fun j hj => by rwa [h.2 j hj]⟩⟩

theorem exists_iff (h : c.OnlyIn i a) (p : Fin 8 → Prop) : (∃ j, c.inRegion j a = true ∧ p j) ↔ p i :=
  ⟨fun ⟨j, hj, hp⟩ => h.2 j hj ▸ hp, fun hp => ⟨i, h.1, hp⟩⟩

theorem regWt (h : c.OnlyIn i a) : c.regWt a = (c.rcr i).getLsbD 4 := by
  rw [Bool.eq_iff_iff, regWt_iff, h.exists_iff]

theorem regNoncache (h : c.OnlyIn i a) : c.regNoncache a = false ↔ (c.rcr i).getLsbD 0 = decide (i = 7) := by
  rw [← Bool.not_eq_true, regNoncache_iff, h.exists_iff, rcrNoncache]
  by_cases hi : i = 7 <;> simp [hi]

end OnlyIn

/-! ## The record of attributes -/

theorem inFixed_iff (a : Dword) : inFixed a = true ↔ 0xA0000 ≤ a.toNat ∧ a.toNat ≤ 0xFFFFF := by
  simp only [inFixed, Bool.and_eq_true, decide_eq_true_eq]

/-- RCE in use: region 7 enabled by ARREN alone, of nonzero SIZE, and RCR7 bit 0 set (rule R113). -/
theorem rceActive_iff (c : CfgRegs) : c.rceActive = true ↔
    c.ccr5.getLsbD 5 = true ∧ (c.arr 7).b2.extractLsb' 0 4 ≠ 0 ∧ (c.rcr 7).getLsbD 0 = true := by
  have hen := c.arrEnabled_iff 7
  have h7 : ¬ (7 : Fin 8) = 3 := by decide
  simp only [h7, false_and, or_false] at hen
  simp only [rceActive, inForce, Bool.and_eq_true, hen, bne_iff_ne, and_assoc]
  rfl

/-- What an access has to pass to be cacheable (rules R113 and R115). -/
theorem cacheable_iff (c : CfgRegs) (ken : Bool) (a : Dword) : c.cacheable ken a = true ↔
    ken = true ∧ c.regNoncache a = false ∧ ¬ (c.ccr0.getLsbD 1 = true ∧ inFixed a = true)
      ∧ ¬ (c.rceActive = true ∧ c.inRegion 7 a = false) := by
  simp only [cacheable, nc1, Config.rceImpliesOutsideNoncacheable, Bool.true_and, Bool.and_eq_true, Bool.not_eq_true',
    ← Bool.not_eq_true]
  tauto

theorem writeBack_iff (c : CfgRegs) (ken wbwt : Bool) (a : Dword) : c.writeBack ken wbwt a = true ↔
    c.cacheable ken a = true ∧ c.regWt a = false ∧ wbwt = true := by
  simp only [writeBack, Bool.and_eq_true, Bool.not_eq_true', and_assoc]

theorem weakLock_iff (c : CfgRegs) (a : Dword) :
    c.weakLock a = true ↔ c.ccr1.getLsbD 4 = true ∨ c.regWl a = true := by
  simp only [weakLock, noLock, Bool.or_eq_true]

theorem weakOrder_iff (c : CfgRegs) (ken wbwt : Bool) (a : Dword) :
    c.weakOrder ken wbwt a = true ↔ c.regWwo a = true ∧ c.writeBack ken wbwt a = true := by
  simp only [weakOrder, Bool.and_eq_true]

theorem lba_iff (c : CfgRegs) (a : Dword) :
    c.lba a = true ↔ c.regNlb a = false ∨ c.ccr5.getLsbD 4 = true ∧ inFixed a = true := by
  simp only [lba, lbr1, Bool.or_eq_true, Bool.and_eq_true, Bool.not_eq_true']

theorem writeProtected_iff (c : CfgRegs) (ken : Bool) (a : Dword) : c.writeProtected ken a = true ↔
    c.ccr2.getLsbD 4 = true ∧ 0xA0000 ≤ a.toNat ∧ a.toNat ≤ 0xFFFFF ∧ c.cacheable ken a = true := by
  simp only [writeProtected, wpr1, Bool.and_eq_true, inFixed_iff, and_assoc]

end CfgRegs

open CfgRegs in
/-- Settles O44: the region-level attributes, the record made of them, and the record in one region alone. -/
theorem regionLevelAttributes : Obligations.RegionLevelAttributes := by
  intro c a
  refine ⟨?_, c.regWt_iff a, c.grantedByAll_eq_true 3 a, c.grantedByAll_eq_true 2 a, c.grantedByAll_eq_true 1 a,
    c.grantedByAll_eq_true 5 a, ?_⟩
  · simp only [regNoncache_iff, rcrNoncache_iff]
  · rintro ken wbwt fixed outside7 _ rfl hfixed houtside
    obtain rfl : fixed = inFixed a := by rw [Bool.eq_iff_iff, hfixed, inFixed_iff]
    have houtside : outside7 = false ↔ ¬ (c.rceActive = true ∧ c.inRegion 7 a = false) := by
      rw [← Bool.not_eq_true, houtside, rceActive_iff, and_assoc, and_assoc]
    have hcache : c.cacheable ken a = true ↔ ken = true ∧ c.regNoncache a = false
        ∧ ¬ (c.ccr0.getLsbD 1 = true ∧ inFixed a = true) ∧ outside7 = false := by
      rw [houtside, cacheable_iff]
    refine ⟨hcache, c.writeBack_iff ken wbwt a, rfl, c.weakLock_iff a, c.weakOrder_iff ken wbwt a, c.lba_iff a,
      fun i hi hall => ?_⟩
    have h : c.OnlyIn i a := ⟨hi, hall⟩
    refine ⟨hcache.trans (by rw [h.regNoncache]), h.regWt ▸ c.writeBack_iff ken wbwt a, h.grantedByAll 3,
      h.grantedByAll 2 ▸ c.weakLock_iff a, h.grantedByAll 1 ▸ c.weakOrder_iff ken wbwt a, h.grantedByAll 5 ▸ c.lba_iff a⟩

open CfgRegs in
/-- Settles O45: no region asks for or grants anything. -/
theorem outsideEveryRegion : Obligations.OutsideEveryRegion := by
  intro c ken wbwt a hout
  have hg := grantedByAll_outside hout
  refine ⟨(c.lba_iff a).mpr (.inl (hg 5)), hg 3, ?_, ?_, ?_, fun hnc1 hrce => ?_⟩
  · exact congrArg (· && c.writeBack ken wbwt a) (hg 1)
  · exact (congrArg (c.noLock || ·) (hg 2)).trans (Bool.or_false _)
  · show c.writeBack ken wbwt a = (c.cacheable ken a && wbwt)
    rw [writeBack, regWt_outside hout, Bool.not_false, Bool.and_true]
  · show c.cacheable ken a = ken
    rw [Bool.eq_iff_iff, cacheable_iff]
    rw [← inFixed_iff] at hnc1
    rw [← rceActive_iff] at hrce
    exact ⟨And.left, fun hk => ⟨hk, regNoncache_outside hout, hnc1, fun h => hrce h.1⟩⟩

open CfgRegs in
/-- Settles O46: one containing region is enough to ask for restrictive attributes or to deny permissive ones. -/
theorem overlapPrecedence : Obligations.OverlapPrecedence := by
  intro c ken wbwt a i j _ hi _
  have hnoncache : c.rcrNoncache i = true → c.cacheable ken a = false := fun h => by
    have hreg := (c.regNoncache_iff a).mpr ⟨i, hi, h⟩
    simp [cacheable, hreg]
  have hdenied : ∀ {bit}, (c.rcr i).getLsbD bit = false → c.grantedByAll bit a = false := grantedByAll_eq_false hi
  refine ⟨fun h => (c.lba_iff a).mpr (.inl (hdenied h)),
    fun h7 h => hnoncache ((c.rcrNoncache_iff i).mpr (.inl ⟨h7, h⟩)),
    fun h7 h => hnoncache ((c.rcrNoncache_iff i).mpr (.inr ⟨h7, h⟩)), fun h => ?_, hdenied, fun h hnl => ?_, fun h => ?_⟩
  · have hwt := (c.regWt_iff a).mpr ⟨i, hi, h⟩
    simp [attributes, writeBack, hwt]
  · exact (congrArg₂ (· || ·) hnl (hdenied h)).trans rfl
  · exact congrArg (· && c.writeBack ken wbwt a) (hdenied h)

open CfgRegs in
/-- Settles O47: each control is a conjunct of what it vetoes, or a disjunct of what it asserts. -/
theorem fixedRegionControls : Obligations.FixedRegionControls := by
  intro c ken wbwt a
  have hveto : ∀ {p : Prop}, (c.cacheable ken a = true → ¬ p) → p → c.cacheable ken a = false := fun h hp =>
    Bool.eq_false_iff.mpr fun hc => h hc hp
  have hcache := (c.cacheable_iff ken a).mp
  refine ⟨fun h1 h2 hnc1 => ?_, fun h1 h2 hlbr1 => ?_, c.writeProtected_iff ken a,
    fun h => (c.weakLock_iff a).mpr (.inl h), fun hen hsize hrce hout => ?_, fun hk => ?_⟩
  · exact hveto (fun h => (hcache h).2.2.1) ⟨hnc1, (inFixed_iff a).mpr ⟨h1, h2⟩⟩
  · exact (c.lba_iff a).mpr (.inr ⟨hlbr1, (inFixed_iff a).mpr ⟨h1, h2⟩⟩)
  · exact hveto (fun h => (hcache h).2.2.2) ⟨c.rceActive_iff.mpr ⟨hen, hsize, hrce⟩, hout⟩
  · exact hveto (fun h => by rw [Bool.not_eq_false]; exact (hcache h).1) hk

end Sys2Proof.Machine
end

section
/-! What every step leaves of the record of cycles, and the step of a CPU that runs no instruction. -/

namespace Sys2Proof.Machine

/-! ## The record of cycles -/

/-- What a step that runs no instruction leads to keeps the record. -/
theorem Settles.events {s t : State} (h : Settles s t) : s.events <+: t.events := by
  cases h with
  | reset u rest held _ _ ht => exact ht ▸ held.events
  | smi u held _ ht => exact ht ▸ held.events
  | transfer u held ht _ => exact held.events.trans ht.events

theorem exec_events {i : Instr} {s t : State} (h : exec i s = .next t) : s.events <+: t.events := by
  rcases exec_cases h with hr | ⟨-, u, ⟨r, -, -, rfl⟩, rfl⟩
  · exact hr.events
  · exact List.prefix_refl _

/-- Settles O19: each part of a step only appends to the record. -/
theorem busCyclesOnlyAppended : Obligations.BusCyclesOnlyAppended := by
  intro s t h
  suffices s.events <+: t.events from this.imp fun _ => Eq.symm
  obtain ⟨w, rfl, hw⟩ := step_cases h
  refine List.IsPrefix.trans ?_ w.emitEarly_cycleStep.events
  rcases hw with hs | ⟨u, i, len, v, held, -, -, hv, rfl⟩
  · exact hs.events
  · exact (held.events.trans (exec_events hv)).trans (State.finish_transfer i u v).events

/-! ## A halted or suspended CPU -/

/-- With no input to answer the step of a CPU that runs no instruction is two chances for what waits to leave. -/
theorem step_of_idle {s : State} (hi : s.inputs = [])
    (h : s.runState = .halted ∨ s.runState = .running ∧ s.powerState = .suspend) :
    step s = .next s.begin.emitEarly := by
  have hb := s.begin_held
  have hp : s.begin.proceed = .settled (.next s.begin) := by
    unfold State.proceed
    rw [hb.runState, hb.powerState]
    rcases h with h | ⟨h, hp⟩
    · rw [h]
    · rw [h, hp]
      exact if_neg (by decide)
  rw [step_eq_outcome, State.prepare_of_no_input hi, hp]
  rfl

/-- From `s` to `t` the bytes that wait in `g` stay, or they leave as one write cycle. -/
def StaysOrLeaves (g : GatherBuffer) (s t : State) : Prop :=
  t.gather = some g ∧ t.events = s.events
    ∨ t.gather = none ∧ ∃ e, t.events = s.events ++ [e] ∧ e.carries .memWrite g.start g.bytes

theorem State.emitEarly_staysOrLeaves {s : State} {g : GatherBuffer} (hg : s.gather = some g) :
    StaysOrLeaves g s s.emitEarly := by
  rcases State.emitEarly_cases hg with h | h <;> rw [h]
  · exact .inl ⟨hg, rfl⟩
  · exact .inr ⟨s.flushGather_gather, State.flushGather_events hg⟩

/-- A second chance to leave is none once the bytes have left. -/
theorem StaysOrLeaves.emitEarly {g : GatherBuffer} {s t : State} (h : StaysOrLeaves g s t) :
    StaysOrLeaves g s t.emitEarly := by
  rcases h with ⟨hg, he⟩ | ⟨hg, he⟩
  · have ht := State.emitEarly_staysOrLeaves hg
    rwa [StaysOrLeaves, he] at ht
  · rw [State.emitEarly_of_none hg]
    exact .inr ⟨hg, he⟩

/-- Settles O20: the step is the two early emissions. -/
theorem haltedStays : Obligations.HaltedStays := by
  intro s t hi h ht
  rw [step_of_idle hi h] at ht
  cases ht
  have hc := s.begin_cycleStep.trans s.begin.emitEarly_cycleStep
  refine ⟨hc.sameButBus, hc.readByte, fun hg => ?_, fun g hg => ?_⟩
  · have hb : s.begin = { s with lastEvent := none } := State.emitEarly_of_none hg
    rw [hb, State.emitEarly_of_none (s := { s with lastEvent := none }) hg]
  · exact (State.emitEarly_staysOrLeaves (s := { s with lastEvent := none }) hg).emitEarly

end Sys2Proof.Machine
end

section
/-! The external cycles of the data accesses of LTR and STR while nothing waits in the write-gather buffer. -/

namespace Sys2Proof.Machine

/-! ## One cycle -/

/-- A write outside a gathered region: what waits, then the write's own cycle (rules R121 and R122). -/
theorem State.writeCycle_eq_emit {s : State} {a : Dword} (h : s.cfg.regWg a = false) (bs : List Byte) :
    s.writeCycle a bs = s.draw.flushGather.emit (memCycle .memWrite a bs (s.attributesAt a)) := by
  simp only [State.writeCycle, State.attributesAt, CfgRegs.attributes, h, Bool.false_eq_true, if_false]

/-- While nothing waits a read is its own cycle. -/
theorem State.readCycle_of_none {s : State} (hg : s.gather = none) (a : Dword) (n : Nat) :
    s.readCycle a n = s.draw.emit (memCycle .memRead a (s.readBytes a n) (s.attributesAt a)) := by
  rw [State.readCycle, State.noteAccess_of_none (s := s.draw) hg]

/-- The cycles `ds` of a read by the processor, of `bs` at `a`: one where no cache can hold the address, and none
elsewhere (rule R124, notes/assumptions/21.md). -/
def ReadUncached (c : CfgRegs) (a : Dword) (bs : List Byte) (ds : List BusEvent) : Prop :=
  (c.cacheable true a = true → ds = [])
    ∧ (c.cacheable true a = false → ∃ e, ds = [e] ∧ e.lba = c.lba a ∧ e.carries .memRead a bs)

theorem State.cpuRead_events {s : State} (hg : s.gather = none) (a : Dword) (n : Nat) :
    ∃ ds, (s.cpuRead a n).events = s.events ++ ds ∧ ReadUncached s.cfg a (s.readBytes a n) ds := by
  unfold State.cpuRead State.alwaysExternal
  cases hc : s.cfg.cacheable true a with
  | true =>
    rw [Bool.not_true, if_neg Bool.false_ne_true, State.noteAccess_of_none hg]
    exact ⟨[], (List.append_nil _).symm, fun _ => rfl, fun h => absurd (hc.symm.trans h) (by decide)⟩
  | false =>
    rw [Bool.not_false, if_pos rfl, State.readCycle_of_none hg]
    exact ⟨_, rfl, fun h => absurd (hc.symm.trans h) (by decide), fun _ => ⟨_, rfl, rfl, rfl, rfl, rfl, rfl, rfl⟩⟩

/-! ## LTR -/

/-- A selector of the GDT (rule R152). -/
theorem State.locateDescriptor_gdt (s : State) {sel : Word} (h : sel.getLsbD 2 = false) :
    s.locateDescriptor sel = (.gdt, s.gdt.base + 8 * BitVec.ofNat 32 (sel.toNat / 8)) := by
  have hsnd := s.locateDescriptor_snd sel
  rw [h, if_neg Bool.false_ne_true] at hsnd
  refine Prod.ext ?_ hsnd
  rw [State.locateDescriptor, h]
  rfl

/-- TR loaded from a TSS descriptor in the GDT: the descriptor is read, and nothing raised (rule R150). -/
theorem State.loadTr_goes_on {s : State} {sel : Word} {d : Dword} (hsel : sel.getLsbD 2 = false)
    (hd : d = s.gdt.base + 8 * BitVec.ofNat 32 (sel.toNat / 8)) (ha : s.cfg.regionsAligned = true)
    (htss : isTssDescriptor (s.readQword d) = true) (len : Nat) :
    ∃ t, s.loadTr len sel = .next t ∧ t.events = (s.cpuRead d 8).events := by
  have hq := State.readQword_congr (s.cpuRead_cycleStep d 8).readByte d
  unfold State.loadTr
  rw [s.locateDescriptor_gdt hsel, ← hd]
  dsimp only
  rw [if_pos ha, hq, if_pos htss]
  exact ⟨_, rfl, rfl⟩

/-- The TI bit of a selector is bit 2 of its low byte. -/
theorem State.readWord_ti {s : State} {a : Dword} (h : s.readByte a &&& 0x04 = 0) :
    (s.readWord a).getLsbD 2 = false := by
  have hbit : ∀ b : Byte, b &&& 0x04 = 0 → b.getLsbD 2 = false := by decide
  rw [State.readWord, BitVec.getLsbD_append]
  exact hbit _ h

/-- Settles O49: each access by the one cycle it is. -/
theorem dataAccessCycles : Obligations.DataAccessCycles := by
  intro s disp hg hp ha
  have hltr : s.cpl = 0 → s.ltrAccessFault = none := fun hcpl => s.ltrAccessFault_eq_none.mpr ⟨hp, hcpl⟩
  refine ⟨fun hwg hs => ?_, fun d hd hcpl hti htss => ?_, fun rm sel d hsel hd hcpl hti htss => ?_⟩
  · have hw := (State.writeBytes_busStep (wordBytes s.tr.sel) disp s).cpu
    obtain ⟨hgather, hevents⟩ := State.writeBytes_bus (wordBytes s.tr.sel) disp s
    refine ⟨_, memCycle .memWrite disp (wordBytes s.tr.sel) (State.attributesAt (s.writeBytes disp _) disp),
      exec_strM16_unprotected hp ha hs, ?_, congrArg (CfgRegs.lba · disp) hw.cfg, rfl, rfl, rfl, rfl, rfl⟩
    rw [State.advance_events, State.plainWrite, State.writeCycle_eq_emit (by rwa [hw.cfg]),
        State.flushGather_of_none (s := State.draw _) (hgather.trans hg), State.emit_events, State.draw_events, hevents]
  · have hu := s.readCycle_cycleStep disp 2
    have heq := State.readCycle_of_none hg disp 2
    have hug : (s.readCycle disp 2).gather = none := by rw [heq]; exact hg
    have hq := State.readQword_congr hu.readByte d
    obtain ⟨t, ht, hte⟩ := State.loadTr_goes_on (s := s.readCycle disp 2) (d := d) (State.readWord_ti hti)
      (by rw [hu.cpu.gdt]; exact hd) (by rw [hu.cpu.cfg]; exact ha) (by rw [hq]; exact htss) 7
    obtain ⟨ds, hds, hread⟩ := State.cpuRead_events hug d 8
    rw [State.readBytes_congr hu.readByte, hu.cpu.cfg] at hread
    refine ⟨t, memCycle .memRead disp (s.readBytes disp 2) (s.attributesAt disp), ds, ?_, ?_, rfl,
      ⟨rfl, rfl, rfl, rfl, rfl⟩, hread⟩
    · show execLtrM16 disp s = _
      rw [execLtrM16, hltr hcpl]
      exact (if_pos ha).trans ht
    · rw [hte, hds, heq, State.emit_events, State.draw_events, List.append_assoc]
      rfl
  · subst hsel
    obtain ⟨t, ht, hte⟩ := State.loadTr_goes_on hti hd ha htss 3
    obtain ⟨ds, hds, hread⟩ := State.cpuRead_events hg d 8
    refine ⟨t, ds, ?_, hte.trans hds, hread⟩
    show execLtrR16 rm s = _
    rw [execLtrR16, hltr hcpl]
    exact ht

end Sys2Proof.Machine
end

section
/-! The save of a task switch, field by field: what each field, and each byte beside the fields, reads as after it. -/

namespace Sys2Proof.Machine

/-- The offsets the fields of a layout lie between. -/
def layoutBounds : TssKind → Nat × Nat
  | .tss32 => (0x1C, 0x62)
  | .tss16 => (0x0E, 0x2C)

theorem taskField_within_layout (k : TssKind) {f : TaskField} {o : Nat} (hf : taskFieldOffset k f = some o) :
    (layoutBounds k).1 ≤ o ∧ o + fieldLength k f ≤ (layoutBounds k).2 := by
  have h : ∀ f ∈ taskFields, ∀ o ∈ taskFieldOffset k f,
      (layoutBounds k).1 ≤ o ∧ o + fieldLength k f ≤ (layoutBounds k).2 := by
    cases k <;> decide +kernel
  exact h f (mem_taskFields f) o hf

theorem TaskChoice.mem_savedFields (c : TaskChoice) {f : TaskField} (hf : f ≠ .ip) :
    f ∈ c.savedFields ↔ f ∈ c.saves := by
  unfold TaskChoice.savedFields
  split
  · exact Iff.rfl
  · rw [List.mem_cons, or_iff_right hf]

section
variable {c : TaskChoice} {k : TssKind} {t ret : Dword} {s u : State}

/-- Bytes outside the fields of the layout are not saved. -/
theorem State.saveWrites_unwritten_outside {x : Dword}
    (hx : (x - t).toNat < (layoutBounds k).1 ∨ (layoutBounds k).2 ≤ (x - t).toNat) :
    Unwritten (s.saveWrites c k t ret) x := by
  rintro w hw j hj rfl
  obtain ⟨f, -, o, ho, rfl⟩ := State.mem_saveWrites.mp hw
  have hb := taskField_within_layout k ho
  have hle := taskField_within k ho
  rw [State.taskFieldBytes_length] at hj
  dsimp only at hx
  rw [tssField_add, tssField_sub t (by omega)] at hx
  omega

/-- The bytes of a field the choice does not save are not written. -/
theorem State.saveWrites_unwritten_field {f : TaskField} {o j : Nat} (hf : f ∉ c.savedFields)
    (ho : taskFieldOffset k f = some o) (hj : j < fieldLength k f) :
    Unwritten (s.saveWrites c k t ret) (tssField t o + BitVec.ofNat 32 j) := by
  rintro w hw i hi e
  obtain ⟨g, hg, p, hp, rfl⟩ := State.mem_saveWrites.mp hw
  rw [State.taskFieldBytes_length] at hi
  have hbf := taskField_within k ho
  have hbg := taskField_within k hp
  dsimp only at e
  rw [tssField_add, tssField_add] at e
  have e := tssField_inj (by omega) (by omega) e
  rcases taskFields_apart k ho hp with rfl | h
  · exact hf hg
  · omega

/-- A byte the save does not write keeps its value. -/
theorem State.saveTask_unwritten (h : s.saveTask c k t ret = .next u) {x : Dword}
    (hx : Unwritten (s.saveWrites c k t ret) x) : u.readByte x = s.readByte x :=
  State.readByte_busWrites_other _ h hx

/-- With CCR2.WPR1 = 0 a field that is saved reads as the register, byte by byte. -/
theorem State.saveTask_field (h : s.saveTask c k t ret = .next u) (hp : s.cfg.wpr1 = false) {f : TaskField} {o : Nat}
    (hf : f ∈ c.savedFields) (ho : taskFieldOffset k f = some o) {bs : List Byte} (hv : s.taskFieldBytes k ret f = bs)
    (j : Nat) (hj : j < bs.length) : u.readByte (tssField t o + BitVec.ofNat 32 j) = bs[j] := by
  subst hv
  exact State.saveTask_saved h hp (State.mem_saveWrites.mpr ⟨f, hf, o, ho, rfl⟩) hj

/-- A field of four bytes is the register where the choice saves it, and what it was elsewhere. -/
theorem State.saveTask_readDword (h : s.saveTask c k t ret = .next u) (hp : s.cfg.wpr1 = false) (f : TaskField)
    {v : Dword} {o : Nat} (hf : f ≠ .ip) (ho : taskFieldOffset k f = some o)
    (hv : s.taskFieldBytes k ret f = dwordBytes v) :
    u.readDword (tssField t o) = if f ∈ c.saves then v else s.readDword (tssField t o) := by
  have hl : fieldLength k f = 4 := by rw [← State.taskFieldBytes_length s k ret, hv]; rfl
  split
  · exact State.readDword_of_bytes (State.saveTask_field h hp ((c.mem_savedFields hf).mpr ‹_›) ho hv)
  · rename_i hn
    exact State.readDword_congr_at fun j hj => State.saveTask_unwritten h
      (State.saveWrites_unwritten_field (fun hm => hn ((c.mem_savedFields hf).mp hm)) ho (by omega))

/-- A field of two bytes likewise. -/
theorem State.saveTask_readWord (h : s.saveTask c k t ret = .next u) (hp : s.cfg.wpr1 = false) (f : TaskField)
    {v : Word} {o : Nat} (hf : f ≠ .ip) (ho : taskFieldOffset k f = some o)
    (hv : s.taskFieldBytes k ret f = wordBytes v) :
    u.readWord (tssField t o) = if f ∈ c.saves then v else s.readWord (tssField t o) := by
  have hl : fieldLength k f = 2 := by rw [← State.taskFieldBytes_length s k ret, hv]; rfl
  split
  · exact State.readWord_of_bytes (State.saveTask_field h hp ((c.mem_savedFields hf).mpr ‹_›) ho hv)
  · rename_i hn
    exact State.readWord_congr_at fun j hj => State.saveTask_unwritten h
      (State.saveWrites_unwritten_field (fun hm => hn ((c.mem_savedFields hf).mp hm)) ho (by omega))

/-- A reserved word of a 32-bit TSS keeps its value (rule R96). -/
theorem State.saveTask_reserved (h : s.saveTask c .tss32 t ret = .next u) {p : Nat} (hp : p ∈ reservedOffsets) :
    u.readWord (tssField t p) = s.readWord (tssField t p) :=
  State.readWord_congr_at fun j hj => by
    rw [tssField_add]
    exact State.saveTask_unwritten h (State.saveWrites_unwritten_reserved hp hj)

end

/-- The halves beside the segment selectors are reserved. -/
theorem selectorHalf_mem_reservedOffsets : ∀ k < 6, 0x4A + 4 * k ∈ reservedOffsets := by decide

/-- Where a general register stands, as the layouts are written down (rules R95 and R98). -/
theorem tssField_gpr32 (t : Dword) (r : GReg) :
    t + 0x28 + 4 * r.num.zeroExtend 32 = tssField t (tssGprOffset .tss32 r.num.toNat) := by
  rw [BitVec.add_assoc]
  cases r <;> rfl

theorem tssField_gpr16 (t : Dword) (r : GReg) :
    t + 0x12 + 2 * r.num.zeroExtend 32 = tssField t (tssGprOffset .tss16 r.num.toNat) := by
  rw [BitVec.add_assoc]
  cases r <;> rfl

/-- Settles O53: the save goes on, and each field and each byte beside them is as its own lemma says. -/
theorem taskSwitchSavesTask : Obligations.TaskSwitchSavesTask := by
  intro c s tb ret hp
  have below : ∀ k : Nat, k < 0x1C → (tb + BitVec.ofNat 32 k - tb).toNat = k := fun k hk =>
    tssField_sub tb (by omega)
  constructor
  · obtain ⟨t, h⟩ := State.busWrites_goes_on (s.saveWrites c .tss32 tb ret) s (.inl hp)
    have hdword := State.saveTask_readDword (k := .tss32) h hp
    have hword := State.saveTask_readWord (k := .tss32) h hp
    refine ⟨t, h, State.readDword_of_bytes (State.saveTask_field (k := .tss32) h hp c.ip_mem_savedFields rfl rfl),
      hdword .flags (by decide) rfl rfl, fun r => ?_, hword (.seg .es) (by decide) rfl rfl,
      hword (.seg .cs) (by decide) rfl rfl, hword (.seg .ss) (by decide) rfl rfl, hword (.seg .ds) (by decide) rfl rfl,
      hword (.seg .fs) (by decide) rfl rfl, hword (.seg .gs) (by decide) rfl rfl, hdword .cr3 (by decide) rfl rfl,
      hword .ldt (by decide) rfl rfl, fun k hk => ?_, fun k hk => ?_, fun x hx => ?_,
      (State.saveTask_busStep h).cpu⟩
    · rw [tssField_gpr32]
      exact hdword (.gpr r) (by simp) rfl rfl
    · refine State.saveTask_unwritten h (State.saveWrites_unwritten_outside (.inl ?_))
      rw [below k hk]
      exact hk
    · have hplace : tb + 0x4A + 4 * BitVec.ofNat 32 k = tssField tb (0x4A + 4 * k) := by
        rw [tssField, BitVec.ofNat_add, BitVec.ofNat_mul, ← BitVec.add_assoc]
        rfl
      rw [hplace]
      exact State.saveTask_reserved h (selectorHalf_mem_reservedOffsets k hk)
    · exact State.saveTask_unwritten h (State.saveWrites_unwritten_outside (.inr hx))
  · obtain ⟨t, h⟩ := State.busWrites_goes_on (s.saveWrites c .tss16 tb ret) s (.inl hp)
    have hword := State.saveTask_readWord (k := .tss16) h hp
    refine ⟨t, h, State.readWord_of_bytes (State.saveTask_field (k := .tss16) h hp c.ip_mem_savedFields rfl rfl),
      hword .flags (by decide) rfl rfl, fun r => ?_, hword (.seg .es) (by decide) rfl rfl,
      hword (.seg .cs) (by decide) rfl rfl, hword (.seg .ss) (by decide) rfl rfl, hword (.seg .ds) (by decide) rfl rfl,
      hword .ldt (by decide) rfl rfl, fun k hk => ?_, fun x hx => ?_, (State.saveTask_busStep h).cpu⟩
    · rw [tssField_gpr16]
      exact hword (.gpr r) (by simp) rfl rfl
    · refine State.saveTask_unwritten h (State.saveWrites_unwritten_outside (.inl ?_))
      rw [below k (by omega)]
      exact hk
    · exact State.saveTask_unwritten h (State.saveWrites_unwritten_outside (.inr hx))

end Sys2Proof.Machine
end

section
/-! The entry of a handler or a procedure: the registers it leaves, the stack it enters on, and the bytes of its frame. -/

namespace Sys2Proof.Machine

/-! ## CS and EIP -/

/-- A 16-bit gate enters at the low half of OFFSET (rules R94 and R141, decision D26). -/
theorem Gate.entryOffset_of_16 {g : Gate} (h : g.size = some 16) :
    g.entryOffset.toNat = g.offset.toNat % 0x10000 := by
  rw [Gate.entryOffset, if_pos h, BitVec.toNat_setWidth, lowWord, toNat_extract_div]
  omega

theorem Gate.entryOffset_of_32 {g : Gate} (h : g.size = some 32) : g.entryOffset = g.offset := by
  rw [Gate.entryOffset, h]
  exact if_neg (by decide)

/-- An entry after bus operations is the entry, the bus side apart. -/
theorem CycleStep.enterAt {s u : State} (h : CycleStep s u) (sel : Word) (eip : Dword) (stack : Word × Dword)
    (depth : Nat) : SameCpu (s.enterAt sel eip stack depth) (u.enterAt sel eip stack depth) := by
  have hq : ∀ a, u.readQword a = s.readQword a := State.readQword_congr h.readByte
  have hbase : (u.enterAt sel eip stack depth).csBase = (s.enterAt sel eip stack depth).csBase := by
    have hloc : u.locateDescriptor sel = s.locateDescriptor sel := by
      rw [State.locateDescriptor, h.cpu.gdt, h.cpu.ldt, State.locateDescriptor]
    have hcs : ∀ v : State, (v.enterAt sel eip stack depth).csBase
        = Config.codeBase (v.readQword (v.locateDescriptor sel).2) := fun v =>
      congrArg Config.codeBase (State.readQword_congr (fun _ => rfl) _)
    rw [hcs, hcs, hq, hloc]
  have hcpl : (u.enterAt sel eip stack depth).cpl = (s.enterAt sel eip stack depth).cpl := by
    rw [State.enterAt_cpl, State.enterAt_cpl, h.targetLevel]
  have he : ∀ v : State, v.enterAt sel eip stack depth = { v with
      draws := v.draws + 1, segs := { v.segs with ss := stack.1, cs := sel }
      gprs := { v.gprs with esp := stack.2 - BitVec.ofNat 32 depth }
      eip := eip, csBase := (v.enterAt sel eip stack depth).csBase
      cpl := (v.enterAt sel eip stack depth).cpl } := fun _ => rfl
  rw [SameCpu, he u, hbase, hcpl, he s, h.cpu.eqn]

/-! ## The stack -/

/-- Where a TSS holds the stack of a level, as the layouts are written down (rules R95, R98 and R99). -/
theorem tssField_stack32 (t : Dword) (n : BitVec 2) :
    tssField t (tssSpOffset .tss32 n.toNat) = t + 4 + 8 * n.zeroExtend 32
      ∧ tssField t (tssSsOffset .tss32 n.toNat) = t + 8 + 8 * n.zeroExtend 32 := by
  have h : ∀ n : BitVec 2, BitVec.ofNat 32 (tssSpOffset .tss32 n.toNat) = 4 + 8 * n.zeroExtend 32
      ∧ BitVec.ofNat 32 (tssSsOffset .tss32 n.toNat) = 8 + 8 * n.zeroExtend 32 := by decide
  rw [tssField, tssField, (h n).1, (h n).2, BitVec.add_assoc, BitVec.add_assoc]
  exact ⟨rfl, rfl⟩

theorem tssField_stack16 (t : Dword) (n : BitVec 2) :
    tssField t (tssSpOffset .tss16 n.toNat) = t + 2 + 4 * n.zeroExtend 32
      ∧ tssField t (tssSsOffset .tss16 n.toNat) = t + 4 + 4 * n.zeroExtend 32 := by
  have h : ∀ n : BitVec 2, BitVec.ofNat 32 (tssSpOffset .tss16 n.toNat) = 2 + 4 * n.zeroExtend 32
      ∧ BitVec.ofNat 32 (tssSsOffset .tss16 n.toNat) = 4 + 4 * n.zeroExtend 32 := by decide
  rw [tssField, tssField, (h n).1, (h n).2, BitVec.add_assoc, BitVec.add_assoc]
  exact ⟨rfl, rfl⟩

/-- The low half of a difference is the difference of the low halves. -/
theorem lowWord_sub (d : Dword) (n : Nat) : lowWord (d - BitVec.ofNat 32 n) = lowWord d - BitVec.ofNat 16 n := by
  apply BitVec.eq_of_toNat_eq
  have := d.isLt
  simp only [lowWord, toNat_extract_div, BitVec.toNat_sub, BitVec.toNat_ofNat]
  omega

/-- SS and ESP of `t`, entered from `s` with a frame of `depth` bytes: the running stack, or where privilege rises the
current TSS's for the new level (rules R99, R143 and R198 (d)). -/
structure OnStack (s t : State) (depth : Nat) : Prop where
  ss      : ¬ t.cpl.toNat < s.cpl.toNat → t.segs.ss = s.segs.ss
  ssRises : t.cpl.toNat < s.cpl.toNat → ∃ k tb, s.currentTss = some (k, tb)
    ∧ (k = .tss32 → t.segs.ss = s.readWord (tb + 8 + 8 * t.cpl.zeroExtend 32))
    ∧ (k = .tss16 → t.segs.ss = s.readWord (tb + 4 + 4 * t.cpl.zeroExtend 32))
  esp     : ¬ t.cpl.toNat < s.cpl.toNat → t.gprs.esp = s.gprs.esp - BitVec.ofNat 32 depth
  esp32   : t.cpl.toNat < s.cpl.toNat → ∀ tb, s.currentTss = some (.tss32, tb) →
    t.gprs.esp = s.readDword (tb + 4 + 8 * t.cpl.zeroExtend 32) - BitVec.ofNat 32 depth
  esp16   : t.cpl.toNat < s.cpl.toNat → ∀ tb, s.currentTss = some (.tss16, tb) →
    t.gprs.esp.extractLsb' 0 16 = s.readWord (tb + 2 + 4 * t.cpl.zeroExtend 32) - BitVec.ofNat 16 depth

/-- An entry on the stack `entryStack` gives. -/
theorem State.entryStack_onStack {s t : State} {stack : Word × Dword} {depth : Nat}
    (h : s.entryStack t.cpl = some stack) (hss : t.segs.ss = stack.1)
    (hesp : t.gprs.esp = stack.2 - BitVec.ofNat 32 depth) : OnStack s t depth := by
  rcases State.entryStack_cases h with ⟨hn, rfl⟩ | ⟨hl, k, tb, hk, rfl⟩
  · exact ⟨fun _ => hss, fun h => absurd h hn, fun _ => hesp, fun h => absurd h hn, fun h => absurd h hn⟩
  · refine ⟨fun h => absurd hl h, fun _ => ⟨k, tb, hk, ?_, ?_⟩, fun h => absurd hl h, fun _ tb' hk' => ?_,
      fun _ tb' hk' => ?_⟩
    · rintro rfl
      rw [hss, ← (tssField_stack32 tb t.cpl).2]
      rfl
    · rintro rfl
      rw [hss, ← (tssField_stack16 tb t.cpl).2]
      rfl
    · cases hk.symm.trans hk'
      rw [hesp, ← (tssField_stack32 tb t.cpl).1]
      rfl
    · cases hk.symm.trans hk'
      rw [hesp, ← (tssField_stack16 tb t.cpl).1]
      exact (lowWord_sub _ depth).trans (congrArg (· - _) (lowWord_freeHigh _ _))

/-- The bus operations before an entry, and the record of its event, change nothing of the stack it enters on. -/
theorem OnStack.of_cycle {s u t : State} {depth : Nat} {ev : Option Event} (h : OnStack u t depth)
    (hu : CycleStep { s with lastEvent := ev } u) : OnStack s t depth := by
  obtain ⟨h1, h2, h3, h4, h5⟩ := h
  rw [hu.cpu.cpl] at h1 h2 h3 h4 h5
  rw [hu.cpu.segs] at h1
  rw [hu.cpu.gprs] at h3
  rw [hu.cpu.currentTss] at h2 h4 h5
  simp only [State.readWord_congr hu.readByte, State.readDword_congr hu.readByte] at h2 h4 h5
  exact ⟨h1, h2, h3, h4, h5⟩

/-! ## The frame -/

/-- Bytes outside a frame are not written by what lies inside it. -/
theorem unwritten_of_outside {ws : List (Dword × List Byte)} {esp x : Dword} {depth : Nat}
    (hw : depth < 0x100000000 → ∀ w ∈ ws, (w.1 - esp).toNat + w.2.length ≤ depth)
    (hx : depth ≤ (x - esp).toNat) : Unwritten ws x := by
  rintro w hmem j hj rfl
  have hw := hw (Nat.lt_of_le_of_lt hx (BitVec.isLt _)) w hmem
  rw [add_sub_right_comm, BitVec.toNat_add, BitVec.toNat_ofNat] at hx
  have := Nat.mod_le ((w.1 - esp).toNat + j % 2 ^ 32) (2 ^ 32)
  have := Nat.mod_le j (2 ^ 32)
  omega

theorem framePushes_within (frame : EntryFrame) (esp : Dword) {depth : Nat} (hd : depth < 0x100000000) :
    ∀ w ∈ framePushes frame esp depth, (w.1 - esp).toNat + w.2.length ≤ depth := by
  intro w hw
  obtain ⟨v, -, rfl⟩ := List.mem_map.mp hw
  exact frameSlot_within esp _ (List.length_take_le _ _) hd

/-! ## Handlers -/

theorem Gate.returnBytes_length (g : Gate) (ret : Dword) :
    (g.returnBytes ret).length = if g.size = some 16 then 2 else 4 := by
  unfold Gate.returnBytes
  split <;> rfl

/-- What the entry of a handler through the gate `g` leaves, `ret` the address to return to. -/
structure HandlerEntered (g : Gate) (ret : Dword) (s t : State) : Prop where
  cs       : t.segs.cs = g.selector
  eip      : t.eip = g.entryOffset
  cpl      : t.cpl = s.targetLevel g.selector
  runState : t.runState = .running
  cr0      : t.cr0 = s.cr0
  cr3      : t.cr3 = s.cr3
  tr       : t.tr = s.tr
  debugDue : t.debugDue = s.debugDue
  dbg      : t.dbg = s.dbg
  gprs     : ∀ r, r ≠ .esp → t.gprs.get r = s.gprs.get r
  frame    : ∃ n, ∀ depth, depth = frameDepth n (if g.size = some 16 then 2 else 4) → OnStack s t depth
    ∧ (∀ x, depth ≤ (x - t.gprs.esp).toNat → t.readByte x = s.readByte x)
    ∧ (s.cfg.wpr1 = false → ∀ j (h : j < (g.returnBytes ret).length), t.readByte
        (frameSlot t.gprs.esp depth (g.returnBytes ret).length (Config.entryFrame n).retSlot + BitVec.ofNat 32 j)
          = (g.returnBytes ret)[j])

theorem State.enterHandler_entered {g : Gate} {ret : Dword} {s t : State} (h : s.enterHandler g ret = .next t) :
    HandlerEntered g ret s t := by
  obtain ⟨-, htr, hdue, hdbg⟩ := State.enterHandler_keeps h
  obtain ⟨stack, depth, w, z, hstack, hdepth, hw, hz, rfl⟩ := State.enterHandler_cases h
  have hr := State.cpuReads_cycleStep (s.transferReads g.selector) s
  have hsw : SameCpu (s.enterAt g.selector g.entryOffset stack depth) w := hw ▸ hr.enterAt _ _ _ _
  have hwz := (State.busWrites_busStep _ hz).cpu
  have hsz := hsw.trans hwz
  have hgprs : z.gprs = { s.gprs with esp := stack.2 - BitVec.ofNat 32 depth } := hsz.gprs
  have hcpl : z.cpl = s.targetLevel g.selector := hsz.cpl.trans (State.enterAt_cpl _ _ _ _ s)
  refine ⟨congrArg Segs.cs hsz.segs, hsz.eip, hcpl, rfl, hsz.cr0, hsz.cr3, htr, hdue, hdbg,
    fun r hne => ?_, s.draws, fun d hd => ?_⟩
  · show z.gprs.get r = _
    rw [hgprs]
    cases r with
    | esp => exact absurd rfl hne
    | _ => rfl
  rw [Gate.returnBytes_length] at hdepth
  obtain rfl : d = depth := hd.trans hdepth.symm
  have hbytes : ∀ x, w.readByte x = s.readByte x := fun x => hw ▸ hr.readByte x
  rw [← hwz.gprs] at hz
  refine ⟨State.entryStack_onStack (stack := stack) ((congrArg s.entryStack hcpl).trans hstack)
    (congrArg Segs.ss hsz.segs) (congrArg Gprs.esp hgprs), fun x hx => ?_, fun hp j hj => ?_⟩
  · refine Eq.trans ?_ (hbytes x)
    refine State.readByte_busWrites_other (t := z) _ hz (unwritten_of_outside (esp := z.gprs.esp) (fun hlt v hv => ?_) hx)
    rcases List.mem_append.mp hv with hv | hv
    · exact framePushes_within _ _ hlt v hv
    · obtain rfl := List.mem_singleton.mp hv
      refine frameSlot_within _ _ ?_ hlt
      rw [hd, Gate.returnBytes_length]
      exact Nat.le_add_left _ _
  · have hp : w.cfg.wpr1 = false := by rw [hsw.cfg]; exact hp
    refine State.readByte_busWrites_last (ws' := []) hp hz hj ?_ (fun w hw => absurd hw List.not_mem_nil)
    rw [Gate.returnBytes_length]
    split <;> decide

/-- The bus operations before an entry, and the record of its event, change nothing of what it leaves. -/
theorem HandlerEntered.of_cycle {g : Gate} {ret : Dword} {s u t : State} {ev : Option Event}
    (h : HandlerEntered g ret u t) (hu : CycleStep { s with lastEvent := ev } u) : HandlerEntered g ret s t := by
  obtain ⟨n, hn⟩ := h.frame
  refine ⟨h.cs, h.eip, h.cpl.trans (hu.targetLevel _), h.runState, h.cr0.trans hu.cpu.cr0, h.cr3.trans hu.cpu.cr3,
    h.tr.trans hu.cpu.tr, h.debugDue.trans hu.cpu.debugDue, h.dbg.trans hu.cpu.dbg,
    fun r hr => (h.gprs r hr).trans (congrArg (Gprs.get · r) hu.cpu.gprs), n, fun depth hd => ?_⟩
  obtain ⟨hstack, hout, hback⟩ := hn depth hd
  exact ⟨hstack.of_cycle hu, fun x hx => (hout x hx).trans (hu.readByte x), fun hp => hback (by rw [hu.cpu.cfg]; exact hp)⟩

/-! ## Events delivered -/

/-- The IDT entry of a vector, as rule R198 writes its address. -/
theorem State.idtEntry_eq (s : State) (v : Byte) : s.idtEntry v = s.idt.base + 8 * BitVec.ofNat 32 v.toNat := by
  have h : (8 * BitVec.ofNat 32 v.toNat : Dword) = v.zeroExtend 32 <<< 3 := by
    have := v.isLt
    bv_omega
  rw [State.idtEntry, h]

section
variable {s : State} {ev : Event} {v : Byte} {g : Gate} (ha : s.cfg.regionsAligned = true) (hv : ev.vector = some v)
  (hg : g = s.decodeGate (s.idtEntry v)) (ret : Dword)
include ha hv hg

/-- The delivery of an event, its gate read: the handler entered, or a task switch, or a refusal (rule R198). -/
theorem State.deliver_handler (hk : g.kind = .trap ∨ g.kind = .interrupt) :
    ∃ u, CycleStep s u ∧ s.deliver ev ret = u.enterHandler g ret := by
  subst hg
  refine ⟨_, State.cpuReads_cycleStep (gateReads (s.idtEntry v)) s, ?_⟩
  rcases hk with hk | hk <;> simp only [State.deliver, hv, ha, hk, if_true]

theorem State.deliver_task (hk : g.kind = .task) :
    ∃ u, CycleStep s u ∧ s.deliver ev ret = u.taskSwitch Config.taskFunction g.selector ret := by
  subst hg
  refine ⟨_, State.cpuReads_cycleStep (gateReads (s.idtEntry v)) s, ?_⟩
  simp only [State.deliver, hv, ha, hk, if_true]

theorem State.deliver_refused (hk : g.kind = .call ∨ g.kind = .notAGate) :
    s.deliver ev ret = .refused .noHandlerEntry := by
  subst hg
  rcases hk with hk | hk <;> simp only [State.deliver, hv, ha, hk, if_true]

end

/-- The state at the raise of an event, where its entry has no meaning (rule R198). -/
def State.standRaised (ev : Event) (ret : Dword) (s : State) : State :=
  { s with lastEvent := some ev, runState := .raised ev ret }

/-- What taking an exception makes of the delivery of its event. -/
def State.raiseOutcome (ev : Event) (ret : Dword) (s : State) : Host.Outcome State Fault Refusal → State
  | .next t => t
  | .fault _ => s.standRaised ev ret
  | .refused _ => s.standRaised ev ret

theorem State.raise_eq (ev : Event) (ret : Dword) (s : State) :
    s.raise ev ret = s.raiseOutcome ev ret (State.deliver ev ret { s with lastEvent := some ev }) := by
  unfold State.raise
  dsimp only
  cases State.deliver ev ret { s with lastEvent := some ev } <;> rfl

/-- No stack, and so no entry, where privilege rises and there is no TSS (entry U13). -/
theorem State.enterHandler_no_stack {s : State} {g : Gate} (ret : Dword)
    (hl : (s.targetLevel g.selector).toNat < s.cpl.toNat) (ht : s.currentTss = none) :
    s.enterHandler g ret = .refused .noTask := by
  have hnone : s.entryStack (s.targetLevel g.selector) = none := by
    unfold State.entryStack State.rises
    rw [if_pos (decide_eq_true hl), ht]
  unfold State.enterHandler
  rw [hnone]

/-- An event with a trap or interrupt gate enters its handler where there is a stack and no write can fault. -/
theorem State.raise_handler {s : State} {ev : Event} {v : Byte} {g : Gate} (ret : Dword)
    (ha : s.cfg.regionsAligned = true) (hv : ev.vector = some v) (hg : g = s.decodeGate (s.idtEntry v))
    (hk : g.kind = .trap ∨ g.kind = .interrupt) (htss : s.currentTss ≠ none ∨ s.cpl = 0) (hw : s.writesGoOn) :
    HandlerEntered g ret s (s.raise ev ret) := by
  obtain ⟨u, hu, hdel⟩ := State.deliver_handler (s := { s with lastEvent := some ev }) ha hv hg ret hk
  have hstack : u.currentTss ≠ none ∨ ¬ (u.targetLevel g.selector).toNat < u.cpl.toNat := by
    rw [hu.cpu.currentTss, hu.cpu.cpl]
    exact htss.imp_right fun h => by
      rw [h]
      exact Nat.not_lt_zero _
  obtain ⟨stack, hstack⟩ := State.entryStack_isSome hstack
  obtain ⟨t, ht⟩ := State.enterHandler_goes_on ret hstack (hu.cpu.writesGoOn hw)
  rw [State.raise_eq, hdel, ht]
  exact (State.enterHandler_entered ht).of_cycle hu

/-- An event whose delivery is refused stands raised. -/
theorem State.raise_of_refused {s : State} {ev : Event} {ret : Dword} {why : Refusal}
    (h : State.deliver ev ret { s with lastEvent := some ev } = .refused why) :
    s.raise ev ret = s.standRaised ev ret := by
  rw [State.raise_eq, h]
  rfl

/-- Settles O54: what each kind of gate has the delivery do. -/
theorem exceptionEntry : Obligations.ExceptionEntry := by
  refine ⟨fun s ev v ret g ha hv hg => ?_, rfl, rfl, rfl, rfl, fun _ => rfl, rfl, rfl, fun _ => rfl, fun r hr => ?_⟩
  · rw [← s.idtEntry_eq] at hg
    refine ⟨fun hk htss hw t ht => ?_, fun hk => ?_, fun hk => ?_⟩
    · subst ht
      have h := State.raise_handler ret ha hv hg hk htss hw
      obtain ⟨n, hn⟩ := h.frame
      have hstack := (hn _ rfl).1
      refine ⟨h.cs, fun hs => by rw [h.eip, Gate.entryOffset_of_16 hs], fun hs => by rw [h.eip, Gate.entryOffset_of_32 hs],
        h.cpl, h.runState, State.raise_lastEvent _ _ _, h.tr, h.dbg, (State.raise_transfer _ _ _).cfg, hstack.ss,
        hstack.ssRises, n, fun depth hd => ?_⟩
      obtain ⟨hstack, hout, -⟩ := hn depth hd
      exact ⟨hstack.esp, hstack.esp32, hstack.esp16, hout⟩
    · obtain ⟨u, hu, hdel⟩ := State.deliver_task (s := { s with lastEvent := some ev }) ha hv hg ret hk
      refine ⟨u, hu.sameButBus, ?_⟩
      rw [State.raise_eq, hdel]
      cases u.taskSwitch Config.taskFunction g.selector ret <;> rfl
    · have hnone := State.deliver_refused (s := { s with lastEvent := some ev }) ha hv hg ret
      rcases hk with hk | hk | ⟨hk, htss, hlevel⟩
      · exact State.raise_of_refused (hnone (.inl hk))
      · exact State.raise_of_refused (hnone (.inr hk))
      · obtain ⟨u, hu, hdel⟩ := State.deliver_handler (s := { s with lastEvent := some ev }) ha hv hg ret hk
        have htss : u.currentTss = none := hu.cpu.currentTss.trans htss
        refine State.raise_of_refused (hdel.trans (State.enterHandler_no_stack ret ?_ htss))
        rw [hu.targetLevel, hu.cpu.cpl]
        exact hlevel
  · cases r with
    | notProtectedMode => exact absurd rfl hr
    | _ => rfl

/-- Settles O37: the entry of the handler of vector 3. -/
theorem int3EntersHandler : Obligations.Int3EntersHandler := by
  refine ⟨fun s => rfl, fun s g ha htss hw hg hk => ⟨_, rfl, ?_⟩⟩
  have h := State.raise_handler (ev := .breakpoint) (s.eip + 1) ha rfl hg hk htss hw
  have htr := State.raise_transfer .breakpoint (s.eip + 1) s
  obtain ⟨n, hn⟩ := h.frame
  refine ⟨h.cs, fun hs => by rw [h.eip, Gate.entryOffset_of_16 hs], fun hs => by rw [h.eip, Gate.entryOffset_of_32 hs],
    ⟨n, fun depth hd => ?_⟩, h.runState, State.raise_lastEvent _ _ _, h.dbg, h.debugDue, h.tr, htr.cfg, htr.cfgSel, h.cr0,
    h.cr3, h.gprs⟩
  obtain ⟨hstack, -, hback⟩ := hn depth hd
  refine ⟨hstack.esp, hstack.esp32, hstack.esp16, fun hp => ?_⟩
  have hback := hback hp
  refine ⟨fun hs => ?_, fun hs => ?_⟩
  · have hb : g.returnBytes (s.eip + 1) = dwordBytes (s.eip + 1) := by
      rw [Gate.returnBytes, hs]
      exact if_neg (by decide)
    rw [hb] at hback
    exact State.readDword_of_bytes hback
  · have hb : g.returnBytes (s.eip + 1) = wordBytes (lowWord (s.eip + 1)) := if_pos hs
    rw [hb] at hback
    exact State.readWord_of_bytes hback

end Sys2Proof.Machine
end

section
/-! The entry of a procedure through a call gate, the copied parameters among its frame, and the calls that go on. -/

namespace Sys2Proof.Machine

/-! ## The copied parameters -/

/-- What the copy writes: at the k-th place the bytes of the k-th parameter. -/
theorem State.mem_parameterWrites {g : Gate} {esp : Dword} {depth : Nat} {s : State} {w : Dword × List Byte} :
    w ∈ s.parameterWrites g esp depth ↔ ∃ k, ∃ h : k < (g.parameterPlaces s.draws esp depth).length,
      w = ((g.parameterPlaces s.draws esp depth)[k], s.readBytes (s.parameterSource g k) g.parameterUnit) := by
  unfold State.parameterWrites
  constructor
  · intro h
    obtain ⟨k, hk, rfl⟩ := List.mem_iff_getElem.mp h
    have hk : k < (g.parameterPlaces s.draws esp depth).length := by simpa using hk
    exact ⟨k, hk, by simp⟩
  · rintro ⟨k, hk, rfl⟩
    exact List.mem_iff_getElem.mpr ⟨k, by simpa using hk, by simp⟩

theorem Gate.parameterPlaces_getElem_apart (g : Gate) (draw : Nat) (esp : Dword) (depth : Nat) {j k : Nat}
    (hj : j < (g.parameterPlaces draw esp depth).length) (hk : k < (g.parameterPlaces draw esp depth).length)
    (hne : j ≠ k) : g.parameterUnit ≤
      ((g.parameterPlaces draw esp depth)[j] - (g.parameterPlaces draw esp depth)[k]).toNat := by
  have h := List.pairwise_iff_getElem.mp (g.parameterPlaces_apart draw esp depth)
  rcases Nat.lt_or_gt_of_ne hne with hlt | hlt
  · exact (h j k hj hk hlt).2
  · exact (h k j hk hj hlt).1

/-- Places apart share no byte. -/
theorem add_ne_of_apart {unit i j : Nat} {x y : Dword} (hxy : unit ≤ (x - y).toNat) (hyx : unit ≤ (y - x).toNat)
    (hi : i < unit) (hj : j < unit) : x + BitVec.ofNat 32 i ≠ y + BitVec.ofNat 32 j := by
  intro e
  have hx := x.isLt
  have hy := y.isLt
  have e := congrArg BitVec.toNat e
  simp only [BitVec.toNat_sub, BitVec.toNat_add, BitVec.toNat_ofNat] at hxy hyx e
  omega

theorem Gate.parameterUnit_le (g : Gate) : g.parameterUnit ≤ 4 := by
  unfold Gate.parameterUnit
  split <;> decide

/-- With CCR2.WPR1 = 0, and written last, every parameter reads at its place as at its source (rule R143). -/
theorem State.parameters_copied {g : Gate} {esp : Dword} {depth : Nat} {s w t : State} {ws : List (Dword × List Byte)}
    (hp : w.cfg.wpr1 = false) (h : w.busWrites (ws ++ s.parameterWrites g esp depth) = .next t) {k : Nat}
    (hk : k < (g.parameterPlaces s.draws esp depth).length) :
    t.readBytes (g.parameterPlaces s.draws esp depth)[k] g.parameterUnit
      = s.readBytes (s.parameterSource g k) g.parameterUnit := by
  obtain ⟨v, hv, h⟩ := State.busWrites_append _ _ h
  have hp : v.cfg.wpr1 = false := by rw [(State.busWrites_busStep _ hv).cpu.cfg, hp]
  have hlen : ∀ a, (s.readBytes a g.parameterUnit).length = g.parameterUnit := fun a => s.readBytes_length a _
  refine List.ext_getElem (by simp) fun i _ hi => ?_
  rw [State.readBytes_getElem]
  refine State.readByte_busWrites_agree _ hp h (fun w hw => ?_) (fun w hw j hj e => ?_)
    ⟨_, State.mem_parameterWrites.mpr ⟨k, hk, rfl⟩, i, hi, rfl⟩
  · obtain ⟨m, -, rfl⟩ := State.mem_parameterWrites.mp hw
    have := g.parameterUnit_le
    rw [hlen]
    omega
  · obtain ⟨m, hm, rfl⟩ := State.mem_parameterWrites.mp hw
    dsimp only at hj e ⊢
    rw [hlen] at hi hj
    have hmk : k = m := by
      by_contra hne
      exact add_ne_of_apart (g.parameterPlaces_getElem_apart _ _ _ hk hm hne)
        (g.parameterPlaces_getElem_apart _ _ _ hm hk (Ne.symm hne)) hi hj e
    subst hmk
    have hij : i = j := by
      have := g.parameterUnit_le
      have e := congrArg BitVec.toNat e
      simp only [BitVec.toNat_add, BitVec.toNat_ofNat] at e
      omega
    subst hij
    rfl

theorem State.parameterWrites_within {g : Gate} {esp : Dword} {depth : Nat} (s : State) (hb : g.parameterBytes ≤ depth)
    (hd : depth < 0x100000000) : ∀ w ∈ s.parameterWrites g esp depth, (w.1 - esp).toNat + w.2.length ≤ depth := by
  intro w hw
  obtain ⟨k, hk, rfl⟩ := State.mem_parameterWrites.mp hw
  rw [State.readBytes_length]
  exact Gate.parameterPlaces_within hb hd _ (List.getElem_mem hk)

/-! ## The procedure entered -/

/-- What the entry of a procedure through the gate `g` leaves. -/
structure ProcedureEntered (g : Gate) (s t : State) : Prop where
  cs     : t.segs.cs = g.selector
  eip    : t.eip = g.entryOffset
  cpl    : t.cpl = s.targetLevel g.selector
  eflags : t.eflags = s.eflags
  cfg    : t.cfg = s.cfg
  tr     : t.tr = s.tr
  dbg    : t.dbg = s.dbg
  cr0    : t.cr0 = s.cr0
  cr3    : t.cr3 = s.cr3
  gprs   : ∀ r, r ≠ .esp → t.gprs.get r = s.gprs.get r
  frame  : ∃ n, ∀ depth, depth = frameDepth n (if t.cpl.toNat < s.cpl.toNat then g.parameterBytes else 0) →
    OnStack s t depth
    ∧ (∀ x, depth ≤ (x - t.gprs.esp).toNat → t.readByte x = s.readByte x)
    ∧ (t.cpl.toNat < s.cpl.toNat → s.cfg.wpr1 = false →
      ∀ k (hk : k < (g.parameterPlaces n t.gprs.esp depth).length),
        t.readBytes (g.parameterPlaces n t.gprs.esp depth)[k] g.parameterUnit
          = s.readBytes (s.parameterSource g k) g.parameterUnit)

theorem State.enterProcedure_entered {g : Gate} {s t : State} (h : s.enterProcedure g = .next t) :
    ProcedureEntered g s t := by
  obtain ⟨stack, depth, reads, w, hstack, hdepth, hw, ht⟩ := State.enterProcedure_cases h
  have hr := State.cpuReads_cycleStep reads s
  have hsw : SameCpu (s.enterAt g.selector g.entryOffset stack depth) w := hw ▸ hr.enterAt _ _ _ _
  have hwt := (State.busWrites_busStep _ ht).cpu
  have hst := hsw.trans hwt
  have hgprs : t.gprs = { s.gprs with esp := stack.2 - BitVec.ofNat 32 depth } := hst.gprs
  have hcpl : t.cpl = s.targetLevel g.selector := hst.cpl.trans (State.enterAt_cpl _ _ _ _ s)
  refine ⟨congrArg Segs.cs hst.segs, hst.eip, hcpl, hst.eflags, hst.cfg, hst.tr, hst.dbg, hst.cr0, hst.cr3,
    fun r hne => ?_, s.draws, fun d hd => ?_⟩
  · rw [hgprs]
    cases r with
    | esp => exact absurd rfl hne
    | _ => rfl
  have hrises : s.rises (s.targetLevel g.selector) = decide (t.cpl.toNat < s.cpl.toNat) := by
    rw [hcpl]
    rfl
  rw [hrises] at hdepth ht
  simp only [decide_eq_true_eq] at hdepth ht
  obtain rfl : d = depth := hd.trans hdepth.symm
  rw [← hwt.gprs] at ht
  refine ⟨State.entryStack_onStack (stack := stack) ((congrArg s.entryStack hcpl).trans hstack)
    (congrArg Segs.ss hst.segs) (congrArg Gprs.esp hgprs), fun x hx => ?_, fun hl hp k hk => ?_⟩
  · refine Eq.trans ?_ ((congrArg (State.readByte · x) hw).trans (hr.readByte x))
    refine State.readByte_busWrites_other _ ht (unwritten_of_outside (esp := t.gprs.esp) (fun hlt v hv => ?_) hx)
    rcases List.mem_append.mp hv with hv | hv
    · exact framePushes_within _ _ hlt v hv
    · by_cases hl : t.cpl.toNat < s.cpl.toNat
      · rw [if_pos hl] at hv hd
        exact s.parameterWrites_within (hd ▸ Nat.le_add_left _ _) hlt v hv
      · rw [if_neg hl] at hv
        exact absurd hv List.not_mem_nil
  · rw [if_pos hl] at ht
    exact State.parameters_copied (by rw [hsw.cfg]; exact hp) ht hk

/-- The bus operations before an entry change nothing of what it leaves. -/
theorem ProcedureEntered.of_cycle {g : Gate} {s u t : State} (h : ProcedureEntered g u t) (hu : CycleStep s u) :
    ProcedureEntered g s t := by
  obtain ⟨n, hn⟩ := h.frame
  have hc := hu.cpu
  refine ⟨h.cs, h.eip, h.cpl.trans (hu.targetLevel _), h.eflags.trans hc.eflags, h.cfg.trans hc.cfg, h.tr.trans hc.tr,
    h.dbg.trans hc.dbg, h.cr0.trans hc.cr0, h.cr3.trans hc.cr3,
    fun r hr => (h.gprs r hr).trans (congrArg (Gprs.get · r) hc.gprs), n, fun depth hd => ?_⟩
  rw [← hc.cpl] at hd ⊢
  obtain ⟨hstack, hout, hcopy⟩ := hn depth hd
  refine ⟨hstack.of_cycle (ev := s.lastEvent) hu, fun x hx => (hout x hx).trans (hu.readByte x), fun hl hp k hk => ?_⟩
  have hsource : u.parameterSource g k = s.parameterSource g k := by
    rw [State.parameterSource, hc.gprs, State.parameterSource]
  rw [hcopy hl (by rw [hc.cfg, hp]) k hk, State.readBytes_congr hu.readByte, hsource]

/-! ## The call -/

/-- A call that goes on went through a call gate, to a level not less privileged, and entered the procedure. -/
theorem State.callGate_cases {admits : BitVec 2 → Desc → Desc → Bool} {a : Dword} {s t : State}
    (h : s.callGate admits a = .next t) : (s.decodeGate a).kind = .call
      ∧ (s.targetLevel (s.decodeGate a).selector).toNat ≤ s.cpl.toNat
      ∧ (s.cpuReads (gateReads a)).enterProcedure (s.decodeGate a) = .next t := by
  unfold State.callGate at h
  dsimp only at h
  split at h
  · split at h
    · rename_i hc
      exact ⟨hc.1, hc.2.1, h⟩
    · cases h
  · cases h

theorem State.callGate_entered {admits : BitVec 2 → Desc → Desc → Bool} {a : Dword} {s t : State}
    (h : s.callGate admits a = .next t) : ProcedureEntered (s.decodeGate a) s t :=
  (State.enterProcedure_entered (State.callGate_cases h).2.2).of_cycle (State.cpuReads_cycleStep _ s)

theorem State.enterProcedure_goes_on {g : Gate} {s : State} {stack : Word × Dword}
    (hs : s.entryStack (s.targetLevel g.selector) = some stack) (hw : s.writesGoOn) :
    ∃ t, s.enterProcedure g = .next t := by
  unfold State.enterProcedure
  rw [hs]
  refine State.busWrites_goes_on _ _ ?_
  rw [(State.enterAt_transfer _ _ _ _ _).cfg, (State.cpuReads_transfer _ s).cfg]
  exact hw

/-- A call goes on where nothing forbids it. -/
theorem State.callGate_goes_on {s : State} {admits : BitVec 2 → Desc → Desc → Bool} {a : Dword} {g : Gate}
    (hg : g = s.decodeGate a) (ha : s.cfg.regionsAligned = true) (hw : s.writesGoOn) (hk : g.kind = .call)
    (hl : (s.targetLevel g.selector).toNat ≤ s.cpl.toNat)
    (hadmits : admits s.cpl (s.readQword a) (s.readQword (s.locateDescriptor g.selector).2) = true)
    (htss : s.currentTss ≠ none ∨ s.targetLevel g.selector = s.cpl) : ∃ t, s.callGate admits a = .next t := by
  subst hg
  have hu := State.cpuReads_cycleStep (gateReads a) s
  have hstack : (s.cpuReads (gateReads a)).currentTss ≠ none
      ∨ ¬ ((s.cpuReads (gateReads a)).targetLevel (s.decodeGate a).selector).toNat
        < (s.cpuReads (gateReads a)).cpl.toNat := by
    rw [hu.cpu.currentTss, hu.targetLevel, hu.cpu.cpl]
    exact htss.imp_right fun h => by
      rw [h]
      exact Nat.lt_irrefl _
  obtain ⟨stack, hstack⟩ := State.entryStack_isSome hstack
  obtain ⟨t, ht⟩ := State.enterProcedure_goes_on hstack (hu.cpu.writesGoOn hw)
  refine ⟨t, ?_⟩
  unfold State.callGate
  dsimp only
  rw [if_pos ha, if_pos ⟨hk, hl, hadmits⟩]
  exact ht

/-! ## Transfers by the kind of the gate -/

section
variable {s : State} {sel : Word} {a : Dword} {g : Gate} (ha : s.cfg.regionsAligned = true)
  (hloc : (s.locateDescriptor sel).2 = a) (hg : g = s.decodeGate a) (admits : BitVec 2 → Desc → Desc → Bool)
  (f : TaskFunction) (ret : Dword)
include ha hloc hg

theorem State.gateTransfer_call (hk : g.kind = .call) :
    s.gateTransfer admits f sel ret = s.callGate admits a := by
  subst hloc hg
  simp only [State.gateTransfer, ha, hk, if_true]

theorem State.gateTransfer_task (hk : g.kind = .task) :
    s.gateTransfer admits f sel ret = (s.cpuReads (gateReads a)).taskSwitch f g.selector ret := by
  subst hloc hg
  simp only [State.gateTransfer, ha, hk, if_true]

theorem State.gateTransfer_refused (hc : g.kind ≠ .call) (ht : g.kind ≠ .task) :
    s.gateTransfer admits f sel ret = .refused .noGateTransfer := by
  subst hloc hg
  cases hk : (s.decodeGate (s.locateDescriptor sel).2).kind with
  | call => exact absurd hk hc
  | task => exact absurd hk ht
  | interrupt => simp only [State.gateTransfer, ha, hk, if_true]
  | trap => simp only [State.gateTransfer, ha, hk, if_true]
  | notAGate => simp only [State.gateTransfer, ha, hk, if_true]

end

/-- Settles O51: what the entry leaves, that it goes on, and what each kind of gate has the transfer do. -/
theorem callGateTransfer : Obligations.CallGateTransfer := by
  refine ⟨fun s t admits a g hg h => ?_, fun s admits a g => State.callGate_goes_on,
    fun s admits f sel ret a g ha hloc hg => ?_⟩
  · subst hg
    obtain ⟨hk, hl, -⟩ := State.callGate_cases h
    have h := State.callGate_entered h
    obtain ⟨n, hn⟩ := h.frame
    have hstack := (hn _ rfl).1
    have hsame : t.cpl = s.cpl → ¬ t.cpl.toNat < s.cpl.toNat := fun h => h ▸ Nat.lt_irrefl _
    refine ⟨hk, h.cs, fun hs => by rw [h.eip, Gate.entryOffset_of_16 hs],
      fun hs => by rw [h.eip, Gate.entryOffset_of_32 hs], h.cpl, by rwa [h.cpl], hstack.ssRises,
      fun e => hstack.ss (hsame e), ⟨n, fun depth unit hu hd => ?_⟩, h.eflags, h.cfg, h.tr, h.dbg, h.cr0, h.cr3, h.gprs⟩
    obtain rfl : unit = (s.decodeGate a).parameterUnit := hu
    obtain ⟨hstack, hout, hcopy⟩ := hn depth hd
    refine ⟨fun e => hstack.esp (hsame e), hstack.esp32, hstack.esp16, hout, fun hrise places hp => ?_⟩
    subst hp
    rw [if_pos hrise] at hd
    exact ⟨Gate.parameterPlaces_length _ _ _ _, fun j k => Gate.parameterPlaces_getElem_apart _ _ _ _,
      fun hlt k hk => Gate.parameterPlaces_within (hd ▸ Nat.le_add_left _ _) hlt _ (List.getElem_mem hk), hcopy hrise⟩
  · have hloc : (s.locateDescriptor sel).2 = a := (s.locateDescriptor_snd sel).trans hloc.symm
    exact ⟨State.gateTransfer_call ha hloc hg admits f ret,
      fun hk => ⟨_, (State.cpuReads_cycleStep (gateReads a) s).sameButBus,
        State.gateTransfer_task ha hloc hg admits f ret hk⟩,
      State.gateTransfer_refused ha hloc hg admits f ret⟩

end Sys2Proof.Machine
end

section
/-! Write gathering: what a gathered write has wait and leave, byte by byte. -/

namespace Sys2Proof.Machine

/-! ## One byte -/

theorem memCycle_carries (kind : CycleKind) (a : Dword) (bs : List Byte) (at' : Attributes) :
    (memCycle kind a bs at').carries kind a bs :=
  ⟨rfl, rfl, rfl, rfl, rfl⟩

/-- A byte is sequential where it comes right after the waiting ones, in their window (rule R122). -/
theorem GatherBuffer.continuedBy_iff (g : GatherBuffer) (a : Dword) : g.continuedBy a = true ↔
    a = g.start + BitVec.ofNat 32 g.bytes.length ∧ g.start.toNat / 8 = a.toNat / 8 := by
  have hwindow : a >>> 3 = g.start >>> 3 ↔ g.start.toNat / 8 = a.toNat / 8 := by
    rw [← BitVec.toNat_inj, BitVec.toNat_ushiftRight, BitVec.toNat_ushiftRight, Nat.shiftRight_eq_div_pow,
      Nat.shiftRight_eq_div_pow, eq_comm]
  rw [GatherBuffer.continuedBy, Bool.and_eq_true, decide_eq_true_eq, decide_eq_true_eq, hwindow, GatherBuffer.next]

/-- The byte after a buffer that ends with its window is in the next window. -/
theorem GatherBuffer.not_continuedBy_next {g : GatherBuffer} (hl : g.legal = true)
    (h : g.start.toNat % 8 + g.bytes.length = 8) : g.continuedBy g.next = false := by
  rw [Bool.eq_false_iff]
  intro hc
  have := GatherBuffer.legal_continued 0 hl hc
  rw [List.length_append, List.length_singleton] at this
  omega

section
variable (at' : Attributes) (b : Byte) {s : State} {g : GatherBuffer} (hg : s.gather = some g)
include hg

/-- A sequential byte waits with the others while they are fewer than eight. -/
theorem State.gatherByte_joins (hw : g.start.toNat % 8 + g.bytes.length < 8) (hn : g.bytes.length < 7) :
    s.gatherByte at' g.next b = { s with gather := some { g with bytes := g.bytes ++ [b] } } := by
  unfold State.gatherByte
  rw [hg]
  dsimp only
  rw [if_pos (GatherBuffer.continuedBy_next hw)]
  unfold State.flushIfFull
  dsimp only
  rw [if_neg (by rw [List.length_append]; exact Nat.not_le.mpr (Nat.succ_lt_succ hn))]

/-- A byte that is not sequential has what waits leave as one cycle, and begins the buffer. -/
theorem State.gatherByte_broken {a : Dword} (h : g.continuedBy a = false) :
    s.gatherByte at' a b = { s with
      events := s.events ++ [memCycle .memWrite g.start g.bytes g.attrs], gather := some ⟨a, [b], at'⟩ } := by
  unfold State.gatherByte State.flushGather
  simp only [hg, h, Bool.false_eq_true, if_false]

end

/-! ## Where nothing leaves early -/

/-- None of the next `n` consulted choices has what waits leave early. -/
def State.keptFor (s : State) (n : Nat) : Prop :=
  ∀ j, s.draws ≤ j → j < s.draws + n → Config.flushEarly j = false

theorem State.keptFor.head {s : State} {n : Nat} (h : s.keptFor (n + 1)) : Config.flushEarly s.draws = false :=
  h _ (Nat.le_refl _) (by omega)

/-- The choices after the first, at a state that has consulted at most that one. -/
theorem State.keptFor.tail {s u : State} {n : Nat} (h : s.keptFor (n + 1))
    (hu : u.draws = s.draws ∨ u.draws = s.draws + 1) : u.keptFor n :=
  fun j h1 h2 => h j (by omega) (by omega)

/-- `t` has gathered the bytes `joined` at `first`, which are at most seven past one window, after the cycles `events`:
they wait; or, eight, have left as one cycle; or those of the window have left, and the others wait (rule R122). -/
def Gathered (events : List BusEvent) (first : Dword) (joined : List Byte) (at' : Attributes) (t : State) : Prop :=
  ∀ room, room = 8 - first.toNat % 8 →
    (joined.length < 8 → joined.length ≤ room → t.events = events ∧ t.gather = some ⟨first, joined, at'⟩)
    ∧ (joined.length = 8 → room = 8 → t.gather = none
      ∧ ∃ e, t.events = events ++ [e] ∧ e.carries .memWrite first joined)
    ∧ (room < joined.length → ∃ e at'', t.events = events ++ [e] ∧ e.carries .memWrite first (joined.take room)
      ∧ t.gather = some ⟨first + BitVec.ofNat 32 room, joined.drop room, at''⟩)

/-- Where the bytes of the window have left, and the others wait. -/
theorem Gathered.of_split {events : List BusEvent} {first : Dword} {xs ys : List Byte} {at' at'' : Attributes}
    {t : State} {e : BusEvent} (hroom : first.toNat % 8 + xs.length = 8) (hys : ys ≠ []) (he : t.events = events ++ [e])
    (hc : e.carries .memWrite first xs)
    (hg : t.gather = some ⟨first + BitVec.ofNat 32 xs.length, ys, at''⟩) :
    Gathered events first (xs ++ ys) at' t := by
  intro room hr
  obtain rfl : room = xs.length := by omega
  have hlen := List.length_pos_of_ne_nil hys
  rw [List.length_append, List.take_left, List.drop_left]
  exact ⟨fun _ h => by omega, fun h h' => by omega, fun _ => ⟨e, at'', he, hc, hg⟩⟩

/-- The first byte of a write to the empty buffer, then the others. -/
theorem State.gatherBytes_cons_of_none {s : State} (hg : s.gather = none) (at' : Attributes) (a : Dword) (b : Byte)
    (bs : List Byte) : s.gatherBytes at' a (b :: bs) =
      State.gatherBytes at' (GatherBuffer.next ⟨a, [b], at'⟩) bs { s with gather := some ⟨a, [b], at'⟩ } := by
  rw [State.gatherBytes, State.emitEarly_of_none hg, State.gatherByte_of_none hg]
  rfl

/-- The first byte of a write that is not sequential, then the others. -/
theorem State.gatherBytes_cons_of_broken {s : State} {g : GatherBuffer} (hg : s.gather = some g) (at' : Attributes)
    {a : Dword} (b : Byte) (bs : List Byte) (hk : Config.flushEarly s.draws = false) (h : g.continuedBy a = false) :
    s.gatherBytes at' a (b :: bs) =
      State.gatherBytes at' (GatherBuffer.next ⟨a, [b], at'⟩) bs { s.draw with
        events := s.events ++ [memCycle .memWrite g.start g.bytes g.attrs], gather := some ⟨a, [b], at'⟩ } := by
  rw [State.gatherBytes, State.emitEarly_of_kept hg hk, State.gatherByte_broken at' b (s := s.draw) hg h]
  rfl

/-- The others, where they are of one window with the first and do not fill it. -/
theorem State.gatherBytes_rest {s : State} {at' : Attributes} {a : Dword} {b : Byte} {bs : List Byte}
    (hg : s.gather = some ⟨a, [b], at'⟩) (hw : a.toNat % 8 + (bs.length + 1) ≤ 8) (hn : bs.length + 1 < 8)
    (hk : s.keptFor bs.length) :
    (s.gatherBytes at' (GatherBuffer.next ⟨a, [b], at'⟩) bs).events = s.events
      ∧ (s.gatherBytes at' (GatherBuffer.next ⟨a, [b], at'⟩) bs).gather = some ⟨a, b :: bs, at'⟩ := by
  rw [State.gatherBytes_within at' bs s _ hg (by dsimp only [List.length_singleton]; omega)
    (by dsimp only [List.length_singleton]; omega) hk]
  exact ⟨rfl, rfl⟩

/-- Bytes of one window that do not fill it begin the empty buffer. -/
theorem State.gatherBytes_begin {s : State} (hg : s.gather = none) (at' : Attributes) (a : Dword) {bs : List Byte}
    (hne : bs ≠ []) (hw : a.toNat % 8 + bs.length ≤ 8) (hn : bs.length < 8) (hk : s.keptFor bs.length) :
    (s.gatherBytes at' a bs).events = s.events ∧ (s.gatherBytes at' a bs).gather = some ⟨a, bs, at'⟩ := by
  cases bs with
  | nil => exact absurd rfl hne
  | cons b bs =>
    rw [List.length_cons] at hw hn hk
    rw [State.gatherBytes_cons_of_none hg]
    exact State.gatherBytes_rest (s := { s with gather := some ⟨a, [b], at'⟩ }) rfl hw hn (hk.tail (.inl rfl))

/-- The address after a full window begins the next one. -/
theorem GatherBuffer.next_toNat_mod {g : GatherBuffer} (h : g.start.toNat % 8 + g.bytes.length = 8) :
    g.next.toNat % 8 = 0 := by
  have := g.start.isLt
  rw [GatherBuffer.next, BitVec.toNat_add, BitVec.toNat_ofNat]
  omega

/-- Bytes right after the waiting ones, by induction on them. -/
theorem State.gatherBytes_next (at' : Attributes) (bs : List Byte) : ∀ (s : State) (g : GatherBuffer),
    s.gather = some g → g.legal = true → g.start.toNat % 8 + g.bytes.length + bs.length < 16 → s.keptFor bs.length →
    Gathered s.events g.start (g.bytes ++ bs) g.attrs (s.gatherBytes at' g.next bs) := by
  induction bs with
  | nil =>
    intro s g hg hl _ _ room hr
    simp only [GatherBuffer.legal, Bool.and_eq_true, decide_eq_true_eq] at hl
    rw [List.append_nil]
    exact ⟨fun _ _ => ⟨rfl, hg⟩, fun h _ => by omega, fun h => by omega⟩
  | cons b bs ih =>
    intro s g hg hl hn hk
    have hl' := hl
    simp only [GatherBuffer.legal, Bool.and_eq_true, decide_eq_true_eq] at hl'
    obtain ⟨⟨hpos, hw⟩, hlt⟩ := hl'
    rw [List.length_cons] at hn hk
    by_cases hend : g.start.toNat % 8 + g.bytes.length = 8
    · -- the window is at its end: what waits leaves, the bytes begin the buffer
      have hmod := g.next_toNat_mod hend
      rw [State.gatherBytes_cons_of_broken hg at' b bs hk.head (GatherBuffer.not_continuedBy_next hl hend)]
      obtain ⟨he, hg'⟩ := State.gatherBytes_rest (bs := bs) (s := { s.draw with
        events := s.events ++ [memCycle .memWrite g.start g.bytes g.attrs], gather := some ⟨g.next, [b], at'⟩ }) rfl
        (by omega) (by omega) (hk.tail (.inr rfl))
      exact Gathered.of_split hend (List.cons_ne_nil _ _) he (memCycle_carries _ _ _ _) hg'
    have hnext : g.next + 1 = GatherBuffer.next { g with bytes := g.bytes ++ [b] } := by
      rw [GatherBuffer.next, GatherBuffer.next, List.length_append, BitVec.ofNat_add, ← BitVec.add_assoc]
      rfl
    rw [List.append_cons, State.gatherBytes, State.emitEarly_of_kept hg hk.head, hnext]
    by_cases hfull : g.bytes.length = 7
    · -- the eighth byte: all leave, and the bytes after it begin the buffer
      have hfull' : g.start.toNat % 8 + (g.bytes ++ [b]).length = 8 := by
        rw [List.length_append, List.length_singleton]
        omega
      rw [State.gatherByte_full at' b (s := s.draw) hg (by omega) hfull]
      cases bs with
      | nil =>
        intro room hr
        rw [List.append_nil]
        exact ⟨fun h => by omega, fun _ _ => ⟨rfl, _, rfl, memCycle_carries _ _ _ _⟩, fun h => by omega⟩
      | cons c cs =>
        have hmod := GatherBuffer.next_toNat_mod (g := { g with bytes := g.bytes ++ [b] }) hfull'
        obtain ⟨he, hg'⟩ := State.gatherBytes_begin (s := { s.draw with
          gather := none, events := s.events ++ [memCycle .memWrite g.start (g.bytes ++ [b]) g.attrs] }) rfl at'
          (GatherBuffer.next { g with bytes := g.bytes ++ [b] }) (List.cons_ne_nil c cs) (by omega) (by omega)
          (hk.tail (.inr rfl))
        exact Gathered.of_split hfull' (List.cons_ne_nil _ _) he (memCycle_carries _ _ _ _) hg'
    · -- one more byte waits
      rw [State.gatherByte_joins at' b (s := s.draw) hg (by omega) (by omega)]
      refine ih { s.draw with gather := some { g with bytes := g.bytes ++ [b] } } _ rfl ?_ ?_ ?_
      · simp only [GatherBuffer.legal, Bool.and_eq_true, decide_eq_true_eq, List.length_append, List.length_singleton]
        omega
      · simp only [List.length_append, List.length_singleton]
        omega
      · exact hk.tail (.inr rfl)

/-- What a gathered write makes of what waited: the cycles `before` it, and the bytes `joined` at `first` that its own
bytes then make with it. -/
def Joins (gather : Option GatherBuffer) (a : Dword) (bs : List Byte) (before : List BusEvent) (first : Dword)
    (joined : List Byte) : Prop :=
  gather = none ∧ before = [] ∧ first = a ∧ joined = bs
    ∨ ∃ g, gather = some g
      ∧ (g.continuedBy a = true ∧ before = [] ∧ first = g.start ∧ joined = g.bytes ++ bs
        ∨ ¬ g.continuedBy a = true ∧ first = a ∧ joined = bs
          ∧ ∃ e, before = [e] ∧ e.carries .memWrite g.start g.bytes)

/-- A gathered write of up to eight bytes where nothing leaves early. -/
theorem State.gatherBytes_kept {s : State} (hl : s.gather.all GatherBuffer.legal = true) (at' : Attributes) (a : Dword)
    {bs : List Byte} (hne : bs ≠ []) (hn : bs.length ≤ 8) (hk : s.keptFor bs.length) :
    ∃ before first joined at'', Joins s.gather a bs before first joined
      ∧ Gathered (s.events ++ before) first joined at'' (s.gatherBytes at' a bs)
      ∧ ∀ g, s.gather = some g → g.continuedBy a = true → at'' = g.attrs := by
  cases bs with
  | nil => exact absurd rfl hne
  | cons b bs =>
    rw [List.length_cons] at hn hk
    have hfresh : ∀ u : State, u.draws = s.draws ∨ u.draws = s.draws + 1 → u.gather = some ⟨a, [b], at'⟩ →
        Gathered u.events a (b :: bs) at' (u.gatherBytes at' (GatherBuffer.next ⟨a, [b], at'⟩) bs) :=
      fun u h hu => State.gatherBytes_next at' bs u _ hu (GatherBuffer.legal_single a b at')
        (by simp only [List.length_singleton]; omega) (hk.tail h)
    cases hg : s.gather with
    | none =>
      refine ⟨[], a, b :: bs, at', .inl ⟨rfl, rfl, rfl, rfl⟩, ?_, fun g h => by cases h⟩
      rw [State.gatherBytes_cons_of_none hg, List.append_nil]
      exact hfresh _ (.inl rfl) rfl
    | some g =>
      rw [hg] at hl
      have hl : g.legal = true := hl
      cases hc : g.continuedBy a with
      | true =>
        obtain ⟨rfl, -⟩ := (g.continuedBy_iff a).mp hc
        refine ⟨[], g.start, g.bytes ++ b :: bs, g.attrs, .inr ⟨g, rfl, .inl ⟨hc, rfl, rfl, rfl⟩⟩, ?_,
          fun g' h _ => by cases h; rfl⟩
        have hw := GatherBuffer.legal_continued 0 hl hc
        rw [List.length_append, List.length_singleton] at hw
        rw [List.append_nil]
        exact State.gatherBytes_next at' _ s g hg hl (by rw [List.length_cons]; omega) hk
      | false =>
        refine ⟨_, a, b :: bs, at', .inr ⟨g, rfl, .inr ⟨by rw [hc]; decide, rfl, rfl, _, rfl,
          memCycle_carries _ g.start g.bytes g.attrs⟩⟩, ?_, fun g' h h' => ?_⟩
        · rw [State.gatherBytes_cons_of_broken hg at' b bs hk.head hc]
          exact hfresh _ (.inr rfl) rfl
        · cases h
          exact absurd (hc.symm.trans h') (by decide)

/-! ## Whatever leaves early -/

/-- Bytes that do not continue what waits have it leave as the first cycle. -/
theorem State.gatherBytes_first {s : State} {g : GatherBuffer} (hg : s.gather = some g) (at' : Attributes) {a : Dword}
    {bs : List Byte} (hne : bs ≠ []) (h : g.continuedBy a = false) :
    ∃ e, s.events ++ [e] <+: (s.gatherBytes at' a bs).events ∧ e.carries .memWrite g.start g.bytes := by
  cases bs with
  | nil => exact absurd rfl hne
  | cons b bs =>
    have hbyte : ∃ e, (s.emitEarly.gatherByte at' a b).events = s.events ++ [e]
        ∧ e.carries .memWrite g.start g.bytes := by
      rcases State.emitEarly_cases hg with he | he <;> rw [he]
      · rw [State.gatherByte_broken at' b (s := s.draw) hg h]
        exact ⟨_, rfl, memCycle_carries _ _ _ _⟩
      · rw [State.gatherByte_of_none (s := s.flushGather.draw) s.flushGather_gather]
        exact State.flushGather_events hg
    obtain ⟨e, he, hc⟩ := hbyte
    exact ⟨e, he ▸ (State.gatherBytes_cycleStep at' bs (a + 1) _).events, hc⟩

/-! ## Writes and reads -/

theorem State.writeBytes_draws (bs : List Byte) : ∀ (a : Dword) (s : State), (s.writeBytes a bs).draws = s.draws := by
  induction bs with
  | nil => exact fun _ _ => rfl
  | cons b bs ih =>
    intro a s
    have hb : (s.writeByte a b).draws = s.draws := by
      unfold State.writeByte
      split <;> rfl
    exact (ih (a + 1) _).trans hb

/-- A cycle after which nothing waits comes after what waited. -/
theorem State.emit_flushed (u : State) (e' : BusEvent) : (u.flushGather.emit e').gather = none
    ∧ (u.gather = none → (u.flushGather.emit e').events = u.events ++ [e'])
    ∧ ∀ g, u.gather = some g → ∃ e, (u.flushGather.emit e').events = u.events ++ [e, e']
      ∧ e.carries .memWrite g.start g.bytes := by
  refine ⟨u.flushGather_gather, fun hg => by rw [State.flushGather_of_none hg]; rfl, fun g hg => ?_⟩
  obtain ⟨e, he, hc⟩ := State.flushGather_events hg
  exact ⟨e, by rw [State.emit_events, he, List.append_assoc]; rfl, hc⟩

/-- A read at a non-sequential location has what waits leave, and is then its own cycle. -/
theorem State.readCycle_of_nonSequential {s : State} {a : Dword} {g : GatherBuffer} (hg : s.gather = some g)
    (h : g.bytes.length < (a - g.start).toNat) (n : Nat) : s.readCycle a n =
      s.draw.flushGather.emit (memCycle .memRead a (s.readBytes a n) (s.attributesAt a)) := by
  unfold State.readCycle State.noteAccess GatherBuffer.nonSequential
  rw [State.draw_gather, hg]
  dsimp only
  rw [if_pos (decide_eq_true h)]

/-- Settles O48: an ungathered write, a gathered one whatever leaves early and where nothing does, and a read. -/
theorem writeGathering : Obligations.WriteGathering := by
  refine ⟨fun s a bs hne hn hp hl continues hc => ?_, fun s a g n hg hns => ?_⟩
  · obtain rfl : continues = fun g => g.continuedBy a = true :=
      funext fun g => propext ((hc g).trans (g.continuedBy_iff a).symm)
    have hw := (State.writeBytes_busStep bs a s).cpu
    obtain ⟨hgather, hevents⟩ := State.writeBytes_bus bs a s
    have hdraws := State.writeBytes_draws bs a s
    refine ⟨s.plainWrite a bs, State.busWrite_of_unprotected hp, fun k hk => ?_, fun x hx => ?_, fun hwg => ?_,
      fun hwg => ?_⟩
    · rw [State.readByte_plainWrite, State.readByte_writeBytes_within bs a s k hk (by omega)]
    · rw [State.readByte_plainWrite, State.readByte_writeBytes_other bs a s x hx]
    · rw [State.plainWrite, State.writeCycle_eq_emit (by rw [hw.cfg]; exact hwg), ← hgather, ← hevents]
      obtain ⟨hnone, hempty, hwaits⟩ := (s.writeBytes a bs).draw.emit_flushed
        (memCycle .memWrite a bs ((s.writeBytes a bs).attributesAt a))
      refine ⟨hnone, fun hg => ⟨_, hempty hg, memCycle_carries _ _ _ _⟩, fun g hg => ?_⟩
      obtain ⟨e, he, hc⟩ := hwaits g hg
      exact ⟨e, _, he, hc, memCycle_carries _ _ _ _⟩
    · rw [State.plainWrite, State.writeCycle_gathered (by rw [hw.cfg]; exact hwg)]
      generalize State.attributesAt _ a = at'
      generalize s.writeBytes a bs = u at hgather hevents hdraws
      have hwait : s.waitingCells = u.draw.waitingCells := by
        unfold State.waitingCells
        rw [State.draw_gather, hgather]
      rw [← hgather] at hl ⊢
      rw [← hevents, ← hdraws, hwait]
      obtain ⟨es, he, hcells, hes⟩ := State.gatherBytes_drains at' bs a u.draw hl
      refine ⟨⟨es, he, hcells, hes, fun g hg hnc => ?_⟩, ?_⟩
      · obtain ⟨e, ⟨rest, hrest⟩, hcarries⟩ :=
          State.gatherBytes_first (s := u.draw) hg at' hne (Bool.eq_false_iff.mpr hnc)
        rw [he, List.append_assoc] at hrest
        exact ⟨e, rest, (List.append_cancel_left hrest).symm, hcarries⟩
      · refine or_iff_not_imp_left.mpr fun hkept => ?_
        have hkept : u.draw.keptFor bs.length := fun j h1 h2 => Bool.eq_false_iff.mpr fun hf =>
          hkept ⟨j, h1, by rw [State.draw_draws] at h2; omega, hf⟩
        obtain ⟨before, first, joined, at'', hjoins, hgathered, hattrs⟩ :=
          State.gatherBytes_kept (s := u.draw) hl at' a hne hn hkept
        refine ⟨before, first, joined, hjoins, fun room hr => ?_⟩
        obtain ⟨hwaits, hfull, hsplit⟩ := hgathered room hr
        exact ⟨fun h h' => ⟨(hwaits h h').1, at'', (hwaits h h').2, hattrs⟩, hfull, hsplit⟩
  · rw [State.readCycle_of_nonSequential hg hns]
    obtain ⟨hnone, -, hwaits⟩ := s.draw.emit_flushed (memCycle .memRead a (s.readBytes a n) (s.attributesAt a))
    obtain ⟨e, he, hc⟩ := hwaits g hg
    exact ⟨hnone, e, _, he, hc, memCycle_carries _ _ _ _⟩

end Sys2Proof.Machine
end

section
/-! Encoding and decoding: the row of the opcode table each instruction is written by, and what that row's leading bytes
and operand fields say of the bytes it selects. -/

namespace Sys2Proof

/-! ## The row of an instruction -/

theorem Instr.ctorIdx_lt (i : Instr) : i.ctorIdx < opcodeTable.length := by
  cases i <;> exact Nat.le_of_ble_eq_true rfl

/-- The row an instruction is written by: the constructors of `Instr` stand in the table's order. -/
def Instr.row (i : Instr) : OpcodeRow := opcodeTable[i.ctorIdx]'i.ctorIdx_lt

theorem Instr.row_mem (i : Instr) : i.row ∈ opcodeTable := List.getElem_mem _

theorem Instr.row_length (i : Instr) : i.row.length = i.length := by cases i <;> rfl

/-- A row builds instructions of its own only. -/
theorem OpcodeRow.row_build (bs : List Byte) {r : OpcodeRow} (h : r ∈ opcodeTable) : (r.build bs).row = r := by
  revert r
  simp only [opcodeTable, List.forall_mem_cons]
  exact ⟨rfl, rfl, rfl, rfl, rfl, rfl, rfl, rfl, rfl, rfl, rfl, rfl, rfl, rfl, rfl, rfl, rfl, rfl, nofun⟩

theorem encode_length (i : Instr) : (encode i).length = i.length := by cases i <;> rfl

/-! ## From an instruction to its bytes and back -/

/-- The bits a row with a register operand fixes in a ModRM byte. -/
theorem modrmRegister_mask : (∀ n : BitVec 3, modrmRegister 3 n &&& 0xF8 = 0xD8)
    ∧ (∀ n : BitVec 3, modrmRegister 1 n &&& 0xF8 = 0xC8)
    ∧ ∀ reg rm : BitVec 3, modrmRegister reg rm &&& 0xC0 = 0xC0 := by decide

/-- The row of an instruction selects its encoding, whatever follows it. Only a ModRM byte holds bits the mask leaves
out. -/
theorem Instr.row_selects (i : Instr) (rest : List Byte) : i.row.selects (encode i ++ rest) = true := by
  obtain ⟨hltr, hstr, hmov⟩ := modrmRegister_mask
  cases i with
  | ltrR16 rm => exact (Bool.and_true _).trans (beq_iff_eq.mpr (hltr _))
  | strR rm => exact (Bool.and_true _).trans (beq_iff_eq.mpr (hstr _))
  | movRm8R8 rm reg => exact (Bool.and_true _).trans (beq_iff_eq.mpr (hmov _ _))
  | _ => rfl

/-- A port number in its immediate byte. -/
theorem toNat_port_byte {port : Nat} (h : port < 256) : (BitVec.ofNat 8 port).toNat = port := by
  rw [BitVec.toNat_ofNat, Nat.mod_eq_of_lt h]

/-- The row of an instruction reads every operand back from its encoding. -/
theorem Instr.row_build_encode {i : Instr} (h : i.WellFormed = true) (rest : List Byte) :
    i.row.build (encode i ++ rest) = i := by
  cases i with
  | ltrR16 rm => exact congrArg Instr.ltrR16 (by simp [byteAt, encode])
  | ltrM16 disp => exact congrArg Instr.ltrM16 (dwordAt_dwordBytes [0x0F, 0x00, 0x1D] disp rest)
  | strM16 disp => exact congrArg Instr.strM16 (dwordAt_dwordBytes [0x0F, 0x00, 0x0D] disp rest)
  | strR rm => exact congrArg Instr.strR (by simp [byteAt, encode])
  | inAlImm8 port => exact congrArg Instr.inAlImm8 (toNat_port_byte (of_decide_eq_true h))
  | outImm8Al port => exact congrArg Instr.outImm8Al (toNat_port_byte (of_decide_eq_true h))
  | movRm8R8 rm reg => exact congrArg₂ Instr.movRm8R8 (by simp [byteAt, encode]) (by simp [byteAt, encode])
  | movEaxImm32 id => exact congrArg Instr.movEaxImm32 (dwordAt_dwordBytes [0xB8] id rest)
  | movEcxImm32 id => exact congrArg Instr.movEcxImm32 (dwordAt_dwordBytes [0xB9] id rest)
  | _ => rfl

/-- Settles O1: the instruction's own row selects the bytes, and reads the operands back from them. -/
theorem decodeInvertsEncode : Obligations.DecodeInvertsEncode := by
  intro i rest h
  have hlen : i.row.length ≤ (encode i ++ rest).length := by
    rw [Instr.row_length, List.length_append, encode_length]
    exact Nat.le_add_right _ _
  rw [decode_of_row i.row_mem (i.row_selects rest) hlen, Instr.row_build_encode h, Instr.row_length]

/-! ## From bytes to an instruction and back -/

/-- The bytes whose every bit a selecting row fixes are the row's. -/
theorem OpcodeRow.take_value_of_selects {r : OpcodeRow} {bs : List Byte} (hs : r.selects bs = true) {n : Nat}
    (hn : n ≤ r.value.length) (hm : r.mask.take n = List.replicate n 0xFF) :
    r.value.take n = (List.range n).map (byteAt bs) := by
  apply List.ext_getElem
  · simp [hn]
  · intro p hp _
    have hp : p < n := by simp at hp; omega
    have hbyte := maskMatches_byteAt _ _ _ hs p (by omega)
    have hall : r.mask.getD p 0 = BitVec.allOnes 8 := by
      have h := congrArg (fun l : List Byte => l.getD p 0) hm
      simpa [List.getD_eq_getElem?_getD, hp] using h
    rw [hall, BitVec.and_allOnes] at hbyte
    simp [hbyte, List.getD_eq_getElem?_getD, show p < r.value.length by omega]

/-- A displacement or immediate is written as the bytes it was read from. -/
theorem dwordBytes_dwordAt (bs : List Byte) (k : Nat) :
    dwordBytes (dwordAt bs k) = [byteAt bs k, byteAt bs (k + 1), byteAt bs (k + 2), byteAt bs (k + 3)] := by
  have hcut : ∀ b3 b2 b1 b0 : Byte, dwordBytes (b3 ++ b2 ++ b1 ++ b0) = [b0, b1, b2, b3] := by
    intro b3 b2 b1 b0
    simp only [dwordBytes, List.cons.injEq, and_true]
    refine ⟨?_, ?_, ?_, ?_⟩ <;>
    · apply BitVec.eq_of_toNat_eq
      simp only [toNat_extract_div, toNat_append_add]
      omega
  exact hcut _ _ _ _

/-- A ModRM byte of a row that fixes all but its rm field is put together again from that field. -/
theorem modrmRegister_modrmRm : (∀ m : Byte, m &&& 0xF8 = 0xD8 → modrmRegister 3 (modrmRm m) = m)
    ∧ ∀ m : Byte, m &&& 0xF8 = 0xC8 → modrmRegister 1 (modrmRm m) = m := by decide

theorem take_eq_map_byteAt {bs : List Byte} {n : Nat} (h : n ≤ bs.length) :
    bs.take n = (List.range n).map (byteAt bs) := by
  apply List.ext_getElem
  · simp [h]
  · intro k hk _
    have hk : k < bs.length := by simp at hk; omega
    simp [byteAt, hk]

/-- The first byte of every row is fixed. -/
theorem opcodeTable_first : ∀ r ∈ opcodeTable, 1 ≤ r.value.length ∧ r.mask.take 1 = List.replicate 1 0xFF := by
  decide

/-- The encoding of an instruction that its row reads from some bytes is made of those bytes: the fixed ones, and the
ones its operands came from. -/
theorem Instr.encode_of_row {i : Instr} {bs : List Byte} (hs : i.row.selects bs = true) (hb : i.row.build bs = i) :
    encode i = (List.range i.length).map (byteAt bs) := by
  have hop := OpcodeRow.take_value_of_selects hs (opcodeTable_first _ i.row_mem).1 (opcodeTable_first _ i.row_mem).2
  have hfixed {n : Nat} := OpcodeRow.take_value_of_selects hs (n := n)
  have hmasked := maskMatches_byteAt _ _ _ hs
  have hjoin {l l' m m' : List Byte} (h : l = l') (h' : m = m') : l ++ m = l' ++ m' := by rw [h, h']
  have hone {b b' : Byte} (h : b' = b) : [b] = [b'] := by rw [h]
  have hport {port : Nat} (h : (byteAt bs 1).toNat = port) : byteAt bs 1 = BitVec.ofNat 8 port := by simp [← h]
  have hdword {k : Nat} {d : Dword} (h : dwordAt bs k = d) := h ▸ dwordBytes_dwordAt bs k
  have hmodrm {reg : BitVec 3} {rm : GReg} (h : modrmRegister reg (modrmRm (byteAt bs 2)) = byteAt bs 2)
      (hrm : GReg.ofNum (modrmRm (byteAt bs 2)) = rm) : byteAt bs 2 = modrmRegister reg rm.num := by
    rw [← hrm, GReg.num_ofNum, h]
  cases i with
  | ltrR16 rm =>
    have hm := modrmRegister_modrmRm.1 _ (hmasked 2 (show 2 < 3 by decide))
    exact hjoin (hfixed (show 2 ≤ 3 by decide) rfl) (hone (hmodrm hm (Instr.ltrR16.inj hb)))
  | ltrM16 disp => exact hjoin (hfixed (show 3 ≤ 3 by decide) rfl) (hdword (Instr.ltrM16.inj hb))
  | strM16 disp => exact hjoin (hfixed (show 3 ≤ 3 by decide) rfl) (hdword (Instr.strM16.inj hb))
  | strR rm =>
    have hm := modrmRegister_modrmRm.2 _ (hmasked 2 (show 2 < 3 by decide))
    exact hjoin (hfixed (show 2 ≤ 3 by decide) rfl) (hone (hmodrm hm (Instr.strR.inj hb)))
  | inAlImm8 port => exact hjoin hop (hone (hport (Instr.inAlImm8.inj hb)))
  | outImm8Al port => exact hjoin hop (hone (hport (Instr.outImm8Al.inj hb)))
  | cpuid => exact hfixed (show 2 ≤ 2 by decide) rfl
  | loopRel8 cb => exact hjoin hop (hone (Instr.loopRel8.inj hb))
  | movAlImm8 ib => exact hjoin hop (hone (Instr.movAlImm8.inj hb))
  | movRm8R8 rm reg =>
    obtain ⟨rfl, rfl⟩ := Instr.movRm8R8.inj hb
    have hm := modrmRegister_fields _ (hmasked 1 (show 1 < 2 by decide))
    exact hjoin hop (hone (by rw [Reg8.num_ofNum, Reg8.num_ofNum, hm]))
  | movEaxImm32 id => exact hjoin hop (hdword (Instr.movEaxImm32.inj hb))
  | movEcxImm32 id => exact hjoin hop (hdword (Instr.movEcxImm32.inj hb))
  | andAlImm8 ib => exact hjoin hop (hone (Instr.andAlImm8.inj hb))
  | orAlImm8 ib => exact hjoin hop (hone (Instr.orAlImm8.inj hb))
  | _ => exact hop

/-- An instruction that its row reads is well-formed: the port number is a byte's. -/
theorem Instr.wellFormed_of_row {i : Instr} {bs : List Byte} (hb : i.row.build bs = i) : i.WellFormed = true := by
  cases i with
  | inAlImm8 port => exact decide_eq_true (Instr.inAlImm8.inj hb ▸ (byteAt bs 1).isLt)
  | outImm8Al port => exact decide_eq_true (Instr.outImm8Al.inj hb ▸ (byteAt bs 1).isLt)
  | _ => rfl

/-- Settles O2: the row the decoder found is the row of the instruction it built, whose encoding is the bytes taken. -/
theorem encodeInvertsDecode : Obligations.EncodeInvertsDecode := by
  intro bs i n h
  obtain ⟨r, hm, hs, hlen, rfl, rfl⟩ := row_of_decode h
  have hr := OpcodeRow.row_build bs hm
  have hlength : r.length = (r.build bs).length := by rw [← Instr.row_length, hr]
  refine ⟨Instr.wellFormed_of_row (by rw [hr]), hlength, ?_⟩
  rw [Instr.encode_of_row (bs := bs) (by rw [hr]; exact hs) (by rw [hr]), ← hlength, ← take_eq_map_byteAt hlen,
    List.take_append_drop]

end Sys2Proof
end

section
/-! The fetch of a running CPU: bytes of no row refused, and the step of the instruction its bytes hold. -/

namespace Sys2Proof.Machine

/-! ## Bytes of no row -/

theorem decode_of_no_row {bs : List Byte} (h : ∀ r ∈ opcodeTable, r.selects bs = false) :
    decode bs = .error (rejectReason bs) := by
  have hnone : opcodeTable.find? (fun r => r.selects bs) = none :=
    List.find?_eq_none.mpr fun r hr => by simp [h r hr]
  simp only [decode, hnone]

/-- First bytes that rule R136 names as those of no row: of the prefixed forms, and of the wide forms of IN and OUT. -/
def prefixedOrWide : List Byte :=
  [0x26, 0x2E, 0x36, 0x3E, 0x64, 0x65, 0x66, 0x67, 0xF0, 0xF2, 0xF3, 0xE5, 0xE7, 0xED, 0xEF]

theorem no_row_of_prefixedOrWide {bs : List Byte} (h : byteAt bs 0 ∈ prefixedOrWide) :
    ∀ r ∈ opcodeTable, r.selects bs = false := by
  intro r hr
  have hother : ∀ r ∈ opcodeTable, ∀ b ∈ prefixedOrWide, r.value.take 1 ≠ [b] := by decide
  refine Bool.eq_false_iff.mpr fun hs => hother r hr _ h ?_
  exact OpcodeRow.take_value_of_selects hs (opcodeTable_first r hr).1 (opcodeTable_first r hr).2

/-- A doubleword access at ports 1Fh to 23h takes in port 22h or 23h (rule R174). -/
theorem wideCoversConfigPort_of_near {port : Word} (h : 0x1F ≤ port.toNat) (h' : port.toNat ≤ 0x23) :
    wideCoversConfigPort port = true := by
  have hnear : ∀ n < 5, wideCoversConfigPort (BitVec.ofNat 16 (0x1F + n)) = true := by decide
  have hport : port = BitVec.ofNat 16 (0x1F + (port.toNat - 0x1F)) := by
    rw [Nat.add_sub_cancel' h, BitVec.ofNat_toNat, BitVec.setWidth_eq]
  rw [hport]
  exact hnear _ (by omega)

/-- What bytes of no row are refused as (rules R136 and R174). -/
theorem State.rejectRefusal_cases (s : State) (bs : List Byte) :
    s.rejectRefusal (rejectReason bs) = .unknownOpcode
      ∨ (byteAt bs 0 = 0xE5 ∨ byteAt bs 0 = 0xE7 ∨ byteAt bs 0 = 0xED ∨ byteAt bs 0 = 0xEF)
        ∧ s.rejectRefusal (rejectReason bs) = .wideConfigAccess := by
  unfold rejectReason
  dsimp only
  split
  · rename_i himm
    exact (ite_eq_or_eq _ _ _).symm.imp_right (And.intro (himm.imp_right .inl))
  · split
    · rename_i hdx
      exact (ite_eq_or_eq _ _ _).symm.imp_right (And.intro (.inr (.inr hdx)))
    · exact .inl rfl

theorem State.rejectRefusal_wide_imm {bs : List Byte} (h : byteAt bs 0 = 0xE5 ∨ byteAt bs 0 = 0xE7) (s : State)
    (hlo : 0x1F ≤ (byteAt bs 1).toNat) (hhi : (byteAt bs 1).toNat ≤ 0x23) :
    s.rejectRefusal (rejectReason bs) = .wideConfigAccess := by
  have hreason : rejectReason bs = .wideIo (some (byteAt bs 1)) := if_pos h
  have hport : ((byteAt bs 1).zeroExtend 16).toNat = (byteAt bs 1).toNat := by
    rw [BitVec.toNat_setWidth]
    omega
  rw [hreason]
  exact if_pos (wideCoversConfigPort_of_near (by rwa [hport]) (by rwa [hport]))

theorem State.rejectRefusal_wide_dx {bs : List Byte} (h : byteAt bs 0 = 0xED ∨ byteAt bs 0 = 0xEF) {s : State}
    (hlo : 0x1F ≤ s.gprs.edx.toNat % 0x10000) (hhi : s.gprs.edx.toNat % 0x10000 ≤ 0x23) :
    s.rejectRefusal (rejectReason bs) = .wideConfigAccess := by
  have himm : ¬ (byteAt bs 0 = 0xE5 ∨ byteAt bs 0 = 0xE7) := by
    rcases h with h | h <;> rw [h] <;> decide
  have hreason : rejectReason bs = .wideIo none := (if_neg himm).trans (if_pos h)
  have hport : s.dx.toNat = s.gprs.edx.toNat % 0x10000 := by
    rw [State.dx, Gprs.get16, lowWord, toNat_extract_div]
    simp [Gprs.get]
  rw [hreason]
  exact if_pos (wideCoversConfigPort_of_near (by rwa [hport]) (by rwa [hport]))

/-- The step at bytes the decoder rejects. -/
theorem step_of_rejected {s : State} {why : Reject} (hi : s.inputs = []) (hr : s.isRunning = true)
    (hc : s.dbg.codesUsed = true) (ha : s.cfg.regionsAligned = true) (ht : s.trapNow = false)
    (hd : decode s.fetchBytes = .error why) : step s = .refused (s.rejectRefusal why) := by
  have h := s.begin_held
  have hw : s.begin.rejectRefusal why = s.rejectRefusal why := by
    unfold State.rejectRefusal State.dx
    rw [h.gprs]
  have hf : s.begin.fetch = .settled (.refused (s.rejectRefusal why)) := by
    unfold State.fetch
    rw [h.dbg, h.cfg, if_pos hc, if_pos ha, if_neg (by simpa [State.trapNow, h.debugDue] using ht), h.fetchBytes, hd]
    exact congrArg (fun r => Prepared.settled (.refused r)) hw
  rw [step_eq_outcome, State.prepare_of_running hi hr, hf]
  rfl

/-- Settles O4: what the decoder rejects is refused by the name its first bytes give, and no row begins as a
prefixed or wide form does. -/
theorem unlistedBytesRefused : Obligations.UnlistedBytesRefused := by
  refine ⟨fun s hi hr hp hc ha ht => ?_, fun b rest hb => no_row_of_prefixedOrWide hb⟩
  have hstep (h : ∀ r ∈ opcodeTable, r.selects s.fetchBytes = false) :
      step s = .refused (s.rejectRefusal (rejectReason s.fetchBytes)) :=
    step_of_rejected hi (by simp [State.isRunning, hr, hp]) hc ha ht (decode_of_no_row h)
  have hop : byteAt s.fetchBytes 0 = s.readByte s.fetchAddress := rfl
  have himm : byteAt s.fetchBytes 1 = s.readByte (s.fetchAddress + 1) := rfl
  rw [← hop, ← himm]
  refine ⟨fun h => ?_, fun h hlo hhi => ?_, fun h hlo hhi => ?_⟩
  · rw [hstep h]
    exact (s.rejectRefusal_cases s.fetchBytes).imp (congrArg _) (And.imp_right (congrArg _))
  · rw [hstep (no_row_of_prefixedOrWide (by rcases h with h | h <;> rw [h] <;> decide)),
      s.rejectRefusal_wide_imm h hlo hhi]
  · rw [hstep (no_row_of_prefixedOrWide (by rcases h with h | h <;> rw [h] <;> decide)),
      State.rejectRefusal_wide_dx h hlo hhi]

/-! ## The fetch cycle -/

/-- What waits and leaves early leaves as one write cycle, and nothing else changes (rule R122). -/
theorem State.emitEarly_eq {t : State} {g : GatherBuffer} (hg : t.gather = some g) :
    t.emitEarly = { t with draws := t.draws + 1 }
      ∨ ∃ e, t.emitEarly = { t with gather := none, events := t.events ++ [e], draws := t.draws + 1 }
          ∧ e.carries .memWrite g.start g.bytes := by
  refine (State.emitEarly_cases hg).imp id fun h => ⟨_, ?_, memCycle_carries .memWrite g.start g.bytes g.attrs⟩
  rw [h, State.flushGather, hg]
  rfl

theorem State.fetchCycle_of_cacheable {s : State} (h : s.cfg.cacheable true s.fetchAddress = true) (len : Nat) :
    s.fetchCycle len = s := by
  rw [State.fetchCycle, State.alwaysExternal, h]
  rfl

/-- A fetch that no cache can answer, with nothing waiting, is one read cycle (rule R124). -/
theorem State.fetchCycle_events {s : State} (hg : s.gather = none)
    (h : s.cfg.cacheable true s.fetchAddress = false) (len : Nat) :
    (s.fetchCycle len).events = s.events ++
      [memCycle .memRead s.fetchAddress (s.readBytes s.fetchAddress len) (s.attributesAt s.fetchAddress)] := by
  rw [State.fetchCycle, State.alwaysExternal, h, Bool.not_false, if_pos rfl, State.readCycle_of_none hg,
    State.emitEarly_of_none (s := State.emit _ s.draw) hg]
  rfl

/-- Settles O5: the step of the decoded instruction, and what may come before it on the bus. -/
theorem stepRunsDecodedInstruction : Obligations.StepRunsDecodedInstruction := by
  intro s i len hi hr hp hc ha ht hd hb
  have haddr : s.begin.fetchAddress = s.fetchAddress := by
    rw [State.fetchAddress, s.begin_held.csBase, s.begin_held.eip, State.fetchAddress]
  have hcacheable : s.begin.cfg.cacheable true s.begin.fetchAddress = s.cfg.cacheable true s.fetchAddress := by
    rw [s.begin_held.cfg, haddr]
  refine ⟨step_of_decoded hi (by simp [State.isRunning, hr, hp]) hc ha ht hd hb, rfl,
    fun t => ⟨State.emitEarly_of_none, fun g => State.emitEarly_eq⟩, (State.fetchCycle_cycleStep len _).sameButBus,
    fun h => State.fetchCycle_of_cacheable (hcacheable.trans h) len, fun hg h => ?_⟩
  have hbegin : s.begin = { s with lastEvent := none } := State.emitEarly_of_none hg
  have he := State.fetchCycle_events ((congrArg State.gather hbegin).trans hg) (hcacheable.trans h) len
  rw [haddr, State.readBytes_congr s.begin_held.readByte, congrArg State.events hbegin] at he
  exact ⟨_, he, memCycle_carries _ _ _ _⟩

end Sys2Proof.Machine
end

section
/-! The words the spec writes out, and the helper instructions MOV, AND and OR. -/

namespace Sys2Proof.Machine

/-- Settles O3: each word is short, and the decoder computes. -/
theorem spelledWordsDecode : Obligations.SpelledWordsDecode :=
  ⟨rfl, rfl, rfl, rfl, rfl, rfl, rfl, rfl, rfl, rfl, rfl, rfl⟩

/-- A write of the low byte keeps the bits above it. -/
theorem setLowByte_rest (d : Dword) (b : Byte) : (setLowByte d b).extractLsb' 8 24 = d.extractLsb' 8 24 := by
  apply BitVec.eq_of_getLsbD_eq
  intro i hi
  simp only [BitVec.getLsbD_extractLsb', setLowByte_getLsbD]
  simp [hi]

/-- ESP, EBP, ESI and EDI have no 8-bit parts. -/
theorem Reg8.parent_notMem (r : Reg8) : Reg8.parent r ∉ [GReg.esp, .ebp, .esi, .edi] := by
  cases r <;> decide

/-- Settles O39: the laws of the register file; the rest of the state is not touched. -/
theorem movRule : Obligations.MovRule := by
  refine ⟨fun s rm reg => ?_, fun s ib => ?_, fun s id => rfl, fun s id => rfl⟩
  · have hkept {r : GReg} (h : r ∈ [GReg.esp, .ebp, .esi, .edi]) :
        (s.gprs.set8 rm (s.gprs.get8 reg)).get r = s.gprs.get r :=
      Gprs.get_set8_other _ _ fun hr => Reg8.parent_notMem rm (hr ▸ h)
    exact ⟨_, rfl, Gprs.get8_set8_same _ _ _, fun r h => Gprs.get8_set8_other _ _ h, Gprs.high_set8 _ _ _,
      hkept (r := .esp) (by decide), hkept (r := .ebp) (by decide), hkept (r := .esi) (by decide),
      hkept (r := .edi) (by decide), rfl⟩
  · exact ⟨_, rfl, setLowByte_low _ _, setLowByte_rest _ _, rfl⟩

/-- The flags AND and OR leave alone. -/
theorem State.writeArithFlags_other (s : State) {n : Nat} (hn : n < 32) (h : n ∉ [0, 2, 4, 6, 7, 11]) :
    s.writeArithFlags.eflags.getLsbD n = s.eflags.getLsbD n := by
  have hmask : ∀ n < 32, n ∉ [0, 2, 4, 6, 7, 11] → ¬ arithMask.getLsbD n = true := by decide
  rw [State.writeArithFlags_eflags, keepBits_getLsbD _ _ _ hn, if_neg (hmask n hn h)]

/-- Settles O40: both instructions write AL and the arithmetic flags. -/
theorem andOrRule : Obligations.AndOrRule := by
  intro s i ib result h
  have hexec : exec i s = .next (State.advance 2 (State.setReg8 .al result s.writeArithFlags)) := by
    rcases h with ⟨rfl, rfl⟩ | ⟨rfl, rfl⟩ <;> rfl
  exact ⟨_, hexec, setLowByte_low _ _, setLowByte_rest _ _, fun n => s.writeArithFlags_other, rfl, fun a => rfl⟩

end Sys2Proof.Machine
end

section
/-! The debug exceptions before and after an instruction: what a step does where one is due or a breakpoint's condition
holds, and what the exception reports. -/

namespace Sys2Proof.Machine

/-! ## What the fetch leaves of what the instruction's causes depend on -/

namespace Held

variable {s u : State}

theorem cpl (h : Held s u) : u.cpl = s.cpl := (congrArg State.cpl h.cpu).trans rfl

theorem tf (h : Held s u) : u.tf = s.tf := by
  rw [State.tf, h.eflags, State.tf]

theorem executeAccess (h : Held s u) : u.executeAccess = s.executeAccess := by
  rw [State.executeAccess, State.fetchAddress, h.csBase, h.eip, State.executeAccess, State.fetchAddress]

theorem trapNow (h : Held s u) : u.trapNow = s.trapNow := by
  rw [State.trapNow, h.debugDue, State.trapNow]

theorem ltrAccessFault (h : Held s u) : u.ltrAccessFault = s.ltrAccessFault := by
  rw [State.ltrAccessFault, h.pmode, h.cpl, State.ltrAccessFault]

theorem dataAccesses (h : Held s u) (i : Instr) : u.dataAccesses i = s.dataAccesses i := by
  cases i with
  | ltrM16 disp => rw [State.dataAccesses, h.ltrAccessFault, State.dataAccesses]
  | strM16 disp => rw [State.dataAccesses, h.pmode, State.dataAccesses]
  | _ => rfl

end Held

theorem State.begin_fetchCycle_held (s : State) (len : Nat) : Held s (s.begin.fetchCycle len) :=
  s.begin_held.cycle (State.fetchCycle_cycleStep len _)

/-! ## The run state an instruction leaves -/

theorem State.ioRead_runState (port : Word) (s : State) : (s.ioRead port).1.runState = s.runState := by
  unfold State.ioRead State.readData
  dsimp only
  split
  · rfl
  · split
    · split <;> rfl
    · rfl

theorem State.ioWrite_runState {port : Word} {v : Byte} {s t : State} (h : s.ioWrite port v = .next t) :
    t.runState = s.runState := by
  unfold State.ioWrite at h
  split at h
  · cases h
    unfold State.writeIndex
    dsimp only
    split <;> rfl
  · split at h
    · unfold State.writeData State.cfgWrite at h
      dsimp only at h
      split at h
      · cases h; rfl
      · split at h <;> cases h
        rfl
      · cases h; rfl
    · cases h; rfl

theorem State.outAl_runState {len : Nat} {port : Word} {s t : State} (h : s.outAl len port = .next t) :
    t.runState = s.runState := by
  unfold State.outAl at h
  split at h
  · rename_i u hu
    cases h
    exact (State.advance_runState len u).trans (State.ioWrite_runState hu)
  · cases h
  · cases h

theorem State.loadTr_runState {len : Nat} {sel : Word} {s t : State} (h : s.loadTr len sel = .next t)
    (ht : t.lastEvent = none) : t.runState = s.runState := by
  unfold State.loadTr at h
  split at h
  · cases h
    simp at ht
  · split at h
    · rename_i a _ _
      dsimp only at h
      split at h
      · cases h
        exact (s.cpuRead_cycleStep a 8).cpu.runState
      · cases h
        simp at ht
    · cases h

/-- An instruction that raises no event halts the CPU or leaves the run state alone: none leaves an event standing
`raised` unrecorded. -/
theorem exec_runState {i : Instr} {s t : State} (h : exec i s = .next t) (ht : t.lastEvent = none) :
    t.runState = s.runState ∨ t.runState = .halted := by
  cases i with
  | hlt =>
    simp only [exec, execHlt] at h
    split at h <;> cases h
    · simp at ht
    · exact .inr rfl
  | ltrR16 rm =>
    simp only [exec, execLtrR16] at h
    split at h
    · cases h
      simp at ht
    · exact .inl (State.loadTr_runState h ht)
  | ltrM16 disp =>
    simp only [exec, execLtrM16] at h
    split at h
    · cases h
      simp at ht
    · split at h
      · exact .inl ((State.loadTr_runState h ht).trans (s.readCycle_cycleStep disp 2).cpu.runState)
      · cases h
  | strM16 disp =>
    simp only [exec, execStrM16] at h
    split at h
    · split at h
      · rename_i u hu
        cases h
        exact .inl (State.store_busStep hu).cpu.runState
      · cases h
      · cases h
    · cases h
      simp at ht
  | strR rm =>
    simp only [exec, execStrR] at h
    split at h <;> cases h
    · exact .inl rfl
    · simp at ht
  | cpuid =>
    simp only [exec, execCpuid] at h
    split at h <;> cases h
    · exact .inl rfl
    · simp at ht
  | int3 =>
    cases h
    simp at ht
  | outImm8Al port => exact .inl (State.outAl_runState h)
  | outDxAl => exact .inl (State.outAl_runState h)
  | inAlImm8 port =>
    cases h
    exact .inl (s.ioRead_runState (immPort port))
  | inAlDx =>
    cases h
    exact .inl (s.ioRead_runState s.dx)
  | _ =>
    cases h
    exact .inl rfl

/-! ## What follows an instruction -/

/-- After an instruction that raised no event, where one of the causes of a debug exception stands, the exception
follows (rules R147 (e), R185 and R191). -/
theorem State.finish_of_cause {i : Instr} {s t : State} (hr : ∀ ev ret, t.runState ≠ .raised ev ret)
    (he : t.lastEvent = none) (hd : t.debugDue = s.debugDue)
    (h : s.tf = true ∨ t.dbg.hit (s.dataAccesses i) = true ∨ s.debugDue ≠ none) :
    State.finish i s t = t.raiseDebug (State.instructionCause i s t) t.eip := by
  unfold State.finish
  dsimp only
  split
  · exact absurd ‹_› (hr _ _)
  · rename_i due hdue _
    rw [if_pos (by rw [← hd, hdue]; rfl)]
  · rename_i ev _ hev _
    exact absurd (he.symm.trans hev) (by simp)
  · rename_i hdue _ _
    have : s.tf = true ∨ t.dbg.hit (s.dataAccesses i) = true := by simpa [← hd, hdue] using h
    rw [if_pos (by simpa using this)]

/-- With no cause nothing follows. -/
theorem State.finish_of_no_cause {i : Instr} {s t : State} (hd : t.debugDue = none) (htf : s.tf = false)
    (hhit : t.dbg.hit (s.dataAccesses i) = false) : State.finish i s t = t := by
  unfold State.finish
  dsimp only
  split
  · rfl
  · rename_i due hdue _
    exact absurd (hd.symm.trans hdue) (by simp)
  · rfl
  · rw [if_neg (by simp [htf, hhit])]

/-! ## What the exception reports -/

theorem State.debugCause_of_none {s : State} (h : s.debugDue = none) (c : DebugCause) : s.debugCause c = c := by
  rw [State.debugCause, h]

theorem State.debugCause_of_due {s : State} {due : DueDebug} (h : s.debugDue = some due) (c : DebugCause) :
    s.debugCause c = due.cause.merge c := by
  rw [State.debugCause, h]

/-- The bits a cause `c` asks for, set in DR6 by the conditions the debug registers `d` hold: Bi for each condition
that occurred, BS for single step and BT for a task switch (rule R58). -/
structure Reports (d : DebugRegs) (c : DebugCause) (dr6 : Dword) : Prop where
  bi : ∀ b : Fin 4, d.occurred c.accesses b = true → dr6.getLsbD b.val = true
  bs : c.singleStep = true → dr6.getLsbD 14 = true
  bt : c.taskSwitch = true → dr6.getLsbD 15 = true

/-- What reports two causes at once reports each of them. -/
theorem Reports.of_merge {d : DebugRegs} {c c' : DebugCause} {dr6 : Dword} (h : Reports d (c.merge c') dr6) :
    Reports d c dr6 ∧ Reports d c' dr6 := by
  obtain ⟨hbi, hbs, hbt⟩ := h
  simp only [DebugCause.merge, DebugRegs.occurred, List.any_append, Bool.or_eq_true] at hbi hbs hbt
  exact ⟨⟨fun b h => hbi b (.inl h), fun h => hbs (.inl h), fun h => hbt (.inl h)⟩,
    ⟨fun b h => hbi b (.inr h), fun h => hbs (.inr h), fun h => hbt (.inr h)⟩⟩

/-- A debug exception reports all its causes, those already due among them, and clears GD. -/
theorem State.raiseDebug_reports (c : DebugCause) (ret : Dword) (s : State) :
    Reports s.dbg (s.debugCause c) (s.raiseDebug c ret).dbg.dr6
      ∧ (s.raiseDebug c ret).dbg.dr7.getLsbD 13 = false := by
  obtain ⟨-, hbi, hbs, hbt, -, hgd, -⟩ := debugExceptionRecords s c (s.debugCause c) ret
    (fun h => State.debugCause_of_none h c) (fun _ h => State.debugCause_of_due h c)
  refine ⟨⟨fun b h => ?_, fun h => ?_, fun h => ?_⟩, hgd⟩
  · rw [hbi b, Bool.or_eq_true]
    exact .inr h
  · rw [hbs, h, Bool.or_true]
  · rw [hbt, h, Bool.or_true]

/-- It reports the causes it is raised for, whatever was due. -/
theorem State.raiseDebug_reports_raised (c : DebugCause) (ret : Dword) (s : State) :
    Reports s.dbg c (s.raiseDebug c ret).dbg.dr6 := by
  have h := (s.raiseDebug_reports c ret).1
  cases hd : s.debugDue with
  | none => rwa [State.debugCause_of_none hd] at h
  | some due => exact (State.debugCause_of_due hd c ▸ h).of_merge.2

/-- And it reports the causes that were due. -/
theorem State.raiseDebug_reports_due {s : State} {due : DueDebug} (hd : s.debugDue = some due) (c : DebugCause)
    (ret : Dword) : Reports s.dbg due.cause (s.raiseDebug c ret).dbg.dr6 :=
  (State.debugCause_of_due hd c ▸ (s.raiseDebug_reports c ret).1).of_merge.1

/-- Settles O6: what follows the instruction by `finish_of_cause` and `finish_of_no_cause`, and DR6 by what a debug
exception reports. -/
theorem debugAfterInstruction : Obligations.DebugAfterInstruction := by
  intro s i len t hi hr hp hc ha ht hd hb hx he
  have held := s.begin_fetchCycle_held len
  have hdue : t.debugDue = (s.begin.fetchCycle len).debugDue := (exec_quiet hx he).debugDue
  have hkept : t.debugDue = s.debugDue := hdue.trans held.debugDue
  have hstep : step s = .next (State.finish i (s.begin.fetchCycle len) t).emitEarly := by
    rw [step_of_decoded hi (by simp [State.isRunning, hr, hp]) hc ha ht hd hb, hx]
  have hrun : ∀ ev ret, t.runState ≠ .raised ev ret := by
    rcases exec_runState hx he with h | h <;> simp [h, held.runState, hr]
  refine ⟨fun hcause => ?_, fun htf hhit hnone => ?_⟩
  · have hfin := State.finish_of_cause (i := i) hrun he hdue (by rwa [held.tf, held.dataAccesses, held.debugDue])
    rw [hfin] at hstep
    have hraised := t.raiseDebug_reports_raised (State.instructionCause i (s.begin.fetchCycle len) t) t.eip
    refine ⟨_, hstep, ?_⟩
    rw [(State.emitEarly_cycleStep _).cpu.lastEvent, (State.emitEarly_cycleStep _).cpu.dbg]
    refine ⟨State.raiseDebug_lastEvent _ _ _, (t.raiseDebug_reports _ _).2, fun htf => hraised.bs ?_,
      fun b hocc => hraised.bi b ?_, fun due h => ?_⟩
    · exact Bool.and_eq_true_iff.mpr ⟨held.tf.trans htf, by simp [State.executed, he]⟩
    · rw [State.instructionCause, held.dataAccesses]
      exact (Bool.or_eq_true _ _).mpr (.inr hocc)
    · have hreports := State.raiseDebug_reports_due (hkept.trans h)
        (State.instructionCause i (s.begin.fetchCycle len) t) t.eip
      exact ⟨hreports.bt, hreports.bs, hreports.bi⟩
  · rw [hstep, State.finish_of_no_cause (hkept.trans hnone) (held.tf.trans htf) (by rwa [held.dataAccesses])]

/-! ## Before an instruction -/

/-- A running CPU's step whose fetch leads to a state and no instruction. -/
theorem step_of_fetch_settled {s t : State} (hi : s.inputs = []) (hr : s.isRunning = true)
    (hf : s.begin.fetch = .settled (.next t)) : step s = .next t.emitEarly := by
  rw [step_eq_outcome, State.prepare_of_running hi hr, hf]
  rfl

/-- The fetch at an enabled execution breakpoint (rule R191 (b)). -/
theorem State.fetch_of_breakpoint {s : State} {i : Instr} {len : Nat} (hc : s.dbg.codesUsed = true)
    (ha : s.cfg.regionsAligned = true) (ht : s.trapNow = false) (hd : decode s.fetchBytes = .ok (i, len))
    (hb : s.dbg.hit [s.executeAccess] = true) :
    s.fetch = .settled (.next ((s.fetchCycle len).raiseDebug ⟨[s.executeAccess], false, false⟩ s.eip)) := by
  unfold State.fetch
  rw [if_pos hc, if_pos ha, if_neg (by simp [ht]), hd]
  exact if_pos hb

/-- The fetch where a debug exception of a task switch comes first (rule R147 (e)). -/
theorem State.fetch_of_trapNow {s : State} (hc : s.dbg.codesUsed = true) (ha : s.cfg.regionsAligned = true)
    (ht : s.trapNow = true) : s.fetch = .settled (.next (s.raiseDebug ⟨[], false, false⟩ s.eip)) := by
  rw [State.fetch, if_pos hc, if_pos ha, if_pos ht]

/-- Settles O7: the fetch raises the exception; what it looks at is the same in `s` and at the start of the step. -/
theorem debugBeforeInstruction : Obligations.DebugBeforeInstruction := by
  refine ⟨fun s i len hi hr hp hc ha ht hd hb => ?_,
    fun s due hi hr hp hc ha hdue => ⟨fun hfirst => ?_, fun hafter => ?_, rfl⟩⟩
  · have held := s.begin_held
    have hf := State.fetch_of_breakpoint (s := s.begin) (by rwa [held.dbg]) (by rwa [held.cfg]) (held.trapNow.trans ht)
      (by rwa [held.fetchBytes]) (by rwa [held.dbg, held.executeAccess])
    rw [held.executeAccess, held.eip] at hf
    exact step_of_fetch_settled hi (by simp [State.isRunning, hr, hp]) hf
  · have held := s.begin_held
    have htrap : s.trapNow = true := by simp [State.trapNow, hdue, hfirst]
    have hf := State.fetch_of_trapNow (s := s.begin) (by rwa [held.dbg]) (by rwa [held.cfg]) (held.trapNow.trans htrap)
    rw [held.eip] at hf
    exact step_of_fetch_settled hi (by simp [State.isRunning, hr, hp]) hf
  · simp [State.trapNow, hdue, hafter]

end Sys2Proof.Machine
end

section
/-! LTR and STR: the reasons LTR refuses in their order, the register it loads, and what STR writes. -/

namespace Sys2Proof.Machine

/-! ## What LTR loads -/

/-- The TSS descriptors of rule R153 by the descriptor's own bits. -/
theorem isTssDescriptor_iff (d : Desc) : isTssDescriptor d = true ↔
    d.getLsbD 44 = false ∧ d.extractLsb' 40 4 ∈ [0x1#4, 0x3#4, 0x9#4, 0xB#4] := by
  have h44 : (descD1 d).getLsbD 12 = d.getLsbD 44 := by simp [descD1]
  have htype : descType d = d.extractLsb' 40 4 := by
    apply BitVec.eq_of_toNat_eq
    simp only [descType, descD1, toNat_extract_div]
    omega
  simp only [isTssDescriptor, h44, htype, Bool.and_eq_true, Bool.or_eq_true, Bool.not_eq_true', beq_iff_eq,
    List.mem_cons, List.not_mem_nil, or_false, or_assoc, BitVec.ofNat_eq_ofNat]

/-- A selector whose TI bit is 1 names no descriptor of the GDT: TrFault before any read (rule R150). -/
theorem State.loadTr_of_ldt {sel : Word} (h : sel.getLsbD 2 = true) (len : Nat) (s : State) :
    s.loadTr len sel = .next (s.raise (.trFault .notInGdt) s.eip) := by
  unfold State.loadTr State.locateDescriptor
  rw [h]
  rfl

/-- TR takes what the processor's read of the descriptor brings where that is a TSS descriptor, and TrFault is raised
after the read elsewhere (rules R150 and R153). -/
theorem State.loadTr_of_gdt {s : State} {sel : Word} (h : sel.getLsbD 2 = false) (ha : s.cfg.regionsAligned = true)
    {d : Dword} (hd : d = s.gdt.base + 8 * BitVec.ofNat 32 (sel.toNat / 8)) (len : Nat) :
    s.loadTr len sel =
      if isTssDescriptor (s.readQword d) then
        .next (State.advance len { s.cpuRead d 8 with tr := ⟨sel, s.readQword d⟩ })
      else .next ((s.cpuRead d 8).raise (.trFault .notATss) s.eip) := by
  have hread := s.cpuRead_cycleStep d 8
  unfold State.loadTr
  rw [s.locateDescriptor_gdt h, ← hd]
  dsimp only
  rw [if_pos ha, State.readQword_congr hread.readByte, hread.cpu.eip]

/-- After bus cycles, a load of TR and the advance of EIP: no other register differs. -/
theorem CycleStep.sameButBus_advance_tr {s u : State} (h : CycleStep s u) (tr : TaskRegister) (n : Nat) :
    State.sameButBus { s with tr := tr, eip := s.eip + BitVec.ofNat 32 n } (State.advance n { u with tr := tr }) :=
  congrArg (fun v : State => State.advance n { v with tr := tr }) h.sameButBus

/-! ## The two forms of LTR -/

/-- `i` is LTR and `sel` its operand: the low half of a general register, or the word at the displacement. -/
def State.ltrOperand (s : State) (i : Instr) (sel : Word) : Prop :=
  (∃ rm, i = .ltrR16 rm ∧ sel = (s.gprs.get rm).extractLsb' 0 16)
    ∨ ∃ disp, i = .ltrM16 disp ∧ sel = s.readByte (disp + 1) ++ s.readByte disp

/-- LTR where it is not allowed raises TrFault before it reads its operand. -/
theorem exec_ltr_of_accessFault {s : State} {i : Instr} {sel : Word} (hi : s.ltrOperand i sel) {why : TrReason}
    (h : s.ltrAccessFault = some why) : exec i s = .next (s.raise (.trFault why) s.eip) := by
  obtain ⟨rm, rfl, -⟩ | ⟨disp, rfl, -⟩ := hi
  · simp only [exec, execLtrR16, h]
  · simp only [exec, execLtrM16, h]

/-- LTR where it is allowed reads its operand, which changes the bus side only, and loads TR from it. -/
theorem exec_ltr_of_allowed {s : State} {i : Instr} {sel : Word} (hi : s.ltrOperand i sel)
    (ha : s.cfg.regionsAligned = true) (h : s.ltrAccessFault = none) :
    ∃ u, CycleStep s u ∧ exec i s = u.loadTr i.length sel := by
  obtain ⟨rm, rfl, rfl⟩ | ⟨disp, rfl, rfl⟩ := hi
  · refine ⟨s, CycleStep.refl s, ?_⟩
    simp only [exec, execLtrR16, h]
    rfl
  · refine ⟨_, s.readCycle_cycleStep disp 2, ?_⟩
    simp only [exec, execLtrM16, h, if_pos ha]
    rfl

/-- Settles O21: the two access conditions, then the operand read, then the selector's table and the descriptor. -/
theorem ltrRule : Obligations.LtrRule := by
  intro s i sel ha hi
  refine ⟨fun hp => exec_ltr_of_accessFault hi (by simp [State.ltrAccessFault, hp]),
    fun hp hcpl => exec_ltr_of_accessFault hi (by rw [State.ltrAccessFault, if_pos hp, if_neg hcpl]),
    fun hp hcpl => ?_⟩
  obtain ⟨u, hu, hexec⟩ := exec_ltr_of_allowed hi ha (s.ltrAccessFault_eq_none.mpr ⟨hp, hcpl⟩)
  refine ⟨fun hti => ⟨u, hu.sameButBus, ?_⟩, fun hti desc hdesc => ?_⟩
  · rw [hexec, State.loadTr_of_ldt hti, hu.cpu.eip]
  · have hread := State.cpuRead_cycleStep (s.gdt.base + 8 * BitVec.ofNat 32 (sel.toNat / 8)) 8 u
    rw [State.loadTr_of_gdt hti (by rwa [hu.cpu.cfg]) (by rw [hu.cpu.gdt]), State.readQword_congr hu.readByte,
      ← hdesc, hu.cpu.eip] at hexec
    have hs := hu.trans hread
    refine ⟨fun hno => ⟨_, hs.sameButBus, hexec.trans (if_neg (mt (isTssDescriptor_iff desc).mp hno))⟩,
      fun hsys htype => ?_⟩
    rw [if_pos ((isTssDescriptor_iff desc).mpr ⟨hsys, htype⟩)] at hexec
    have heip := congrArg (· + BitVec.ofNat 32 i.length) hs.cpu.eip
    refine ⟨_, hexec, rfl, rfl, heip, ?_, hs.readByte⟩
    rw [State.advance_eip, heip]
    exact hs.sameButBus_advance_tr _ _

/-! ## STR -/

/-- Settles O22: the unprotected store is the plain write of the selector, read back byte by byte. -/
theorem strToMemory : Obligations.StrToMemory := by
  intro s disp
  refine ⟨fun hp => if_neg (ne_true_of_eq_false hp), fun hp ha hs => ?_⟩
  have hwrite := (State.plainWrite_busStep disp (wordBytes s.tr.sel) s).cpu
  obtain ⟨hlow, hhigh, hother⟩ := s.readByte_writeBytes_word disp s.tr.sel
  simp only [← State.readByte_plainWrite] at hlow hhigh hother
  exact ⟨_, exec_strM16_unprotected hp ha hs, hlow, hhigh, hother, congrArg (· + 7) hwrite.eip,
    hwrite.sameButBus_advance 7⟩

/-- Settles O24: the destination takes TR.sel below a free high half, and no other register is written. -/
theorem strToRegister : Obligations.StrToRegister := by
  intro s rm
  refine ⟨fun hp => if_neg (ne_true_of_eq_false hp), fun hp =>
    ⟨_, if_pos hp, ?_, fun r hr => Gprs.get_set_other _ _ hr, rfl, rfl, fun _ => rfl⟩⟩
  exact (congrArg lowWord (Gprs.get_set_same _ _ _)).trans (lowWord_freeHigh _ _)

end Sys2Proof.Machine
end

section
/-! OUT and IN by port: where a byte access to 22h, 23h and any other port goes, what an OUT to 23h stores or is refused
for, and what an IN leaves in AL (spec/42_config_register_access.md). -/

namespace Sys2Proof.Machine

/-! ## The two instructions, by what their port access answers -/

/-- An OUT is an OUT of AL to the port it addresses (rules R134 and R173). -/
theorem exec_of_outsTo {s : State} {i : Instr} {port : Word} (h : s.outsTo i port) :
    exec i s = s.outAl i.length port := by
  rcases h with ⟨p, rfl, -, rfl⟩ | ⟨rfl, hp⟩
  · show s.outAl 2 (immPort port.toNat) = _
    rw [show immPort port.toNat = port from BitVec.ofNat_toNat _ port]
    rfl
  · show s.outAl 1 s.dx = _
    rw [show s.dx = port from hp]
    rfl

theorem exec_out_next {s u : State} {i : Instr} {port : Word} (hi : s.outsTo i port)
    (hw : s.ioWrite port (s.gprs.eax.extractLsb' 0 8) = .next u) : exec i s = .next (u.advance i.length) := by
  have hw : s.ioWrite port s.al = .next u := hw
  rw [exec_of_outsTo hi, State.outAl, hw]

theorem exec_out_refused {s : State} {i : Instr} {port : Word} {why : Refusal} (hi : s.outsTo i port)
    (hw : s.ioWrite port (s.gprs.eax.extractLsb' 0 8) = .refused why) : exec i s = .refused why := by
  have hw : s.ioWrite port s.al = .refused why := hw
  rw [exec_of_outsTo hi, State.outAl, hw]

theorem exec_in_next {s u : State} {i : Instr} {port : Word} {v : Byte} (hi : s.insFrom i port)
    (hr : s.ioRead port = (u, v)) : exec i s = .next (State.advance i.length (State.setReg8 .al v u)) := by
  rw [exec_of_insFrom hi, State.inAl, hr]

/-! ## Accesses that go outside -/

/-- An OUT whose port write goes outside, with `sel` the selection it leaves: the cycle is recorded, and nothing else
changes but EIP. -/
theorem exec_out_external {s : State} {i : Instr} {port : Word} (sel : Option Byte) (hi : s.outsTo i port)
    (hw : ∀ v, s.ioWrite port v = .next (State.extIoWrite port v { s with cfgSel := sel })) :
    exec i s = .next { s with
      cfgSel := sel, events := s.events ++ [s.ioEvent .ioWrite port (s.gprs.eax.extractLsb' 0 8)],
      eip := s.eip + BitVec.ofNat 32 i.length } :=
  exec_out_next hi (hw _)

/-- An IN whose port read goes outside, with `sel` the selection it leaves: AL takes the byte of the recorded cycle, and
nothing else changes but EIP and the draw counter. -/
theorem exec_in_external {s : State} {i : Instr} {port : Word} (sel : Option Byte) (hi : s.insFrom i port)
    (hr : s.ioRead port = State.extIoRead port { s with cfgSel := sel }) :
    ∃ t v, exec i s = .next t ∧ t.gprs.eax.extractLsb' 0 8 = v
      ∧ t.events = s.events ++ [s.ioEvent .ioRead port v] ∧ t.cfgSel = sel
      ∧ t.gprs.eax.extractLsb' 8 24 = s.gprs.eax.extractLsb' 8 24
      ∧ t = { s with
          cfgSel := sel, events := t.events, draws := t.draws,
          gprs := { s.gprs with eax := t.gprs.eax }, eip := s.eip + BitVec.ofNat 32 i.length } :=
  ⟨_, _, exec_in_next hi hr, setLowByte_low _ _, rfl, rfl, setLowByte_above _ _, rfl⟩

/-! ## Which port goes where -/

theorem State.ioWrite_other {port : Word} (h22 : port ≠ 0x22) (h23 : port ≠ 0x23) (s : State) (v : Byte) :
    s.ioWrite port v = .next (s.extIoWrite port v) := by
  rw [State.ioWrite, if_neg (show port ≠ indexPort from h22), if_neg (show port ≠ dataPort from h23)]

theorem State.ioRead_other {port : Word} (h22 : port ≠ 0x22) (h23 : port ≠ 0x23) (s : State) :
    s.ioRead port = s.extIoRead port := by
  rw [State.ioRead, if_neg (show port ≠ indexPort from h22), if_neg (show port ≠ dataPort from h23)]

/-- A port 23h access without an accessible index selected goes outside (rule R165). -/
theorem State.dataTarget_external {s : State} (h : ∀ idx, s.cfgSel = some idx → ¬ s.indexAccessible idx) :
    s.cfg.dataTarget s.cfgSel = .external := by
  cases hsel : s.cfgSel with
  | none => rfl
  | some idx => exact if_neg (mt (s.indexAccessible_iff idx).mpr (h idx hsel))

/-- A port 23h access under an accessible, assigned index goes to its register (rule R165). -/
theorem State.dataTarget_register {s : State} {idx : Byte} {r : CfgReg} (hsel : s.cfgSel = some idx)
    (hacc : s.indexAccessible idx) (hreg : cfgRegOf idx = some r) : s.cfg.dataTarget s.cfgSel = .register r := by
  rw [hsel]
  exact CfgRegs.dataTarget_register ((s.indexAccessible_iff idx).mp hacc) hreg

/-- A port 23h access under an accessible index without a register goes nowhere (rule R166). -/
theorem State.dataTarget_noRegister {s : State} {idx : Byte} (hsel : s.cfgSel = some idx)
    (hacc : s.indexAccessible idx) (hreg : cfgRegOf idx = none) : s.cfg.dataTarget s.cfgSel = .noRegister := by
  rw [hsel, CfgRegs.dataTarget]
  simp only [(s.indexAccessible_iff idx).mp hacc, if_true, hreg]

theorem State.ioWrite_dataPort_external {s : State} (h : s.cfg.dataTarget s.cfgSel = .external) (v : Byte) :
    s.ioWrite 0x23 v = .next (State.extIoWrite 0x23 v { s with cfgSel := none }) := by
  show s.writeData v = _
  rw [State.writeData, h]
  rfl

theorem State.ioWrite_dataPort_register {s : State} {r : CfgReg} (h : s.cfg.dataTarget s.cfgSel = .register r)
    (v : Byte) : s.ioWrite 0x23 v = State.cfgWrite r v { s with cfgSel := none } := by
  show s.writeData v = _
  rw [State.writeData, h]

theorem State.ioWrite_dataPort_noRegister {s : State} (h : s.cfg.dataTarget s.cfgSel = .noRegister) (v : Byte) :
    s.ioWrite 0x23 v = .next { s with cfgSel := none } := by
  show s.writeData v = _
  rw [State.writeData, h]

theorem State.ioRead_dataPort_external {s : State} (h : s.cfg.dataTarget s.cfgSel = .external) :
    s.ioRead 0x23 = State.extIoRead 0x23 { s with cfgSel := none } := by
  show s.readData = _
  rw [State.readData, h]
  rfl

theorem State.ioRead_dataPort_noRegister {s : State} (h : s.cfg.dataTarget s.cfgSel = .noRegister) :
    s.ioRead 0x23 = ({ s with cfgSel := none, draws := s.draws + 1 }, Config.freeByte s.draws) := by
  show s.readData = _
  rw [State.readData, h]

/-! ## Port 22h -/

theorem State.writeIndex_accessible {s : State} {v : Byte} (h : s.indexAccessible v) :
    s.writeIndex v = { s with cfgSel := some v } :=
  if_pos ((s.indexAccessible_iff v).mp h)

theorem State.writeIndex_inaccessible {s : State} {v : Byte} (h : ¬ s.indexAccessible v) :
    s.writeIndex v = { s with cfgSel := some v, events := s.events ++ [s.ioEvent .ioWrite 0x22 v] } :=
  if_neg (mt (s.indexAccessible_iff v).mpr h)

/-- Settles O25: the index written is accessible and stays inside, or goes out as well. -/
theorem outSelectsIndex : Obligations.OutSelectsIndex := by
  intro s i hi
  have he := exec_out_next (u := s.writeIndex (s.gprs.eax.extractLsb' 0 8)) hi rfl
  by_cases hacc : s.indexAccessible (s.gprs.eax.extractLsb' 0 8)
  · rw [State.writeIndex_accessible hacc] at he
    exact ⟨_, he, rfl, fun _ => rfl, fun h => absurd hacc h, rfl, fun _ => rfl⟩
  · rw [State.writeIndex_inaccessible hacc] at he
    exact ⟨_, he, rfl, fun h => absurd h hacc, fun _ => rfl, rfl, fun _ => rfl⟩

/-- Settles O33: the read goes outside, from the state with the selection the free choice leaves. -/
theorem inFromIndexPortIsExternal : Obligations.InFromIndexPortIsExternal := by
  intro s i hi
  obtain ⟨t, v, he, hal, hev, hsel, hrest, ht⟩ :=
    exec_in_external (if Config.port22Clears s.draws then none else s.cfgSel) hi rfl
  refine ⟨t, v, he, hal, hev, ?_, hrest, by rw [hsel]; exact ht⟩
  rw [hsel]
  split
  · exact .inr rfl
  · exact .inl rfl

/-! ## Port 23h without a register -/

/-- Settles O28: the selection, or its absence, sends the access outside. -/
theorem dataPortWithoutSelectionIsExternal : Obligations.DataPortWithoutSelectionIsExternal := by
  intro s i h
  have ht := State.dataTarget_external h
  exact ⟨fun hi => exec_out_external none hi (State.ioWrite_dataPort_external ht),
    fun hi => exec_in_external none hi (State.ioRead_dataPort_external ht)⟩

/-- The indexes below C0h and between the assigned ones name no register (rule R13). -/
theorem cfgRegOf_unassigned : ∀ idx : Byte,
    idx.toNat ≤ 0xBF ∨ (0xE4 ≤ idx.toNat ∧ idx.toNat ≤ 0xE7) ∨ (0xEA ≤ idx.toNat ∧ idx.toNat ≤ 0xFD) →
    cfgRegOf idx = none := by
  decide

/-- Settles O30: with MAPEN = 1h every index is accessible, and these name no register. -/
theorem unassignedIndexHasNoRegister : Obligations.UnassignedIndexHasNoRegister := by
  intro s i idx hsel hmapen hidx
  have ht := State.dataTarget_noRegister hsel (.inr (.inr (.inr hmapen))) (cfgRegOf_unassigned idx hidx)
  exact ⟨fun hi => exec_out_next hi (State.ioWrite_dataPort_noRegister ht _),
    fun hi => ⟨_, exec_in_next hi (State.ioRead_dataPort_noRegister ht), setLowByte_above _ _, rfl⟩⟩

/-! ## Every other port -/

/-- Settles O34: the access goes outside from the state as it is, its selection included. -/
theorem otherPortsAreExternal : Obligations.OtherPortsAreExternal := by
  intro s i port h22 h23
  refine ⟨fun hi => exec_out_external s.cfgSel hi (State.ioWrite_other h22 h23 s), fun hi => ?_⟩
  obtain ⟨t, v, he, hal, hev, -, hrest, ht⟩ := exec_in_external s.cfgSel hi (State.ioRead_other h22 h23 s)
  exact ⟨t, v, he, hal, hev, hrest, ht⟩

/-! ## Port 23h: the register write -/

theorem State.smiLocked_iff (s : State) : s.smiLocked = true ↔ s.cfg.ccr3.getLsbD 0 = true ∧ s.inSmi = false := by
  simp only [State.smiLocked, CfgRegs.smiLock, Bool.and_eq_true, Bool.not_eq_true']

/-- The bits of a written CCR1 (rule R168, C1h). -/
theorem ccr1Written_getLsbD (locked : Bool) (old v : Byte) {n : Nat} (hn : n < 8) :
    (ccr1Written locked old v).getLsbD n =
      if locked = true ∧ (n = 1 ∨ n = 2 ∨ n = 7) then old.getLsbD n else v.getLsbD n := by
  cases locked with
  | true => simpa using ccr1Written_locked_getLsbD old v hn
  | false => simp [ccr1Written]

/-- The bits of a written CCR3 below MAPEN (rule R168, C3h). -/
theorem ccr3Written_getLsbD (locked : Bool) (old v : Byte) :
    (ccr3Written locked old v).getLsbD 3 = false
    ∧ (ccr3Written locked old v).getLsbD 2 = v.getLsbD 2
    ∧ (ccr3Written locked old v).getLsbD 1 = (if locked = true then old.getLsbD 1 else v.getLsbD 1)
    ∧ (ccr3Written locked old v).getLsbD 0 = (old.getLsbD 0 || v.getLsbD 0) := by
  obtain ⟨-, h2, h1, h0, h3⟩ := ccr3Written_fields locked old v
  have b2 := congrArg (·.getLsbD 0) h2
  have b3 := congrArg (·.getLsbD 3) h3
  exact ⟨by simpa using b3, by simpa using b2, h1, h0⟩

/-- The bytes rule R168 stores as they are written. -/
theorem writtenValue_plain (locked : Bool) (c : CfgRegs) {r : CfgReg} (v : Byte) (h1 : r ≠ .ccr1) (h3 : r ≠ .ccr3)
    (ha : ∀ k, r ≠ .arr 3 k) : writtenValue locked c r v = v := by
  cases r with
  | ccr1 => exact absurd rfl h1
  | ccr3 => exact absurd rfl h3
  | arr i k => exact if_neg fun ⟨hi, _⟩ => ha k (by rw [hi])
  | _ => rfl

/-- ARR3 is kept under the lock (rule R170). -/
theorem writtenValue_arr3 (locked : Bool) (c : CfgRegs) (k : Fin 3) (v : Byte) :
    writtenValue locked c (.arr 3 k) v = if locked = true then c.read (.arr 3 k) else v := by
  cases locked <;> rfl

theorem writeRefusal_ccr1 (locked : Bool) (c : CfgRegs) {v : Byte} (hv : v &&& CfgReg.ccr1.resmask = 0) :
    writeRefusal locked c .ccr1 v =
      if (ccr1Written locked c.ccr1 v).getLsbD 1 = true ∧ (ccr1Written locked c.ccr1 v).getLsbD 7 = false then
        some .useSmiWithoutSm3
      else none := by
  rw [writeRefusal, if_neg (not_not.mpr hv)]
  simp only [Bool.and_eq_true, Bool.not_eq_true']

theorem writeRefusal_ccr3 (locked : Bool) (c : CfgRegs) {v : Byte} (hv : v &&& CfgReg.ccr3.resmask = 0) :
    writeRefusal locked c .ccr3 v = if 2 ≤ (v.extractLsb' 4 4).toNat then some .mapenUndefined else none :=
  if_neg (not_not.mpr hv)

/-- A write rule R172 does not name is not refused. -/
theorem writeRefusal_eq_none {locked : Bool} {c : CfgRegs} {r : CfgReg} {v : Byte} (hv : v &&& r.resmask = 0)
    (h1 : r = .ccr1 → (ccr1Written locked c.ccr1 v).getLsbD 1 = true → (ccr1Written locked c.ccr1 v).getLsbD 7 = true)
    (h3 : r = .ccr3 → (v.extractLsb' 4 4).toNat ≤ 1) : writeRefusal locked c r v = none := by
  cases r with
  | ccr1 =>
    rw [writeRefusal_ccr1 locked c hv]
    exact if_neg fun ⟨hsmi, hsm3⟩ => Bool.noConfusion ((h1 rfl hsmi).symm.trans hsm3)
  | ccr3 =>
    have hm := h3 rfl
    rw [writeRefusal_ccr3 locked c hv]
    exact if_neg (by omega)
  | _ => exact if_neg (not_not.mpr hv)

section
variable {s : State} {i : Instr} {idx : Byte} {r : CfgReg} (hi : s.outsTo i 0x23) (hsel : s.cfgSel = some idx)
  (hacc : s.indexAccessible idx) (hreg : cfgRegOf idx = some r)
include hi hsel hacc hreg

/-- An OUT to a configuration register with data that is not refused stores the value of rule R168. -/
theorem exec_out_stores (hw : writeRefusal s.smiLocked s.cfg r (s.gprs.eax.extractLsb' 0 8) = none) :
    exec i s = .next (State.advance i.length { s with
      cfgSel := none, cfg := s.cfg.assign r (writtenValue s.smiLocked s.cfg r (s.gprs.eax.extractLsb' 0 8)) }) := by
  refine exec_out_next hi ((State.ioWrite_dataPort_register (State.dataTarget_register hsel hacc hreg) _).trans ?_)
  rw [State.cfgWrite, show writeRefusal (State.smiLocked { s with cfgSel := none }) s.cfg r _ = none from hw]
  rfl

/-- An OUT to a configuration register with data rule R172 names is refused. -/
theorem exec_out_register_refused {why : Refusal}
    (hw : writeRefusal s.smiLocked s.cfg r (s.gprs.eax.extractLsb' 0 8) = some why) : exec i s = .refused why := by
  refine exec_out_refused hi ((State.ioWrite_dataPort_register (State.dataTarget_register hsel hacc hreg) _).trans ?_)
  rw [State.cfgWrite, show writeRefusal (State.smiLocked { s with cfgSel := none }) s.cfg r _ = some why from hw]

end

/-- Settles O26: the write is not refused, so the register takes the value rule R168 stores. -/
theorem outWritesConfigurationRegister : Obligations.OutWritesConfigurationRegister := by
  intro s i idx r v hi hsel hacc hreg hv hres hlocked hunlocked hmapen
  simp only [← s.smiLocked_iff] at hlocked hunlocked ⊢
  have hsm3 : r = .ccr1 → (ccr1Written s.smiLocked s.cfg.ccr1 v).getLsbD 1 = true →
      (ccr1Written s.smiLocked s.cfg.ccr1 v).getLsbD 7 = true := by
    intro hr
    rw [ccr1Written_getLsbD _ _ _ (by decide : 1 < 8), ccr1Written_getLsbD _ _ _ (by decide : 7 < 8)]
    by_cases hl : s.smiLocked = true
    · simpa [hl] using hlocked hr hl
    · simpa [hl] using hunlocked hr hl
  have he := exec_out_stores hi hsel hacc hreg (hv ▸ writeRefusal_eq_none hres hsm3 hmapen)
  rw [← hv] at he
  refine ⟨_, he, rfl, fun r' hr' => CfgRegs.read_assign_other s.cfg _ hr', fun h1 h3 ha hd0 hd1 => ?_, ?_, ?_, ?_, ?_⟩
  · exact (CfgRegs.read_assign_same s.cfg _ hd0 hd1).trans (writtenValue_plain _ _ v h1 h3 ha)
  · rintro rfl n hn
    exact ccr1Written_getLsbD _ _ v hn
  · rintro rfl
    exact ⟨(ccr3Written_fields _ _ v).1, ccr3Written_getLsbD _ _ v⟩
  · rintro k rfl
    exact (CfgRegs.read_assign_same s.cfg (r := .arr 3 k) _ nofun nofun).trans (writtenValue_arr3 _ _ k v)
  · rintro (rfl | rfl) <;> rfl

/-- Settles O27: each of the three writes is one rule R172 names. -/
theorem undefinedConfigurationWritesRefused : Obligations.UndefinedConfigurationWritesRefused := by
  rintro s i idx r v hi hsel hacc hreg rfl
  refine ⟨fun hv => exec_out_register_refused hi hsel hacc hreg (if_pos hv), ?_, ?_⟩
  · rintro rfl hv hmapen
    exact exec_out_register_refused hi hsel hacc hreg ((writeRefusal_ccr3 _ _ hv).trans (if_pos hmapen))
  · rintro rfl hv hunlocked hsmi hsm3
    refine exec_out_register_refused hi hsel hacc hreg ((writeRefusal_ccr1 _ _ hv).trans (if_pos ?_))
    rw [Bool.eq_false_iff.mpr (mt s.smiLocked_iff.mp hunlocked)]
    exact ⟨hsmi, hsm3⟩

end Sys2Proof.Machine
end

section
/-! HLT and LOOP: who may halt and in which power state, and where LOOP goes
(spec/43_other_named_instructions.md). -/

namespace Sys2Proof.Machine

/-- Settles O35: the privilege test picks the branch, and CCR2.SUSP_HLT the power state. -/
theorem hltHalts : Obligations.HltHalts := by
  intro s
  refine ⟨fun h => ⟨_, if_neg ?_, rfl, rfl, fun hsusp => if_pos hsusp, fun hsusp => if_neg ?_, rfl, fun _ => rfl⟩,
    fun hp hc => if_pos ?_⟩
  · rcases h with h | h <;> simp [h]
  · exact Bool.eq_false_iff.mp hsusp
  · simpa [hp] using hc

/-- Settles O38: the branch turns on whether the decremented ECX is zero, that is, on whether ECX was 1; CCR5 is read
nowhere. -/
theorem loopRule : Obligations.LoopRule := by
  intro s cb
  refine ⟨_, rfl, ?_, fun h => if_neg ?_, fun h => if_pos ?_, rfl, fun _ => rfl, fun _ => rfl⟩
  · show (s.gprs.ecx - 1).toNat = _
    rw [BitVec.toNat_sub, Nat.add_comm]
    rfl
  · rw [h]
    decide
  · exact sub_ne_zero.mpr h

end Sys2Proof.Machine
end

section
/-! RESET and the state it leaves (spec/70_reset_and_hazards.md rules R215 to R220), and two port accesses in a row
(rule R222). -/

namespace Sys2Proof.Machine

/-! ## RESET asserted -/

/-- RESET comes before everything else, a raised event too. -/
theorem State.prepare_of_reset {s : State} {rest : List Input} (hi : s.inputs = .reset :: rest) :
    s.prepare = .settled (.next (State.resetPin { s.begin with inputs := rest })) := by
  have hb : s.begin.inputs = .reset :: rest := s.begin_cycleStep.cpu.inputs.trans hi
  simp only [State.prepare, hb]
  rfl

/-- The step that answers RESET ends in the state after RESET: the write-gather buffer is empty, so that nothing leaves
it at the end of the step. -/
theorem step_of_reset {s : State} {rest : List Input} (hi : s.inputs = .reset :: rest) :
    step s = .next (State.resetPin { s.begin with inputs := rest }) := by
  rw [step_eq_outcome, State.prepare_of_reset hi]
  exact congrArg Host.Outcome.next (State.emitEarly_of_none rfl)

theorem State.smiLocked_of_lock_clear {s : State} (h : s.cfg.smiLock = false) : s.smiLocked = false := by
  rw [State.smiLocked, h, Bool.false_and]

/-- Settles O12: the step ends in `resetPin` of a state with the memories of `s`, whose configuration registers are
those after reset, SMI_LOCK clear among them. -/
theorem resetPinClearsSmiLock : Obligations.ResetPinClearsSmiLock := by
  intro s rest hi
  have hlock : CfgRegs.reset.smiLock = false := by decide
  have held := s.begin_held
  exact ⟨_, step_of_reset hi, rfl, hlock, State.smiLocked_of_lock_clear hlock,
    fun _ => State.smiLocked_of_lock_clear hlock, rfl, held.mem, held.smm⟩

/-! ## Two accesses to port 23h in a row -/

/-- Every write to port 23h that goes on consumes the selection, wherever it goes (rule R164). -/
theorem State.ioWrite_dataPort_cfgSel {v : Byte} {s t : State} (h : s.ioWrite 0x23 v = .next t) :
    t.cfgSel = none := by
  cases ht : s.cfg.dataTarget s.cfgSel with
  | external =>
    rw [State.ioWrite_dataPort_external ht] at h
    cases h
    rfl
  | register r =>
    rw [State.ioWrite_dataPort_register ht, State.cfgWrite] at h
    split at h <;> cases h
    rfl
  | noRegister =>
    rw [State.ioWrite_dataPort_noRegister ht] at h
    cases h
    rfl

/-- Every read of port 23h consumes the selection, wherever it goes (rule R164). -/
theorem State.ioRead_dataPort_cfgSel (s : State) : (s.ioRead 0x23).1.cfgSel = none := by
  cases ht : s.cfg.dataTarget s.cfgSel with
  | external => rw [State.ioRead_dataPort_external ht]; rfl
  | register r => rw [State.ioRead_register ht]; rfl
  | noRegister => rw [State.ioRead_dataPort_noRegister ht]

/-- An instruction that accesses port 23h leaves no index selected. -/
theorem exec_dataPort_cfgSel {s t : State} {i : Instr} (hi : s.outsTo i 0x23 ∨ s.insFrom i 0x23)
    (h : exec i s = .next t) : t.cfgSel = none := by
  rcases hi with hi | hi
  · rw [exec_of_outsTo hi, State.outAl] at h
    split at h
    · rename_i u hu
      cases h
      exact (State.advance_cfgSel i.length u).trans (State.ioWrite_dataPort_cfgSel hu)
    · cases h
    · cases h
  · rw [exec_of_insFrom hi] at h
    cases h
    exact s.ioRead_dataPort_cfgSel

/-- Settles O29: the first access has consumed the selection, so the second goes outside by the rule of an access
without one. -/
theorem secondDataAccessIsExternal : Obligations.SecondDataAccessIsExternal := by
  intro s t i j hi h hj
  have hsel : ∀ idx, t.cfgSel = some idx → ¬ t.indexAccessible idx := by
    rw [exec_dataPort_cfgSel hi h]
    exact nofun
  obtain ⟨hout, hin⟩ := dataPortWithoutSelectionIsExternal t j hsel
  rcases hj with hj | hj
  · exact ⟨_, _, hout hj, rfl, .inl rfl, rfl, rfl⟩
  · obtain ⟨u, v, he, -, hev, -, -, hu⟩ := hin hj
    exact ⟨u, _, he, hev, .inr rfl, rfl, (congrArg State.cfg hu).trans rfl⟩

/-! ## The state after reset -/

theorem CfgRegs.reset_arr (i : Fin 8) : CfgRegs.reset.arr i = ⟨0, 0, 0⟩ := by fin_cases i <;> rfl

theorem CfgRegs.reset_rcr (i : Fin 8) : CfgRegs.reset.rcr i = 0 := by fin_cases i <;> rfl

/-- Settles O10: the CCRs are as they are written down, and the bytes of every ARR and every RCR are zero. -/
theorem resetConfigurationRegisters : Obligations.ResetConfigurationRegisters := by
  refine ⟨fun r h0 h1 => ?_, fun _ => ⟨rfl, rfl⟩⟩
  cases r with
  | arr i k =>
    show (CfgRegs.reset.arr i).get k = 0
    rw [CfgRegs.reset_arr]
    fin_cases k <;> rfl
  | rcr i => exact CfgRegs.reset_rcr i
  | dir0 => exact absurd rfl h0
  | dir1 => exact absurd rfl h1
  | _ => rfl

/-- Settles O11: the memories are empty, the registers fixed, and nothing waits. -/
theorem resetStateGood : Obligations.ResetStateGood :=
  State.reset.good_iff.mpr ⟨rfl, rfl, by decide, by decide, rfl⟩

/-- No region is enabled after reset: ARREN and SM3 are 0. -/
theorem CfgRegs.reset_inForce (i : Fin 8) : CfgRegs.reset.inForce i = false := by
  have hen : CfgRegs.reset.arrEnabled i = false := Bool.and_false _
  rw [CfgRegs.inForce, hen, Bool.false_and]

/-- No address is in a region after reset. -/
theorem CfgRegs.reset_inRegion (i : Fin 8) (a : Dword) : CfgRegs.reset.inRegion i a = false := by
  rw [CfgRegs.inRegion, CfgRegs.reset_inForce, Bool.false_and, Bool.false_and]

theorem CfgRegs.reset_writeProtected (ken : Bool) (a : Dword) : CfgRegs.reset.writeProtected ken a = false := by
  have hwpr1 : CfgRegs.reset.wpr1 = false := by decide
  rw [CfgRegs.writeProtected, hwpr1, Bool.false_and, Bool.false_and]

/-- An access after reset takes the attributes of an address outside every region (rules R107 and R220). -/
theorem CfgRegs.reset_attributes (ken wbwt : Bool) (a : Dword) : CfgRegs.reset.attributes ken wbwt a =
    { cacheable := ken, writeBack := ken && wbwt, gathered := false, weakLock := false, weakOrder := false,
      lba := true, writeProtected := false } := by
  obtain ⟨hlba, hgathered, hweakOrder, hweakLock, hwriteBack, hcacheable⟩ :=
    outsideEveryRegion CfgRegs.reset ken wbwt a fun i => CfgRegs.reset_inRegion i a
  have hnc1 : CfgRegs.reset.ccr0.getLsbD 1 ≠ true := by decide
  have harren : CfgRegs.reset.ccr5.getLsbD 5 ≠ true := by decide
  have hken := hcacheable (fun h => hnc1 h.1) (fun h => harren h.1)
  rw [Attributes.mk.injEq]
  exact ⟨hken, hwriteBack.trans (congrArg (· && wbwt) hken), hgathered, hweakLock, hweakOrder, hlba,
    CfgRegs.reset_writeProtected ken a⟩

/-- Settles O13: no region is in force, and every other bit the behaviours turn on is 0. -/
theorem resetMachineBehaviour : Obligations.ResetMachineBehaviour := by
  have haligned : CfgRegs.reset.regionsAligned = true := by
    simp [CfgRegs.regionsAligned, CfgRegs.reset_inForce]
  refine ⟨CfgRegs.reset_attributes, CfgRegs.reset_inForce, haligned, ?_⟩
  decide

end Sys2Proof.Machine
end
